-- ==== Sys2Proof/Word.lean ====
section
/-! DEFINITION. The word types of the machine (00_scope.md R4, R5): bytes, 16-bit instruction units, 32-bit
words and 32-bit byte addresses. -/

namespace Sys2Proof

/-- The addressable unit (R4): 8 bits. -/
abbrev Byte := BitVec 8

/-- A 16-bit instruction unit (R300, R304). -/
abbrev Half := BitVec 16

/-- A register or a word of memory: 32 bits (R4, R20). -/
abbrev Word := BitVec 32

/-- A byte address of the flat 4-gigabyte space (R100): 32 bits, arithmetic wraps (R392). -/
abbrev Addr := BitVec 32

end Sys2Proof
end

