-- ==== Sys2Proof/Syntax.lean ====
section
/-! DEFINITION. The instructions: one constructor for each row of spec/opcode_table.json (30_encoding.md R313). -/

namespace Sys2Proof

/-- The data registers R0 to R7 (R20). -/
inductive DReg where
  | r0 | r1 | r2 | r3 | r4 | r5 | r6 | r7
  deriving DecidableEq, Repr

/-- The pointer registers P0 to P5, SP and FP (R21), numbered 0 to 7 in encodings (R311). -/
inductive PReg where
  | p0 | p1 | p2 | p3 | p4 | p5 | sp | fp
  deriving DecidableEq, Repr

/-- The instruction forms of R313. Offsets and displacements stand as the assembler writes them:
`u` and `s` in bytes, `o` in 16-bit units from the jump's own address (R314). -/
inductive Instr where
  /-- `NOP` (R381). -/
  | nop
  /-- `CSYNC` (R350). -/
  | csync
  /-- `SSYNC` (R351). -/
  | ssync
  /-- `CLI Rd` (R376). -/
  | cli (d : DReg)
  /-- `STI Rd` (R377). -/
  | sti (d : DReg)
  /-- `TESTSET (Pp)` (R370). -/
  | testset (p : PReg)
  /-- `PREFETCH [Pp]` (R333). -/
  | prefetch (p : PReg)
  /-- `FLUSHINV [Pp]` (R335). -/
  | flushinv (p : PReg)
  /-- `FLUSH [Pp]` (R334). -/
  | flush (p : PReg)
  /-- `IFLUSH [Pp]` (R336). -/
  | iflush (p : PReg)
  /-- `PREFETCH [Pp++]` (R338). -/
  | prefetchInc (p : PReg)
  /-- `FLUSHINV [Pp++]` (R338). -/
  | flushinvInc (p : PReg)
  /-- `FLUSH [Pp++]` (R338). -/
  | flushInc (p : PReg)
  /-- `IFLUSH [Pp++]` (R338). -/
  | iflushInc (p : PReg)
  /-- `Rr = [Pp]` (R391). -/
  | load (r : DReg) (p : PReg)
  /-- `[Pp] = Rr` (R393). -/
  | store (p : PReg) (r : DReg)
  /-- `Rr = [Pp + u]`, short form (R392). -/
  | loadShort (r : DReg) (p : PReg) (u : Nat)
  /-- `[Pp + u] = Rr`, short form (R394). -/
  | storeShort (p : PReg) (u : Nat) (r : DReg)
  /-- `Rr = [Pp + s]`, long form (R392). -/
  | loadLong (r : DReg) (p : PReg) (s : Int)
  /-- `[Pp + s] = Rr`, long form (R394). -/
  | storeLong (p : PReg) (s : Int) (r : DReg)
  /-- `BITSET (Rd, n)` (R397). -/
  | bitset (d : DReg) (n : Nat)
  /-- `IF CC JUMP t`, `t = pc + 2 o` (R396). -/
  | jumpCC (o : Int)
  /-- `IF !CC JUMP t`, `t = pc + 2 o` (R396). -/
  | jumpNotCC (o : Int)
  /-- `Pp.L = imm16` (R398). -/
  | pLow (p : PReg) (imm : Half)
  /-- `Pp.H = imm16` (R398). -/
  | pHigh (p : PReg) (imm : Half)
  /-- `DISALGNEXCPT` (R374). -/
  | disalgnexcpt
  deriving DecidableEq, Repr

end Sys2Proof
end

