-- ==== Sys2Proof/Machine/Bits.lean ====
section
/-! DEFINITION. Bit fields, register numbers and byte order: the helpers of the decoder and of the machine
(00_scope.md R5 to R8, 20_memory.md R110 to R112, 30_encoding.md R301, R302, R311). -/

namespace Sys2Proof

/-- The data register numbered `n` (R311). -/
def dregOf (n : Half) : DReg :=
  match n.toNat % 8 with
  | 0 => .r0 | 1 => .r1 | 2 => .r2 | 3 => .r3 | 4 => .r4 | 5 => .r5 | 6 => .r6 | _ => .r7

/-- The pointer register numbered `n` (R311): SP is 6, FP is 7. -/
def pregOf (n : Half) : PReg :=
  match n.toNat % 8 with
  | 0 => .p0 | 1 => .p1 | 2 => .p2 | 3 => .p3 | 4 => .p4 | 5 => .p5 | 6 => .sp | _ => .fp

/-- The number of a data register (R311). -/
def dregNum : DReg → Half
  | .r0 => 0 | .r1 => 1 | .r2 => 2 | .r3 => 3 | .r4 => 4 | .r5 => 5 | .r6 => 6 | .r7 => 7

/-- The number of a pointer register (R311). -/
def pregNum : PReg → Half
  | .p0 => 0 | .p1 => 1 | .p2 => 2 | .p3 => 3 | .p4 => 4 | .p5 => 5 | .sp => 6 | .fp => 7

/-- Byte `k` of a word, `B0` the least significant (R7). -/
def byteOf (v : Word) (k : Nat) : Byte := v.extractLsb' (8 * k) 8

/-- The first `n` bytes of a word, least significant first (R110). -/
def bytesOf (v : Word) (n : Nat) : List Byte := (List.range n).map (byteOf v)

/-- The little-endian value of up to four bytes, zero above them (R110). -/
def wordOf : List Byte → Word
  | [] => 0
  | b :: bs => b.setWidth 32 ||| (wordOf bs <<< 8)

/-- A 16-bit unit as stored: low byte first (R301). -/
def halfBytes (h : Half) : List Byte := [h.extractLsb' 0 8, h.extractLsb' 8 8]

/-- The 16-bit unit that two stored bytes hold (R301). -/
def halfOf (b0 b1 : Byte) : Half := b1 ++ b0

/-- The units of a stored instruction, in address order, as bytes (R301, R302). -/
def unitsBytes : List Half → List Byte
  | [] => []
  | h :: hs => halfBytes h ++ unitsBytes hs

/-- A one-bit field at bit `k`. -/
def flagBit (b : Bool) (k : Nat) : Word := if b then (1 : Word) <<< k else 0

/-- Bit `k` of a word. -/
def bitAt (w : Word) (k : Nat) : Bool := w.getLsbD k

/-- The `n`-bit field of a word whose lowest bit is `lo`, as a number. -/
def fieldAt (w : Word) (lo n : Nat) : Nat := (w.toNat >>> lo) % 2 ^ n

end Sys2Proof
end

