-- ==== Sys2Proof/WellFormed.lean ====
section
/-! DEFINITION. Well-formed instructions: the operand ranges of 30_encoding.md R313 and R314. -/

namespace Sys2Proof

/-- The short indexed offset (R313): `u` in {0, 4, ..., 60}. -/
def shortOffsetOk (u : Nat) : Bool := u % 4 == 0 && decide (u ≤ 60)

/-- The long indexed offset (R313): `s` a multiple of 4 in -131072..131068. -/
def longOffsetOk (s : Int) : Bool := s % 4 == 0 && decide (-131072 ≤ s) && decide (s ≤ 131068)

/-- The bit number of BITSET (R314): 0..31. -/
def bitNumberOk (n : Nat) : Bool := decide (n ≤ 31)

/-- The jump displacement (R313): `o` in -512..511, in 16-bit units. -/
def jumpOffsetOk (o : Int) : Bool := decide (-512 ≤ o) && decide (o ≤ 511)

/-- An instruction whose operands R313 can encode. -/
def Instr.wf : Instr → Bool
  | .nop => true
  | .csync => true
  | .ssync => true
  | .cli _ => true
  | .sti _ => true
  | .testset _ => true
  | .prefetch _ => true
  | .flushinv _ => true
  | .flush _ => true
  | .iflush _ => true
  | .prefetchInc _ => true
  | .flushinvInc _ => true
  | .flushInc _ => true
  | .iflushInc _ => true
  | .load _ _ => true
  | .store _ _ => true
  | .loadShort _ _ u => shortOffsetOk u
  | .storeShort _ u _ => shortOffsetOk u
  | .loadLong _ _ s => longOffsetOk s
  | .storeLong _ s _ => longOffsetOk s
  | .bitset _ n => bitNumberOk n
  | .jumpCC o => jumpOffsetOk o
  | .jumpNotCC o => jumpOffsetOk o
  | .pLow _ _ => true
  | .pHigh _ _ => true
  | .disalgnexcpt => true

end Sys2Proof
end

