-- ==== Sys2Proof/Decode.lean ====
section
/-! DEFINITION. The decoder and the encoder, both written from the encoding table of 30_encoding.md R313
(and spec/opcode_table.json, the same list), the length rule R312 and the storage order R301, R302. -/

namespace Sys2Proof

/-- Why bytes are no instruction of the table (R315). -/
inductive DecodeError where
  /-- The bytes end before the instruction does. -/
  | truncated
  /-- A 16-bit unit that is no row of R313. -/
  | undefinedShort (h : Half)
  /-- Two units that are no row of R313. -/
  | undefinedLong (h l : Half)
  /-- The 64-bit multi-issue marker (R312): the table has no such row. -/
  | multiIssue (h : Half)
  deriving DecidableEq, Repr

/-- The length in bytes that the first unit decides (R312). -/
def unitLength (h : Half) : Nat :=
  if h &&& 0xC000 ≠ 0xC000 then 2
  else if h &&& 0xF800 = 0xC800 then 8
  else 4

/-- One row of R313. A 16-bit row tests the one unit; a 32-bit row tests both. -/
structure Row where
  mask1 : Half
  match1 : Half
  mask2 : Half
  match2 : Half
  build : Half → Half → Instr

/-- A pair of units is the row's (R313: `w and mask = match`). -/
def Row.accepts (r : Row) (h l : Half) : Bool :=
  h &&& r.mask1 == r.match1 && l &&& r.mask2 == r.match2

/-- A 16-bit row of R313. -/
def shortRow (mask pat : Half) (build : Half → Instr) : Row :=
  { mask1 := mask, match1 := pat, mask2 := 0, match2 := 0, build := fun h _ => build h }

/-- The short offset `u = 4 * u4`, `u4` in bits 9:6 (R313). -/
def shortOffsetOf (h : Half) : Nat := 4 * ((h >>> 6).toNat % 16)

/-- The long offset `s = 4 * sext(s4)` (R313). -/
def longOffsetOf (l : Half) : Int := 4 * l.toInt

/-- The jump displacement, a signed 10-bit field (R313, R314). -/
def jumpOffsetOf (h : Half) : Int := (h.setWidth 10).toInt

/-- The 16-bit rows of R313. -/
def shortRows : List Row :=
  [ shortRow 0xFFFF 0x0000 fun _ => .nop,
    shortRow 0xFFFF 0x0023 fun _ => .csync,
    shortRow 0xFFFF 0x0024 fun _ => .ssync,
    shortRow 0xFFF8 0x0030 fun h => .cli (dregOf h),
    shortRow 0xFFF8 0x0040 fun h => .sti (dregOf h),
    shortRow 0xFFF8 0x00B0 fun h => .testset (pregOf h),
    shortRow 0xFFF8 0x0240 fun h => .prefetch (pregOf h),
    shortRow 0xFFF8 0x0248 fun h => .flushinv (pregOf h),
    shortRow 0xFFF8 0x0250 fun h => .flush (pregOf h),
    shortRow 0xFFF8 0x0258 fun h => .iflush (pregOf h),
    shortRow 0xFFF8 0x0260 fun h => .prefetchInc (pregOf h),
    shortRow 0xFFF8 0x0268 fun h => .flushinvInc (pregOf h),
    shortRow 0xFFF8 0x0270 fun h => .flushInc (pregOf h),
    shortRow 0xFFF8 0x0278 fun h => .iflushInc (pregOf h),
    shortRow 0xFFC0 0x9100 fun h => .load (dregOf h) (pregOf (h >>> 3)),
    shortRow 0xFFC0 0x9300 fun h => .store (pregOf (h >>> 3)) (dregOf h),
    shortRow 0xFC00 0xA000 fun h => .loadShort (dregOf h) (pregOf (h >>> 3)) (shortOffsetOf h),
    shortRow 0xFC00 0xB000 fun h => .storeShort (pregOf (h >>> 3)) (shortOffsetOf h) (dregOf h),
    shortRow 0xFF00 0x4A00 fun h => .bitset (dregOf h) ((h >>> 3).toNat % 32),
    shortRow 0xFC00 0x1800 fun h => .jumpCC (jumpOffsetOf h),
    shortRow 0xFC00 0x1000 fun h => .jumpNotCC (jumpOffsetOf h) ]

/-- The 32-bit rows of R313: masks and matches of the first unit, then of the second. -/
def longRows : List Row :=
  [ ⟨0xFFC0, 0xE400, 0, 0, fun h l => .loadLong (dregOf h) (pregOf (h >>> 3)) (longOffsetOf l)⟩,
    ⟨0xFFC0, 0xE600, 0, 0, fun h l => .storeLong (pregOf (h >>> 3)) (longOffsetOf l) (dregOf h)⟩,
    ⟨0xFFF8, 0xE108, 0, 0, fun h l => .pLow (pregOf h) l⟩,
    ⟨0xFFF8, 0xE148, 0, 0, fun h l => .pHigh (pregOf h) l⟩,
    ⟨0xFFFF, 0xC412, 0xFFFF, 0xC000, fun _ _ => .disalgnexcpt⟩ ]

/-- The instruction a list of rows gives a pair of units. -/
def rowsDecode (rows : List Row) (h l : Half) : Option Instr :=
  (rows.find? fun r => r.accepts h l).map fun r => r.build h l

/-- Decodes the instruction at the head of a list of stored bytes and returns the bytes after it. Total:
what is no row of R313 is refused by name (R315). -/
def decode : List Byte → Except DecodeError (Instr × List Byte)
  | b0 :: b1 :: rest =>
    let h := halfOf b0 b1
    if unitLength h = 2 then
      match rowsDecode shortRows h 0 with
      | some i => .ok (i, rest)
      | none => .error (.undefinedShort h)
    else if unitLength h = 8 then .error (.multiIssue h)
    else
      match rest with
      | b2 :: b3 :: rest' =>
        match rowsDecode longRows h (halfOf b2 b3) with
        | some i => .ok (i, rest')
        | none => .error (.undefinedLong h (halfOf b2 b3))
      | _ => .error .truncated
  | _ => .error .truncated

/-- The first unit of a form with a pointer register in bits 5:3 and a data register in bits 2:0 (R313). -/
def memUnit (base : Half) (p : PReg) (r : DReg) : Half := base ||| (pregNum p <<< 3) ||| dregNum r

/-- The units of an instruction, first unit first (R313). -/
def encode : Instr → List Half
  | .nop => [0x0000]
  | .csync => [0x0023]
  | .ssync => [0x0024]
  | .cli d => [0x0030 ||| dregNum d]
  | .sti d => [0x0040 ||| dregNum d]
  | .testset p => [0x00B0 ||| pregNum p]
  | .prefetch p => [0x0240 ||| pregNum p]
  | .flushinv p => [0x0248 ||| pregNum p]
  | .flush p => [0x0250 ||| pregNum p]
  | .iflush p => [0x0258 ||| pregNum p]
  | .prefetchInc p => [0x0260 ||| pregNum p]
  | .flushinvInc p => [0x0268 ||| pregNum p]
  | .flushInc p => [0x0270 ||| pregNum p]
  | .iflushInc p => [0x0278 ||| pregNum p]
  | .load r p => [memUnit 0x9100 p r]
  | .store p r => [memUnit 0x9300 p r]
  | .loadShort r p u => [memUnit (0xA000 ||| BitVec.ofNat 16 (u / 4) <<< 6) p r]
  | .storeShort p u r => [memUnit (0xB000 ||| BitVec.ofNat 16 (u / 4) <<< 6) p r]
  | .loadLong r p s => [memUnit 0xE400 p r, BitVec.ofInt 16 (s / 4)]
  | .storeLong p s r => [memUnit 0xE600 p r, BitVec.ofInt 16 (s / 4)]
  | .bitset d n => [0x4A00 ||| (BitVec.ofNat 16 n <<< 3) ||| dregNum d]
  | .jumpCC o => [0x1800 ||| (BitVec.ofInt 10 o).setWidth 16]
  | .jumpNotCC o => [0x1000 ||| (BitVec.ofInt 10 o).setWidth 16]
  | .pLow p imm => [0xE108 ||| pregNum p, imm]
  | .pHigh p imm => [0xE148 ||| pregNum p, imm]
  | .disalgnexcpt => [0xC412, 0xC000]

/-- The bytes of an instruction as stored (R301, R302). -/
def encodeBytes (i : Instr) : List Byte := unitsBytes (encode i)

/-- The units of an instruction of the opcode table, in address order: a 16-bit row is the unit itself, a
32-bit row is the number `first unit * 65536 + second unit` (R313). -/
def tableUnits (nbits w : Nat) : List Half :=
  if nbits ≤ 16 then [BitVec.ofNat 16 w, 0] else [BitVec.ofNat 16 (w / 65536), BitVec.ofNat 16 w]

/-- The instruction the decoder reads from an instruction whose bits are `w`, numbered as
spec/opcode_table.json numbers them (R313; log 45). -/
def decodeTableWord (nbits w : Nat) : Option Instr :=
  match decode (unitsBytes (tableUnits nbits w)) with
  | .ok (i, _) => some i
  | .error _ => none

end Sys2Proof
end

