-- ==== Sys2Proof/Machine/State.lean ====
section
/-! DEFINITION. The state of the machine (10_state.md): plain data, one home for every piece of state the spec
names; the reasons a step can stop; and the machine right after reset. -/

namespace Sys2Proof.Machine

/-- The processor's modes (R25, R410). -/
inductive Mode where
  | user | supervisor | emulation
  deriving DecidableEq, Repr

/-- The data address generators, as issuers of data accesses (R26). -/
inductive Dag where
  | dag0 | dag1
  deriving DecidableEq, Repr

/-- The two L1 data banks (R28, R210). -/
inductive Bank where
  | bankA | bankB
  deriving DecidableEq, Repr

/-- The width of a data access: 1, 2 or 4 bytes (R130, R132). -/
inductive Width where
  | byte | half | word
  deriving DecidableEq, Repr

/-- The side of the machine an exception belongs to: its status and fault-address registers are the ones
written (R280, R430). `core` is the protected-resource exception of R379, which no access raises. -/
inductive Side where
  | instr | data | core
  deriving DecidableEq, Repr

/-- The data registers R0 to R7 (R20). -/
structure DRegs where
  r0 : Word
  r1 : Word
  r2 : Word
  r3 : Word
  r4 : Word
  r5 : Word
  r6 : Word
  r7 : Word
  deriving DecidableEq, Repr

/-- The pointer registers P0 to P5, SP and FP (R21). -/
structure PRegs where
  p0 : Word
  p1 : Word
  p2 : Word
  p3 : Word
  p4 : Word
  p5 : Word
  sp : Word
  fp : Word
  deriving DecidableEq, Repr

/-- One CPLB descriptor: the page address word and the properties word (R35, R36, R45, R46). -/
structure Cplb where
  addr : Word
  data : Word
  deriving DecidableEq, Repr

/-- The tag part of an instruction cache line (R60). Its data part is cells of the bank, in `mem` (log 5). -/
structure ILine where
  tag : BitVec 20
  valid : Bool
  lruPrio : Bool
  deriving DecidableEq, Repr

/-- The four ways of an instruction cache set and their recency order, least recently used first
(R60, decision D5). -/
structure ISet where
  lines : Vector ILine 4
  recency : List (Fin 4)
  deriving DecidableEq, Repr

/-- The tag part of a data cache line (R61). Its data part is cells of the bank, in `mem` (log 5). -/
structure DLine where
  tag : BitVec 19
  valid : Bool
  dirty : Bool
  deriving DecidableEq, Repr

/-- The two ways of a data cache set and the LRU bit: false, Way0 was last used; true, Way1 was (R61). -/
structure DSet where
  lines : Vector DLine 2
  lru : Bool
  deriving DecidableEq, Repr

/-- A buffered store `(addr, n, v)` (R149): an entry of the write buffer (R63). -/
structure BufEntry where
  addr : Addr
  width : Width
  value : Word
  deriving DecidableEq, Repr

/-- Where a store goes when it leaves the store buffer, as its checks found (R130 step 6, R220). -/
inductive StorePath where
  /-- A core MMR, over the RAB (R125). -/
  | coreMmr
  /-- L1 data SRAM or the scratchpad. -/
  | sram
  /-- A write-back page (R222). -/
  | writeBack
  /-- A write-through page (R221), allocating on a write miss or not (CPLB_L1_AOW). -/
  | writeThrough (allocate : Bool)
  /-- Memory behind the caches, uncached: through the write buffer (R63). -/
  | uncached
  deriving DecidableEq, Repr

/-- An entry of the store buffer (R62). -/
structure PendingStore where
  entry : BufEntry
  path : StorePath
  deriving DecidableEq, Repr

/-- A line on its way to memory in a copy-back buffer (R64, R216): its address and its 32 bytes. -/
structure Victim where
  line : Addr
  data : List Byte
  deriving DecidableEq, Repr

/-- An access on the peripheral bus, the PAB, where the system MMRs sit (R125): a read of an address, or a write. -/
inductive PabAccess where
  | read (addr : Addr) (width : Width)
  | write (entry : BufEntry)
  deriving DecidableEq, Repr

/-- A context that interrupt `level` interrupted (R440, R441): its pc and mode, and whether an exception handler was
running in it. A smaller level has the higher priority. The model's own record of what an interrupt return
restores (log 37). -/
structure IsrFrame where
  level : Fin 16
  returnPc : Addr
  returnMode : Mode
  inHandler : Bool
  deriving DecidableEq, Repr

/-- What may happen between two instructions, by another agent or by the buffers themselves (R149, R151,
R432, R441). The order and the moment are not fixed by the spec: State.inputs says them (log 7). -/
inductive Event where
  /-- Store buffer entry `i` is performed, if it is the oldest for its own bytes (R149). -/
  | drainStore (i : Nat)
  /-- The oldest write buffer entry is performed (R63, R149). -/
  | drainWrite
  /-- The bank's pending line write-back is performed (R351). -/
  | drainVictim (b : Bank)
  /-- The read of the load behind `path.length` instructions in the shadow of a branch that was taken (R151, R396, R425).
  `path` says of each of them, if it is a conditional jump, whether it is followed as taken (log 38). -/
  | speculativeRead (path : List Bool)
  /-- The fetch of the instruction behind `path.length` instructions in the shadow of a branch that was taken (R151, R354,
  R425). -/
  | speculativeFetch (path : List Bool)
  /-- The system DMA controller writes one byte (R10, R103). -/
  | dmaWrite (a : Addr) (v : Byte)
  /-- Entry `k` of the interrupt vector table, which is not in the spec (R441), becomes `a` (log 37). -/
  | setVector (k : Fin 16) (a : Addr)
  /-- Interrupt `k` is requested: it is pending until it is taken (R69, R441). -/
  | request (k : Fin 16)
  /-- The pending interrupt of highest priority is taken, if one may be (R440, R441; R425). -/
  | takeInterrupt
  /-- The interrupt service routine returns (R440). -/
  | interruptReturn
  /-- The RTX step at the end of an exception handler (R432); RTX is no row of the opcode table. -/
  | exceptionReturn
  /-- A pending interrupt is taken while the load behind `path.length` instructions, at most three, after pc is in flight: the
  load is cancelled, its line fill or bus read is not (R152, R219, R399, R478). -/
  | cancelledLoad (path : List Bool)
  deriving DecidableEq, Repr

/-- The machine. Widths, rules and reset values: INVENTORY.md, '## State'. -/
structure State where
  /-- R0 to R7 (R20). -/
  r : DRegs
  /-- P0 to P5, SP, FP (R21). -/
  p : PRegs
  /-- The address of the instruction being executed (R22). -/
  pc : Addr
  /-- The condition flag (R23). -/
  cc : Bool
  /-- The interrupt mask (R24). -/
  imask : Word
  /-- The mode (R25). -/
  mode : Mode
  /-- The alignment-exception disable (R67): true only within one instruction (R374). -/
  alignExcOff : Bool
  /-- The fall-through address of a conditional jump just taken: reads may have been issued there (R68, R151). -/
  shadow : Option Addr
  /-- Phys: the bytes of the address space (R27), canonical. -/
  mem : List Host.Cell
  /-- IMEM_CONTROL (R30). -/
  imemControl : Word
  /-- ICPLB_ADDRn, ICPLB_DATAn (R35, R36). -/
  icplb : Vector Cplb 16
  /-- ICPLB_STATUS (R37). -/
  icplbStatus : Word
  /-- ICPLB_FAULT_ADDR (R38). -/
  icplbFaultAddr : Word
  /-- ITEST_COMMAND (R32). -/
  itestCommand : Word
  /-- ITEST_DATA0 (R33). -/
  itestData0 : Word
  /-- ITEST_DATA1 (R34). -/
  itestData1 : Word
  /-- DMEM_CONTROL (R40). -/
  dmemControl : Word
  /-- DCPLB_ADDRn, DCPLB_DATAn (R45, R46). -/
  dcplb : Vector Cplb 16
  /-- DCPLB_STATUS (R48). -/
  dcplbStatus : Word
  /-- DCPLB_FAULT_ADDR (R49). -/
  dcplbFaultAddr : Word
  /-- DTEST_COMMAND (R42). -/
  dtestCommand : Word
  /-- DTEST_DATA0 (R43). -/
  dtestData0 : Word
  /-- DTEST_DATA1 (R44). -/
  dtestData1 : Word
  /-- IPRIO (R50). -/
  iprio : Word
  /-- The core MMR cell behind TIMER_CONTROL_REG (R445): a plain cell (log 47). -/
  timerControl : Word
  /-- The instruction cache's tag array by set (R60): sub-bank * 32 + set. -/
  icache : List (Nat × ISet)
  /-- The data cache's tag array by set (R61): (bank * 4 + sub-bank) * 64 + set. -/
  dcache : List (Nat × DSet)
  /-- The store buffer, oldest first (R62). -/
  storeBuf : List PendingStore
  /-- The write buffer, oldest first (R63). -/
  writeBuf : List BufEntry
  /-- The write buffer's depth: 2, or 8 while raised (R63, R228). -/
  writeBufDepth : Nat
  /-- The copy-back buffer of Data Bank A (R64). -/
  victimA : Option Victim
  /-- The copy-back buffer of Data Bank B (R64). -/
  victimB : Option Victim
  /-- The exception return address (R71). -/
  retx : Addr
  /-- The recorded cause (R72): a 6-bit code. -/
  excause : BitVec 6
  /-- The exception handler's address (R73). -/
  evt3 : Addr
  /-- The mode at exception entry (R432). -/
  savedMode : Mode
  /-- The side of the exception whose handler runs; none: exceptions are delivered (R430, R433). -/
  handling : Option Side
  /-- The interrupted contexts, innermost first (R440). -/
  isrs : List IsrFrame
  /-- The interrupts requested and not yet taken, by their number (R69, R441). -/
  irqPending : Vector Bool 16
  /-- The handlers' addresses, by interrupt number: the vector table that is not in the spec (R441, log 37). Entry 3 is not
  used: it is EVT3 (R430). -/
  vectors : Vector Addr 16
  /-- The pending hardware error (R425). -/
  hwErrorPending : Bool
  /-- The MODEL's own field: the accesses that system MMRs have received, oldest first (R125, R154; log 26). -/
  pab : List PabAccess
  /-- The asynchronous bank that holds the BF538F's flash; none: the BF538 (R101, P6). -/
  flashBank : Option (Fin 4)
  /-- The MODEL's own field: what happens at each instruction boundary to come (log 7). -/
  inputs : List (List Event)
  /-- The MODEL's own field: the counter the free values are applied to (log 6). -/
  tick : Nat
  deriving DecidableEq, Repr

/-- Why the machine is stuck. -/
inductive Fault where
  /-- An exception while an exception handler runs (R433, U9: "the model stops with `Undefined`"). Raised by
  taking an exception. Safe: nothing is proved of what follows. -/
  | doubleFault
  deriving DecidableEq, Repr

/-- Why a step has no meaning: the spec's `Undefined` outcomes (93_implementation_defined.md, treatment `refuse`) and
commands it calls reserved. All safe. -/
inductive Refusal where
  /-- Raised by exec's arm of an instruction without a meaning; safe. -/
  | notModelled (mnemonic : String)
  /-- The bytes at pc are no row of the opcode table (R315, U13). Raised by step; safe. -/
  | undecoded (e : DecodeError)
  /-- A data access to L1 SRAM or MMR space under a descriptor that says cacheable (R204, U3). Raised by the
  data checks; safe. -/
  | cacheableCoreSpace (a : Addr)
  /-- An 8- or 16-bit access to a core MMR (R121, U5). Raised by data reads and writes; safe. -/
  | narrowMmrAccess (a : Addr)
  /-- TESTSET on L1 memory or MMR space (R372, U7). Raised by TESTSET; safe. -/
  | testsetOnCoreMemory (a : Addr)
  /-- A store to DTEST_COMMAND of a reserved command (R236, N25). Raised by data writes; safe. -/
  | reservedTestCommand (command : Word)
  /-- A store to DMEM_CONTROL of the reserved DMC code 01 (R40). Raised by data writes; safe. -/
  | reservedCacheMode (control : Word)
  deriving DecidableEq, Repr

/-- An invalid instruction cache line. -/
def ILine.empty : ILine := { tag := 0, valid := false, lruPrio := false }

/-- What an unlisted instruction cache set reads as: four invalid lines (log 4). -/
def ISet.empty : ISet := { lines := Vector.replicate 4 ILine.empty, recency := [0, 1, 2, 3] }

/-- An invalid data cache line. -/
def DLine.empty : DLine := { tag := 0, valid := false, dirty := false }

/-- What an unlisted data cache set reads as: two invalid lines (log 4). -/
def DSet.empty : DSet := { lines := Vector.replicate 2 DLine.empty, lru := false }

/-- The boot ROM's first address (R101): where execution starts after reset (R462). -/
def resetVector : Addr := 0xEF000000

/-- The machine right after reset (R70, R460): the words of R31 and R41, everything disabled, buffers empty
(D7), every Valid bit 0 (D8), Supervisor mode (G6), pc at the boot ROM. Registers whose reset value the spec does
not state hold 0, and no hardware error or interrupt is pending, no exception handler runs and no interrupted context
exists and no branch shadow is open, which the table of R70 does not say either: DESIGN CHOICE, log 1. Memory lists nothing:
log 2. No input is scheduled: DESIGN CHOICE, log 7. -/
def State.reset : State where
  r := ⟨0, 0, 0, 0, 0, 0, 0, 0⟩
  p := ⟨0, 0, 0, 0, 0, 0, 0, 0⟩
  pc := resetVector
  cc := false
  imask := 0
  mode := .supervisor
  alignExcOff := false
  shadow := none
  mem := []
  imemControl := 0x00000001
  icplb := Vector.replicate 16 ⟨0, 0⟩
  icplbStatus := 0
  icplbFaultAddr := 0
  itestCommand := 0
  itestData0 := 0
  itestData1 := 0
  dmemControl := 0x00001001
  dcplb := Vector.replicate 16 ⟨0, 0⟩
  dcplbStatus := 0
  dcplbFaultAddr := 0
  dtestCommand := 0
  dtestData0 := 0
  dtestData1 := 0
  iprio := 0
  timerControl := 0
  icache := []
  dcache := []
  storeBuf := []
  writeBuf := []
  writeBufDepth := 2
  victimA := none
  victimB := none
  retx := 0
  excause := 0
  evt3 := 0
  savedMode := .supervisor
  handling := none
  isrs := []
  irqPending := Vector.replicate 16 false
  vectors := Vector.replicate 16 0
  hwErrorPending := false
  pab := []
  flashBank := none
  inputs := []
  tick := 0

end Sys2Proof.Machine
end

