-- ==== Sys2Proof/Machine/Operands.lean ====
section
/-! DEFINITION. The operand forms: data registers, pointer registers, the pointer-relative addresses
(R391 to R394), the line address (R8, R331), and moving past an instruction (R22). Every register has one home and is reached
here. -/

namespace Sys2Proof.Machine

/-- The number of bytes of a data access (R130). -/
def Width.bytes : Width → Nat
  | .byte => 1
  | .half => 2
  | .word => 4

/-- A data register's value. -/
def DRegs.get (f : DRegs) : DReg → Word
  | .r0 => f.r0 | .r1 => f.r1 | .r2 => f.r2 | .r3 => f.r3
  | .r4 => f.r4 | .r5 => f.r5 | .r6 => f.r6 | .r7 => f.r7

/-- The data registers with one written. -/
def DRegs.set (f : DRegs) (d : DReg) (v : Word) : DRegs :=
  match d with
  | .r0 => { f with r0 := v } | .r1 => { f with r1 := v } | .r2 => { f with r2 := v } | .r3 => { f with r3 := v }
  | .r4 => { f with r4 := v } | .r5 => { f with r5 := v } | .r6 => { f with r6 := v } | .r7 => { f with r7 := v }

/-- A pointer register's value. -/
def PRegs.get (f : PRegs) : PReg → Word
  | .p0 => f.p0 | .p1 => f.p1 | .p2 => f.p2 | .p3 => f.p3
  | .p4 => f.p4 | .p5 => f.p5 | .sp => f.sp | .fp => f.fp

/-- The pointer registers with one written. -/
def PRegs.set (f : PRegs) (p : PReg) (v : Word) : PRegs :=
  match p with
  | .p0 => { f with p0 := v } | .p1 => { f with p1 := v } | .p2 => { f with p2 := v } | .p3 => { f with p3 := v }
  | .p4 => { f with p4 := v } | .p5 => { f with p5 := v } | .sp => { f with sp := v } | .fp => { f with fp := v }

/-- `R[d]` (R8). -/
def State.dreg (s : State) (d : DReg) : Word := s.r.get d

/-- `P[p]` (R8). -/
def State.preg (s : State) (p : PReg) : Word := s.p.get p

/-- `R[d] <- v`. -/
def State.setD (s : State) (d : DReg) (v : Word) : State := { s with r := s.r.set d v }

/-- `P[p] <- v`. -/
def State.setP (s : State) (p : PReg) (v : Word) : State := { s with p := s.p.set p v }

/-- `pc <- pc + n` (R22). -/
def State.advance (s : State) (n : Nat) : State := { s with pc := s.pc + BitVec.ofNat 32 n }

/-- The address of a short indexed operand, `(P[p] + u) mod 2^32` (R392). -/
def shortAddress (s : State) (p : PReg) (u : Nat) : Addr := s.preg p + BitVec.ofNat 32 u

/-- The address of a long indexed operand, `(P[p] + s) mod 2^32` (R392). -/
def longAddress (s : State) (p : PReg) (k : Int) : Addr := s.preg p + BitVec.ofInt 32 k

/-- The target of a conditional jump, `t = pc + 2 o` (R313, R314). Where that lies below address 0 or past the top, on which
R22 and R314 are silent, it wraps modulo 2^32: DESIGN CHOICE, log 53. -/
def jumpTarget (s : State) (o : Int) : Addr := s.pc + BitVec.ofInt 32 (2 * o)

/-- `line(a)`: the address of the 32-byte line that holds `a` (R8). -/
def lineAddr (a : Addr) : Addr := a &&& 0xFFFFFFE0

/-- A pointer register with its low half replaced (R398). -/
def withLowHalf (v : Word) (imm : Half) : Word := (v &&& 0xFFFF0000) ||| imm.setWidth 32

/-- A pointer register with its high half replaced (R398). -/
def withHighHalf (v : Word) (imm : Half) : Word := (v &&& 0x0000FFFF) ||| (imm.setWidth 32 <<< 16)

end Sys2Proof.Machine
end

