-- ==== Sys2Proof/Machine/Flags.lean ====
section
/-! DEFINITION. The flag computations: CC is the only flag of the spec (10_state.md R23), written by TESTSET and
read by the conditional jumps. -/

namespace Sys2Proof.Machine

/-- CC after TESTSET: 1 when the byte was 0 (R370). -/
def testsetFlag (b : Byte) : Bool := b == 0

/-- The byte TESTSET writes: bit 7 set, every other bit kept (R370). -/
def testsetByte (b : Byte) : Byte := b ||| 0x80

/-- `CC <- b` (R8). -/
def State.setCC (s : State) (b : Bool) : State := { s with cc := b }

/-- Whether `IF CC JUMP` (`wanted` true) or `IF !CC JUMP` (false) is taken (R396). -/
def jumpTaken (s : State) (wanted : Bool) : Bool := s.cc == wanted

end Sys2Proof.Machine
end

