-- ==== Sys2Proof/Config.lean ====
section
/-! DEFINITION. What the spec leaves open as a value: constants without a body, so that nothing can be
proved of the value they give (93_implementation_defined.md, treatment `any value`; log 6). -/

namespace Sys2Proof

/-- The byte that a bus read of unpopulated space returns (R102, R425 give the hardware error and no
value). Applied to the tick, the address. UNVERIFIED, log 21: free, safe. -/
opaque Config.unpopulatedByte : Nat → Nat → BitVec 8

/-- Whether a register answers at an address of system MMR space: the spec does not enumerate the system MMRs (R446).
Applied to the address. Log 26: free, safe. -/
opaque Config.systemMmrExists : Nat → Bool

/-- The byte that a load from a system MMR returns: the registers behind the PAB are not in the spec (R446). Applied
to the tick, the address. Log 26: free, safe. -/
opaque Config.systemMmrByte : Nat → Nat → BitVec 8

/-- What a status or fault-address register reads as outside the handler of its fault, in an interrupt routine inside
it too (R280: "at any other time their contents are unspecified"). Applied to the tick and the address. Log 6: free, safe. -/
opaque Config.staleFaultWord : Nat → Nat → BitVec 32

/-- What a test command reads where no cache array exists: the tag array of the instruction bank while it is
SRAM (R60), the arrays of a data bank half that is SRAM (R103). Applied to the tick and the command. Log 28: free, safe. -/
opaque Config.absentCell : Nat → BitVec 32 → BitVec 64

/-- The EXCAUSE code of DoubleMMRAccess, "not known" (R412). No instruction of the table is multi-issue,
so nothing raises it. Log 16: free, safe. -/
opaque Config.doubleMmrAccessCode : BitVec 6

end Sys2Proof
end

