-- ==== Sys2Proof/Machine/Control.lean ====
section
/-! DEFINITION. The fields of the control registers (10_state.md R30, R36, R40, R46, R50) and what their words hold:
the packing table of R52. -/

namespace Sys2Proof.Machine

/-- IMEM_CONTROL.ENICPLB (R30). -/
def State.enIcplb (s : State) : Bool := bitAt s.imemControl 1

/-- IMEM_CONTROL.IMC: the 16 KB instruction bank is cache (R30). -/
def State.imc (s : State) : Bool := bitAt s.imemControl 2

/-- IMEM_CONTROL.ILOC[w]: Way `w` is locked (R30). -/
def State.iloc (s : State) (w : Fin 4) : Bool := bitAt s.imemControl (3 + w.val)

/-- IMEM_CONTROL.LRUPRIORST (R30). -/
def State.lruPrioRst (s : State) : Bool := bitAt s.imemControl 13

/-- DMEM_CONTROL.ENDCPLB (R40). -/
def State.enDcplb (s : State) : Bool := bitAt s.dmemControl 1

/-- The DMC field of a DMEM_CONTROL word (R40). -/
def dmcOf (w : Word) : Nat := fieldAt w 2 2

/-- DMEM_CONTROL.DMC[1:0] (R40). -/
def State.dmc (s : State) : Nat := dmcOf s.dmemControl

/-- DMEM_CONTROL.DCBS (R40). -/
def State.dcbs (s : State) : Bool := bitAt s.dmemControl 4

/-- The upper half of a data bank is cache under a DMC code: 10 Bank A, 11 both (R40). -/
def bankIsCacheUnder (dmc : Nat) : Bank → Bool
  | .bankA => dmc == 2 || dmc == 3
  | .bankB => dmc == 3

/-- The upper half of a data bank is cache. -/
def State.bankIsCache (s : State) (b : Bank) : Bool := bankIsCacheUnder s.dmc b

/-- IPRIO.IPRIO_MARK (R50). -/
def State.iprioMark (s : State) : Nat := fieldAt s.iprio 0 4

/-- Interrupt `k` counts as high priority: `m-1` down to 0 are (R50). -/
def State.highPriority (s : State) (k : Nat) : Bool := decide (k < s.iprioMark)

/-- xCPLB_DATA.CPLB_VALID (R36, R46). -/
def Cplb.valid (c : Cplb) : Bool := bitAt c.data 0

/-- xCPLB_DATA.CPLB_USER_RD (R36, R46). -/
def Cplb.userRd (c : Cplb) : Bool := bitAt c.data 2

/-- DCPLB_DATA.CPLB_USER_WR (R46). -/
def Cplb.userWr (c : Cplb) : Bool := bitAt c.data 3

/-- DCPLB_DATA.CPLB_SUPV_WR (R46). -/
def Cplb.supvWr (c : Cplb) : Bool := bitAt c.data 4

/-- xCPLB_DATA.CPLB_L1SRAM (R36, R46). -/
def Cplb.l1sram (c : Cplb) : Bool := bitAt c.data 5

/-- DCPLB_DATA.CPLB_DIRTY (R46). -/
def Cplb.dirty (c : Cplb) : Bool := bitAt c.data 7

/-- ICPLB_DATA.CPLB_LRUPRIO (R36). -/
def Cplb.lruPrio (c : Cplb) : Bool := bitAt c.data 8

/-- xCPLB_DATA.CPLB_L1_CHBL (R36, R46). -/
def Cplb.chbl (c : Cplb) : Bool := bitAt c.data 12

/-- DCPLB_DATA.CPLB_WT (R46). -/
def Cplb.wt (c : Cplb) : Bool := bitAt c.data 14

/-- DCPLB_DATA.CPLB_L1_AOW (R46). -/
def Cplb.aow (c : Cplb) : Bool := bitAt c.data 15

/-- The page size in bytes: 1 KB, 4 KB, 1 MB, 4 MB for PAGE_SIZE 00, 01, 10, 11 (R254). -/
def Cplb.pageSize (c : Cplb) : Nat :=
  match fieldAt c.data 16 2 with
  | 0 => 1024
  | 1 => 4096
  | 2 => 1048576
  | _ => 4194304

/-- IMEM_CONTROL as the register holds it: bits 13, 6:3, 2, 1 kept, bit 0 reads 1 (R30, R31, R52). -/
def packImemControl (v : Word) : Word := (v &&& 0x0000207E) ||| 1

/-- DMEM_CONTROL as the register holds it: bits 13, 12, 4, 3:2, 1 kept, bit 0 reads 1 (R40, R41, R52). -/
def packDmemControl (v : Word) : Word := (v &&& 0x0000301E) ||| 1

/-- A page address: bits 31:10 (R35, R45). -/
def packCplbAddr (v : Word) : Word := v &&& 0xFFFFFC00

/-- ICPLB_DATA: bits 17:16, 12, 8, 5, 2, 1, 0 (R36). -/
def packIcplbData (v : Word) : Word := v &&& 0x00031127

/-- DCPLB_DATA: bits 17:16, 15, 14, 12, 7, 5, 4, 3, 2, 1, 0 (R46). -/
def packDcplbData (v : Word) : Word := v &&& 0x0003D0BF

/-- ITEST_COMMAND: bits 27:26, 17:16, 9:5, 4:3, 2, 1 (R32). -/
def packItestCommand (v : Word) : Word := v &&& 0x0C0303FE

/-- DTEST_COMMAND: bits 26, 24, 23, 17:16, 14, 10:5, 4:3, 2, 1 (R42). -/
def packDtestCommand (v : Word) : Word := v &&& 0x058347FE

/-- IPRIO: bits 3:0 (R50). -/
def packIprio (v : Word) : Word := v &&& 0x0000000F

end Sys2Proof.Machine
end

