-- ==== Sys2Proof/Machine/Map.lean ====
section
/-! DEFINITION. The memory map (20_memory.md R101, R102, R172) and the core MMR addresses (10_state.md R51). Region
addresses the source lost are the spec's general-knowledge defaults (G2, parameters P1 to P5). -/

namespace Sys2Proof.Machine

/-- What an address belongs to (R101). The kind of a bank that is SRAM or cache depends on the control registers. -/
inductive Region where
  | sdram
  | async
  | flash
  | bootRom
  /-- Reserved space outside the core: a request there reaches the EBIU (R102, R425). -/
  | reservedExternal
  /-- L1 data banks A and B, as SRAM. -/
  | dataSram
  | scratchpad
  /-- Reserved L1 space of the data windows, and a data bank half in use as cache (U10, log 20). -/
  | reservedData
  | instrSram
  /-- Reserved L1 instruction space, and the 16 KB instruction bank in use as cache (U10, log 20). -/
  | reservedInstr
  | systemMmr
  | coreMmr
  deriving DecidableEq, Repr

/-- The number of the asynchronous bank that holds an address of 0x2000 0000 to 0x203F FFFF (R101). -/
def asyncBankOf (n : Nat) : Nat := (n - 0x20000000) / 0x100000

/-- The regions below the boot ROM: SDRAM, the asynchronous banks, reserved space (R101). -/
def State.externalRegion (s : State) (n : Nat) : Region :=
  if n < 0x08000000 then .sdram
  else if n < 0x20000000 then .reservedExternal
  else if n < 0x20400000 then
    if s.flashBank.map Fin.val = some (asyncBankOf n) then .flash else .async
  else .reservedExternal

/-- An address of a 32 KB data bank at `base` and of the reserved space above it: the lower half is SRAM, the upper
half SRAM or cache (R101). -/
def State.dataBankRegion (s : State) (b : Bank) (base n : Nat) : Region :=
  if n < base + 0x4000 then .dataSram
  else if n < base + 0x8000 then if s.bankIsCache b then .reservedData else .dataSram
  else .reservedData

/-- The L1 instruction memory range: 64 KB of SRAM, the 16 KB bank that is SRAM or cache, reserved space (R101). -/
def State.instrRegion (s : State) (n : Nat) : Region :=
  if n < 0xFFA10000 then .instrSram
  else if n < 0xFFA14000 then if s.imc then .reservedInstr else .instrSram
  else .reservedInstr

/-- The region of an address (R101). -/
def State.region (s : State) (a : Addr) : Region :=
  let n := a.toNat
  if n < 0xEF000000 then s.externalRegion n
  else if n < 0xFF800000 then if n < 0xEF000400 then .bootRom else .reservedExternal
  else if n < 0xFF900000 then s.dataBankRegion .bankA 0xFF800000 n
  else if n < 0xFFA00000 then s.dataBankRegion .bankB 0xFF900000 n
  else if n < 0xFFB00000 then s.instrRegion n
  else if n < 0xFFC00000 then if n < 0xFFB01000 then .scratchpad else .reservedData
  else if n < 0xFFE00000 then .systemMmr
  else .coreMmr

/-- Nothing answers at the address (R102). -/
def Region.unpopulated : Region → Bool
  | .reservedExternal => true
  | .reservedData => true
  | .reservedInstr => true
  | _ => false

/-- Read-only memory: the boot ROM and the flash (R108, R245). -/
def Region.readOnly : Region → Bool
  | .bootRom => true
  | .flash => true
  | _ => false

/-- MMR space: 0xFFC0 0000 and up (R109). -/
def inMmrSpace (a : Addr) : Bool := decide (0xFFC00000 ≤ a.toNat)

/-- L1 memory or MMR space, which TESTSET must not address (R372). -/
def inCoreMemory (a : Addr) : Bool := decide (0xFF800000 ≤ a.toNat)

/-- The L1 instruction memory range, 0xFFA0 0000 to 0xFFAF FFFF, closed to the DAGs (R418). -/
def inInstrMemory (a : Addr) : Bool := decide (0xFFA00000 ≤ a.toNat ∧ a.toNat < 0xFFB00000)

/-- The core MMRs (R51), EVT3 (R73) and the cell of TIMER_CONTROL_REG (R445). -/
inductive MmrName where
  | dmemControl
  | dcplbStatus
  | dcplbFaultAddr
  | dcplbAddr (n : Fin 16)
  | dcplbData (n : Fin 16)
  | dtestCommand
  | dtestData0
  | dtestData1
  | imemControl
  | icplbStatus
  | icplbFaultAddr
  | icplbAddr (n : Fin 16)
  | icplbData (n : Fin 16)
  | itestCommand
  | itestData0
  | itestData1
  | evt3
  | iprio
  | timerControl
  deriving DecidableEq, Repr

/-- The descriptor number that a byte offset into a group of sixteen words names. -/
def slotOf (off : Nat) : Fin 16 := Fin.ofNat 16 (off / 4)

/-- The core MMR at an address, if there is one (R51). The addresses of EVT3 and of the
timer's control register are the family's: PRESUMED, log 14 and log 47. No register stands anywhere else: not at the
addresses that R51 calls lost (N15; DESIGN CHOICE, log 48), nor for IMASK, whose address is not in the source (N20;
DESIGN CHOICE, log 49). -/
def mmrAt (a : Addr) : Option MmrName :=
  let n := a.toNat
  if n % 4 ≠ 0 then none
  else if n = 0xFFE00004 then some .dmemControl
  else if n = 0xFFE00008 then some .dcplbStatus
  else if n = 0xFFE0000C then some .dcplbFaultAddr
  else if 0xFFE00100 ≤ n ∧ n ≤ 0xFFE0013C then some (.dcplbAddr (slotOf (n - 0xFFE00100)))
  else if 0xFFE00200 ≤ n ∧ n ≤ 0xFFE0023C then some (.dcplbData (slotOf (n - 0xFFE00200)))
  else if n = 0xFFE00300 then some .dtestCommand
  else if n = 0xFFE00400 then some .dtestData0
  else if n = 0xFFE00404 then some .dtestData1
  else if n = 0xFFE01004 then some .imemControl
  else if n = 0xFFE01008 then some .icplbStatus
  else if n = 0xFFE0100C then some .icplbFaultAddr
  else if 0xFFE01100 ≤ n ∧ n ≤ 0xFFE0113C then some (.icplbAddr (slotOf (n - 0xFFE01100)))
  else if 0xFFE01200 ≤ n ∧ n ≤ 0xFFE0123C then some (.icplbData (slotOf (n - 0xFFE01200)))
  else if n = 0xFFE01300 then some .itestCommand
  else if n = 0xFFE01400 then some .itestData0
  else if n = 0xFFE01404 then some .itestData1
  else if n = 0xFFE0200C then some .evt3
  else if n = 0xFFE02110 then some .iprio
  else if n = 0xFFE03000 then some .timerControl
  else none

/-- A register exists at an address of MMR space (R122): in the system half what Config says (R446), in the core half
the register of the word that holds the address (log 25). -/
def mmrExists (a : Addr) : Bool :=
  if a.toNat < 0xFFE00000 then Config.systemMmrExists a.toNat else (mmrAt (a &&& 0xFFFFFFFC)).isSome

/-- The four registers that hardware writes and software only reads (R53, decision D4). -/
def MmrName.readOnly : MmrName → Bool
  | .dcplbStatus => true
  | .dcplbFaultAddr => true
  | .icplbStatus => true
  | .icplbFaultAddr => true
  | _ => false

/-- The address lies in non-existent memory: FAULT_ILLADDR (R37, R48, R280). -/
def State.nonExistent (s : State) (a : Addr) : Bool :=
  (s.region a).unpopulated || (inMmrSpace a && !mmrExists a)

end Sys2Proof.Machine
end

