-- ==== Sys2Proof/Machine/Sparse.lean ====
section
/-! DEFINITION. Sparse data by key: a list of (key, value) pairs in one canonical form, keys strictly rising
and no value equal to what an unlisted key reads as. Memory and the cache tag arrays are held so. -/

namespace Sys2Proof.Machine

/-- The value at key `k`; `d` where nothing is listed. -/
def sparseGet {α : Type} (d : α) : List (Nat × α) → Nat → α
  | [], _ => d
  | (j, v) :: m, k => if j = k then v else sparseGet d m k

/-- A new first entry, left out when it would say what an unlisted key says. -/
def sparseCons {α : Type} [DecidableEq α] (d : α) (k : Nat) (v : α) (m : List (Nat × α)) : List (Nat × α) :=
  if v = d then m else (k, v) :: m

/-- Sets the value at key `k`, keeping the canonical form. -/
def sparseSet {α : Type} [DecidableEq α] (d : α) : List (Nat × α) → Nat → α → List (Nat × α)
  | [], k, v => sparseCons d k v []
  | (j, w) :: m, k, v =>
    if k < j then sparseCons d k v ((j, w) :: m)
    else if k = j then sparseCons d k v m
    else (j, w) :: sparseSet d m k v

/-- Applies `f` to every listed key and value, keeping the canonical form (`f k d = d` in every use). -/
def sparseMap {α : Type} [DecidableEq α] (d : α) (f : Nat → α → α) : List (Nat × α) → List (Nat × α)
  | [] => []
  | (j, w) :: m => sparseCons d j (f j w) (sparseMap d f m)

/-- The first key of the list, if there is one, is above `b`. -/
def sparseAbove {α : Type} (b : Nat) : List (Nat × α) → Bool
  | [] => true
  | (j, _) :: _ => decide (b < j)

/-- The canonical form: keys strictly rising, no listed default. -/
def sparseWf {α : Type} [DecidableEq α] (d : α) : List (Nat × α) → Bool
  | [] => true
  | (j, v) :: m => decide (v ≠ d) && sparseAbove j m && sparseWf d m

end Sys2Proof.Machine
end

