-- ==== Sys2Proof/Machine/Memory.lean ====
section
/-! DEFINITION. Phys, the bytes of the address space (10_state.md R27; 20_memory.md R100, R110): a canonical sparse
list; one byte, and runs of bytes at rising addresses. -/

namespace Sys2Proof.Machine

/-- What a byte of memory that nothing has written reads as. DESIGN CHOICE, log 2: the spec says `any value`
(R70, U2); unsafe. -/
def Memory.unlisted : Byte := 0

/-- The byte at an address. -/
def Memory.read (m : List Host.Cell) (a : Addr) : Byte := sparseGet Memory.unlisted m a.toNat

/-- Memory with one byte written. -/
def Memory.write (m : List Host.Cell) (a : Addr) (v : Byte) : List Host.Cell :=
  sparseSet Memory.unlisted m a.toNat v

/-- `n` bytes at rising addresses. -/
def Memory.readBytes (m : List Host.Cell) (a : Addr) (n : Nat) : List Byte :=
  (List.range n).map fun k => Memory.read m (a + BitVec.ofNat 32 k)

/-- Memory with a run of bytes written at rising addresses. -/
def Memory.writeBytes (m : List Host.Cell) (a : Addr) : List Byte → List Host.Cell
  | [] => m
  | v :: vs => Memory.writeBytes (Memory.write m a v) (a + 1) vs

/-- The canonical form: addresses strictly rising and inside the address space, no listed byte equal to what an
unlisted one reads as. -/
def Memory.wf (m : List Host.Cell) : Bool :=
  sparseWf Memory.unlisted m && m.all fun c => decide (c.1 < 2 ^ 32)

end Sys2Proof.Machine
end

