-- ==== Sys2Proof/Machine/Buffers.lean ====
section
/-! DEFINITION. The bus behind the L1 memories and the buffers in front of it: the write buffer, the copy-back buffers
and store forwarding (10_state.md R62 to R64; 20_memory.md R146 to R149; 60_exceptions.md R425). -/

namespace Sys2Proof.Machine

/-- The byte a bus read returns: memory's, or a free value where nothing answers (R425, log 21). -/
def State.busByte (s : State) (a : Addr) : Byte :=
  if (s.region a).unpopulated then Config.unpopulatedByte s.tick a.toNat else Memory.read s.mem a

/-- A bus request: one to unpopulated space makes the hardware error pending (R425). -/
def State.touch (s : State) (a : Addr) : State :=
  if (s.region a).unpopulated then { s with hwErrorPending := true } else s

/-- A bus write of a run of bytes inside one region: lost with a hardware error where nothing answers (R425), dropped by
read-only memory (U8, log 22). -/
def State.busWrite (s : State) (a : Addr) (bs : List Byte) : State :=
  if (s.region a).unpopulated then { s with hwErrorPending := true }
  else if (s.region a).readOnly then s
  else { s with mem := Memory.writeBytes s.mem a bs }

/-- The bytes a buffered store writes (R110). -/
def BufEntry.bytes (e : BufEntry) : List Byte := bytesOf e.value e.width.bytes

/-- The byte a buffered store holds for an address, if it covers it (R149). -/
def BufEntry.byteAt (e : BufEntry) (a : Addr) : Option Byte :=
  let k := (a - e.addr).toNat
  if k < e.width.bytes then some (byteOf e.value k) else none

/-- Two buffered stores share a byte. -/
def BufEntry.overlaps (e f : BufEntry) : Bool :=
  decide ((f.addr - e.addr).toNat < e.width.bytes) || decide ((e.addr - f.addr).toNat < f.width.bytes)

/-- The byte the newest covering entry of a buffer (oldest first) supplies (R149). -/
def newestByte : List BufEntry → Addr → Option Byte
  | [], _ => none
  | e :: es, a =>
    match newestByte es a with
    | some b => some b
    | none => e.byteAt a

/-- The byte a line on its way out holds for an address, if it covers it. -/
def Victim.byteAt (v : Victim) (a : Addr) : Option Byte := v.data[(a - v.line).toNat]?

/-- The copy-back buffer of a bank. -/
def State.victim (s : State) : Bank → Option Victim
  | .bankA => s.victimA
  | .bankB => s.victimB

/-- Sets the copy-back buffer of a bank. -/
def State.setVictim (s : State) (k : Bank) (v : Option Victim) : State :=
  match k with
  | .bankA => { s with victimA := v }
  | .bankB => { s with victimB := v }

/-- The byte the copy-back buffers hold for an address. -/
def State.victimByte (s : State) (a : Addr) : Option Byte :=
  match s.victimA.bind (·.byteAt a) with
  | some b => some b
  | none => s.victimB.bind (·.byteAt a)

/-- The byte that stores and lines on their way to memory, and memory itself, give for an address: what a line
fill or an uncached read finds behind the store buffer (R146 item 2, log 11). -/
def State.behindByte (s : State) (a : Addr) : Byte :=
  match newestByte s.writeBuf a with
  | some b => b
  | none =>
    match s.victimByte a with
    | some b => b
    | none => s.busByte a

/-- The byte a buffered store supplies to a load: store buffer, then write buffer (R149). -/
def State.bufferedByte (s : State) (a : Addr) : Option Byte :=
  match newestByte (s.storeBuf.map (·.entry)) a with
  | some b => some b
  | none => newestByte s.writeBuf a

/-- Performs the `n` oldest write buffer entries, in FIFO order (R63). -/
def State.performWrites (s : State) : Nat → State
  | 0 => s
  | n + 1 =>
    match s.writeBuf with
    | [] => s
    | e :: es => ({ s with writeBuf := es }.busWrite e.addr e.bytes).performWrites n

/-- Performs every write buffer entry, in FIFO order (R351). -/
def State.flushWrites (s : State) : State := s.performWrites s.writeBuf.length

/-- Performs a bank's pending line write-back (R351). -/
def State.performVictim (s : State) (k : Bank) : State :=
  match s.victim k with
  | none => s
  | some v => (s.setVictim k none).busWrite v.line v.data

/-- Performs a bank's pending line write-back when it is of the given line: what goes out later for that line
is then newer (log 10). -/
def State.settleVictim (s : State) (line : Addr) (k : Bank) : State :=
  if (s.victim k).map (·.line) = some line then s.performVictim k else s

/-- Performs every pending write-back of a line (log 10). -/
def State.settleVictims (s : State) (line : Addr) : State :=
  (s.settleVictim line .bankA).settleVictim line .bankB

/-- Performs the write buffer when it holds a store to a line (log 10). -/
def State.settleWrites (s : State) (line : Addr) : State :=
  if s.writeBuf.any fun e => lineAddr e.addr == line then s.flushWrites else s

/-- A store enters the write buffer; a full buffer performs its oldest entries first (R63, log 9). -/
def State.enqueueWrite (s : State) (e : BufEntry) : State :=
  let s1 := s.settleVictims (lineAddr e.addr)
  let s2 := s1.performWrites (s1.writeBuf.length + 1 - s1.writeBufDepth)
  { s2 with writeBuf := s2.writeBuf ++ [e] }

/-- A line enters its bank's copy-back buffer (R216, R223), one line deep (R64, log 10). -/
def State.enqueueVictim (s : State) (k : Bank) (v : Victim) : State :=
  (((s.settleWrites v.line).settleVictims v.line).performVictim k).setVictim k (some v)

end Sys2Proof.Machine
end

