-- ==== Sys2Proof/Machine/Protection.lean ====
section
/-! DEFINITION. The causes of exceptions (60_exceptions.md R412), the CPLB lookup (22_cplb_protection.md R254 to
R258) and the checks of a data access and of a fetch (R262; 20_memory.md R130 steps 1 to 5, R131 steps 1 and 2). -/

namespace Sys2Proof.Machine

/-- The causes of exceptions (R412) and the protected-resource exception (R379). -/
inductive Cause where
  | icplbMiss
  | instrProtViolation
  | illegalFetchAddress
  | icplbMultipleHit
  | instrMisaligned
  | dcplbMiss
  | dataProtViolation
  | illegalDataAddress
  | dagAccessToInstrMem
  | illegalMmrAccess
  /-- A multi-issue instruction's second MMR access (R124): no row of the table is multi-issue (log 16). -/
  | doubleMmrAccess
  | dataMisaligned
  | dcplbMultipleHit
  | protectedResource
  deriving DecidableEq, Repr

/-- The EXCAUSE code of a cause (R412). The protected-resource code is the family's: PRESUMED, log 15. -/
def Cause.code : Cause → BitVec 6
  | .icplbMiss => 0x2C
  | .instrProtViolation => 0x2B
  | .illegalFetchAddress => 0x2B
  | .icplbMultipleHit => 0x2D
  | .instrMisaligned => 0x2A
  | .dcplbMiss => 0x26
  | .dataProtViolation => 0x23
  | .illegalDataAddress => 0x23
  | .dagAccessToInstrMem => 0x23
  | .illegalMmrAccess => 0x23
  | .doubleMmrAccess => Config.doubleMmrAccessCode
  | .dataMisaligned => 0x24
  | .dcplbMultipleHit => 0x27
  | .protectedResource => 0x2E

/-- An exception to take (R430): its cause, its side, and what the status registers record (R280). -/
structure Exc where
  cause : Cause
  side : Side
  addr : Addr
  write : Bool
  dag : Dag
  deriving DecidableEq, Repr

/-- Why an access is not performed. -/
inductive Stop where
  | exception (e : Exc)
  | refusal (r : Refusal)
  deriving DecidableEq, Repr

/-- The sixteen descriptor numbers. -/
def slots : List (Fin 16) := [0, 1, 2, 3, 4, 5, 6, 7, 8, 9, 10, 11, 12, 13, 14, 15]

/-- Descriptor match (R254): valid, and the address lies in the page; the base's low bits are ignored (D14). -/
def Cplb.covers (c : Cplb) (a : Addr) : Bool :=
  c.valid && a.toNat / c.pageSize == c.addr.toNat / c.pageSize

/-- The descriptors of a group that match an address. -/
def matching (v : Vector Cplb 16) (a : Addr) : List (Fin 16) :=
  slots.filter fun n => (v[n.val]).covers a

/-- The outcome of a lookup (R255, R256). -/
inductive Lookup where
  | miss
  | hit (c : Cplb)
  | multiple
  deriving DecidableEq, Repr

/-- The lookup of an address in a group of sixteen (R255, R256, R257). -/
def lookup (v : Vector Cplb 16) (a : Addr) : Lookup :=
  match matching v a with
  | [] => .miss
  | [n] => .hit v[n.val]
  | _ => .multiple

/-- FAULT[15:0]: bit `n` is 1 when descriptor `n` matches (R280). -/
def faultBits (v : Vector Cplb 16) (a : Addr) : Word :=
  (matching v a).foldl (fun w n => w ||| flagBit true n.val) 0

/-- A data access to check: its address, width and direction, its DAG, and whether alignment and width
matter (`probe`: the cache instructions' check, never misaligned, R331). -/
structure Access where
  addr : Addr
  width : Width
  write : Bool
  dag : Dag
  probe : Bool
  deriving DecidableEq, Repr

/-- A 32-bit load through a pointer register: a DAG0 read (R390, R391). -/
def Access.load (a : Addr) : Access := { addr := a, width := .word, write := false, dag := .dag0, probe := false }

/-- A 32-bit store through a pointer register: a DAG0 write (R390, R393). -/
def Access.store (a : Addr) : Access := { addr := a, width := .word, write := true, dag := .dag0, probe := false }

/-- The check of a cache control instruction: a 1-byte DAG0 read (R331). -/
def Access.cacheControl (a : Addr) : Access :=
  { addr := a, width := .byte, write := false, dag := .dag0, probe := true }

/-- An exception of the data side. -/
def Access.exc (acc : Access) (c : Cause) : Stop :=
  .exception { cause := c, side := .data, addr := acc.addr, write := acc.write, dag := acc.dag }

/-- The alignment an access needs: its width (R140), and a whole word for a core MMR (R121, R412). -/
def Access.alignment (acc : Access) : Nat := if 0xFFE00000 ≤ acc.addr.toNat then 4 else acc.width.bytes

/-- The address is not a multiple of the alignment it needs (R140, R412). An access through a pointer register is never exempt by
DISALGNEXCPT (R374), so the disable of R67 is not consulted. -/
def Access.misaligned (acc : Access) : Bool := !acc.probe && acc.addr.toNat % acc.alignment != 0

/-- Reserved L1 space whose descriptor forwards the request to the EBIU (R264, log 19): CPLBs enabled, one
match, CPLB_L1SRAM = 0. -/
def forwarded (enabled : Bool) (l : Lookup) : Bool :=
  match l with
  | .hit c => enabled && !c.l1sram
  | _ => false

/-- Steps 1 to 4 of R130: the minimal address check, made even with the DCPLBs disabled (R419). -/
def State.minimalDataStop (s : State) (acc : Access) : Option Stop :=
  if acc.misaligned then some (acc.exc .dataMisaligned)
  else if inMmrSpace acc.addr then
    if s.mode = .user ∨ acc.dag = .dag1 then some (acc.exc .dataProtViolation)
    else if mmrExists acc.addr = false then some (acc.exc .illegalMmrAccess)
    else none
  else if inInstrMemory acc.addr then some (acc.exc .dagAccessToInstrMem)
  else if s.region acc.addr = .reservedData ∧ !forwarded s.enDcplb (lookup s.dcplb acc.addr) then
    some (acc.exc .illegalDataAddress)
  else none

/-- The permission check of R262 with a descriptor: the access is allowed. -/
def Cplb.permits (c : Cplb) (mode : Mode) (write : Bool) : Bool :=
  if write then
    (match mode with
      | .user => c.userWr
      | .supervisor => c.supvWr
      | .emulation => c.supvWr)
      && (!(c.chbl && !c.wt) || c.dirty)
  else
    match mode with
    | .user => c.userRd
    | .supervisor => true
    | .emulation => true

/-- How a page's accesses go through the data cache (R220). -/
inductive CacheMode where
  | uncached
  | writeThrough (allocate : Bool)
  | writeBack
  deriving DecidableEq, Repr

/-- A descriptor's cache mode (R220, R266). -/
def Cplb.cacheMode (c : Cplb) : CacheMode :=
  if !c.chbl then .uncached else if c.wt then .writeThrough c.aow else .writeBack

/-- A region with a default descriptor (R258): the scratchpad and MMR space. -/
def Region.hasDefault : Region → Bool
  | .scratchpad => true
  | .systemMmr => true
  | .coreMmr => true
  | _ => false

/-- Space that no descriptor may mark cacheable: L1 data SRAM, the scratchpad, MMR space (R204, U3). -/
def Region.neverCacheable : Region → Bool
  | .dataSram => true
  | .scratchpad => true
  | .systemMmr => true
  | .coreMmr => true
  | _ => false

/-- The check of a page hit by descriptor `c` (R256): R262, then U3 (log 24). Reserved L1 space that the descriptor
forwards (R264) is cacheable as any other page is. -/
def State.pageCheck (s : State) (acc : Access) (c : Cplb) : Except Stop CacheMode :=
  if !c.permits s.mode acc.write then .error (acc.exc .dataProtViolation)
  else if c.chbl && (s.region acc.addr).neverCacheable then .error (.refusal (.cacheableCoreSpace acc.addr))
  else .ok c.cacheMode

/-- Steps 1 to 5 of R130: the stop of the first check that fails, or the cache mode of the page. -/
def State.checkData (s : State) (acc : Access) : Except Stop CacheMode :=
  match s.minimalDataStop acc with
  | some st => .error st
  | none =>
    if !s.enDcplb then .ok .uncached
    else
      match lookup s.dcplb acc.addr with
      | .hit c => s.pageCheck acc c
      | .multiple => .error (acc.exc .dcplbMultipleHit)
      | .miss =>
        if (s.region acc.addr).hasDefault then .ok .uncached
        else .error (acc.exc .dcplbMiss)

/-- An exception of the instruction side. -/
def fetchExc (a : Addr) (c : Cause) : Stop :=
  .exception { cause := c, side := .instr, addr := a, write := false, dag := .dag0 }

/-- A fetch from the region is illegal whatever the descriptors say (R131 step 1): L1 data memory, MMR space.
Reserved space of the L1 data windows counts as L1 data memory: DESIGN CHOICE, log 19. -/
def Region.noFetch : Region → Bool
  | .dataSram => true
  | .scratchpad => true
  | .reservedData => true
  | .systemMmr => true
  | .coreMmr => true
  | _ => false

/-- How a fetch is performed: through the instruction cache, with the page's CPLB_LRUPRIO, or not (R255). -/
inductive FetchPath where
  | direct
  | cached (lruPrio : Bool)
  deriving DecidableEq, Repr

/-- Steps 1 and 2 of R131: the stop of the first check that fails, or how the fetch is performed (R255). -/
def State.checkFetch (s : State) (a : Addr) : Except Stop FetchPath :=
  if (s.region a).noFetch then .error (fetchExc a .illegalFetchAddress)
  else if s.region a = .reservedInstr ∧ !forwarded s.enIcplb (lookup s.icplb a) then
    .error (fetchExc a .illegalFetchAddress)
  else if !s.enIcplb then .ok .direct
  else
    match lookup s.icplb a with
    | .miss => .error (fetchExc a .icplbMiss)
    | .multiple => .error (fetchExc a .icplbMultipleHit)
    | .hit c =>
      if s.mode = .user ∧ !c.userRd then .error (fetchExc a .instrProtViolation)
      else if c.chbl && s.imc then .ok (.cached c.lruPrio)
      else .ok .direct

end Sys2Proof.Machine
end

