-- ==== Sys2Proof/Machine/ICache.lean ====
section
/-! DEFINITION. The instruction cache (21_l1_memories_and_caches.md R176 to R191): lookup, replacement with way and
priority locking, line fill, invalidation. A line's data are cells of the 16 KB bank (10_state.md R60, log 5). -/

namespace Sys2Proof.Machine

/-- A set of the instruction cache: sub-bank and set index (R178). -/
structure IPlace where
  sub : Nat
  set : Nat
  deriving DecidableEq, Repr

/-- The set of a fetch address: sub-bank A[13:12], set A[9:5] (R178). -/
def iplaceOf (a : Addr) : IPlace := { sub := fieldAt a 12 2, set := fieldAt a 5 5 }

/-- The set's key in State.icache. -/
def IPlace.key (pl : IPlace) : Nat := pl.sub * 32 + pl.set

/-- `itag(A) = A[31:14] ++ A[11:10]` (R178). -/
def itagOf (a : Addr) : BitVec 20 := a.extractLsb' 14 18 ++ a.extractLsb' 10 2

/-- The first cell of a line's data: sub-bank, way and set are address bits 13:12, 11:10 and 9:5 of the 16 KB bank
(R32, R196; log 5). -/
def IPlace.cells (pl : IPlace) (w : Fin 4) : Addr :=
  BitVec.ofNat 32 (0xFFA10000 + pl.sub * 0x1000 + w.val * 0x400 + pl.set * 0x20)

/-- The tag part of a set. -/
def State.iset (s : State) (pl : IPlace) : ISet := sparseGet ISet.empty s.icache pl.key

/-- Replaces the tag part of a set. -/
def State.setIset (s : State) (pl : IPlace) (st : ISet) : State :=
  { s with icache := sparseSet ISet.empty s.icache pl.key st }

/-- The four ways, Way0 first. -/
def iways : List (Fin 4) := [0, 1, 2, 3]

/-- A way holds the tag in a valid line (R179). -/
def ISet.holds (st : ISet) (t : BitVec 20) (w : Fin 4) : Bool :=
  (st.lines[w.val]).valid && (st.lines[w.val]).tag == t

/-- The way that hits, if one does (R179). Of two valid ways with one tag, which ITEST can write, the
lowest-numbered answers: DESIGN CHOICE, log 50. -/
def ISet.hitWay (st : ISet) (t : BitVec 20) : Option (Fin 4) := iways.find? (st.holds t)

/-- Marks a way most recently used (R180, D5). -/
def ISet.touchWay (st : ISet) (w : Fin 4) : ISet :=
  { st with recency := st.recency.filter (· ≠ w) ++ [w] }

/-- The way a fill replaces (R184 to R188): an invalid unlocked way, Way0 first; else the least recently used
unlocked low line; else, for a high line only, the least recently used unlocked way. None: not cached. -/
def ISet.victimWay (st : ISet) (locked : Fin 4 → Bool) (high : Bool) : Option (Fin 4) :=
  match iways.find? fun w => !locked w && !(st.lines[w.val]).valid with
  | some w => some w
  | none =>
    match st.recency.find? fun w => !locked w && !(st.lines[w.val]).lruPrio with
    | some w => some w
    | none => if high then st.recency.find? fun w => !locked w else none

/-- The set after a fill of way `w` (R180). -/
def ISet.fillWay (st : ISet) (w : Fin 4) (t : BitVec 20) (high : Bool) : ISet :=
  { st with lines := st.lines.set w.val { tag := t, valid := true, lruPrio := high } }.touchWay w

/-- A run of bytes from the bus. -/
def State.busBytes (s : State) (a : Addr) (n : Nat) : List Byte :=
  (List.range n).map fun k => s.busByte (a + BitVec.ofNat 32 k)

/-- The 64-bit-aligned address of the word that holds `a` (R131). -/
def wordAddr (a : Addr) : Addr := a &&& 0xFFFFFFF8

/-- The offset of an address in its 32-byte line. -/
def lineOffset (a : Addr) : Addr := a &&& 0x0000001F

/-- Reads the eight bytes of the 64-bit word of `a` through the instruction cache (R180): a hit answers from
the line; a miss fills from memory, into the victim way if there is one. -/
def State.cachedFetch (s : State) (a : Addr) (pagePrio : Bool) : List Byte × State :=
  let pl := iplaceOf a
  let st := s.iset pl
  match st.hitWay (itagOf a) with
  | some w => (Memory.readBytes s.mem (pl.cells w + lineOffset (wordAddr a)) 8, s.setIset pl (st.touchWay w))
  | none =>
    let high := pagePrio && !s.lruPrioRst
    let s1 := s.touch (lineAddr a)
    match st.victimWay s.iloc high with
    | none => (s.busBytes (wordAddr a) 8, s1)
    | some w =>
      (s.busBytes (wordAddr a) 8,
        { s1 with mem := Memory.writeBytes s1.mem (pl.cells w) (s.busBytes (lineAddr a) 32) }.setIset pl
          (st.fillWay w (itagOf a) high))

/-- A line without its Valid bit. What its other cells then hold is open (U14): DESIGN CHOICE, they keep their contents,
log 4. -/
def ILine.invalidate (l : ILine) : ILine := { l with valid := false }

/-- A set with `f` applied to each of its four lines. -/
def ISet.mapLines (st : ISet) (f : ILine → ILine) : ISet :=
  { st with lines := #v[f st.lines[0], f st.lines[1], f st.lines[2], f st.lines[3]] }

/-- A set with every line of a tag invalid (R336). -/
def ISet.dropTag (st : ISet) (t : BitVec 20) : ISet :=
  st.mapLines fun l => if l.valid && l.tag == t then l.invalidate else l

/-- Invalidates the line that holds an address, in whatever way it is (R336). -/
def State.invalidateInstrLine (s : State) (a : Addr) : State :=
  if s.imc then s.setIset (iplaceOf a) ((s.iset (iplaceOf a)).dropTag (itagOf a)) else s

/-- Every Valid bit of the instruction cache becomes 0 (R191). -/
def State.invalidateInstrCache (s : State) : State :=
  { s with icache := sparseMap ISet.empty (fun _ st => st.mapLines ILine.invalidate) s.icache }

/-- Every stored LRUPRIO bit becomes 0 (R189). -/
def State.clearLruPrio (s : State) : State :=
  { s with icache := sparseMap ISet.empty (fun _ st => st.mapLines fun l => { l with lruPrio := false }) s.icache }

end Sys2Proof.Machine
end

