-- ==== Sys2Proof/Machine/DCache.lean ====
section
/-! DEFINITION. The data cache (21_l1_memories_and_caches.md R210 to R227): bank selection, lookup, victim and
allocation, cached reads and stores, flush and invalidation. A line's data are cells of its bank (log 5). -/

namespace Sys2Proof.Machine

/-- A set of the data cache: bank, sub-bank and set index (R211). -/
structure DPlace where
  bank : Bank
  sub : Nat
  set : Nat
  deriving DecidableEq, Repr

/-- The number of a bank in State.dcache's keys. -/
def Bank.num : Bank → Nat
  | .bankA => 0
  | .bankB => 1

/-- The first cell of a bank's SRAM/cache half (R4). -/
def Bank.cacheBase : Bank → Nat
  | .bankA => 0xFF804000
  | .bankB => 0xFF904000

/-- The set's key in State.dcache. -/
def DPlace.key (pl : DPlace) : Nat := (pl.bank.num * 4 + pl.sub) * 64 + pl.set

/-- The first cell of a line's data: sub-bank, way and set are address bits 13:12, 11 and 10:5 of the half (R42;
log 5). -/
def DPlace.cells (pl : DPlace) (w : Fin 2) : Addr :=
  BitVec.ofNat 32 (pl.bank.cacheBase + pl.sub * 0x1000 + w.val * 0x800 + pl.set * 0x20)

/-- `dtag(A) = A[31:14] ++ A[11]` (R211). -/
def dtagOf (a : Addr) : BitVec 19 := a.extractLsb' 14 18 ++ a.extractLsb' 11 1

/-- The memory address of a line from its place and tag (R211, R216). -/
def DPlace.lineAddress (pl : DPlace) (t : BitVec 19) : Addr :=
  t.extractLsb' 1 18 ++ BitVec.ofNat 2 pl.sub ++ t.extractLsb' 0 1 ++ BitVec.ofNat 6 pl.set ++ (0 : BitVec 5)

/-- The bank an address is cached in (R212), if a bank is cache. -/
def State.bankFor (s : State) (a : Addr) : Option Bank :=
  match s.bankIsCache .bankA, s.bankIsCache .bankB with
  | true, true => some (if bitAt a (if s.dcbs then 23 else 14) then .bankA else .bankB)
  | true, false => some .bankA
  | false, true => some .bankB
  | false, false => none

/-- The set of a data address (R211), if the data cache is enabled. -/
def State.dplace (s : State) (a : Addr) : Option DPlace :=
  (s.bankFor a).map fun k => { bank := k, sub := fieldAt a 12 2, set := fieldAt a 5 6 }

/-- The tag part of a set. -/
def State.dset (s : State) (pl : DPlace) : DSet := sparseGet DSet.empty s.dcache pl.key

/-- Replaces the tag part of a set. -/
def State.setDset (s : State) (pl : DPlace) (st : DSet) : State :=
  { s with dcache := sparseSet DSet.empty s.dcache pl.key st }

/-- A way holds the tag in a valid line (R214). -/
def DSet.holds (st : DSet) (t : BitVec 19) (w : Fin 2) : Bool :=
  (st.lines[w.val]).valid && (st.lines[w.val]).tag == t

/-- The way that hits, if one does (R214, R332). Of two valid ways with one tag, which DTEST can write, Way0
answers: DESIGN CHOICE, log 50. -/
def DSet.hitWay (st : DSet) (t : BitVec 19) : Option (Fin 2) :=
  if st.holds t 0 then some 0 else if st.holds t 1 then some 1 else none

/-- The set with a way's line replaced. -/
def DSet.setLine (st : DSet) (w : Fin 2) (l : DLine) : DSet := { st with lines := st.lines.set w.val l }

/-- The set with a way marked last used (R61). -/
def DSet.touchWay (st : DSet) (w : Fin 2) : DSet := { st with lru := w == 1 }

/-- The way an allocation takes (R216, D13): an invalid way, Way0 first; else the way that was not last used. -/
def DSet.victimWay (st : DSet) : Fin 2 :=
  if !(st.lines[0]).valid then 0 else if !(st.lines[1]).valid then 1 else if st.lru then 0 else 1

/-- Copies a valid dirty line out, through the bank's copy-back buffer (R216, R225). -/
def State.writeBackLine (s : State) (pl : DPlace) (w : Fin 2) : State :=
  let l := (s.dset pl).lines[w.val]
  if l.valid && l.dirty then
    s.enqueueVictim pl.bank { line := pl.lineAddress l.tag, data := Memory.readBytes s.mem (pl.cells w) 32 }
  else s

/-- Fills a way with the line of `a`: the victim is copied out if dirty, the 32 bytes come from behind the
caches, the line becomes valid and clean and its way the last used (R216, R225, R333). -/
def State.allocateLine (s : State) (pl : DPlace) (w : Fin 2) (a : Addr) : State :=
  let s1 := (s.writeBackLine pl w).touch (lineAddr a)
  let line := (List.range 32).map fun k => s1.behindByte (lineAddr a + BitVec.ofNat 32 k)
  { s1 with mem := Memory.writeBytes s1.mem (pl.cells w) line }.setDset pl
    (((s.dset pl).setLine w { tag := dtagOf a, valid := true, dirty := false }).touchWay w)

/-- The way that holds the line of `a`, allocated if it was absent, and the state then; the way is marked
last used (R214, R225). -/
def State.lineFor (s : State) (pl : DPlace) (a : Addr) : Fin 2 × State :=
  match (s.dset pl).hitWay (dtagOf a) with
  | some w => (w, s.setDset pl ((s.dset pl).touchWay w))
  | none => ((s.dset pl).victimWay, s.allocateLine pl (s.dset pl).victimWay a)

/-- Writes bytes into a line's cells, and its Dirty bit when the page is write-back (R220, R222). -/
def State.writeLine (s : State) (pl : DPlace) (w : Fin 2) (a : Addr) (bs : List Byte) (markDirty : Bool) : State :=
  let st := s.dset pl
  let l := st.lines[w.val]
  { s with mem := Memory.writeBytes s.mem (pl.cells w + lineOffset a) bs }.setDset pl
    (st.setLine w { l with dirty := l.dirty || markDirty })

/-- A store to a write-back page reaches the cache (R222, R225). -/
def State.storeWriteBack (s : State) (pl : DPlace) (e : BufEntry) : State :=
  let (w, s1) := (s.settleWrites (lineAddr e.addr)).lineFor pl e.addr
  s1.writeLine pl w e.addr e.bytes true

/-- A store to a write-through page reaches the cache, if the line is there or is allocated on writes, and the
write buffer (R220, R221, R225). -/
def State.storeWriteThrough (s : State) (pl : DPlace) (e : BufEntry) (allocate : Bool) : State :=
  if ((s.dset pl).hitWay (dtagOf e.addr)).isSome || allocate then
    let (w, s1) := s.lineFor pl e.addr
    (s1.writeLine pl w e.addr e.bytes false).enqueueWrite e
  else s.enqueueWrite e

/-- PREFETCH's effect on a cacheable page: a hit does nothing, a miss allocates (R333). -/
def State.prefetchLine (s : State) (pl : DPlace) (a : Addr) : State :=
  match (s.dset pl).hitWay (dtagOf a) with
  | some _ => s
  | none => s.allocateLine pl (s.dset pl).victimWay a

/-- The line of `a` is written out if it is present and dirty, and becomes clean (R334). -/
def State.flushLine (s : State) (a : Addr) : State :=
  match s.dplace a with
  | none => s
  | some pl =>
    match (s.dset pl).hitWay (dtagOf a) with
    | none => s
    | some w =>
      let l := (s.dset pl).lines[w.val]
      if l.dirty then (s.writeBackLine pl w).setDset pl ((s.dset pl).setLine w { l with dirty := false }) else s

/-- The line of `a`, if present, is written out if dirty and becomes invalid (R335); its other cells keep their contents
(U14: DESIGN CHOICE, log 4). -/
def State.flushInvalidateLine (s : State) (a : Addr) : State :=
  match s.dplace a with
  | none => s
  | some pl =>
    match (s.dset pl).hitWay (dtagOf a) with
    | none => s
    | some w =>
      let l := (s.dset pl).lines[w.val]
      (s.writeBackLine pl w).setDset pl ((s.dset pl).setLine w { l with valid := false })

/-- A line without its Valid bit. What its other cells then hold is open (U14): DESIGN CHOICE, they keep their contents,
log 4. -/
def DLine.invalidate (l : DLine) : DLine := { l with valid := false }

/-- A set with `f` applied to both of its lines. -/
def DSet.mapLines (st : DSet) (f : DLine → DLine) : DSet := { st with lines := #v[f st.lines[0], f st.lines[1]] }

/-- The bank that a key of State.dcache belongs to. -/
def bankOfKey (k : Nat) : Bank := if k < 256 then .bankA else .bankB

/-- Every Valid bit of the banks that are not cache under a DMC code becomes 0 (R227, D8; log 30). -/
def State.invalidateDataBanks (s : State) (dmc : Nat) : State :=
  { s with
    dcache := sparseMap DSet.empty
      (fun k st => if bankIsCacheUnder dmc (bankOfKey k) then st else st.mapLines DLine.invalidate)
      s.dcache }

end Sys2Proof.Machine
end

