-- ==== Sys2Proof/Machine/Mmr.lean ====
section
/-! DEFINITION. Reading and writing the core MMRs, with what a write does: the cache controls (R30, R40, R189, R191,
R227) and the test commands (21_l1_memories_and_caches.md R196, R236). -/

namespace Sys2Proof.Machine

/-- The eight bytes of a test datum: ITEST_DATA0 or DTEST_DATA0 low, DATA1 high (R33, R34, R236). -/
def testBytes (d0 d1 : Word) : List Byte := bytesOf d0 4 ++ bytesOf d1 4

/-- The low word of eight bytes. -/
def lowWord (bs : List Byte) : Word := wordOf (bs.take 4)

/-- The high word of eight bytes. -/
def highWord (bs : List Byte) : Word := wordOf ((bs.drop 4).take 4)

/-- The tag view of an instruction cache line (R33). -/
def ILine.view (l : ILine) : Word :=
  ((l.tag.extractLsb' 2 18).setWidth 32 <<< 14) ||| ((l.tag.extractLsb' 0 2).setWidth 32 <<< 10)
    ||| flagBit l.lruPrio 1 ||| flagBit l.valid 0

/-- The line that a tag view describes (R33). -/
def ilineOfView (v : Word) : ILine :=
  { tag := v.extractLsb' 14 18 ++ v.extractLsb' 10 2, valid := bitAt v 0, lruPrio := bitAt v 1 }

/-- The tag view of a data cache line and its set's LRU bit (R43). -/
def dlineView (l : DLine) (lru : Bool) : Word :=
  ((l.tag.extractLsb' 1 18).setWidth 32 <<< 14) ||| ((l.tag.extractLsb' 0 1).setWidth 32 <<< 11)
    ||| flagBit lru 2 ||| flagBit l.dirty 1 ||| flagBit l.valid 0

/-- The line that a tag view describes (R43). -/
def dlineOfView (v : Word) : DLine :=
  { tag := v.extractLsb' 14 18 ++ v.extractLsb' 11 1, valid := bitAt v 0, dirty := bitAt v 1 }

/-- The set that an ITEST_COMMAND names: SBNK and SET (R32). -/
def itestPlace (c : Word) : IPlace := { sub := fieldAt c 16 2, set := fieldAt c 5 5 }

/-- WAYSEL (R32). -/
def itestWay (c : Word) : Fin 4 := Fin.ofNat 4 (fieldAt c 26 2)

/-- The first cell of the 64-bit word that an ITEST_COMMAND names: the same cell whether the bank is cache or
SRAM (R196). -/
def itestCell (c : Word) : Addr :=
  (itestPlace c).cells (itestWay c) + BitVec.ofNat 32 (8 * fieldAt c 3 2)

/-- The array access of a write to ITEST_COMMAND (R196). While the bank is SRAM there is no tag array (R60): a tag
write does nothing and a tag read gives a free value (log 28). -/
def State.itest (s : State) (c : Word) : State :=
  let pl := itestPlace c
  let w := itestWay c
  let st := s.iset pl
  if bitAt c 2 then
    if bitAt c 1 then { s with mem := Memory.writeBytes s.mem (itestCell c) (testBytes s.itestData0 s.itestData1) }
    else
      let bs := Memory.readBytes s.mem (itestCell c) 8
      { s with itestData0 := lowWord bs, itestData1 := highWord bs }
  else if s.imc then
    if bitAt c 1 then s.setIset pl { st with lines := st.lines.set w.val (ilineOfView s.itestData0) }
    else { s with itestData0 := (st.lines[w.val]).view }
  else if bitAt c 1 then s
  else { s with itestData0 := (Config.absentCell s.tick c).setWidth 32 }

/-- The set that a DTEST_COMMAND names: Data Bank Access, Subbank Access and Set Index (R42). -/
def dtestPlace (c : Word) : DPlace :=
  { bank := if bitAt c 23 then .bankB else .bankA, sub := fieldAt c 16 2, set := fieldAt c 5 6 }

/-- Access Way (R42). -/
def dtestWay (c : Word) : Fin 2 := if bitAt c 26 then 1 else 0

/-- The first cell of the 64-bit word that a data-array DTEST_COMMAND names (R236). -/
def dtestCell (c : Word) : Addr :=
  (dtestPlace c).cells (dtestWay c) + BitVec.ofNat 32 (8 * fieldAt c 3 2)

/-- The instruction SRAM address that a DTEST_COMMAND names (R236). -/
def dtestInstrAddr (c : Word) : Addr :=
  BitVec.ofNat 32 ((if bitAt c 23 then 0xFFA08000 else 0xFFA00000) + fieldAt c 14 1 * 0x4000
    + fieldAt c 16 2 * 0x1000 + fieldAt c 26 1 * 0x800 + fieldAt c 5 6 * 0x20 + fieldAt c 3 2 * 8)

/-- A DTEST_COMMAND whose effect the spec does not give: Data Cache Select 0 on a data access (R236: reserved), or
the tag array of instruction SRAM (N25). -/
def dtestReserved (c : Word) : Bool :=
  if bitAt c 24 then !bitAt c 2 else !bitAt c 14

/-- The access of a write to DTEST_COMMAND to the data cache arrays (R236). A bank that is not cache has no
arrays to reach (R103): a write does nothing and a read gives a free value (log 28). -/
def State.dtestData (s : State) (c : Word) : State :=
  let pl := dtestPlace c
  let w := dtestWay c
  let st := s.dset pl
  if s.bankIsCache pl.bank then
    if bitAt c 2 then
      if bitAt c 1 then { s with mem := Memory.writeBytes s.mem (dtestCell c) (testBytes s.dtestData0 s.dtestData1) }
      else
        let bs := Memory.readBytes s.mem (dtestCell c) 8
        { s with dtestData0 := lowWord bs, dtestData1 := highWord bs }
    else if bitAt c 1 then
      s.setDset pl { (st.setLine w (dlineOfView s.dtestData0)) with lru := bitAt s.dtestData0 2 }
    else { s with dtestData0 := dlineView st.lines[w.val] st.lru }
  else if bitAt c 1 then s
  else if bitAt c 2 then
    { s with
      dtestData0 := (Config.absentCell s.tick c).setWidth 32
      dtestData1 := (Config.absentCell s.tick c).extractLsb' 32 32 }
  else { s with dtestData0 := (Config.absentCell s.tick c).setWidth 32 }

/-- The access of a write to DTEST_COMMAND to L1 instruction SRAM (R236, R238). -/
def State.dtestInstr (s : State) (c : Word) : State :=
  if bitAt c 1 then
    { s with mem := Memory.writeBytes s.mem (dtestInstrAddr c) (testBytes s.dtestData0 s.dtestData1) }
  else
    let bs := Memory.readBytes s.mem (dtestInstrAddr c) 8
    { s with dtestData0 := lowWord bs, dtestData1 := highWord bs }

/-- The array access of a write to DTEST_COMMAND (R236). A reserved command is refused when it is stored
(`mmrStoreRefusal`); here it reaches no array. -/
def State.dtest (s : State) (c : Word) : State :=
  if dtestReserved c then s else if bitAt c 24 then s.dtestInstr c else s.dtestData c

/-- An interrupt service routine, not an exception handler, is what runs. -/
def State.inRoutine (s : State) : Bool :=
  match s.isrs with
  | [] => false
  | f :: _ => s.handling.isNone || f.inHandler

/-- A status or fault-address register read: the recorded value inside the handler of that side's exception,
unspecified at any other time (R280, R421; log 6). Whether an interrupt routine that runs inside that handler is such another
time is open: the value is free there too: DESIGN CHOICE, log 6. -/
def State.faultRegister (s : State) (side : Side) (v : Word) (a : Addr) : Word :=
  if s.handling = some side ∧ s.inRoutine = false then v else Config.staleFaultWord s.tick a.toNat

/-- The word a core MMR reads as (R51, R52); `a` is its address. -/
def State.readMmr (s : State) (name : MmrName) (a : Addr) : Word :=
  match name with
  | .dmemControl => s.dmemControl
  | .dcplbStatus => s.faultRegister .data s.dcplbStatus a
  | .dcplbFaultAddr => s.faultRegister .data s.dcplbFaultAddr a
  | .dcplbAddr n => (s.dcplb[n.val]).addr
  | .dcplbData n => (s.dcplb[n.val]).data
  | .dtestCommand => s.dtestCommand
  | .dtestData0 => s.dtestData0
  | .dtestData1 => s.dtestData1
  | .imemControl => s.imemControl
  | .icplbStatus => s.faultRegister .instr s.icplbStatus a
  | .icplbFaultAddr => s.faultRegister .instr s.icplbFaultAddr a
  | .icplbAddr n => (s.icplb[n.val]).addr
  | .icplbData n => (s.icplb[n.val]).data
  | .itestCommand => s.itestCommand
  | .itestData0 => s.itestData0
  | .itestData1 => s.itestData1
  | .evt3 => s.evt3
  | .iprio => s.iprio
  | .timerControl => s.timerControl

/-- The value a register holds after a store of `v`: its fields, the other bits 0 (R52). -/
def MmrName.pack (name : MmrName) (v : Word) : Word :=
  match name with
  | .dmemControl => packDmemControl v
  | .dcplbStatus => v
  | .dcplbFaultAddr => v
  | .dcplbAddr _ => packCplbAddr v
  | .dcplbData _ => packDcplbData v
  | .dtestCommand => packDtestCommand v
  | .dtestData0 => v
  | .dtestData1 => v
  | .imemControl => packImemControl v
  | .icplbStatus => v
  | .icplbFaultAddr => v
  | .icplbAddr _ => packCplbAddr v
  | .icplbData _ => packIcplbData v
  | .itestCommand => packItestCommand v
  | .itestData0 => v
  | .itestData1 => v
  | .evt3 => v
  | .iprio => packIprio v
  | .timerControl => v

/-- IMEM_CONTROL written: LRUPRIORST clears every stored LRUPRIO bit (R189); IMC = 0 invalidates (R191). -/
def State.writeImemControl (s : State) (v : Word) : State :=
  let s1 := { s with imemControl := packImemControl v }
  let s2 := if s1.lruPrioRst then s1.clearLruPrio else s1
  if s2.imc then s2 else s2.invalidateInstrCache

/-- DMEM_CONTROL written: the banks that are not cache any more lose their lines (R227, D8). -/
def State.writeDmemControl (s : State) (v : Word) : State :=
  { s with dmemControl := packDmemControl v }.invalidateDataBanks (dmcOf v)

/-- A core MMR written (R51); the write is ignored by a read-only register (R123, D4). -/
def State.writeMmr (s : State) (name : MmrName) (v : Word) : State :=
  match name with
  | .dmemControl => s.writeDmemControl v
  | .dcplbStatus => s
  | .dcplbFaultAddr => s
  | .dcplbAddr n => { s with dcplb := s.dcplb.set n.val { (s.dcplb[n.val]) with addr := packCplbAddr v } }
  | .dcplbData n => { s with dcplb := s.dcplb.set n.val { (s.dcplb[n.val]) with data := packDcplbData v } }
  | .dtestCommand => { s with dtestCommand := packDtestCommand v }.dtest (packDtestCommand v)
  | .dtestData0 => { s with dtestData0 := v }
  | .dtestData1 => { s with dtestData1 := v }
  | .imemControl => s.writeImemControl v
  | .icplbStatus => s
  | .icplbFaultAddr => s
  | .icplbAddr n => { s with icplb := s.icplb.set n.val { (s.icplb[n.val]) with addr := packCplbAddr v } }
  | .icplbData n => { s with icplb := s.icplb.set n.val { (s.icplb[n.val]) with data := packIcplbData v } }
  | .itestCommand => { s with itestCommand := packItestCommand v }.itest (packItestCommand v)
  | .itestData0 => { s with itestData0 := v }
  | .itestData1 => { s with itestData1 := v }
  | .evt3 => { s with evt3 := v }
  | .iprio => { s with iprio := packIprio v }
  | .timerControl => { s with timerControl := v }

/-- The register is a word of a page descriptor whose group is enabled (R51, R30, R40): what R273 speaks of. -/
def State.inEnabledGroup (s : State) (name : MmrName) : Bool :=
  match name with
  | .dcplbAddr _ => s.enDcplb
  | .dcplbData _ => s.enDcplb
  | .icplbAddr _ => s.enIcplb
  | .icplbData _ => s.enIcplb
  | _ => false

/-- A store whose value the register calls reserved: no effect is given (R40 DMC 01; R236, N25). -/
def mmrStoreRefusal (name : MmrName) (v : Word) : Option Refusal :=
  match name with
  | .dmemControl => if dmcOf v = 1 then some (.reservedCacheMode v) else none
  | .dtestCommand => if dtestReserved v then some (.reservedTestCommand v) else none
  | _ => none

end Sys2Proof.Machine
end

