-- ==== Sys2Proof/Machine/Ops.lean ====
section
/-! DEFINITION. The named operations of the machine: data reads and writes with their checks (20_memory.md R130), the
store buffer (R149), the drains of CSYNC and SSYNC (41_synchronisation.md R350, R351), taking an exception and the return from
one (60_exceptions.md R430, R432). -/

namespace Sys2Proof.Machine

open Host (Outcome)

/-! ### The store buffer -/

/-- A store leaves the store buffer and is performed (R149, R220). A write-back or write-through page whose bank
is no longer cache is written uncached (log 12). -/
def State.performStore (s : State) (ps : PendingStore) : State :=
  match ps.path with
  | .coreMmr =>
    match mmrAt ps.entry.addr with
    | some name => s.writeMmr name ps.entry.value
    | none => s
  | .sram => { s with mem := Memory.writeBytes s.mem ps.entry.addr ps.entry.bytes }
  | .writeBack =>
    match s.dplace ps.entry.addr with
    | some pl => s.storeWriteBack pl ps.entry
    | none => s.enqueueWrite ps.entry
  | .writeThrough allocate =>
    match s.dplace ps.entry.addr with
    | some pl => s.storeWriteThrough pl ps.entry allocate
    | none => s.enqueueWrite ps.entry
  | .uncached => s.enqueueWrite ps.entry

/-- Performs a list of stores in order. -/
def State.performStores (s : State) : List PendingStore → State
  | [] => s
  | ps :: rest => (s.performStore ps).performStores rest

/-- Empties the store buffer, oldest store first (R350). -/
def State.drainStores (s : State) : State := { s with storeBuf := [] }.performStores s.storeBuf

/-- Empties the store buffer, the write buffer and the copy-back buffers (R351, R355). -/
def State.drainAll (s : State) : State :=
  ((s.drainStores.flushWrites).performVictim .bankA).performVictim .bankB

/-- A store enters the store buffer and is complete for the core (R62, R145). -/
def State.pushStore (s : State) (e : BufEntry) (path : StorePath) : State :=
  { s with storeBuf := s.storeBuf ++ [{ entry := e, path := path }] }

/-! ### Data reads -/

/-- A byte as the program sees it: the buffers' over the given one (R148, R149). -/
def State.overlayByte (s : State) (a : Addr) (under : Byte) : Byte :=
  match s.bufferedByte a with
  | some b => b
  | none => under

/-- The bytes of a run as the program sees them, over the given ones. -/
def State.overlay (s : State) (a : Addr) : List Byte → List Byte
  | [] => []
  | b :: bs => s.overlayByte a b :: State.overlay s (a + 1) bs

/-- Every byte of a run is supplied by the buffers: the load does not reach its destination (R148). -/
def State.fullyBuffered (s : State) (a : Addr) (n : Nat) : Bool :=
  (List.range n).all fun k => (s.bufferedByte (a + BitVec.ofNat 32 k)).isSome

/-- The bytes a read finds under the buffers, and the state then: from L1 SRAM, through the data cache, or from
behind the caches (R130 step 6). -/
def State.readUnder (s : State) (a : Addr) (n : Nat) (mode : CacheMode) : List Byte × State :=
  match mode, s.dplace a with
  | .uncached, _ => ((List.range n).map fun k => s.behindByte (a + BitVec.ofNat 32 k), s.touch a)
  | _, none => ((List.range n).map fun k => s.behindByte (a + BitVec.ofNat 32 k), s.touch a)
  | _, some pl =>
    let (w, s1) := s.lineFor pl a
    (Memory.readBytes s1.mem (pl.cells w + lineOffset a) n, s1)

/-- The value a read returns and the state then (R130 step 6, R148, R225). -/
def State.readValue (s : State) (a : Addr) (n : Nat) (mode : CacheMode) : Word × State :=
  if s.fullyBuffered a n then (wordOf (s.overlay a (List.replicate n 0)), s)
  else
    let (bs, s1) := s.readUnder a n mode
    (wordOf (s.overlay a bs), s1)

/-- The value a load of a core MMR returns: the register, or what a buffered store holds for it (R148). -/
def State.readMmrValue (s : State) (name : MmrName) (a : Addr) : Word :=
  wordOf (s.overlay a (bytesOf (s.readMmr name a) 4))

/-- A read of a system MMR (R125, R154): one read on the PAB, of 32 bits too (PAB_WIDTH, P8, is OPEN: DESIGN CHOICE, log 26);
the value is free (log 26). -/
def State.readSystemMmr (s : State) (acc : Access) : Word × State :=
  (wordOf ((List.range acc.width.bytes).map fun k =>
      Config.systemMmrByte s.tick (acc.addr + BitVec.ofNat 32 k).toNat),
    { s with pab := s.pab ++ [.read acc.addr acc.width] })

/-- `MemRead(agent, addr, n)` (R130): the zero-extended little-endian value and the state after, or why the access
is not performed. -/
def State.memRead (s : State) (acc : Access) : Except Stop (Word × State) :=
  match s.checkData acc with
  | .error st => .error st
  | .ok mode =>
    match s.region acc.addr with
    | .systemMmr => .ok (s.readSystemMmr acc)
    | .coreMmr =>
      match acc.width, mmrAt acc.addr with
      | .word, some name => .ok (s.readMmrValue name acc.addr, s)
      | _, _ => .error (.refusal (.narrowMmrAccess acc.addr))
    | _ => .ok (s.readValue acc.addr acc.width.bytes mode)

/-! ### Data writes -/

/-- How a store to memory leaves the store buffer (R130 step 6, R220). -/
def State.storePath (s : State) (a : Addr) (mode : CacheMode) : StorePath :=
  match s.region a with
  | .dataSram => .sram
  | .scratchpad => .sram
  | _ =>
    match mode, s.dplace a with
    | .writeBack, some _ => .writeBack
    | .writeThrough allocate, some _ => .writeThrough allocate
    | _, _ => .uncached

/-- A store to a core MMR written at once: it takes the place of the stores to that register that still wait, which it would
overwrite (R149, log 13). -/
def State.writeMmrNow (s : State) (name : MmrName) (a : Addr) (v : Word) : State :=
  { s with storeBuf := s.storeBuf.filter fun ps => ps.entry.addr != a }.writeMmr name v

/-- A store to a core MMR: ignored by a read-only register (R123), refused where its value is reserved. It is buffered, with
the bits the register holds (R125, R394, R52, log 13); but a word of a page descriptor whose group is enabled is written at
once (R273, log 31). -/
def State.storeMmr (s : State) (name : MmrName) (a : Addr) (v : Word) : Except Stop State :=
  if name.readOnly then .ok s
  else
    match mmrStoreRefusal name v with
    | some r => .error (.refusal r)
    | none =>
      if s.inEnabledGroup name then .ok (s.writeMmrNow name a v)
      else .ok (s.pushStore { addr := a, width := .word, value := name.pack v } .coreMmr)

/-- A store to a system MMR (R125): one write on the PAB, of 32 bits too (P8: DESIGN CHOICE, log 26), past the store and write
buffers. -/
def State.writeSystemMmr (s : State) (acc : Access) (v : Word) : State :=
  { s with pab := s.pab ++ [.write { addr := acc.addr, width := acc.width, value := v }] }

/-- `MemWrite(agent, addr, n, v)` (R130): the state after, or why the access is not performed. -/
def State.memWrite (s : State) (acc : Access) (v : Word) : Except Stop State :=
  match s.checkData acc with
  | .error st => .error st
  | .ok mode =>
    match s.region acc.addr with
    | .systemMmr => .ok (s.writeSystemMmr acc v)
    | .coreMmr =>
      match acc.width, mmrAt acc.addr with
      | .word, some name => s.storeMmr name acc.addr v
      | _, _ => .error (.refusal (.narrowMmrAccess acc.addr))
    | _ =>
      .ok (s.pushStore { addr := acc.addr, width := acc.width, value := v } (s.storePath acc.addr mode))

/-! ### Exceptions -/

/-- DCPLB_STATUS as an exception records it (R48, R280). -/
def State.dataStatus (s : State) (e : Exc) : Word :=
  faultBits s.dcplb e.addr ||| flagBit e.write 16 ||| flagBit (s.mode != .user) 17
    ||| flagBit (e.dag == .dag1) 18 ||| flagBit (s.nonExistent e.addr) 19

/-- ICPLB_STATUS as an exception records it (R37, R280). -/
def State.instrStatus (s : State) (e : Exc) : Word :=
  faultBits s.icplb e.addr ||| flagBit (s.mode != .user) 17 ||| flagBit (s.nonExistent e.addr) 19

/-- The status and fault-address registers of the faulting side written (R280). -/
def State.recordFault (s : State) (e : Exc) : State :=
  match e.side with
  | .data => { s with dcplbStatus := s.dataStatus e, dcplbFaultAddr := e.addr }
  | .instr => { s with icplbStatus := s.instrStatus e, icplbFaultAddr := e.addr }
  | .core => s

/-- Exception entry (R430): the faulting side's registers written, EXCAUSE the code, RETX the address of the
faulting instruction (R431), Supervisor mode, delivery blocked, pc at EVT3. Nothing else changes (R434). -/
def State.enterException (s : State) (e : Exc) : State :=
  { s.recordFault e with
    excause := e.cause.code
    retx := s.pc
    savedMode := s.mode
    mode := .supervisor
    handling := some e.side
    pc := s.evt3 }

/-- Taking an exception: an exception inside a handler is a double fault (R433, U9). -/
def State.takeException (s : State) (e : Exc) : Outcome State Fault Refusal :=
  match s.handling with
  | some _ => .fault .doubleFault
  | none => .next (s.enterException e)

/-- Return from exception, the RTX step (R432): pc from RETX, the mode of the entry, delivery unblocked. -/
def State.returnFromException (s : State) : State :=
  { s with pc := s.retx, mode := s.savedMode, handling := none }

/-- The outcome of an instruction whose access is not performed (R400, R420). -/
def State.stopOutcome (s : State) (st : Stop) : Outcome State Fault Refusal :=
  match st with
  | .exception e => s.takeException e
  | .refusal r => .refused r

/-- The protected-resource exception of CLI and STI in User mode (R379). -/
def protectedResource (s : State) : Exc :=
  { cause := .protectedResource, side := .core, addr := s.pc, write := false, dag := .dag0 }

end Sys2Proof.Machine
end

