-- ==== Sys2Proof/Machine/Atomic.lean ====
section
/-! DEFINITION. TESTSET, the atomic instruction (42_atomic_and_misc.md R370 to R373). -/

namespace Sys2Proof.Machine

open Host (Outcome)

/-- TESTSET's access: a halfword by DAG0, checked for reading and for writing (R372). -/
def testsetAccess (a : Addr) (write : Bool) : Access :=
  { addr := a, width := .half, write := write, dag := .dag0, probe := false }

/-- The checks of TESTSET (R372): the minimal checks, then L1 and MMR space (U7), then the read and the
write permission, all before anything is done. A check common to both is recorded as the read's, FAULT_RW 0: DESIGN
CHOICE, log 27. -/
def State.testsetStop (s : State) (a : Addr) : Option Stop :=
  match s.minimalDataStop (testsetAccess a false) with
  | some st => some st
  | none =>
    if inCoreMemory a then some (.refusal (.testsetOnCoreMemory a))
    else
      match s.checkData (testsetAccess a false) with
      | .error st => some st
      | .ok _ =>
        match s.checkData (testsetAccess a true) with
        | .error st => some st
        | .ok _ => none

/-- The read and the write of TESTSET on memory itself, past the cache (R371), with this core's buffers
drained first (R373, D20). -/
def State.testAndSet (s : State) (a : Addr) : State :=
  let s1 := s.drainAll
  let b := s1.busByte a
  (s1.busWrite a [testsetByte b]).setCC (testsetFlag b)

/-- `TESTSET (Pp)` (R370). -/
def execTestset (p : PReg) (s : State) : Outcome State Fault Refusal :=
  match s.testsetStop (s.preg p) with
  | some st => s.stopOutcome st
  | none => .next ((s.testAndSet (s.preg p)).advance 2)

end Sys2Proof.Machine
end

