-- ==== Sys2Proof/Machine/Branch.lean ====
section
/-! DEFINITION. BITSET, the conditional jumps and the constant loads (43_load_store_examples.md R396 to R398). -/

namespace Sys2Proof.Machine

open Host (Outcome)

/-- `BITSET (Rd, n)` (R397): CC is unchanged; the other arithmetic flags are not in the spec (G16, log 40). -/
def execBitset (d : DReg) (n : Nat) (s : State) : Outcome State Fault Refusal :=
  .next ((s.setD d (s.dreg d ||| (1 : Word) <<< n)).advance 2)

/-- A conditional jump (R396). A taken jump leaves its fall-through address as the shadow in which reads may
have been issued (R151, log 38). -/
def State.condJump (s : State) (wanted : Bool) (o : Int) : Outcome State Fault Refusal :=
  if jumpTaken s wanted then .next { s with pc := jumpTarget s o, shadow := some (s.pc + 2) }
  else .next (s.advance 2)

/-- `IF CC JUMP t` (R396). -/
def execJumpCC (o : Int) (s : State) : Outcome State Fault Refusal := s.condJump true o

/-- `IF !CC JUMP t` (R396). -/
def execJumpNotCC (o : Int) (s : State) : Outcome State Fault Refusal := s.condJump false o

/-- `Pp.L = imm16` (R398). -/
def execPLow (p : PReg) (imm : Half) (s : State) : Outcome State Fault Refusal :=
  .next ((s.setP p (withLowHalf (s.preg p) imm)).advance 4)

/-- `Pp.H = imm16` (R398). -/
def execPHigh (p : PReg) (imm : Half) (s : State) : Outcome State Fault Refusal :=
  .next ((s.setP p (withHighHalf (s.preg p) imm)).advance 4)

end Sys2Proof.Machine
end

