-- ==== Sys2Proof/Machine/CacheControl.lean ====
section
/-! DEFINITION. The cache control instructions (40_cache_control.md R330 to R338), usable in every mode. -/

namespace Sys2Proof.Machine

open Host (Outcome)

/-- A cache instruction on the line of `a`: the check of R331, then its effect. -/
def State.cacheOp (s : State) (a : Addr) (effect : State → State) : Outcome State Fault Refusal :=
  match s.checkData (.cacheControl a) with
  | .error st => s.stopOutcome st
  | .ok _ => .next ((effect s).advance 2)

/-- PREFETCH's effect (R333): a NOP where the check would raise an exception, where the page is not cacheable or the
cache is disabled. -/
def State.prefetchOp (s : State) (a : Addr) (effect : State → State) : Outcome State Fault Refusal :=
  match s.checkData (.cacheControl a) with
  | .error (.refusal r) => .refused r
  | .error (.exception _) => .next ((effect s).advance 2)
  | .ok .uncached => .next ((effect s).advance 2)
  | .ok _ =>
    match s.dplace a with
    | none => .next ((effect s).advance 2)
    | some pl => .next ((effect (s.prefetchLine pl a)).advance 2)

/-- The post-increment of R338: one cache line. -/
def State.bumpPointer (s : State) (p : PReg) : State := s.setP p (s.preg p + 32)

/-- `PREFETCH [Pp]` (R333). -/
def execPrefetch (p : PReg) (s : State) : Outcome State Fault Refusal := s.prefetchOp (s.preg p) id

/-- `FLUSHINV [Pp]` (R335). -/
def execFlushinv (p : PReg) (s : State) : Outcome State Fault Refusal :=
  s.cacheOp (s.preg p) fun t => t.flushInvalidateLine (s.preg p)

/-- `FLUSH [Pp]` (R334). -/
def execFlush (p : PReg) (s : State) : Outcome State Fault Refusal :=
  s.cacheOp (s.preg p) fun t => t.flushLine (s.preg p)

/-- `IFLUSH [Pp]` (R336). -/
def execIflush (p : PReg) (s : State) : Outcome State Fault Refusal :=
  s.cacheOp (s.preg p) fun t => t.invalidateInstrLine (s.preg p)

/-- `PREFETCH [Pp++]` (R338). -/
def execPrefetchInc (p : PReg) (s : State) : Outcome State Fault Refusal :=
  s.prefetchOp (s.preg p) fun t => t.bumpPointer p

/-- `FLUSHINV [Pp++]` (R338). -/
def execFlushinvInc (p : PReg) (s : State) : Outcome State Fault Refusal :=
  s.cacheOp (s.preg p) fun t => (t.flushInvalidateLine (s.preg p)).bumpPointer p

/-- `FLUSH [Pp++]` (R338). -/
def execFlushInc (p : PReg) (s : State) : Outcome State Fault Refusal :=
  s.cacheOp (s.preg p) fun t => (t.flushLine (s.preg p)).bumpPointer p

/-- `IFLUSH [Pp++]` (R338). -/
def execIflushInc (p : PReg) (s : State) : Outcome State Fault Refusal :=
  s.cacheOp (s.preg p) fun t => (t.invalidateInstrLine (s.preg p)).bumpPointer p

end Sys2Proof.Machine
end

