-- ==== Sys2Proof/Machine/LoadStore.lean ====
section
/-! DEFINITION. The 32-bit loads and stores through a pointer register (43_load_store_examples.md R391 to R394). -/

namespace Sys2Proof.Machine

open Host (Outcome)

/-- `R[r] <- MemRead(DAG0, a, 4)`, then past the instruction's `len` bytes (R391, R392). -/
def State.loadWord (s : State) (r : DReg) (a : Addr) (len : Nat) : Outcome State Fault Refusal :=
  match s.memRead (.load a) with
  | .error st => s.stopOutcome st
  | .ok (v, s1) => .next ((s1.setD r v).advance len)

/-- `MemWrite(DAG0, a, 4, R[r])`, then past the instruction's `len` bytes (R393, R394). -/
def State.storeWord (s : State) (r : DReg) (a : Addr) (len : Nat) : Outcome State Fault Refusal :=
  match s.memWrite (.store a) (s.dreg r) with
  | .error st => s.stopOutcome st
  | .ok s1 => .next (s1.advance len)

/-- `Rr = [Pp]` (R391). -/
def execLoad (r : DReg) (p : PReg) (s : State) : Outcome State Fault Refusal := s.loadWord r (s.preg p) 2

/-- `[Pp] = Rr` (R393). -/
def execStore (p : PReg) (r : DReg) (s : State) : Outcome State Fault Refusal := s.storeWord r (s.preg p) 2

/-- `Rr = [Pp + u]` (R392, short form). -/
def execLoadShort (r : DReg) (p : PReg) (u : Nat) (s : State) : Outcome State Fault Refusal :=
  s.loadWord r (shortAddress s p u) 2

/-- `[Pp + u] = Rr` (R394, short form). -/
def execStoreShort (p : PReg) (u : Nat) (r : DReg) (s : State) : Outcome State Fault Refusal :=
  s.storeWord r (shortAddress s p u) 2

/-- `Rr = [Pp + s]` (R392, long form). -/
def execLoadLong (r : DReg) (p : PReg) (k : Int) (s : State) : Outcome State Fault Refusal :=
  s.loadWord r (longAddress s p k) 4

/-- `[Pp + s] = Rr` (R394, long form). -/
def execStoreLong (p : PReg) (k : Int) (r : DReg) (s : State) : Outcome State Fault Refusal :=
  s.storeWord r (longAddress s p k) 4

end Sys2Proof.Machine
end

