-- ==== Sys2Proof/Machine/Interrupts.lean ====
section
/-! DEFINITION. Taking an interrupt and the return from one (60_exceptions.md R440, R441; 21_l1_memories_and_caches.md R228),
and the return from an exception handler (R432). Interrupts carry the core's event numbers: 0 the highest priority, 5 the
hardware error (R425; log 37). -/

namespace Sys2Proof.Machine

/-- The hardware error's number (R425, R441). -/
def hardwareError : Fin 16 := 5

/-- IMASK lets interrupt `k` through: events 0 to 4 are not maskable (R441), bit `k` enables any other: PRESUMED, log 37. -/
def State.unmasked (s : State) (k : Fin 16) : Bool := decide (k.val < 5) || bitAt s.imask k.val

/-- Interrupt `k` is pending: requested and not yet taken, or the hardware error (R69, R425). -/
def State.pending (s : State) (k : Fin 16) : Bool :=
  s.irqPending[k.val] || (k == hardwareError && s.hwErrorPending)

/-- Interrupt `k` may be taken: IMASK allows it, it outranks every interrupted context's (R440, R441), and, while an
exception handler runs, the exception event, number 3 (R430). -/
def State.interruptible (s : State) (k : Fin 16) : Bool :=
  s.unmasked k && (s.isrs.all fun f => decide (k < f.level)) && (s.handling.isNone || decide (k.val < 3))

/-- The pending interrupt of highest priority that may be taken. -/
def State.nextInterrupt (s : State) : Option (Fin 16) := slots.find? fun k => s.pending k && s.interruptible k

/-- Where interrupt `k` enters: EVT3 is entry 3 of the event vector table (R73, R430), the others come from outside (R441,
log 37). -/
def State.vector (s : State) (k : Fin 16) : Addr := if k.val = 3 then s.evt3 else s.vectors[k.val]

/-- Interrupt `k` taken (R441): the context kept, Supervisor mode, pc at the handler; one above the watermark raises
the write buffer's depth to 8 (R228, R50). Its event number is what IPRIO_MARK is compared with, the hardware error's
too: DESIGN CHOICE, log 37. How Emulation mode is entered and left is open (R10, R411, N12): event 0 enters Supervisor mode
like any other, an interrupt is taken from Emulation mode as from Supervisor mode, and no step enters Emulation mode but a
return to a context that had it: DESIGN CHOICE, log 54. -/
def State.enterInterrupt (s : State) (k : Fin 16) : State :=
  { s with
    isrs := { level := k, returnPc := s.pc, returnMode := s.mode, inHandler := s.handling.isSome } :: s.isrs
    mode := .supervisor
    pc := s.vector k
    shadow := none
    irqPending := s.irqPending.set k.val false
    hwErrorPending := s.hwErrorPending && k != hardwareError
    writeBufDepth := if s.highPriority k.val then 8 else s.writeBufDepth }

/-- The pending interrupt of highest priority taken, if one may be. -/
def State.takeInterrupt (s : State) : State :=
  match s.nextInterrupt with
  | some k => s.enterInterrupt k
  | none => s

/-- The end of CSYNC and SSYNC (R350): a pending interrupt is taken before the instruction completes, which then runs
again after the return; with none left the instruction completes. -/
def State.synchronised (s : State) : State :=
  match s.nextInterrupt with
  | some k => s.enterInterrupt k
  | none => s.advance 2

/-- The interrupted contexts still hold a high-priority one (R228, R50). -/
def State.inHighPriority (s : State) : Bool := s.isrs.any fun f => s.highPriority f.level.val

/-- The core stalls until the write buffer is back to depth 2 (R228). Where IPRIO was rewritten while the routine ran, R50
does not say which mark counts: the one at the return does, not the one at the entry: DESIGN CHOICE, log 37. -/
def State.restoreDepth (s : State) : State :=
  if s.inHighPriority then s else { s.performWrites (s.writeBuf.length - 2) with writeBufDepth := 2 }

/-- Return from an interrupt (R440, R441): the interrupted pc and mode; leaving the last high-priority routine
brings the write buffer back to depth 2 (R228). No return leads to a mode other than the interrupted one, so User mode is never
entered from Supervisor mode's own contexts (R410 leaves its first entry open): DESIGN CHOICE, log 52. -/
def State.interruptReturn (s : State) : State :=
  match s.isrs with
  | [] => s
  | f :: fs =>
    if s.inRoutine then
      { s with isrs := fs, pc := f.returnPc, mode := f.returnMode, shadow := none }.restoreDepth
    else s

/-- The RTX step, if an exception handler is what runs (R432). -/
def State.exceptionReturn (s : State) : State :=
  if s.handling.isSome && !s.inRoutine then { s.returnFromException with shadow := none } else s

end Sys2Proof.Machine
end

