-- ==== Sys2Proof/Machine/System.lean ====
section
/-! DEFINITION. NOP, the synchronisation instructions (41_synchronisation.md), CLI, STI and DISALGNEXCPT
(42_atomic_and_misc.md R374 to R381). -/

namespace Sys2Proof.Machine

open Host (Outcome)

/-- `NOP` (R381). -/
def execNop (s : State) : Outcome State Fault Refusal := .next (s.advance 2)

/-- `CSYNC` (R350): the store buffer is emptied and every enabled pending interrupt taken before the next
instruction. No load is pending and nothing fetched earlier is kept between two steps of this machine. Usable in every mode
(G13). -/
def execCsync (s : State) : Outcome State Fault Refusal := .next s.drainStores.synchronised

/-- `SSYNC` (R351, R355): as CSYNC, and the write and copy-back buffers are emptied too. -/
def execSsync (s : State) : Outcome State Fault Refusal := .next s.drainAll.synchronised

/-- `CLI Rd` (R376, R379). R379 speaks of User and Supervisor mode; it completes in Emulation mode too: DESIGN CHOICE,
log 51. -/
def execCli (d : DReg) (s : State) : Outcome State Fault Refusal :=
  if s.mode = .user then s.takeException (protectedResource s)
  else .next ({ s.setD d s.imask with imask := 0 }.advance 2)

/-- `STI Rd` (R377, R379): what became pending meanwhile and is now enabled is taken after it. Whether the read of a load
right behind may then be in flight (R399, R478) is open: none is, DESIGN CHOICE, log 35. Emulation mode as in CLI: DESIGN
CHOICE, log 51. -/
def execSti (d : DReg) (s : State) : Outcome State Fault Refusal :=
  if s.mode = .user then s.takeException (protectedResource s)
  else .next ({ s with imask := s.dreg d }.advance 2).takeInterrupt

/-- `DISALGNEXCPT` (R374): alone a NOP of four bytes; the disable of R67 is false at every instruction
boundary. -/
def execDisalgnexcpt (s : State) : Outcome State Fault Refusal :=
  .next ({ s with alignExcOff := false }.advance 4)

end Sys2Proof.Machine
end

