-- ==== Sys2Proof/Machine/Dispatch.lean ====
section
/-! DEFINITION. The meaning of each instruction: one arm per constructor of Instr. -/

namespace Sys2Proof.Machine

open Host (Outcome)

def exec (i : Instr) (s : State) : Host.Outcome State Fault Refusal :=
  match i with
  | .nop => Sys2Proof.Machine.execNop s
  | .csync => Sys2Proof.Machine.execCsync s
  | .ssync => Sys2Proof.Machine.execSsync s
  | .cli d => Sys2Proof.Machine.execCli d s
  | .sti d => Sys2Proof.Machine.execSti d s
  | .testset p => Sys2Proof.Machine.execTestset p s
  | .prefetch p => Sys2Proof.Machine.execPrefetch p s
  | .flushinv p => Sys2Proof.Machine.execFlushinv p s
  | .flush p => Sys2Proof.Machine.execFlush p s
  | .iflush p => Sys2Proof.Machine.execIflush p s
  | .prefetchInc p => Sys2Proof.Machine.execPrefetchInc p s
  | .flushinvInc p => Sys2Proof.Machine.execFlushinvInc p s
  | .flushInc p => Sys2Proof.Machine.execFlushInc p s
  | .iflushInc p => Sys2Proof.Machine.execIflushInc p s
  | .load r p => Sys2Proof.Machine.execLoad r p s
  | .store p r => Sys2Proof.Machine.execStore p r s
  | .loadShort r p u => Sys2Proof.Machine.execLoadShort r p u s
  | .storeShort p u r => Sys2Proof.Machine.execStoreShort p u r s
  | .loadLong r p k => Sys2Proof.Machine.execLoadLong r p k s
  | .storeLong p k r => Sys2Proof.Machine.execStoreLong p k r s
  | .bitset d n => Sys2Proof.Machine.execBitset d n s
  | .jumpCC o => Sys2Proof.Machine.execJumpCC o s
  | .jumpNotCC o => Sys2Proof.Machine.execJumpNotCC o s
  | .pLow p imm => Sys2Proof.Machine.execPLow p imm s
  | .pHigh p imm => Sys2Proof.Machine.execPHigh p imm s
  | .disalgnexcpt => Sys2Proof.Machine.execDisalgnexcpt s

end Sys2Proof.Machine
end

