-- ==== Sys2Proof/Machine/Fetch.lean ====
section
/-! DEFINITION. Fetching an instruction's bytes (20_memory.md R131, R141; 30_encoding.md R304, R312, R318), and where the
bytes of the next instruction lie. -/

namespace Sys2Proof.Machine

/-- `Fetch(addr)` (R131): the eight bytes of the 64-bit word that holds `a`, and the state after, or why the fetch is
not performed. -/
def State.fetchWord (s : State) (a : Addr) : Except Stop (List Byte × State) :=
  match s.checkFetch a with
  | .error st => .error st
  | .ok .direct => .ok (s.busBytes (wordAddr a) 8, s.touch (wordAddr a))
  | .ok (.cached prio) => .ok (s.cachedFetch a prio)

/-- The length that the first unit of a run of bytes decides (R312). -/
def lengthOf : List Byte → Nat
  | b0 :: b1 :: _ => unitLength (halfOf b0 b1)
  | _ => 2

/-- The bytes of the instruction at pc and the state after its fetch, or why it cannot be fetched. An instruction
that straddles two 64-bit words takes two fetches (R131, R318); what the first one did stands when the second is
refused (log 34). An odd pc is the instruction-misaligned exception (R412), and is tested before the checks of R131:
DESIGN CHOICE, log 34. -/
def State.fetchInstr (s : State) : Except (State × Stop) (List Byte × State) :=
  if s.pc.toNat % 2 ≠ 0 then .error (s, fetchExc s.pc .instrMisaligned)
  else
    match s.fetchWord s.pc with
    | .error st => .error (s, st)
    | .ok (bs, s1) =>
      let avail := bs.drop (s.pc.toNat % 8)
      let len := lengthOf avail
      if len ≤ avail.length then .ok (avail.take len, s1)
      else
        match s1.fetchWord (wordAddr s.pc + 8) with
        | .error st => .error (s1, st)
        | .ok (bs2, s2) => .ok ((avail ++ bs2).take len, s2)

/-- The cell of memory from which a fetch of address `a` gets its byte: a line's cell on an instruction cache hit,
else the address itself. -/
def State.fetchCell (s : State) (a : Addr) : Addr :=
  match s.checkFetch a with
  | .ok (.cached _) =>
    match (s.iset (iplaceOf a)).hitWay (itagOf a) with
    | some w => (iplaceOf a).cells w + lineOffset a
    | none => a
  | _ => a

/-- Places bytes where fetches of `a`, `a + 1`, … get them. -/
def State.placeCode (s : State) (a : Addr) : List Byte → State
  | [] => s
  | b :: bs => State.placeCode { s with mem := Memory.write s.mem (s.fetchCell a) b } (a + 1) bs

end Sys2Proof.Machine
end

