-- ==== Sys2Proof/Machine/Inputs.lean ====
section
/-! DEFINITION. What happens between two instructions: the buffers' own moves (20_memory.md R149), DMA (R103),
speculative reads (R151), interrupts (60_exceptions.md R440, R441; 21_l1_memories_and_caches.md R228), the delivery of a hardware
error (R425) and the RTX step (R432). State.inputs says which of them, and when (log 7). -/

namespace Sys2Proof.Machine

open Host (Outcome)

/-- No store before position `i` shares a byte with the one there: it is the oldest for its own bytes (R149). -/
def oldestForItsBytes (buf : List PendingStore) (i : Nat) : Bool :=
  match buf[i]? with
  | none => false
  | some ps => (buf.take i).all fun q => !q.entry.overlaps ps.entry

/-- A drain step on the store buffer (R149): the store at position `i`, if it is the oldest for its bytes. -/
def State.drainStore (s : State) (i : Nat) : State :=
  match s.storeBuf[i]? with
  | none => s
  | some ps =>
    if oldestForItsBytes s.storeBuf i then { s with storeBuf := s.storeBuf.eraseIdx i }.performStore ps else s

/-- An instruction as the pipeline passes it before it has completed: a conditional jump is not resolved and is followed as
`taken` says, either way being possible (R151, R396; DESIGN CHOICE, log 38). -/
def State.passBy (s : State) (i : Instr) (taken : Bool) : Outcome State Fault Refusal :=
  match i with
  | .jumpCC o => .next { s with pc := if taken then jumpTarget s o else s.pc + 2 }
  | .jumpNotCC o => .next { s with pc := if taken then jumpTarget s o else s.pc + 2 }
  | i => exec i s

/-- The stream as the pipeline reaches it before the instructions ahead have completed, one instruction for each element of
the path: none past a CSYNC or SSYNC (R353), nor through an exception or an interrupt. Its registers are what counts; its
effects are not kept. -/
def State.runAhead (s : State) : List Bool → Option State
  | [] => some s
  | taken :: path =>
    match s.fetchInstr with
    | .error _ => none
    | .ok (bs, s1) =>
      match decode bs with
      | .error _ => none
      | .ok (.csync, _) => none
      | .ok (.ssync, _) => none
      | .ok (i, _) =>
        match s1.passBy i taken with
        | .next t => if t.handling = s.handling ∧ t.isrs = s.isrs then t.runAhead path else none
        | .fault _ => none
        | .refused _ => none

/-- The address that a load instruction reads (R391, R392). -/
def State.loadAddress (s : State) (i : Instr) : Option Addr :=
  match i with
  | .load _ p => some (s.preg p)
  | .loadShort _ p u => some (shortAddress s p u)
  | .loadLong _ p k => some (longAddress s p k)
  | _ => none

/-- The address that the instruction at pc reads, if it is a load. -/
def State.nextLoad (s : State) : Option Addr :=
  match s.fetchInstr with
  | .error _ => none
  | .ok (bs, s1) =>
    match decode bs with
    | .error _ => none
    | .ok (i, _) => s1.loadAddress i

/-- The address of the load that a path of instructions from `a` leads to. -/
def State.loadAhead (s : State) (a : Addr) (path : List Bool) : Option Addr :=
  ({ s with pc := a }.runAhead path).bind State.nextLoad

/-- A load's read issued and its value dropped: its line fill or bus request stands (R152, R219). MMR space is left
alone (R154), and so is an address that fails the checks of R130. -/
def State.issueRead (s : State) (a : Addr) : State :=
  if inMmrSpace a then s
  else
    match s.memRead (.load a) with
    | .error _ => s
    | .ok (_, s1) => s1

/-- The bus request of a word read alone: none where the buffers or a cached line supply the word, else one that nothing
answers in unpopulated space (R148, R214, R425). -/
def State.requestRead (s : State) (a : Addr) (mode : CacheMode) : State :=
  if s.fullyBuffered a 4 then s
  else
    match mode, s.dplace a with
    | .uncached, _ => s.touch a
    | _, none => s.touch a
    | _, some pl => if ((s.dset pl).hitWay (dtagOf a)).isSome then s else s.touch a

/-- The read of a load in the shadow of the branch just taken (R151, R396): of it only the bus request stays, a hardware
error where nothing answers (R354, R425); no line is filled or copied out for it (log 38). None to MMR space (R154), nor where
the checks of R130 stop it. -/
def State.speculativeRead (s : State) (path : List Bool) : State :=
  match s.shadow.bind fun f => s.loadAhead f path with
  | none => s
  | some a =>
    if inMmrSpace a then s
    else
      match s.checkData (.load a) with
      | .error _ => s
      | .ok mode => s.requestRead a mode

/-- An instruction fetch in the shadow of the branch just taken (R151, R354), as `speculativeRead`. -/
def State.speculativeFetch (s : State) (path : List Bool) : State :=
  match s.shadow.bind fun f => { s with pc := f }.runAhead path with
  | none => s
  | some t =>
    match { s with pc := t.pc }.fetchInstr with
    | .error (s1, _) => { s with hwErrorPending := s1.hwErrorPending }
    | .ok (_, s1) => { s with hwErrorPending := s1.hwErrorPending }

/-- The DMA controller may write the region (R103): memory outside the core, L1 data SRAM but not the scratchpad
(R106), L1 instruction SRAM. -/
def Region.dmaWritable : Region → Bool
  | .sdram => true
  | .async => true
  | .dataSram => true
  | .instrSram => true
  | _ => false

/-- One byte written by DMA; the caches do not see it (R156). One to reserved space, reserved L1 space included, is a
bus write that nothing answers (R425): DESIGN CHOICE for L1, log 42. -/
def State.dmaWrite (s : State) (a : Addr) (v : Byte) : State :=
  if (s.region a).dmaWritable then { s with mem := Memory.write s.mem a v }
  else if (s.region a).unpopulated then { s with hwErrorPending := true }
  else s

/-- Interrupt `k` requested (R441): it is pending until taken (R69). -/
def State.request (s : State) (k : Fin 16) : State := { s with irqPending := s.irqPending.set k.val true }

/-- An entry of the vector table that is not in the spec (R441, log 37). -/
def State.setVector (s : State) (k : Fin 16) (a : Addr) : State := { s with vectors := s.vectors.set k.val a }

/-- A pending interrupt taken while a load further on is in flight (R399): the load at pc, or one that a path of at most three
instructions from pc leads to, so with fewer than three between it and the one at pc, a CLI for instance (R478, log 35). The
load runs again after the return. -/
def State.cancelledLoad (s : State) (path : List Bool) : State :=
  match s.nextInterrupt with
  | none => s
  | some k =>
    match s.loadAhead s.pc (path.take 3) with
    | none => s.enterInterrupt k
    | some a => (s.issueRead a).enterInterrupt k

/-- What an event does. -/
def State.applyEvent (s : State) (e : Event) : State :=
  match e with
  | .drainStore i => s.drainStore i
  | .drainWrite => s.performWrites 1
  | .drainVictim k => s.performVictim k
  | .speculativeRead path => s.speculativeRead path
  | .speculativeFetch path => s.speculativeFetch path
  | .dmaWrite a v => s.dmaWrite a v
  | .setVector k a => s.setVector k a
  | .request k => s.request k
  | .takeInterrupt => s.takeInterrupt
  | .interruptReturn => s.interruptReturn
  | .exceptionReturn => s.exceptionReturn
  | .cancelledLoad path => s.cancelledLoad path

/-- A list of events, in order. -/
def State.applyEvents (s : State) : List Event → State
  | [] => s
  | e :: es => (s.applyEvent e).applyEvents es

/-- The instruction boundary: the events State.inputs says, or, where it says nothing more, every buffer empties (log 7).
The branch shadow ends, and the tick advances (log 6). -/
def State.boundary (s : State) : State :=
  let s1 :=
    match s.inputs with
    | [] => s.drainAll
    | es :: rest => { s with inputs := rest }.applyEvents es
  { s1 with shadow := none, tick := s1.tick + 1 }

end Sys2Proof.Machine
end

