-- ==== Sys2Proof/Machine/Step.lean ====
section
/-! DEFINITION. One step: fetch, decode, execute, and the instruction boundary after it. -/

namespace Sys2Proof.Machine

open Host (Outcome)

/-- The boundary after an instruction that gave a next state. -/
def State.finish (o : Outcome State Fault Refusal) : Outcome State Fault Refusal :=
  match o with
  | .next t => .next t.boundary
  | .fault f => .fault f
  | .refused r => .refused r

/-- One step of the machine: the instruction at pc is fetched (R131) and executed; a fetch that is not
performed takes its exception (R430); bytes that are no row of the opcode table are refused (R315). -/
def step (s : State) : Outcome State Fault Refusal :=
  match s.fetchInstr with
  | .error (s1, st) => State.finish (s1.stopOutcome st)
  | .ok (bs, s1) =>
    match decode bs with
    | .error e => .refused (.undecoded e)
    | .ok (i, _) => State.finish (exec i s1)

/-- The state with an instruction of the opcode table stored where step fetches its next instruction
(R301, R302, R313). It stands for the load of a program from outside the machine (log 3). -/
def State.withFetchWord (s : State) (nbits w : Nat) : State :=
  s.placeCode s.pc (unitsBytes (tableUnits nbits w))

end Sys2Proof.Machine
end

