-- ==== Sys2Proof/Safety.lean ====
section
/-! DEFINITION. The terms that claims use: completing, quiet buffers, an access that passes the checks, what a memory operation
may change, and the invariants of the machine. -/

namespace Sys2Proof.Machine

open Host (Outcome)

/-- The outcome is a next state: neither a fault nor a refusal. -/
def Completes (o : Outcome State Fault Refusal) : Prop := ∃ t, o = .next t

/-- Nothing waits in the store, write and copy-back buffers (R62 to R64). -/
def State.quiet (s : State) : Prop :=
  s.storeBuf = [] ∧ s.writeBuf = [] ∧ s.victimA = none ∧ s.victimB = none

/-- Memory that answers data accesses: SDRAM, the asynchronous banks, the flash, the boot ROM, L1 data SRAM, the
scratchpad (R101). -/
def Region.isDataMemory : Region → Bool
  | .sdram => true
  | .async => true
  | .flash => true
  | .bootRom => true
  | .dataSram => true
  | .scratchpad => true
  | _ => false

/-- External memory that keeps what is written to it: SDRAM and the asynchronous banks (R101, R107). -/
def Region.isExternalRam : Region → Bool
  | .sdram => true
  | .async => true
  | _ => false

/-- The page check lets an access through (R256, R258, R262; U3): the DCPLBs are disabled, or one descriptor matches and
permits it, or none does and the region has a default descriptor. -/
def State.pageAllows (s : State) (acc : Access) : Prop :=
  s.enDcplb = false ∨
  (∃ c, lookup s.dcplb acc.addr = .hit c ∧ c.permits s.mode acc.write = true ∧
    (c.chbl && (s.region acc.addr).neverCacheable) = false) ∨
  (lookup s.dcplb acc.addr = .miss ∧ (s.region acc.addr).hasDefault = true)

/-- A reserved L1 address that nothing forwards to the EBIU (R130 step 4, R264). -/
def State.reservedStop (s : State) (acc : Access) : Prop :=
  s.region acc.addr = .reservedData ∧ forwarded s.enDcplb (lookup s.dcplb acc.addr) = false

/-- An access outside MMR space that passes steps 1 to 5 of R130. -/
def State.memoryAccessOk (s : State) (acc : Access) : Prop :=
  acc.misaligned = false ∧ inMmrSpace acc.addr = false ∧ inInstrMemory acc.addr = false ∧ ¬ s.reservedStop acc ∧
    s.pageAllows acc

/-- What a load instruction does (R391, R392): its register, the address it reads, its length in bytes. -/
def State.loadForm (s : State) : Instr → Option (DReg × Addr × Nat)
  | .load r p => some (r, s.preg p, 2)
  | .loadShort r p u => some (r, shortAddress s p u, 2)
  | .loadLong r p k => some (r, longAddress s p k, 4)
  | _ => none

/-- What a store instruction does (R393, R394): its register, the address it writes, its length in bytes. -/
def State.storeForm (s : State) : Instr → Option (DReg × Addr × Nat)
  | .store p r => some (r, s.preg p, 2)
  | .storeShort p u r => some (r, shortAddress s p u, 2)
  | .storeLong p k r => some (r, longAddress s p k, 4)
  | _ => none

/-- What a fill of way `w` leaves in a bank's copy-back buffer when nothing waited there (R216): the line that was in the way,
if it was valid and dirty, in its own bank's. -/
def State.copiedOut (s : State) (pl : DPlace) (w : Fin 2) (k : Bank) : Option Victim :=
  let l := (s.dset pl).lines[w.val]
  if k = pl.bank ∧ l.valid = true ∧ l.dirty = true then
    some { line := pl.lineAddress l.tag, data := Memory.readBytes s.mem (pl.cells w) 32 }
  else none

/-- An aligned word access to an existing core MMR that passes steps 1 to 5 of R130 (R120 to R122). -/
def State.mmrAccessOk (s : State) (acc : Access) (name : MmrName) : Prop :=
  s.mode ≠ .user ∧ s.region acc.addr = .coreMmr ∧ mmrAt acc.addr = some name ∧ s.pageAllows acc

/-- How a page's accesses go through the data cache (R220, R256): uncached with the DCPLBs disabled and under a default
descriptor. -/
def State.pageMode (s : State) (a : Addr) : CacheMode :=
  if s.enDcplb then
    match lookup s.dcplb a with
    | .hit c => c.cacheMode
    | _ => .uncached
  else .uncached

/-- `t` is `s` but for the bus side: memory, the write and copy-back buffers and the pending hardware error. -/
def BusOnly (s t : State) : Prop :=
  t = { s with mem := t.mem, writeBuf := t.writeBuf, victimA := t.victimA, victimB := t.victimB,
               hwErrorPending := t.hwErrorPending }

/-- `t` is `s` but for the bus side and the data cache's tags. -/
def StorageOnly (s t : State) : Prop :=
  t = { s with mem := t.mem, dcache := t.dcache, writeBuf := t.writeBuf, victimA := t.victimA, victimB := t.victimB,
               hwErrorPending := t.hwErrorPending }

/-- `t` is `s` but for what performing buffered stores may change: the storage and the core MMRs that software can
write. -/
def DrainOnly (s t : State) : Prop :=
  t = { s with mem := t.mem, icache := t.icache, dcache := t.dcache, writeBuf := t.writeBuf, victimA := t.victimA,
               victimB := t.victimB, hwErrorPending := t.hwErrorPending, imemControl := t.imemControl, icplb := t.icplb,
               itestCommand := t.itestCommand, itestData0 := t.itestData0, itestData1 := t.itestData1,
               dmemControl := t.dmemControl, dcplb := t.dcplb, dtestCommand := t.dtestCommand,
               dtestData0 := t.dtestData0, dtestData1 := t.dtestData1, iprio := t.iprio,
               timerControl := t.timerControl, evt3 := t.evt3 }

/-! ### Invariants -/

/-- Memory is in its canonical form (R27). -/
def State.memoryCanonical (s : State) : Prop := Memory.wf s.mem = true

/-- The control registers hold what R52 lets them hold: reserved bits 0, bit 0 of the two memory controls 1, never the
reserved DMC code, and no store on its way to make it so (R31, R40, R41). -/
def State.controlsLegal (s : State) : Prop :=
  packImemControl s.imemControl = s.imemControl ∧ packDmemControl s.dmemControl = s.dmemControl ∧ s.dmc ≠ 1 ∧
  packIprio s.iprio = s.iprio ∧
  ∀ ps ∈ s.storeBuf, ps.path = .coreMmr → mmrAt ps.entry.addr = some .dmemControl → dmcOf ps.entry.value ≠ 1

/-- While a cache is disabled none of its lines is valid (R70, D8): the instruction cache while IMC = 0, a data bank's
while DMC leaves it SRAM. -/
def State.disabledCachesInvalid (s : State) : Prop :=
  sparseWf ISet.empty s.icache = true ∧ sparseWf DSet.empty s.dcache = true ∧
  (s.imc = false → ∀ k, ∀ w : Fin 4, ((sparseGet ISet.empty s.icache k).lines[w.val]).valid = false) ∧
  (∀ k, s.bankIsCache (bankOfKey k) = false →
    ∀ w : Fin 2, ((sparseGet DSet.empty s.dcache k).lines[w.val]).valid = false)

/-- Every set's recency order is an order of the four ways (R60, D5). -/
def State.recencyLegal (s : State) : Prop :=
  sparseWf ISet.empty s.icache = true ∧ ∀ k, (sparseGet ISet.empty s.icache k).recency.Perm iways

/-- The write buffer holds no more than its depth, which is 2 or 8 (R63, R228). -/
def State.writeBufferBounded (s : State) : Prop :=
  s.writeBuf.length ≤ s.writeBufDepth ∧ (s.writeBufDepth = 2 ∨ s.writeBufDepth = 8)

end Sys2Proof.Machine
end

