-- ==== Sys2Proof/Certificates/Slice0/Obligations.lean ====
section
/-! DEFINITION. The statements for the provers: what the numbered rules of spec/ say of the machine. Each docstring names
the rules; what rests on a choice of the model names its log entry. -/

open Sys2Proof Sys2Proof.Machine
open Host (Outcome)

/-! ### Encoding -/

/-- R313: words written out from the table decode to the instruction they stand for. Not the source's own words: the
encodings are the spec's general knowledge, 93_implementation_defined.md G11. -/
def Obligations.WrittenWordsDecode : Prop :=
  decodeTableWord 16 0x0000 = some .nop ∧ decodeTableWord 16 0x0037 = some (.cli .r7) ∧
  decodeTableWord 16 0x00B5 = some (.testset .p5) ∧ decodeTableWord 16 0x025A = some (.iflush .p2) ∧
  decodeTableWord 16 0x0271 = some (.flushInc .p1) ∧ decodeTableWord 16 0xA3C1 = some (.loadShort .r1 .p0 60) ∧
  decodeTableWord 32 0xE401FFFF = some (.loadLong .r1 .p0 (-4)) ∧ decodeTableWord 16 0x4AFF = some (.bitset .r7 31) ∧
  decodeTableWord 16 0x1BFE = some (.jumpCC (-2)) ∧ decodeTableWord 32 0xE148FFE0 = some (.pHigh .p0 0xFFE0) ∧
  decodeTableWord 32 0xC412C000 = some .disalgnexcpt

/-- R313, R301, R302: every well-formed instruction decodes from its stored bytes, whatever follows them. Not the
source's own words: the encodings are the spec's general knowledge, 93_implementation_defined.md G11. -/
def Obligations.DecodeOfEncode : Prop :=
  ∀ (i : Instr) (rest : List Byte), i.wf = true → decode (encodeBytes i ++ rest) = .ok (i, rest)

/-- R313: what decodes is well formed, and its encoding is exactly the bytes it was read from. Not the source's own
words: the encodings are the spec's general knowledge, 93_implementation_defined.md G11. -/
def Obligations.EncodeOfDecode : Prop :=
  ∀ (bs rest : List Byte) (i : Instr), decode bs = .ok (i, rest) → i.wf = true ∧ encodeBytes i ++ rest = bs

/-- R313: "no two rows of equal length overlap". Not the source's own words: the encodings are the spec's general
knowledge, 93_implementation_defined.md G11. -/
def Obligations.RowsDoNotOverlap : Prop :=
  shortRows.Pairwise (fun q r => ∀ h l, ¬ (q.accepts h l = true ∧ r.accepts h l = true)) ∧
  longRows.Pairwise (fun q r => ∀ h l, ¬ (q.accepts h l = true ∧ r.accepts h l = true))

/-- R312: the first unit decides the length. Not the source's own words: the length rule is the spec's general
knowledge, G11. -/
def Obligations.LengthFromFirstUnit : Prop :=
  ∀ h : Half,
    (h.extractLsb' 14 2 ≠ 3 → unitLength h = 2) ∧
    (h.extractLsb' 14 2 = 3 → h.extractLsb' 12 4 = 12 → h.getLsbD 11 = true → unitLength h = 8) ∧
    (h.extractLsb' 14 2 = 3 → ¬ (h.extractLsb' 12 4 = 12 ∧ h.getLsbD 11 = true) → unitLength h = 4)

/-! ### Fetch and step -/

/-- A step whose fetch is performed and whose bytes decode runs exec of the decoded instruction on the state the fetch
leaves, and then the instruction boundary (R131, log 7). Not the source's own words: the boundary's schedule of drains
and events is the model's choice, log 7. -/
def Obligations.StepRunsDecodedInstruction : Prop :=
  ∀ (s s1 : State) (bs rest : List Byte) (i : Instr),
    s.fetchInstr = .ok (bs, s1) → decode bs = .ok (i, rest) →
    step s = State.finish (exec i s1) ∧
    (∀ t, exec i s1 = .next t → step s = .next t.boundary) ∧
    (∀ f, exec i s1 = .fault f → step s = .fault f) ∧
    (∀ r, exec i s1 = .refused r → step s = .refused r)

/-- R131, R301, R302, R461: with the ICPLBs disabled, an instruction stored at an even pc in SDRAM or L1 instruction
SRAM (here below 0xFFA1 0000, away from the end of the region) is the one that the step runs. Not the source's own
words: encodings: G11; boundary: log 7. -/
def Obligations.StepRunsStoredInstruction : Prop :=
  ∀ (s : State) (i : Instr),
    s.enIcplb = false → s.pc.toNat % 2 = 0 →
    (s.pc.toNat + 16 ≤ 0x08000000 ∨ (0xFFA00000 ≤ s.pc.toNat ∧ s.pc.toNat + 16 ≤ 0xFFA10000)) →
    i.wf = true → Memory.readBytes s.mem s.pc (encodeBytes i).length = encodeBytes i →
    step s = State.finish (exec i s)

/-- R131 step 1, R105, R264: a fetch from L1 data memory, the scratchpad or MMR space, whatever the ICPLBs say, and a
fetch from reserved L1 instruction memory (0xFFA1 4000 to 0xFFAF FFFF) that no descriptor forwards to the EBIU, is an
illegal fetch address. Not the source's own words: its EXCAUSE 0x2B is the spec's general knowledge G18; the entry is
its decision D21; that reserved space of the data windows counts as L1 data memory: log 19. -/
def Obligations.IllegalFetchTraps : Prop :=
  ∀ s : State, s.pc.toNat % 2 = 0 → s.handling = none →
    ((0xFF800000 ≤ s.pc.toNat ∧ s.pc.toNat < 0xFFA00000) ∨ 0xFFB00000 ≤ s.pc.toNat ∨
      (0xFFA14000 ≤ s.pc.toNat ∧ s.pc.toNat < 0xFFB00000 ∧
        forwarded s.enIcplb (lookup s.icplb s.pc) = false)) →
    ∃ t, s.fetchInstr = .error (s, fetchExc s.pc .illegalFetchAddress) ∧
      s.stopOutcome (fetchExc s.pc .illegalFetchAddress) = .next t ∧ step s = .next t.boundary ∧
      t.excause = 0x2B ∧ t.retx = s.pc ∧ t.pc = s.evt3 ∧ t.mode = .supervisor ∧ t.icplbFaultAddr = s.pc

/-- R255, R257, R131: with the ICPLBs enabled, a fetch outside the space that step 1 of R131 refuses is checked
against the sixteen descriptors. An allowed one goes through the instruction cache when the page is cacheable and IMC
is 1, else to memory. Not the source's own words: the multiple hit is the spec's general knowledge G10. -/
def Obligations.IcplbLookup : Prop :=
  ∀ (s : State) (a : Addr), s.enIcplb = true → (s.region a).noFetch = false → s.region a ≠ .reservedInstr →
    (matching s.icplb a = [] → s.checkFetch a = .error (fetchExc a .icplbMiss)) ∧
    (2 ≤ (matching s.icplb a).length → s.checkFetch a = .error (fetchExc a .icplbMultipleHit)) ∧
    (∀ n, matching s.icplb a = [n] → s.mode = .user → (s.icplb[n.val]).userRd = false →
      s.checkFetch a = .error (fetchExc a .instrProtViolation)) ∧
    (∀ n, matching s.icplb a = [n] → (s.mode ≠ .user ∨ (s.icplb[n.val]).userRd = true) →
      ((s.icplb[n.val]).chbl = true → s.imc = true →
        s.checkFetch a = .ok (.cached (s.icplb[n.val]).lruPrio) ∧
        s.fetchWord a = .ok (s.cachedFetch a (s.icplb[n.val]).lruPrio)) ∧
      ((s.icplb[n.val]).chbl = false ∨ s.imc = false →
        s.checkFetch a = .ok .direct ∧
        s.fetchWord a = .ok (s.busBytes (wordAddr a) 8, s.touch (wordAddr a))))

/-! ### CPLBs and the checks of a data access -/

/-- R254: a descriptor matches an address when it is valid and both lie in the same page of its size. Not the source's
own words: the PAGE_SIZE codes are the spec's general knowledge G3. -/
def Obligations.DescriptorMatch : Prop :=
  ∀ (c : Cplb) (a : Addr),
    c.covers a = true ↔
      c.data.getLsbD 0 = true ∧
      a.toNat / ([1024, 4096, 1048576, 4194304].getD (c.data.extractLsb' 16 2).toNat 0) =
        c.addr.toNat / ([1024, 4096, 1048576, 4194304].getD (c.data.extractLsb' 16 2).toNat 0)

/-- R120: MMR space is closed to User mode and to DAG1, with the DCPLBs enabled or not. -/
def Obligations.MmrSpaceIsPrivileged : Prop :=
  ∀ (s : State) (acc : Access), acc.misaligned = false → 0xFFC00000 ≤ acc.addr.toNat →
    (s.mode = .user ∨ acc.dag = .dag1) → s.checkData acc = .error (acc.exc .dataProtViolation)

/-- R262, R263, R220, R256, R130 steps 5 and 6: a data access that passes the checks before the page's. With ENDCPLB 0
it is allowed and uncached. Under the one descriptor that hits: which permission bit a read or a write needs, in every
mode, and CPLB_DIRTY for a write to a write-back page; an access that has what it needs is no protection violation,
and it is allowed with the page's cache mode: uncached with CPLB_L1_CHBL 0, write-through, allocating on writes as
CPLB_L1_AOW says, with CPLB_WT 1, write-back with CPLB_WT 0; but a cacheable page over space that no cache holds is
refused (U3). Whether a bank is cache for the address (DMC) is said where the access is performed. Not the source's
own words: Emulation checked as Supervisor: the spec's own inference in R262, and R263's that other pages ignore the
bit; the bits' positions in the descriptor: its general knowledge G3; the refusal: U3, log 24. -/
def Obligations.PagePermissions : Prop :=
  ∀ (s : State) (acc : Access), s.minimalDataStop acc = none →
    (s.enDcplb = false → s.checkData acc = .ok .uncached ∧ s.pageMode acc.addr = .uncached) ∧
    ∀ c : Cplb, s.enDcplb = true → lookup s.dcplb acc.addr = .hit c →
    (acc.write = false → s.mode = .user → c.userRd = false → s.checkData acc = .error (acc.exc .dataProtViolation)) ∧
    (acc.write = true → s.mode = .user → c.userWr = false → s.checkData acc = .error (acc.exc .dataProtViolation)) ∧
    (acc.write = true → s.mode ≠ .user → c.supvWr = false → s.checkData acc = .error (acc.exc .dataProtViolation)) ∧
    (acc.write = true → c.chbl = true → c.wt = false → c.dirty = false →
      s.checkData acc = .error (acc.exc .dataProtViolation)) ∧
    (acc.write = false → (s.mode ≠ .user ∨ c.userRd = true) →
      s.checkData acc ≠ .error (acc.exc .dataProtViolation)) ∧
    (acc.write = true → ((s.mode = .user ∧ c.userWr = true) ∨ (s.mode ≠ .user ∧ c.supvWr = true)) →
      ¬ (c.chbl = true ∧ c.wt = false ∧ c.dirty = false) → s.checkData acc ≠ .error (acc.exc .dataProtViolation)) ∧
    (c.permits s.mode acc.write = true →
      (c.data.getLsbD 12 = true → (s.region acc.addr).neverCacheable = true →
        s.checkData acc = .error (.refusal (.cacheableCoreSpace acc.addr))) ∧
      ∀ m : CacheMode,
        (c.data.getLsbD 12 = false ∧ m = .uncached) ∨
          (c.data.getLsbD 12 = true ∧ (s.region acc.addr).neverCacheable = false ∧
            ((c.data.getLsbD 14 = true ∧ m = .writeThrough (c.data.getLsbD 15)) ∨
              (c.data.getLsbD 14 = false ∧ m = .writeBack))) →
        s.checkData acc = .ok m ∧ s.pageMode acc.addr = m)

/-- R256, R257: with the DCPLBs enabled, no match is a miss where no default descriptor stands, and two matches are a
multiple hit. Not the source's own words: the multiple hit is the spec's general knowledge G10, the default
descriptors its decision D15. -/
def Obligations.DcplbMissAndMultipleHit : Prop :=
  ∀ (s : State) (acc : Access), s.enDcplb = true → s.minimalDataStop acc = none →
    (matching s.dcplb acc.addr = [] → (s.region acc.addr).hasDefault = false →
      s.checkData acc = .error (acc.exc .dcplbMiss)) ∧
    (matching s.dcplb acc.addr = [] → (s.region acc.addr).hasDefault = true → s.checkData acc = .ok .uncached) ∧
    (2 ≤ (matching s.dcplb acc.addr).length → s.checkData acc = .error (acc.exc .dcplbMultipleHit))

/-- R140, R130 step 1, R400: a word load or store at an address that is no multiple of 4 takes the misaligned
exception, before any other check, with no effect of its own. Not the source's own words: natural alignment is the
spec's general knowledge G8; its place before the other checks is its decision D10. -/
def Obligations.MisalignedAccessTraps : Prop :=
  ∀ (s : State) (r : DReg) (p : PReg) (u : Nat) (k : Int),
    ((s.preg p).toNat % 4 ≠ 0 →
      exec (.load r p) s = s.stopOutcome ((Access.load (s.preg p)).exc .dataMisaligned) ∧
      exec (.store p r) s = s.stopOutcome ((Access.store (s.preg p)).exc .dataMisaligned)) ∧
    ((shortAddress s p u).toNat % 4 ≠ 0 →
      exec (.loadShort r p u) s = s.stopOutcome ((Access.load (shortAddress s p u)).exc .dataMisaligned) ∧
      exec (.storeShort p u r) s = s.stopOutcome ((Access.store (shortAddress s p u)).exc .dataMisaligned)) ∧
    ((longAddress s p k).toNat % 4 ≠ 0 →
      exec (.loadLong r p k) s = s.stopOutcome ((Access.load (longAddress s p k)).exc .dataMisaligned) ∧
      exec (.storeLong p k r) s = s.stopOutcome ((Access.store (longAddress s p k)).exc .dataMisaligned))

/-- R418, R130 step 3, R333: a DAG reference to L1 instruction memory takes DAGAccessToInstrMem: an aligned load or
store of every form, TESTSET at an even address, FLUSH, FLUSHINV and IFLUSH in both forms (the post-increment one then
leaves its pointer alone); PREFETCH is then a NOP. TESTSET's clause, the exception before the refusal of U7 and
recorded as the read's, is the model's choice. Not the source's own words: the cache instructions' checks: D18;
TESTSET's clause: log 27. -/
def Obligations.DagAccessToInstructionMemory : Prop :=
  ∀ (s : State) (r : DReg) (p : PReg) (u : Nat) (k : Int),
    (inInstrMemory (s.preg p) = true → (s.preg p).toNat % 4 = 0 →
      exec (.load r p) s = s.stopOutcome ((Access.load (s.preg p)).exc .dagAccessToInstrMem) ∧
      exec (.store p r) s = s.stopOutcome ((Access.store (s.preg p)).exc .dagAccessToInstrMem)) ∧
    (inInstrMemory (shortAddress s p u) = true → (shortAddress s p u).toNat % 4 = 0 →
      exec (.loadShort r p u) s = s.stopOutcome ((Access.load (shortAddress s p u)).exc .dagAccessToInstrMem) ∧
      exec (.storeShort p u r) s = s.stopOutcome ((Access.store (shortAddress s p u)).exc .dagAccessToInstrMem)) ∧
    (inInstrMemory (longAddress s p k) = true → (longAddress s p k).toNat % 4 = 0 →
      exec (.loadLong r p k) s = s.stopOutcome ((Access.load (longAddress s p k)).exc .dagAccessToInstrMem) ∧
      exec (.storeLong p k r) s = s.stopOutcome ((Access.store (longAddress s p k)).exc .dagAccessToInstrMem)) ∧
    (inInstrMemory (s.preg p) = true → (s.preg p).toNat % 2 = 0 →
      exec (.testset p) s = s.stopOutcome ((testsetAccess (s.preg p) false).exc .dagAccessToInstrMem)) ∧
    (inInstrMemory (s.preg p) = true →
      (∀ i ∈ ([.flush p, .flushinv p, .iflush p, .flushInc p, .flushinvInc p, .iflushInc p] : List Instr),
        exec i s = s.stopOutcome ((Access.cacheControl (s.preg p)).exc .dagAccessToInstrMem)) ∧
      exec (.prefetch p) s = .next { s with pc := s.pc + 2 } ∧
      exec (.prefetchInc p) s = .next { s with p := s.p.set p (s.preg p + 32), pc := s.pc + 2 })

/-- R122, R130 steps 2 and 4, R264: an aligned word load or store of every form, outside User mode, at an address of
core MMR space where no register stands takes the illegal MMR access, and one in reserved space of the L1 data windows
that no descriptor forwards to the EBIU takes, in every mode, the illegal data address. Not the source's own words:
the order of the checks is the spec's decision D10; which core MMR addresses exist beside R51's: logs 14, 47 to 49;
forwarding: log 19. -/
def Obligations.IllegalAddressesTrap : Prop :=
  ∀ (s : State) (i : Instr) (r : DReg) (a : Addr) (len : Nat) (acc : Access), a.toNat % 4 = 0 →
    ((s.loadForm i = some (r, a, len) ∧ acc = .load a) ∨ (s.storeForm i = some (r, a, len) ∧ acc = .store a)) →
    (s.mode ≠ .user → 0xFFE00000 ≤ a.toNat → mmrAt a = none → exec i s = s.stopOutcome (acc.exc .illegalMmrAccess)) ∧
    (((0xFF808000 ≤ a.toNat ∧ a.toNat < 0xFF900000) ∨ (0xFF908000 ≤ a.toNat ∧ a.toNat < 0xFFA00000) ∨
        (0xFFB01000 ≤ a.toNat ∧ a.toNat < 0xFFC00000)) →
      forwarded s.enDcplb (lookup s.dcplb a) = false → exec i s = s.stopOutcome (acc.exc .illegalDataAddress))

/-! ### Exceptions -/

/-- R280: what an exception records, and nothing else of the machine: the fault address, the sixteen match bits,
FAULT_RW, FAULT_USERSUPV, FAULT_DAG, FAULT_ILLADDR of the side's own registers (User and Supervisor mode; Emulation:
log 17). Not the source's own words: bit positions: the spec's general knowledge G3; FAULT_ILLADDR from the address:
log 18. -/
def Obligations.FaultRecord : Prop :=
  ∀ (s : State) (e : Exc), s.mode ≠ .emulation →
    (e.side = .data →
      s.recordFault e = { s with dcplbStatus := (s.recordFault e).dcplbStatus, dcplbFaultAddr := e.addr } ∧
      (∀ n : Fin 16, (s.recordFault e).dcplbStatus.getLsbD n.val = (s.dcplb[n.val]).covers e.addr) ∧
      (s.recordFault e).dcplbStatus.getLsbD 16 = e.write ∧
      ((s.recordFault e).dcplbStatus.getLsbD 17 = true ↔ s.mode = .supervisor) ∧
      ((s.recordFault e).dcplbStatus.getLsbD 18 = true ↔ e.dag = .dag1) ∧
      (s.recordFault e).dcplbStatus.getLsbD 19 = s.nonExistent e.addr) ∧
    (e.side = .instr →
      s.recordFault e = { s with icplbStatus := (s.recordFault e).icplbStatus, icplbFaultAddr := e.addr } ∧
      (∀ n : Fin 16, (s.recordFault e).icplbStatus.getLsbD n.val = (s.icplb[n.val]).covers e.addr) ∧
      ((s.recordFault e).icplbStatus.getLsbD 17 = true ↔ s.mode = .supervisor) ∧
      (s.recordFault e).icplbStatus.getLsbD 19 = s.nonExistent e.addr)

/-- R430, R431, R434: what exception entry writes, and that it writes nothing else: the fault registers of the
faulting side, EXCAUSE, RETX with the address of the faulting instruction, the mode, the pc; until the return no
interrupt from the exception event's priority down is taken and another exception is a double fault (U9). R412: the
code of each cause. R421, R280: the handler reads in the faulting side's registers what was recorded, unless the entry
came in an interrupt routine inside a handler. Not the source's own words: the mechanism is the spec's decision D21
and general knowledge G17; the codes are its general knowledge G18, the protected resource's 0x2E log 15;
DoubleMMRAccess has none there and no instruction raises it, log 16; the double fault is U9, log 32; the interrupts'
numbers: log 37. -/
def Obligations.ExceptionEntry : Prop :=
  ∀ (s : State) (e : Exc), s.handling = none →
    ∃ t, s.takeException e = .next t ∧
      t = { s with icplbStatus := (s.recordFault e).icplbStatus, icplbFaultAddr := (s.recordFault e).icplbFaultAddr,
                   dcplbStatus := (s.recordFault e).dcplbStatus, dcplbFaultAddr := (s.recordFault e).dcplbFaultAddr,
                   excause := e.cause.code, retx := s.pc, savedMode := s.mode, mode := .supervisor,
                   handling := some e.side, pc := s.evt3 } ∧
      t.excause = (match e.cause with
        | .icplbMiss => 0x2C
        | .instrProtViolation => 0x2B
        | .illegalFetchAddress => 0x2B
        | .icplbMultipleHit => 0x2D
        | .instrMisaligned => 0x2A
        | .dcplbMiss => 0x26
        | .dataProtViolation => 0x23
        | .illegalDataAddress => 0x23
        | .dagAccessToInstrMem => 0x23
        | .illegalMmrAccess => 0x23
        | .doubleMmrAccess => Config.doubleMmrAccessCode
        | .dataMisaligned => 0x24
        | .dcplbMultipleHit => 0x27
        | .protectedResource => 0x2E) ∧
      (∀ k : Fin 16, 3 ≤ k.val → t.interruptible k = false) ∧
      (∀ e', t.takeException e' = .fault .doubleFault) ∧
      ((∀ f ∈ s.isrs.head?, f.inHandler = false) → ∀ a : Addr,
        (e.side = .data →
          t.readMmr .dcplbStatus a = t.dcplbStatus ∧ t.readMmr .dcplbFaultAddr a = t.dcplbFaultAddr) ∧
        (e.side = .instr →
          t.readMmr .icplbStatus a = t.icplbStatus ∧ t.readMmr .icplbFaultAddr a = t.icplbFaultAddr))

/-- R432: the return from the handler: the faulting instruction's address, the mode of the entry, delivery unblocked,
everything else as the handler left it. Not the source's own words: RTX is the spec's general knowledge G17; that
Emulation is restored as Emulation is the model's choice, log 17. -/
def Obligations.ExceptionReturn : Prop :=
  ∀ (s : State) (e : Exc) (h : State), s.handling = none →
    h.retx = (s.enterException e).retx → h.savedMode = (s.enterException e).savedMode →
    h.returnFromException = { h with pc := s.pc, mode := s.mode, handling := none }

/-- R410, R430, R440: an instruction leaves the mode alone; or takes an exception: then the mode is Supervisor, the
handler runs, RETX is the instruction's address and pc the handler's; or, CSYNC, SSYNC and STI alone, takes a pending
interrupt: then the mode is Supervisor, the interrupted context holds the old mode and pc is the vector. Not the
source's own words: the entry is the spec's decision D21; the interrupt's entry and vector: log 37; that none enters
Emulation mode: log 54. -/
def Obligations.ModeChangesOnlyByExceptionOrInterrupt : Prop :=
  ∀ (i : Instr) (s t : State), exec i s = .next t →
    (t.mode = s.mode ∧ t.handling = s.handling ∧ t.isrs = s.isrs) ∨
    (t.mode = .supervisor ∧ s.handling = none ∧ t.handling.isSome = true ∧ t.isrs = s.isrs ∧ t.savedMode = s.mode ∧
      t.retx = s.pc ∧ t.pc = s.evt3) ∨
    ((i = .csync ∨ i = .ssync ∨ ∃ d, i = .sti d) ∧ t.mode = .supervisor ∧ t.handling = s.handling ∧
      ∃ f, t.isrs = f :: s.isrs ∧ f.returnMode = s.mode ∧ t.pc = t.vector f.level)

/-- R276, R410: a program in User mode cannot change the protection. No instruction run in User mode changes a
descriptor, a memory control register, IMASK, the exception vector or a test register, or leaves a store to a core MMR
behind it, as long as none was on its way. Not the source's own words: IMASK rests on general knowledge G14; EVT3's
and the timer cell's addresses are logs 14 and 47; buffered core MMR stores: log 13. -/
def Obligations.UserModeCannotChangeProtection : Prop :=
  ∀ (i : Instr) (s t : State), s.mode = .user → (∀ ps ∈ s.storeBuf, ps.path ≠ .coreMmr) → exec i s = .next t →
    t.dcplb = s.dcplb ∧ t.icplb = s.icplb ∧ t.dmemControl = s.dmemControl ∧ t.imemControl = s.imemControl ∧
    t.imask = s.imask ∧ t.evt3 = s.evt3 ∧ t.iprio = s.iprio ∧ t.timerControl = s.timerControl ∧
    t.itestCommand = s.itestCommand ∧ t.itestData0 = s.itestData0 ∧ t.itestData1 = s.itestData1 ∧
    t.dtestCommand = s.dtestCommand ∧ t.dtestData0 = s.dtestData0 ∧ t.dtestData1 = s.dtestData1 ∧
    ∀ ps ∈ t.storeBuf, ps.path ≠ .coreMmr

/-! ### NOP, the interrupt mask, BITSET, the jumps, the constant loads, DISALGNEXCPT -/

/-- R381: NOP only moves the pc. -/
def Obligations.NopCompletes : Prop := ∀ s : State, exec .nop s = .next { s with pc := s.pc + 2 }

/-- R376, R377: CLI and STI in Supervisor or Emulation mode. From CLI on no interrupt that IMASK masks is taken. STI
completes; where a pending interrupt may be taken under the restored mask, the one of highest priority is, after STI.
Not the source's own words: the restriction: general knowledge G14; that they complete in Emulation mode is the
model's choice, log 51; which interrupt a bit of IMASK enables and which one is taken: log 37; that no load is in
flight behind STI: log 35. -/
def Obligations.CliAndStiComplete : Prop :=
  ∀ (s : State) (d : DReg), s.mode ≠ .user →
    (∃ t, exec (.cli d) s = .next t ∧ t = { s with r := s.r.set d s.imask, imask := 0, pc := s.pc + 2 } ∧
      t.dreg d = s.imask ∧ (∀ e, e ≠ d → t.dreg e = s.dreg e) ∧ ∀ k : Fin 16, 5 ≤ k.val → t.interruptible k = false) ∧
    ∀ u, u = { s with imask := s.dreg d, pc := s.pc + 2 } →
      (u.nextInterrupt = none → exec (.sti d) s = .next u) ∧
      ∀ k, u.nextInterrupt = some k → exec (.sti d) s = .next (u.enterInterrupt k)

/-- R379: CLI and STI in User mode take the protected-resource exception and change neither the register nor IMASK;
its code 0x2E is the family's (log 15). Not the source's own words: general knowledge G14; its EXCAUSE 0x2E and that
no status register is written are the model's, log 15. -/
def Obligations.CliStiTrapInUserMode : Prop :=
  ∀ (s : State) (d : DReg), s.mode = .user → s.handling = none →
    exec (.cli d) s = .next { s with excause := 0x2E, retx := s.pc, savedMode := .user, mode := .supervisor,
                                     handling := some .core, pc := s.evt3 } ∧
    exec (.sti d) s = exec (.cli d) s

/-- R397: BITSET sets bit n of Rd and keeps the other 31; CC and everything else are unchanged. R374: DISALGNEXCPT
alone only moves the pc; its disable is off at every boundary. Not the source's own words: CC unchanged: the spec's
general knowledge G16; the arithmetic flags are out of the spec, log 40; that DISALGNEXCPT has no lasting effect: G15.
-/
def Obligations.BitsetAndDisalgnexcptComplete : Prop :=
  ∀ (s : State) (d : DReg) (n : Nat), n ≤ 31 →
    (∃ t, exec (.bitset d n) s = .next t ∧ t = { s with r := t.r, pc := s.pc + 2 } ∧
      (∀ k, k < 32 → (t.dreg d).getLsbD k = if k = n then true else (s.dreg d).getLsbD k) ∧
      ∀ e, e ≠ d → t.dreg e = s.dreg e) ∧
    exec .disalgnexcpt s = .next { s with pc := s.pc + 4, alignExcOff := false }

/-- R396: the conditional jumps. A taken one leaves its fall-through address as the branch shadow (log 38); a jump not
taken only moves the pc. Not the source's own words: IF !CC is the spec's general knowledge G16; the speculative
shadow field is the model's, log 38; the wrap of a target outside the address space: log 53. -/
def Obligations.ConditionalJumpsComplete : Prop :=
  ∀ (s : State) (o : Int),
    (s.cc = true →
      exec (.jumpCC o) s = .next { s with pc := s.pc + BitVec.ofInt 32 (2 * o), shadow := some (s.pc + 2) } ∧
      exec (.jumpNotCC o) s = .next { s with pc := s.pc + 2 }) ∧
    (s.cc = false →
      exec (.jumpNotCC o) s = .next { s with pc := s.pc + BitVec.ofInt 32 (2 * o), shadow := some (s.pc + 2) } ∧
      exec (.jumpCC o) s = .next { s with pc := s.pc + 2 })

/-- R398: `Pp = imm32` as its two halves, each alone and one after the other. Not the source's own words: the halves
alone are the spec's general knowledge G11. -/
def Obligations.ConstantLoadCompletes : Prop :=
  ∀ (s : State) (p : PReg) (lo hi : Half),
    (∃ t, exec (.pLow p lo) s = .next t ∧ t = { s with p := t.p, pc := s.pc + 4 } ∧
      t.preg p = (s.preg p).extractLsb' 16 16 ++ lo ∧ ∀ q, q ≠ p → t.preg q = s.preg q) ∧
    (∃ t, exec (.pHigh p hi) s = .next t ∧ t = { s with p := t.p, pc := s.pc + 4 } ∧
      t.preg p = hi ++ (s.preg p).extractLsb' 0 16 ∧ ∀ q, q ≠ p → t.preg q = s.preg q) ∧
    ∃ t u, exec (.pLow p lo) s = .next t ∧ exec (.pHigh p hi) t = .next u ∧ u.preg p = hi ++ lo ∧
      u = { s with p := u.p, pc := s.pc + 8 } ∧ ∀ q, q ≠ p → u.preg q = s.preg q

/-! ### Synchronisation -/

/-- R350 to R352, R355: CSYNC empties the store buffer, SSYNC the store, write and copy-back buffers; then, with no
enabled interrupt pending, both advance the pc; with one pending it is taken first, and the instruction runs again
after the return. CSYNC with an empty store buffer leaves the write and copy-back buffers as they are; SSYNC with
nothing waiting changes nothing itself. Neither changes a register, CC, IMASK or the exception registers. Not the
source's own words: the victim buffers in SSYNC are the spec's own inference in R351; that the write buffer stays in
CSYNC its inference in R352; which interrupt, its vector, and that the instruction runs again: log 37. -/
def Obligations.CsyncAndSsyncComplete : Prop :=
  ∀ s : State,
    (∃ d, DrainOnly { s with storeBuf := [] } d ∧ (s.storeBuf = [] → d = s) ∧
      (∀ e, s.storeBuf = [⟨e, .uncached⟩] → s.writeBuf = [] → 0 < s.writeBufDepth → d.writeBuf = [e]) ∧
      (d.nextInterrupt = none → exec .csync s = .next { d with pc := s.pc + 2 }) ∧
      ∀ k, d.nextInterrupt = some k →
        ∃ t, exec .csync s = .next t ∧ t = d.enterInterrupt k ∧ t.pc = d.vector k ∧
          t.isrs = ⟨k, s.pc, s.mode, s.handling.isSome⟩ :: s.isrs) ∧
    ∃ d, DrainOnly { s with storeBuf := [] } d ∧ d.quiet ∧ (s.quiet → d = s) ∧
      (d.nextInterrupt = none → exec .ssync s = .next { d with pc := s.pc + 2 }) ∧
      ∀ k, d.nextInterrupt = some k →
        ∃ t, exec .ssync s = .next t ∧ t = d.enterInterrupt k ∧ t.pc = d.vector k ∧
          t.isrs = ⟨k, s.pc, s.mode, s.handling.isSome⟩ :: s.isrs

/-- R350, R351, R110, R146 item 3: with no enabled interrupt pending, CSYNC performs a word store to L1 SRAM, and
SSYNC takes one to external RAM all the way to memory: its four bytes, least significant at the lowest address, and no
other byte of memory. R125, R479, R394's example: CSYNC performs a buffered store to a core MMR, and so does SSYNC
with nothing else waiting: the register reads back the fields stored. R350: a buffer of several stores is performed in
order, the oldest first. R149: the drain step performs a buffered store that is the oldest one for its bytes, wherever
it stands in the buffer, and no other. Not the source's own words: which interrupts may be taken: log 37; that a core
MMR store is buffered like others: log 13; the drain step: the spec's decision D9, scheduled as log 7 says. -/
def Obligations.SynchronisationPerformsStores : Prop :=
  ∀ (s : State) (i : Instr),
    (∀ (a : Addr) (v : Word), s.memoryCanonical → s.nextInterrupt = none →
      (i = .csync ∧ s.storeBuf = [⟨⟨a, .word, v⟩, .sram⟩]) ∨
        (i = .ssync ∧ (s.region a).isExternalRam = true ∧ s.storeBuf = [⟨⟨a, .word, v⟩, .uncached⟩] ∧ s.writeBuf = [] ∧
          s.victimA = none ∧ s.victimB = none) →
      ∃ t, exec i s = .next t ∧ t = { s with storeBuf := [], mem := t.mem, pc := s.pc + 2 } ∧
        Memory.readBytes t.mem a 4 =
          [v.extractLsb' 0 8, v.extractLsb' 8 8, v.extractLsb' 16 8, v.extractLsb' 24 8] ∧
        ∀ b : Addr, 4 ≤ (b - a).toNat → Memory.read t.mem b = Memory.read s.mem b) ∧
    (∀ (a : Addr) (v : Word) (name : MmrName), s.nextInterrupt = none → s.storeBuf = [⟨⟨a, .word, v⟩, .coreMmr⟩] →
      mmrAt a = some name → name.readOnly = false →
      i = .csync ∨ (i = .ssync ∧ s.writeBuf = [] ∧ s.victimA = none ∧ s.victimB = none) →
      ∃ t, exec i s = .next t ∧ t.readMmr name a = name.pack v ∧
        t = { ({ s with storeBuf := [] } : State).writeMmr name v with pc := s.pc + 2 }) ∧
    (∀ (ps : PendingStore) (rest : List PendingStore), s.storeBuf = ps :: rest → i = .csync ∨ i = .ssync →
      exec i s = exec i { ({ s with storeBuf := [] } : State).performStore ps with storeBuf := rest }) ∧
    ∀ (before after : List PendingStore) (ps : PendingStore), s.storeBuf = before ++ ps :: after →
      ((∀ q ∈ before, ∀ j k, j < q.entry.width.bytes → k < ps.entry.width.bytes →
          q.entry.addr + BitVec.ofNat 32 j ≠ ps.entry.addr + BitVec.ofNat 32 k) →
        s.applyEvent (.drainStore before.length) =
          ({ s with storeBuf := before ++ after } : State).performStore ps) ∧
      ((∃ q ∈ before, ∃ j k, j < q.entry.width.bytes ∧ k < ps.entry.width.bytes ∧
          q.entry.addr + BitVec.ofNat 32 j = ps.entry.addr + BitVec.ofNat 32 k) →
        s.applyEvent (.drainStore before.length) = s)

/-! ### TESTSET -/

/-- R370 to R373, D20: TESTSET on external RAM whose checks pass completes after this core's buffers have drained: the
byte of memory itself is read and written past the cache, CC says whether it was 0, no other byte changes from what
the drain left. Not the source's own words: the drain first is the spec's decision D20; that the copy-back buffers
drain too is the model's, log 39. -/
def Obligations.TestsetCompletes : Prop :=
  ∀ (s : State) (p : PReg), s.memoryCanonical →
    (s.region (s.preg p)).isExternalRam = true → (s.preg p).toNat % 2 = 0 →
    (s.enDcplb = false ∨ ∃ c, lookup s.dcplb (s.preg p) = .hit c ∧ c.permits s.mode false = true ∧
      c.permits s.mode true = true) →
    ∃ t, exec (.testset p) s = .next t ∧
      t = { s.drainAll with mem := t.mem, cc := (Memory.read s.drainAll.mem (s.preg p) == 0), pc := s.pc + 2 } ∧
      Memory.read t.mem (s.preg p) = Memory.read s.drainAll.mem (s.preg p) ||| 0x80 ∧
      (∀ b, b ≠ s.preg p → Memory.read t.mem b = Memory.read s.drainAll.mem b) ∧
      (s.quiet → s.drainAll = s)

/-- R372: where TESTSET does not complete: an odd address is the misaligned exception; L1 data memory, the scratchpad
and (in Supervisor mode, on an existing register) MMR space are refused (U7); a page that forbids the read or the
write is a protection violation that shows the check that failed. Not the source's own words: its alignment and the
order of its checks are the spec's decision D19; L1 and core MMR space are U7, refused: log 27. -/
def Obligations.TestsetChecks : Prop :=
  ∀ (s : State) (p : PReg),
    ((s.preg p).toNat % 2 = 1 →
      exec (.testset p) s = s.stopOutcome ((testsetAccess (s.preg p) false).exc .dataMisaligned)) ∧
    ((s.preg p).toNat % 2 = 0 → ((s.region (s.preg p)) = .dataSram ∨ s.region (s.preg p) = .scratchpad) →
      exec (.testset p) s = .refused (.testsetOnCoreMemory (s.preg p))) ∧
    ((s.preg p).toNat % 4 = 0 → s.mode ≠ .user → s.region (s.preg p) = .coreMmr → (mmrAt (s.preg p)).isSome = true →
      exec (.testset p) s = .refused (.testsetOnCoreMemory (s.preg p))) ∧
    (∀ c, (s.preg p).toNat % 2 = 0 → (s.region (s.preg p)).isExternalRam = true → s.enDcplb = true →
      lookup s.dcplb (s.preg p) = .hit c →
      (c.permits s.mode false = false →
        exec (.testset p) s = s.stopOutcome ((testsetAccess (s.preg p) false).exc .dataProtViolation)) ∧
      (c.permits s.mode false = true → c.permits s.mode true = false →
        exec (.testset p) s = s.stopOutcome ((testsetAccess (s.preg p) true).exc .dataProtViolation)))

/-! ### Loads and stores -/

/-- R391, R392, R130: every form of load whose checks pass completes: the register gets the value of the read, the pc
moves past the instruction, and beside what a read may change (memory behind the caches, the buffers there, the data
cache, the pending hardware error) nothing else changes. While nothing waits in the buffers no byte of memory changes
but the cache cells of the address's set. Not the source's own words: that a line's data are memory cells: log 5; what
a read does behind the caches: logs 9 to 11. -/
def Obligations.LoadsComplete : Prop :=
  ∀ (s : State) (r : DReg) (p : PReg) (u : Nat) (k : Int) (a : Addr) (len : Nat) (i : Instr),
    (i = .load r p ∧ a = s.preg p ∧ len = 2) ∨
      (i = .loadShort r p u ∧ a = s.preg p + BitVec.ofNat 32 u ∧ len = 2) ∨
      (i = .loadLong r p k ∧ a = s.preg p + BitVec.ofInt 32 k ∧ len = 4) →
    s.memoryAccessOk (.load a) →
    ∃ t, exec i s = .next t ∧
      t.dreg r = (s.readValue a 4 (s.pageMode a)).1 ∧ (∀ e, e ≠ r → t.dreg e = s.dreg e) ∧
      StorageOnly { s with r := t.r, pc := s.pc + BitVec.ofNat 32 len } t ∧
      (s.quiet → s.memoryCanonical →
        ∀ b, (∀ pl w, s.dplace a = some pl → 32 ≤ (b - pl.cells w).toNat) →
          Memory.read t.mem b = Memory.read s.mem b)

/-- R391, R110, R130 step 6, R214, R216, R225: what an aligned word read returns with nothing buffered. Uncached: the
little-endian word that memory holds, and nothing changes. Cached, on a hit: the bytes of the line, whatever memory
behind it holds; only its way is marked last used. Cached, on a miss: memory's word; the victim way's cells get the 32
bytes of the line, its entry is valid and clean and last used; a valid dirty line that was there waits in its bank's
copy-back buffer, any other victim (an invalid one with a stale Dirty bit too) is dropped; nothing else changes. Not
the source's own words: that a line's data are the memory cells of its way: log 5; the victim's choice: the spec's
decision D13; the copy-back buffers: log 10. -/
def Obligations.ReadsReturnTheWord : Prop :=
  ∀ (s : State) (a : Addr), s.quiet → a.toNat % 4 = 0 →
    ((s.region a).isDataMemory = true →
      s.readValue a 4 .uncached =
        (Memory.read s.mem (a + 3) ++ Memory.read s.mem (a + 2) ++ Memory.read s.mem (a + 1) ++ Memory.read s.mem a,
          s)) ∧
    (∀ (m : CacheMode) (pl : DPlace) (w : Fin 2), m ≠ .uncached → s.dplace a = some pl →
      (s.dset pl).hitWay (dtagOf a) = some w →
      s.readValue a 4 m =
        (wordOf (Memory.readBytes s.mem (pl.cells w + lineOffset a) 4), s.setDset pl ((s.dset pl).touchWay w))) ∧
    (∀ (m : CacheMode) (pl : DPlace) (w : Fin 2), m ≠ .uncached → s.memoryCanonical → (s.region a).unpopulated = false →
      s.dplace a = some pl → (s.dset pl).hitWay (dtagOf a) = none → w = (s.dset pl).victimWay →
      ∃ t, s.readValue a 4 m =
          (Memory.read s.mem (a + 3) ++ Memory.read s.mem (a + 2) ++ Memory.read s.mem (a + 1) ++ Memory.read s.mem a,
            t) ∧
        t = { s with mem := Memory.writeBytes s.mem (pl.cells w) (Memory.readBytes s.mem (lineAddr a) 32),
                     dcache := sparseSet DSet.empty s.dcache pl.key
                       (((s.dset pl).setLine w ⟨dtagOf a, true, false⟩).touchWay w),
                     victimA := t.victimA, victimB := t.victimB } ∧
        ∀ k, t.victim k = s.copiedOut pl w k)

/-- R148, R146 item 2: a load in any form from the address of a store in any form that is still buffered returns the
stored value and does not reach the destination: nothing but its register and the pc changes. R114: narrow reads of a
buffered word store see its bytes in little-endian order. The same when the store is in the write buffer, the newest
for its bytes; and a load whose line waits in a copy-back buffer returns the line's bytes, uncached or by a line fill.
Not the source's own words: R114 is the spec's own inference from R110; the copy-back buffers: log 10; what a fill
finds behind the store buffer: log 11. -/
def Obligations.BufferedStoresAreForwarded : Prop :=
  (∀ (s s1 : State) (i j : Instr) (r q : DReg) (a : Addr) (len n : Nat), s.storeForm i = some (r, a, len) →
    s.loadForm j = some (q, a, n) → s.memoryAccessOk (.store a) → s.memoryAccessOk (.load a) → exec i s = .next s1 →
    ∃ t, exec j s1 = .next t ∧ t.dreg q = s.dreg r ∧ (∀ e, e ≠ q → t.dreg e = s.dreg e) ∧
      t = { s1 with r := t.r, pc := s1.pc + BitVec.ofNat 32 n }) ∧
  (∀ (s s1 : State) (a : Addr) (v : Word) (m : CacheMode),
    s1.storeBuf = s.storeBuf ++ [⟨⟨a, .word, v⟩, .uncached⟩] →
    (s1.readValue a 2 m).1 = (v.extractLsb' 0 16).setWidth 32 ∧
    (s1.readValue (a + 2) 2 m).1 = (v.extractLsb' 16 16).setWidth 32 ∧
    ∀ k, k < 4 → (s1.readValue (a + BitVec.ofNat 32 k) 1 m).1 = (v.extractLsb' (8 * k) 8).setWidth 32) ∧
  ∀ (s : State) (j : Instr) (q : DReg) (a : Addr) (n : Nat), s.loadForm j = some (q, a, n) →
    s.memoryAccessOk (.load a) → s.storeBuf = [] →
    (∀ (before after : List BufEntry) (v : Word), s.writeBuf = before ++ ⟨a, .word, v⟩ :: after →
      (∀ e ∈ after, ∀ x y, x < e.width.bytes → y < 4 → e.addr + BitVec.ofNat 32 x ≠ a + BitVec.ofNat 32 y) →
      exec j s = .next { s with r := s.r.set q v, pc := s.pc + BitVec.ofNat 32 n }) ∧
    ∀ (b : Bank) (c : Victim) (v : Word), s.writeBuf = [] → s.victim b = some c →
      (∀ b', b' ≠ b → s.victim b' = none) → c.line = lineAddr a → c.data.length = 32 →
      v = wordOf ((c.data.drop (lineOffset a).toNat).take 4) →
      ((s.region a).unpopulated = false → s.pageMode a = .uncached ∨ s.dplace a = none →
        exec j s = .next { s with r := s.r.set q v, pc := s.pc + BitVec.ofNat 32 n }) ∧
      (s.memoryCanonical → (s.region a).isExternalRam = true → s.pageMode a ≠ .uncached →
        ∀ pl, s.dplace a = some pl → (s.dset pl).hitWay (dtagOf a) = none →
        ∃ t, exec j s = .next t ∧ t.dreg q = v ∧ (∀ e, e ≠ q → t.dreg e = s.dreg e))

/-- R393, R394, R145: every form of store whose checks pass completes: the datum enters the store buffer, the pc moves
past the instruction, and nothing else changes: no register, no flag, no byte of memory. R130 step 6, R220, R101: the
path it is to take: to L1 data SRAM (the lower halves of the banks, the scratchpad, the upper half of a bank that is
not cache); elsewhere as the page says, write-back or write-through where a bank is cache for the address; otherwise
uncached. Not the source's own words: the addresses of the L1 memories are the spec's general knowledge G2; the path
is fixed when it is issued: log 12. -/
def Obligations.StoresComplete : Prop :=
  ∀ (s : State) (r : DReg) (p : PReg) (u : Nat) (k : Int) (a : Addr) (len : Nat) (i : Instr),
    (i = .store p r ∧ a = s.preg p ∧ len = 2) ∨
      (i = .storeShort p u r ∧ a = s.preg p + BitVec.ofNat 32 u ∧ len = 2) ∨
      (i = .storeLong p k r ∧ a = s.preg p + BitVec.ofInt 32 k ∧ len = 4) →
    s.memoryAccessOk (.store a) →
    ∃ path : StorePath,
      exec i s = .next { s with storeBuf := s.storeBuf ++ [⟨⟨a, .word, s.dreg r⟩, path⟩],
                                pc := s.pc + BitVec.ofNat 32 len } ∧
      ((0xFF800000 ≤ a.toNat ∧ a.toNat < 0xFF804000) ∨ (0xFF900000 ≤ a.toNat ∧ a.toNat < 0xFF904000) ∨
          (0xFFB00000 ≤ a.toNat ∧ a.toNat < 0xFFB01000) ∨
          (0xFF804000 ≤ a.toNat ∧ a.toNat < 0xFF808000 ∧ s.bankIsCache .bankA = false) ∨
          (0xFF904000 ≤ a.toNat ∧ a.toNat < 0xFF908000 ∧ s.bankIsCache .bankB = false) → path = .sram) ∧
      (s.region a ≠ .dataSram → s.region a ≠ .scratchpad →
        (s.pageMode a = .writeBack → (s.bankFor a).isSome = true → path = .writeBack) ∧
        (∀ aow, s.pageMode a = .writeThrough aow → (s.bankFor a).isSome = true → path = .writeThrough aow) ∧
        (s.pageMode a = .uncached ∨ s.bankFor a = none → path = .uncached))

/-- R216, R220 to R222, R225: how a word store changes the cache when nothing else is buffered. Line present: the
line's bytes, its way last used; a write-back page sets its Dirty bit, and external memory keeps its bytes; a
write-through page sends the store to the write buffer too. Line absent, write-back or write-through with CPLB_L1_AOW:
the line's 32 bytes fill the victim way, a valid dirty line that was there waits in its bank's copy-back buffer, and
the store is as on a hit. Write-through without CPLB_L1_AOW, line absent: the write buffer alone. Not the source's own
words: that a line's data are the memory cells of its way: log 5; the victim's choice: the spec's decision D13; the
copy-back buffers: log 10. -/
def Obligations.CachedStores : Prop :=
  ∀ (s : State) (pl : DPlace) (w : Fin 2) (a : Addr) (v : Word), s.quiet →
    sparseWf DSet.empty s.dcache = true → s.dplace a = some pl →
    ((s.dset pl).hitWay (dtagOf a) = some w →
      (∃ t, s.performStore ⟨⟨a, .word, v⟩, .writeBack⟩ = t ∧
        t = { s with mem := Memory.writeBytes s.mem (pl.cells w + lineOffset a) (bytesOf v 4), dcache := t.dcache } ∧
        t.dset pl = ((s.dset pl).touchWay w).setLine w ⟨dtagOf a, true, true⟩ ∧
        ∀ q : DPlace, q.key ≠ pl.key → t.dset q = s.dset q) ∧
      ∀ aow, ∃ t, s.performStore ⟨⟨a, .word, v⟩, .writeThrough aow⟩ = t ∧
        t = { s with mem := Memory.writeBytes s.mem (pl.cells w + lineOffset a) (bytesOf v 4), dcache := t.dcache,
                     writeBuf := [⟨a, .word, v⟩] } ∧
        t.dset pl = (s.dset pl).touchWay w ∧ ∀ q : DPlace, q.key ≠ pl.key → t.dset q = s.dset q) ∧
    ((s.dset pl).hitWay (dtagOf a) = none →
      s.performStore ⟨⟨a, .word, v⟩, .writeThrough false⟩ = { s with writeBuf := [⟨a, .word, v⟩] }) ∧
    ((s.dset pl).hitWay (dtagOf a) = none → (s.region a).unpopulated = false → w = (s.dset pl).victimWay →
      ∀ (path : StorePath) (wb : Bool), (path = .writeBack ∧ wb = true) ∨ (path = .writeThrough true ∧ wb = false) →
      ∃ t, s.performStore ⟨⟨a, .word, v⟩, path⟩ = t ∧
        t = { s with mem := Memory.writeBytes (Memory.writeBytes s.mem (pl.cells w)
                              (Memory.readBytes s.mem (lineAddr a) 32)) (pl.cells w + lineOffset a) (bytesOf v 4),
                     dcache := t.dcache, writeBuf := if wb then [] else [⟨a, .word, v⟩],
                     victimA := t.victimA, victimB := t.victimB } ∧
        t.dset pl = ((s.dset pl).touchWay w).setLine w ⟨dtagOf a, true, wb⟩ ∧
        (∀ q : DPlace, q.key ≠ pl.key → t.dset q = s.dset q) ∧ ∀ k, t.victim k = s.copiedOut pl w k)

/-- R120 to R123, R52, R125, R273: word accesses of every form to core MMRs in Supervisor or Emulation mode: a load
with nothing buffered returns the register; a store to a read-only register is ignored; a store to a page descriptor
whose group is enabled is performed at once and changes that word of that descriptor alone, a store still waiting for
the same register being overtaken by it; a store to any other register, a descriptor of a disabled group among them,
enters the store buffer. Not the source's own words: which bits a register keeps is the spec's decision D3; that other
stores are buffered and packed at issue, and that a descriptor's store overtakes one that waits: logs 13, 31; EVT3's
and the timer cell's addresses: logs 14, 47. -/
def Obligations.CoreMmrAccessesComplete : Prop :=
  ∀ (s : State) (i : Instr) (r : DReg) (a : Addr) (len : Nat) (name : MmrName),
    (s.loadForm i = some (r, a, len) → s.mmrAccessOk (.load a) name → s.storeBuf = [] → s.writeBuf = [] →
      exec i s = .next { s with r := s.r.set r (s.readMmr name a), pc := s.pc + BitVec.ofNat 32 len }) ∧
    (s.storeForm i = some (r, a, len) → s.mmrAccessOk (.store a) name →
      (name.readOnly = true → exec i s = .next { s with pc := s.pc + BitVec.ofNat 32 len }) ∧
      (s.inEnabledGroup name = true →
        ∃ t, exec i s = .next t ∧
          t = { s with dcplb := t.dcplb, icplb := t.icplb,
                       storeBuf := s.storeBuf.filter fun ps => ps.entry.addr != a,
                       pc := s.pc + BitVec.ofNat 32 len } ∧
          t.readMmr name a = name.pack (s.dreg r) ∧
          ∀ other b, other ≠ name → t.readMmr other b = s.readMmr other b) ∧
      (name.readOnly = false → s.inEnabledGroup name = false → mmrStoreRefusal name (s.dreg r) = none →
        exec i s =
          .next { s with storeBuf := s.storeBuf ++ [⟨⟨a, .word, name.pack (s.dreg r)⟩, .coreMmr⟩],
                         pc := s.pc + BitVec.ofNat 32 len }))

/-- R120, R122, R125, R154, R426: aligned word accesses of every form to system MMR space in Supervisor or Emulation
mode, past the checks of the page. Where a register exists the access completes: one read on the PAB with an open
value, or one write, in program order, past the store and write buffers; nothing else changes. Where none exists it is
the illegal MMR access. Not the source's own words: that none is the exception in this half too: R426 against G18;
which exist and what a read returns are open, and the PAB's list is the model's: log 26. -/
def Obligations.SystemMmrAccessesComplete : Prop :=
  ∀ (s : State) (i : Instr) (r : DReg) (a : Addr) (len : Nat), a.toNat % 4 = 0 → s.mode ≠ .user →
    0xFFC00000 ≤ a.toNat → a.toNat < 0xFFE00000 →
    (s.loadForm i = some (r, a, len) → s.pageAllows (.load a) →
      if Config.systemMmrExists a.toNat = true then
        ∃ t, exec i s = .next t ∧
          t = { s with r := t.r, pab := s.pab ++ [.read a .word], pc := s.pc + BitVec.ofNat 32 len } ∧
          ∀ e, e ≠ r → t.dreg e = s.dreg e
      else exec i s = s.stopOutcome ((Access.load a).exc .illegalMmrAccess)) ∧
    (s.storeForm i = some (r, a, len) → s.pageAllows (.store a) →
      if Config.systemMmrExists a.toNat = true then
        exec i s = .next { s with pab := s.pab ++ [.write ⟨a, .word, s.dreg r⟩], pc := s.pc + BitVec.ofNat 32 len }
      else exec i s = s.stopOutcome ((Access.store a).exc .illegalMmrAccess))

/-- R52, R30 to R50: a core MMR that software can write holds, after the store is performed, the fields of the value
and 0 elsewhere, bit 0 of the memory controls excepted. Not the source's own words: the masks are the spec's general
knowledge G3 and decision D3; log 43. -/
def Obligations.MmrReadsBackItsFields : Prop :=
  ∀ (s : State) (name : MmrName) (a : Addr) (v : Word), name.readOnly = false →
    (s.writeMmr name v).readMmr name a =
      (match name with
        | .dmemControl => v &&& 0x301E ||| 1
        | .imemControl => v &&& 0x207E ||| 1
        | .dcplbAddr _ => v &&& 0xFFFFFC00
        | .icplbAddr _ => v &&& 0xFFFFFC00
        | .dcplbData _ => v &&& 0x3D0BF
        | .icplbData _ => v &&& 0x31127
        | .dtestCommand => v &&& 0x058347FE
        | .itestCommand => v &&& 0x0C0303FE
        | .iprio => v &&& 0xF
        | _ => v)

/-- R425, R102, R419: with the DCPLBs disabled and nothing buffered, a load of any form from reserved external space
is no exception: it completes, the hardware error becomes pending, and the register's value is open (log 21). Not the
source's own words: log 21. -/
def Obligations.ReservedExternalLoad : Prop :=
  ∀ (s : State) (i : Instr) (r : DReg) (a : Addr) (len : Nat), s.loadForm i = some (r, a, len) →
    s.quiet → s.enDcplb = false → a.toNat % 4 = 0 → s.region a = .reservedExternal →
    ∃ t, exec i s = .next t ∧ t = { s with r := t.r, pc := s.pc + BitVec.ofNat 32 len, hwErrorPending := true } ∧
      ∀ e, e ≠ r → t.dreg e = s.dreg e

/-! ### Cache control -/

/-- R331, R334 to R336, R338: FLUSH, FLUSHINV, IFLUSH and their post-increment forms complete where the check of R331
passes; the post-increment form also adds 32 to its pointer; no other register changes. What they write out waits in
the copy-back buffer: while nothing else waits, memory itself is unchanged. Not the source's own words: the check is
the spec's decision D18, the forms and modes its general knowledge G12; that stores still buffered stay so: log 46. -/
def Obligations.CacheControlCompletes : Prop :=
  ∀ (s : State) (p : PReg), s.memoryAccessOk (.cacheControl (s.preg p)) →
    (∃ t, exec (.flush p) s = .next t ∧ StorageOnly { s with pc := s.pc + 2 } t ∧ (s.quiet → t.mem = s.mem)) ∧
    (∃ t, exec (.flushinv p) s = .next t ∧ StorageOnly { s with pc := s.pc + 2 } t ∧ (s.quiet → t.mem = s.mem)) ∧
    (∃ t, exec (.iflush p) s = .next t ∧ t = { s with icache := t.icache, pc := s.pc + 2 }) ∧
    (∃ t, exec (.flushInc p) s = .next t ∧
      StorageOnly { s with p := s.p.set p (s.preg p + 32), pc := s.pc + 2 } t ∧ (s.quiet → t.mem = s.mem)) ∧
    (∃ t, exec (.flushinvInc p) s = .next t ∧
      StorageOnly { s with p := s.p.set p (s.preg p + 32), pc := s.pc + 2 } t ∧ (s.quiet → t.mem = s.mem)) ∧
    ∃ t, exec (.iflushInc p) s = .next t ∧
      t = { s with icache := t.icache, p := s.p.set p (s.preg p + 32), pc := s.pc + 2 }

/-- R333, R338: PREFETCH and its post-increment form complete wherever no page is cacheable core space (U3): a NOP
where the check would raise an exception, where the page is not cacheable, where the data cache is disabled, or on a
hit; on a miss of a cacheable page the line is there afterwards, valid and clean, and with nothing waiting before the
cells of its way hold memory's 32 bytes of the line and no other byte of memory changes. The post-increment form also
adds 32 to its pointer. Not the source's own words: the post-increment form is the spec's general knowledge G12; that
a line's data are memory cells: log 5; U3 is left out. -/
def Obligations.PrefetchCompletes : Prop :=
  ∀ (s : State) (p : PReg),
    ((∃ e, s.checkData (.cacheControl (s.preg p)) = .error (.exception e)) ∨
      s.checkData (.cacheControl (s.preg p)) = .ok .uncached ∨
      (∃ m, s.checkData (.cacheControl (s.preg p)) = .ok m ∧
        (s.dplace (s.preg p) = none ∨
          ∃ pl w, s.dplace (s.preg p) = some pl ∧ (s.dset pl).hitWay (dtagOf (s.preg p)) = some w)) →
      exec (.prefetch p) s = .next { s with pc := s.pc + 2 } ∧
      exec (.prefetchInc p) s = .next { s with p := s.p.set p (s.preg p + 32), pc := s.pc + 2 }) ∧
    (∀ m pl, s.disabledCachesInvalid → s.checkData (.cacheControl (s.preg p)) = .ok m → m ≠ .uncached →
      s.dplace (s.preg p) = some pl → (s.dset pl).hitWay (dtagOf (s.preg p)) = none →
      ∀ (i : Instr) (q : PRegs), (i = .prefetch p ∧ q = s.p) ∨ (i = .prefetchInc p ∧ q = s.p.set p (s.preg p + 32)) →
      ∃ t w, exec i s = .next t ∧ StorageOnly { s with p := q, pc := s.pc + 2 } t ∧
        (t.dset pl).hitWay (dtagOf (s.preg p)) = some w ∧ ((t.dset pl).lines[w.val]).dirty = false ∧
        (s.quiet → s.memoryCanonical →
          ((s.region (s.preg p)).unpopulated = false →
            Memory.readBytes t.mem (pl.cells w) 32 = Memory.readBytes s.mem (lineAddr (s.preg p)) 32) ∧
          ∀ b, 32 ≤ (b - pl.cells w).toNat → Memory.read t.mem b = Memory.read s.mem b))

/-- R334, R335, R338, R339: FLUSH of a dirty line, in either form, leaves it valid and clean and, after SSYNC, its 32
bytes are in memory and no other byte of memory has changed; FLUSHINV does the same and leaves the line invalid. Not
the source's own words: that a line's data are memory cells: log 5; that SSYNC waits for the copy-back is the spec's
own inference in R339 and R351; the ++ forms: G12. -/
def Obligations.FlushThenSsyncWritesTheLine : Prop :=
  ∀ (s : State) (p : PReg) (pl : DPlace) (w : Fin 2) (i : Instr), s.quiet → s.memoryCanonical → s.disabledCachesInvalid →
    s.memoryAccessOk (.cacheControl (s.preg p)) → (s.region (s.preg p)).isExternalRam = true →
    s.dplace (s.preg p) = some pl →
    (s.dset pl).hitWay (dtagOf (s.preg p)) = some w → ((s.dset pl).lines[w.val]).dirty = true →
    i ∈ ([.flush p, .flushInc p, .flushinv p, .flushinvInc p] : List Instr) →
    ∃ t u, exec i s = .next t ∧ exec .ssync t = .next u ∧ t.mem = s.mem ∧
      (i = .flush p ∨ i = .flushInc p → (u.dset pl).lines[w.val] = ⟨dtagOf (s.preg p), true, false⟩) ∧
      (i = .flushinv p ∨ i = .flushinvInc p → ((u.dset pl).lines[w.val]).valid = false) ∧
      Memory.readBytes u.mem (lineAddr (s.preg p)) 32 = Memory.readBytes s.mem (pl.cells w) 32 ∧
      ∀ b : Addr, 32 ≤ (b - lineAddr (s.preg p)).toNat → Memory.read u.mem b = Memory.read s.mem b

/-- R336, R338: IFLUSH, in both forms, makes invalid the line that holds the address, in whatever way it is, locked or
not; every other line of its set and every other set is as before, and nothing is written back: beside the tag array
only the pc changes, and in the post-increment form the pointer, by 32. With the address not cached or the instruction
cache disabled it has no effect on the cache. Not the source's own words: that it completes wherever the check of R331
passes is the spec's decision D18, in every mode and with the post-increment form its general knowledge G12. -/
def Obligations.IflushInvalidatesTheLine : Prop :=
  ∀ (s : State) (p : PReg) (i : Instr) (q : PRegs),
    (i = .iflush p ∧ q = s.p) ∨ (i = .iflushInc p ∧ q = s.p.set p (s.preg p + 32)) →
    s.disabledCachesInvalid → s.memoryAccessOk (.cacheControl (s.preg p)) →
    ∃ t, exec i s = .next t ∧ t = { s with icache := t.icache, p := q, pc := s.pc + 2 } ∧
      (s.imc = false ∨ (s.iset (iplaceOf (s.preg p))).hitWay (itagOf (s.preg p)) = none →
        t = { s with p := q, pc := s.pc + 2 }) ∧
      (t.iset (iplaceOf (s.preg p))).hitWay (itagOf (s.preg p)) = none ∧
      (∀ w : Fin 4, ((s.iset (iplaceOf (s.preg p))).lines[w.val]).tag ≠ itagOf (s.preg p) →
        (t.iset (iplaceOf (s.preg p))).lines[w.val] = (s.iset (iplaceOf (s.preg p))).lines[w.val]) ∧
      ∀ pl : IPlace, pl.key ≠ (iplaceOf (s.preg p)).key → t.iset pl = s.iset pl

/-! ### The caches -/

/-- R212: the bank that caches an address. Not the source's own words: that one bank alone takes every address is the
spec's own inference in R212. -/
def Obligations.DataBankSelection : Prop :=
  ∀ (s : State) (a : Addr),
    (s.dmc = 3 → s.dcbs = false → s.bankFor a = some (if a.getLsbD 14 then .bankA else .bankB)) ∧
    (s.dmc = 3 → s.dcbs = true → s.bankFor a = some (if a.getLsbD 23 then .bankA else .bankB)) ∧
    (s.dmc = 2 → s.bankFor a = some .bankA) ∧ (s.dmc = 0 → s.bankFor a = none)

/-- R184 to R188: the way an instruction cache fill takes. An invalid unlocked way first, Way0 before the others; a
locked way never; a high line never for a low one, while a low line is there at all a low one; among the unlocked ways
of the chosen one's priority the least recently used (R185, R186); none only when every unlocked way holds a high line
and the fill is low, or every way is locked. Not the source's own words: recency as an order of the four ways is the
spec's decision D5. -/
def Obligations.InstructionVictimWay : Prop :=
  ∀ (st : ISet) (locked : Fin 4 → Bool) (high : Bool), st.recency.Perm iways →
    (∀ w, st.victimWay locked high = some w → locked w = false) ∧
    (∀ w, locked w = false → ((st.lines[w.val]).valid = false) →
      (∀ v, v < w → locked v = true ∨ (st.lines[v.val]).valid = true) → st.victimWay locked high = some w) ∧
    (∀ w, (∀ v, locked v = true ∨ (st.lines[v.val]).valid = true) → st.victimWay locked high = some w →
      ((st.lines[w.val]).lruPrio = true → high = true ∧ ∀ v, locked v = true ∨ (st.lines[v.val]).lruPrio = true) ∧
      ∀ v, locked v = false → (st.lines[v.val]).lruPrio = (st.lines[w.val]).lruPrio →
        st.recency.idxOf w ≤ st.recency.idxOf v) ∧
    (st.victimWay locked high = none ↔
      (∀ v, locked v = true ∨ ((st.lines[v.val]).valid = true ∧ (st.lines[v.val]).lruPrio = true ∧ high = false)))

/-- R179, R180: a fetch through the instruction cache. On a hit it returns the eight bytes of the line's 64-bit word,
whatever memory behind it holds, and only marks the way most recently used. On a miss that finds a victim way it
returns memory's bytes; the way's cells get the 32 bytes of the line, its entry is the line's tag, valid, with the
page's priority unless LRUPRIORST is 1, and most recently used; every other entry, set and byte is as before. Not the
source's own words: that a line's data are the memory cells of its way: log 5; no priority while LRUPRIORST is 1: log
36; field places: general knowledge G3. -/
def Obligations.CachedFetches : Prop :=
  ∀ (s : State) (a : Addr) (prio : Bool) (w : Fin 4), sparseWf ISet.empty s.icache = true →
    ((s.iset (iplaceOf a)).hitWay (itagOf a) = some w →
      ∃ t, s.cachedFetch a prio =
          (Memory.readBytes s.mem ((iplaceOf a).cells w + lineOffset (wordAddr a)) 8, t) ∧
        t = { s with icache := t.icache } ∧ (t.iset (iplaceOf a)).lines = (s.iset (iplaceOf a)).lines ∧
        (t.iset (iplaceOf a)).recency = (s.iset (iplaceOf a)).recency.filter (· ≠ w) ++ [w] ∧
        ∀ q : IPlace, q.key ≠ (iplaceOf a).key → t.iset q = s.iset q) ∧
    ((s.iset (iplaceOf a)).hitWay (itagOf a) = none → s.memoryCanonical → (s.region a).unpopulated = false →
      (s.iset (iplaceOf a)).victimWay s.iloc (prio && !s.lruPrioRst) = some w →
      ∃ t, s.cachedFetch a prio = (Memory.readBytes s.mem (wordAddr a) 8, t) ∧
        t = { s with icache := t.icache, mem := t.mem } ∧
        Memory.readBytes t.mem ((iplaceOf a).cells w) 32 = Memory.readBytes s.mem (lineAddr a) 32 ∧
        (∀ b, 32 ≤ (b - (iplaceOf a).cells w).toNat → Memory.read t.mem b = Memory.read s.mem b) ∧
        (t.iset (iplaceOf a)).lines[w.val] = ⟨itagOf a, true, prio && !s.lruPrioRst⟩ ∧
        (∀ v : Fin 4, v ≠ w → (t.iset (iplaceOf a)).lines[v.val] = (s.iset (iplaceOf a)).lines[v.val]) ∧
        (t.iset (iplaceOf a)).recency = (s.iset (iplaceOf a)).recency.filter (· ≠ w) ++ [w] ∧
        ∀ q : IPlace, q.key ≠ (iplaceOf a).key → t.iset q = s.iset q)

/-- R188: with all four ways locked, a fetch that misses is served from memory and nothing is placed in the cache. -/
def Obligations.AllWaysLockedCachesNothing : Prop :=
  ∀ (s : State) (a : Addr) (prio : Bool), (∀ w, s.iloc w = true) → (s.region a).unpopulated = false →
    (s.region (lineAddr a)).unpopulated = false → (s.iset (iplaceOf a)).hitWay (itagOf a) = none →
    s.cachedFetch a prio = (s.busBytes (wordAddr a) 8, s)

/-- R189: storing LRUPRIORST = 1 makes every line low at once; while it is 1 a fill keeps no priority. Not the
source's own words: bit 13: the spec's general knowledge G3; that such a fill takes the way of a low line: log 36. -/
def Obligations.LruPrioResetClears : Prop :=
  ∀ (s : State) (v : Word), sparseWf ISet.empty s.icache = true → v.getLsbD 13 = true →
    (∀ (pl : IPlace) (w : Fin 4), (((s.writeImemControl v).iset pl).lines[w.val]).lruPrio = false) ∧
    ∀ (t : State) (a : Addr) (prio : Bool) (w : Fin 4), t.lruPrioRst = true → sparseWf ISet.empty t.icache = true →
      (t.iset (iplaceOf a)).hitWay (itagOf a) = none → (t.iset (iplaceOf a)).victimWay t.iloc false = some w →
      (((t.cachedFetch a prio).2.iset (iplaceOf a)).lines[w.val]) = ⟨itagOf a, true, false⟩

/-- R191, R227, D8: clearing IMC leaves no instruction line valid; a DMC code leaves no line valid in a bank it does
not make cache, and touches neither memory (dirty lines are lost) nor the other bank. Not the source's own words: that
dirty lines are lost is the spec's own inference in R227; log 30. -/
def Obligations.ClearingTheControlsInvalidates : Prop :=
  ∀ (s : State) (v : Word), sparseWf ISet.empty s.icache = true → sparseWf DSet.empty s.dcache = true →
    (v.getLsbD 2 = false →
      ∀ (pl : IPlace) (w : Fin 4), (((s.writeImemControl v).iset pl).lines[w.val]).valid = false) ∧
    (∀ (k : Nat) (w : Fin 2), bankIsCacheUnder (dmcOf v) (bankOfKey k) = false →
      ((sparseGet DSet.empty (s.writeDmemControl v).dcache k).lines[w.val]).valid = false) ∧
    (∀ k : Nat, bankIsCacheUnder (dmcOf v) (bankOfKey k) = true →
      sparseGet DSet.empty (s.writeDmemControl v).dcache k = sparseGet DSet.empty s.dcache k) ∧
    (s.writeDmemControl v).mem = s.mem ∧ (s.writeImemControl v).mem = s.mem

/-- R196, R236, R238, R32, R33, R42, R43: what a test command writes, the read command of the same place (bit 1 clear)
returns: the tag fields of an instruction cache line; the tag fields and the LRU bit of a data cache line; the 64 bits
of an instruction line's word, of a data line's word, and of a word of L1 instruction SRAM. And the place that a
stored command names: the 64-bit word of the instruction bank by sub-bank, way, set and word; the word of L1
instruction SRAM by R236's formula; the word of a data bank that is cache by bank, sub-bank, way, set and word; the
line of an instruction set, by sub-bank, set and way, with its tag, LRUPRIO and Valid bits in the data register; the
line of a data set, by bank, sub-bank, set and way, with its tag, Valid and Dirty bits and the set's LRU bit; a write
changes that place and nothing else, a read fills the data registers from it. Not the source's own words: field
positions: the spec's general knowledge G3; that Set Index and Double Word Index give address bits 10:5 and 4:3: its
own inference in R236; data cells and the data way: log 5. -/
def Obligations.TestWriteThenRead : Prop :=
  ∀ (s : State) (c : Word), s.memoryCanonical →
    (bitAt c 1 = true →
      (bitAt c 2 = false → s.imc = true → sparseWf ISet.empty s.icache = true →
        ((s.itest c).itest (c ^^^ 2)).itestData0 = s.itestData0 &&& 0xFFFFCC03) ∧
      (bitAt c 2 = false → s.bankIsCache (dtestPlace c).bank = true → sparseWf DSet.empty s.dcache = true →
        ((s.dtestData c).dtestData (c ^^^ 2)).dtestData0 = s.dtestData0 &&& 0xFFFFC807) ∧
      (bitAt c 2 = true →
        (({ s.itest c with itestData0 := 0, itestData1 := 0 }).itest (c ^^^ 2)).itestData0 = s.itestData0 ∧
        (({ s.itest c with itestData0 := 0, itestData1 := 0 }).itest (c ^^^ 2)).itestData1 = s.itestData1) ∧
      (bitAt c 2 = true → s.bankIsCache (dtestPlace c).bank = true →
        (({ s.dtestData c with dtestData0 := 0, dtestData1 := 0 }).dtestData (c ^^^ 2)).dtestData0 = s.dtestData0 ∧
        (({ s.dtestData c with dtestData0 := 0, dtestData1 := 0 }).dtestData (c ^^^ 2)).dtestData1 = s.dtestData1) ∧
      (({ s.dtestInstr c with dtestData0 := 0, dtestData1 := 0 }).dtestInstr (c ^^^ 2)).dtestData0 = s.dtestData0 ∧
      (({ s.dtestInstr c with dtestData0 := 0, dtestData1 := 0 }).dtestInstr (c ^^^ 2)).dtestData1 = s.dtestData1) ∧
    (∀ a : Addr, bitAt c 2 = true →
      a = BitVec.ofNat 32 (0xFFA10000 + (c.extractLsb' 16 2).toNat * 0x1000 + (c.extractLsb' 26 2).toNat * 0x400 +
        (c.extractLsb' 5 5).toNat * 0x20 + (c.extractLsb' 3 2).toNat * 8) →
      ∃ t, s.writeMmr .itestCommand c = t ∧
        (bitAt c 1 = true → t = { s with mem := t.mem, itestCommand := t.itestCommand } ∧
          Memory.readBytes t.mem a 8 = bytesOf s.itestData0 4 ++ bytesOf s.itestData1 4 ∧
          ∀ b : Addr, 8 ≤ (b - a).toNat → Memory.read t.mem b = Memory.read s.mem b) ∧
        (bitAt c 1 = false → t = { s with itestCommand := t.itestCommand, itestData0 := wordOf (Memory.readBytes s.mem a 4),
                                          itestData1 := wordOf (Memory.readBytes s.mem (a + 4) 4) })) ∧
    (∀ a : Addr, bitAt c 2 = true →
      (bitAt c 24 = true ∧ a = BitVec.ofNat 32 ((if bitAt c 23 then 0xFFA08000 else 0xFFA00000) +
        (c.extractLsb' 14 1).toNat * 0x4000 + (c.extractLsb' 16 2).toNat * 0x1000 + (c.extractLsb' 26 1).toNat * 0x800 +
        (c.extractLsb' 5 6).toNat * 0x20 + (c.extractLsb' 3 2).toNat * 8)) ∨
      (bitAt c 24 = false ∧ bitAt c 14 = true ∧ s.bankIsCache (if bitAt c 23 then .bankB else .bankA) = true ∧
        a = BitVec.ofNat 32 ((if bitAt c 23 then 0xFF904000 else 0xFF804000) + (c.extractLsb' 16 2).toNat * 0x1000 +
          (c.extractLsb' 26 1).toNat * 0x800 + (c.extractLsb' 5 6).toNat * 0x20 + (c.extractLsb' 3 2).toNat * 8)) →
      ∃ t, s.writeMmr .dtestCommand c = t ∧
        (bitAt c 1 = true → t = { s with mem := t.mem, dtestCommand := t.dtestCommand } ∧
          Memory.readBytes t.mem a 8 = bytesOf s.dtestData0 4 ++ bytesOf s.dtestData1 4 ∧
          ∀ b : Addr, 8 ≤ (b - a).toNat → Memory.read t.mem b = Memory.read s.mem b) ∧
        (bitAt c 1 = false → t = { s with dtestCommand := t.dtestCommand, dtestData0 := wordOf (Memory.readBytes s.mem a 4),
                                          dtestData1 := wordOf (Memory.readBytes s.mem (a + 4) 4) })) ∧
    (∀ (pl : IPlace) (w : Fin 4), bitAt c 2 = false → s.imc = true → sparseWf ISet.empty s.icache = true →
      pl = ⟨(c.extractLsb' 16 2).toNat, (c.extractLsb' 5 5).toNat⟩ → w.val = (c.extractLsb' 26 2).toNat →
      ∃ t, s.writeMmr .itestCommand c = t ∧
        (bitAt c 1 = true → t = { s with icache := t.icache, itestCommand := t.itestCommand } ∧
          t.iset pl = ⟨(s.iset pl).lines.set w.val ⟨s.itestData0.extractLsb' 14 18 ++ s.itestData0.extractLsb' 10 2,
            bitAt s.itestData0 0, bitAt s.itestData0 1⟩, (s.iset pl).recency⟩ ∧
          ∀ q : IPlace, q.key ≠ pl.key → t.iset q = s.iset q) ∧
        (bitAt c 1 = false → t = { s with itestCommand := t.itestCommand, itestData0 := t.itestData0 } ∧
          ∃ l, l = (s.iset pl).lines[w.val] ∧
            t.itestData0.extractLsb' 14 18 ++ t.itestData0.extractLsb' 10 2 = l.tag ∧
            bitAt t.itestData0 0 = l.valid ∧ bitAt t.itestData0 1 = l.lruPrio)) ∧
    ∀ (pl : DPlace) (w : Fin 2), bitAt c 2 = false → bitAt c 24 = false → bitAt c 14 = true →
      sparseWf DSet.empty s.dcache = true → s.bankIsCache pl.bank = true →
      pl = ⟨if bitAt c 23 then .bankB else .bankA, (c.extractLsb' 16 2).toNat, (c.extractLsb' 5 6).toNat⟩ →
      w.val = (c.extractLsb' 26 1).toNat →
      ∃ t, s.writeMmr .dtestCommand c = t ∧
        (bitAt c 1 = true → t = { s with dcache := t.dcache, dtestCommand := t.dtestCommand } ∧
          t.dset pl = ⟨(s.dset pl).lines.set w.val ⟨s.dtestData0.extractLsb' 14 18 ++ s.dtestData0.extractLsb' 11 1,
            bitAt s.dtestData0 0, bitAt s.dtestData0 1⟩, bitAt s.dtestData0 2⟩ ∧
          ∀ q : DPlace, q.key ≠ pl.key → t.dset q = s.dset q) ∧
        (bitAt c 1 = false → t = { s with dtestCommand := t.dtestCommand, dtestData0 := t.dtestData0 } ∧
          ∃ l, l = (s.dset pl).lines[w.val] ∧
            t.dtestData0.extractLsb' 14 18 ++ t.dtestData0.extractLsb' 11 1 = l.tag ∧
            bitAt t.dtestData0 0 = l.valid ∧ bitAt t.dtestData0 1 = l.dirty ∧ bitAt t.dtestData0 2 = (s.dset pl).lru)

/-! ### Interrupts -/

/-- R440, R441, R425, R228, R50: an interrupt, the hardware error with the number 5 among them, may be taken when it
is below 5 or IMASK enables it, it outranks every interrupted context, and no exception handler runs or it outranks
the exception event; of the pending ones that may be taken the smallest number is. Taking it keeps the context, enters
Supervisor mode at the vector (entry 3 of the table is EVT3, R430), ends its pending state and makes the write buffer
8 deep if it is above the watermark. The return, whatever the routine did meanwhile, restores pc and mode; unless a
high-priority routine is still interrupted it leaves the write buffer with its last 2 entries at most and depth 2. Not
the source's own words: the spec's decision D22; the event numbers are general knowledge G17; IMASK's bits, the
vectors, the priorities' rule and that the mark at the return counts: log 37; event 0 enters Supervisor mode: log 54.
-/
def Obligations.InterruptTakenAndReturned : Prop :=
  ∀ (s : State) (k : Fin 16),
    (s.interruptible k = true ↔ (k.val < 5 ∨ s.imask.getLsbD k.val = true) ∧ (∀ f ∈ s.isrs, k < f.level) ∧
      (s.handling = none ∨ k.val < 3)) ∧
    (s.nextInterrupt = some k ↔ (s.irqPending[k.val] = true ∨ (k.val = 5 ∧ s.hwErrorPending = true)) ∧
      s.interruptible k = true ∧ ∀ j, j < k → ¬ (s.pending j = true ∧ s.interruptible j = true)) ∧
    (s.nextInterrupt = none → s.takeInterrupt = s) ∧
    (s.nextInterrupt = some k →
      s.takeInterrupt =
        { s with isrs := ⟨k, s.pc, s.mode, s.handling.isSome⟩ :: s.isrs, mode := .supervisor,
                 pc := if k.val = 3 then s.evt3 else s.vectors[k.val], shadow := none, irqPending := s.irqPending.set k.val false,
                 hwErrorPending := s.hwErrorPending && decide (k.val ≠ 5),
                 writeBufDepth := if k.val < (s.iprio &&& 0xF).toNat then 8 else s.writeBufDepth }) ∧
    (s.interruptible k = true → ∀ h : State, h.isrs = (s.enterInterrupt k).isrs → h.handling = s.handling →
      h.interruptReturn.pc = s.pc ∧ h.interruptReturn.mode = s.mode ∧ h.interruptReturn.isrs = s.isrs ∧
      ((∃ f ∈ s.isrs, f.level.val < (h.iprio &&& 0xF).toNat) →
        h.interruptReturn.writeBuf = h.writeBuf ∧ h.interruptReturn.writeBufDepth = h.writeBufDepth) ∧
      ((∀ f ∈ s.isrs, ¬ f.level.val < (h.iprio &&& 0xF).toNat) →
        h.interruptReturn.writeBuf = h.writeBuf.drop (h.writeBuf.length - 2) ∧
        h.interruptReturn.writeBufDepth = 2))

/-- R151, R154, R219, R353, R396, R399, R478: reads that are issued and dropped. In the shadow of a branch that was
taken, a load's read leaves no trace but a hardware error: none where its address fails the checks, lies in MMR space
or is answered by populated memory; one where it asks unpopulated space, uncached or on a miss; the stream passes a
further conditional jump either way; and no load is reached past a CSYNC or SSYNC. In any state, a load that a pending
interrupt cancels, at pc or up to three instructions behind it, leaves what its read leaves, and nothing where its
address fails the checks or lies in MMR space; no register of the core receives it. Not the source's own words: that a
speculative read leaves only the hardware error, and that a further jump is passed either way: log 38; loads in flight
behind pc: log 35; interrupts: log 37. -/
def Obligations.DroppedReads : Prop :=
  ∀ (s : State) (a : Addr) (path : List Bool),
    s.speculativeRead path = { s with hwErrorPending := (s.speculativeRead path).hwErrorPending } ∧
    (∀ (u t : State) (bs rest : List Byte) (i : Instr) (o : Int) (taken : Bool),
      u.fetchInstr = .ok (bs, t) → decode bs = .ok (i, rest) → i = .jumpCC o ∨ i = .jumpNotCC o →
      u.runAhead (taken :: path) =
        ({ t with pc := if taken then u.pc + BitVec.ofInt 32 (2 * o) else u.pc + 2 } : State).runAhead path) ∧
    (∀ f, s.shadow = some f →
      (∀ (before after : List Bool) (t u : State) (bs rest : List Byte) (i : Instr),
        path = before ++ after → after ≠ [] → { s with pc := f }.runAhead before = some t →
        t.fetchInstr = .ok (bs, u) → decode bs = .ok (i, rest) → i = .csync ∨ i = .ssync →
        s.speculativeRead path = s) ∧
      (s.loadAhead f path = some a →
        ((∃ st, s.checkData (.load a) = .error st) ∨ inMmrSpace a = true → s.speculativeRead path = s) ∧
        (s.memoryAccessOk (.load a) →
          ((s.region a).unpopulated = false → s.speculativeRead path = s) ∧
          ((s.region a).unpopulated = true → s.fullyBuffered a 4 = false →
            (s.pageMode a = .uncached ∨ ∀ pl, s.dplace a = some pl → (s.dset pl).hitWay (dtagOf a) = none) →
            s.speculativeRead path = { s with hwErrorPending := true })))) ∧
    ∀ k : Fin 16, s.nextInterrupt = some k → s.loadAhead s.pc (path.take 3) = some a →
      (s.memoryAccessOk (.load a) →
        s.cancelledLoad path = (s.readValue a 4 (s.pageMode a)).2.enterInterrupt k ∧
        (s.cancelledLoad path).r = s.r) ∧
      ((∃ st, s.checkData (.load a) = .error st) ∨ inMmrSpace a = true → s.cancelledLoad path = s.enterInterrupt k)

/-! ### Reset and invariants -/

/-- R31, R41, R70, R462: what reset leaves, as the spec states it: the caches and CPLBs disabled (the reset words of
R31 and R41), IPRIO_MARK 0, the write buffer two deep, the buffers empty, every Valid bit 0, Supervisor mode, pc at
the boot ROM. Not the source's own words: reset words of general knowledge G3, mode G6, decisions D6 to D8. -/
def Obligations.ResetState : Prop :=
  State.reset.imemControl = 0x00000001 ∧ State.reset.dmemControl = 0x00001001 ∧ State.reset.iprioMark = 0 ∧
  State.reset.writeBufDepth = 2 ∧ State.reset.quiet ∧ State.reset.mode = .supervisor ∧
  State.reset.pc = 0xEF000000 ∧ State.reset.alignExcOff = false ∧
  (∀ (pl : IPlace) (w : Fin 4), ((State.reset.iset pl).lines[w.val]).valid = false) ∧
  ∀ (pl : DPlace) (w : Fin 2), ((State.reset.dset pl).lines[w.val]).valid = false

/-- The reset state meets every invariant below. Not the source's own words: the empty canonical memory is log 2, the
recency order log 4 and the spec's decision D5, the invalid lines its decision D8. -/
def Obligations.ResetMeetsInvariants : Prop :=
  State.reset.memoryCanonical ∧ State.reset.controlsLegal ∧ State.reset.disabledCachesInvalid ∧
  State.reset.recencyLegal ∧ State.reset.writeBufferBounded

/-- Every step keeps memory in its canonical form (R27; the form is the model's). Not the source's own words: the form
is the model's, log 2. -/
def Obligations.StepKeepsMemoryCanonical : Prop :=
  ∀ s t : State, s.memoryCanonical → step s = .next t → t.memoryCanonical

/-- R31, R40, R41, R52: every step keeps the control registers legal: reserved bits 0, bit 0 of the memory controls 1,
never the reserved DMC code. Not the source's own words: reserved bits read 0: the spec's decision D3, log 43; the
reserved DMC code refused: log 29. -/
def Obligations.StepKeepsControlsLegal : Prop :=
  ∀ s t : State, s.controlsLegal → step s = .next t → t.controlsLegal

/-- R70, R191, R227, D8: every step keeps a disabled cache without a valid line. Not the source's own words: at reset:
the spec's decision D8; that a tag write to a disabled array does nothing: log 28; bank B under DMC 10: log 30. -/
def Obligations.StepKeepsDisabledCachesInvalid : Prop :=
  ∀ s t : State, s.disabledCachesInvalid → step s = .next t → t.disabledCachesInvalid

/-- R60, D5: every step keeps each set's recency an order of the four ways. Not the source's own words: the recency
order is the spec's decision D5. -/
def Obligations.StepKeepsRecencyLegal : Prop :=
  ∀ s t : State, s.recencyLegal → step s = .next t → t.recencyLegal

/-- R63, R228: every step keeps the write buffer within its depth, 2 or 8. -/
def Obligations.StepKeepsWriteBufferBounded : Prop :=
  ∀ s t : State, s.writeBufferBounded → step s = .next t → t.writeBufferBounded
end

