-- ==== Sys2Proof/Laws/Bits.lean ====
section
/-! SUPPORT. Bytes and words: the little-endian value of four bytes, and a word from its own bytes (R110). -/

namespace Sys2Proof

/-- Bit by bit: the little-endian value of four bytes. -/
theorem wordOf_four_bit (b0 b1 b2 b3 : Byte) (i : Nat) :
    (wordOf [b0, b1, b2, b3]).getLsbD i = (b3 ++ b2 ++ b1 ++ b0 : BitVec (8 + 8 + 8 + 8)).getLsbD i := by
  have h1 := b1.getLsbD_of_ge; have h0 := b0.getLsbD_of_ge; have h2 := b2.getLsbD_of_ge; have h3 := b3.getLsbD_of_ge
  simp only [wordOf, BitVec.getLsbD_append, BitVec.getLsbD_or, BitVec.getLsbD_shiftLeft, BitVec.getLsbD_setWidth]
  by_cases c : i < 32
  · by_cases c0 : i < 8
    · simp [c0, c]
    · by_cases c1 : i < 16
      · simp [c0, c, show i - 8 < 8 by omega, show i - 8 < 32 by omega, h0 i (by omega)]
      · by_cases c2 : i < 24
        · simp [c0, c, show i - 8 < 32 by omega, show i - 8 - 8 < 32 by omega, h0 i (by omega),
            h1 (i - 8) (by omega), show ¬ (i - 8 < 8) by omega, show i - 8 - 8 < 8 by omega]
        · simp [c0, c, show i - 8 < 32 by omega, show i - 8 - 8 < 32 by omega, show i - 8 - 8 - 8 < 32 by omega,
            h0 i (by omega), h1 (i - 8) (by omega), h2 (i - 8 - 8) (by omega), show ¬ (i - 8 < 8) by omega,
            show ¬ i - 8 - 8 < 8 by omega]
  · simp [c, show ¬ i < 8 by omega, show ¬ i - 8 < 8 by omega, show ¬ i - 8 - 8 < 8 by omega,
      h3 (i - 8 - 8 - 8) (by omega)]

/-- The little-endian value of four bytes (R110). -/
theorem wordOf_four (b0 b1 b2 b3 : Byte) : wordOf [b0, b1, b2, b3] = b3 ++ b2 ++ b1 ++ b0 :=
  BitVec.eq_of_getLsbD_eq fun i _ => wordOf_four_bit b0 b1 b2 b3 i

/-- A word is the little-endian value of its own bytes. -/
theorem wordOf_bytesOf (v : Word) : wordOf (bytesOf v 4) = v := by
  apply BitVec.eq_of_getLsbD_eq
  intro i hi
  show (wordOf [byteOf v 0, byteOf v 1, byteOf v 2, byteOf v 3]).getLsbD i = _
  rw [wordOf_four_bit]
  simp only [BitVec.getLsbD_append, byteOf, BitVec.getLsbD_extractLsb']
  by_cases c0 : i < 8
  · simp [c0]
  · by_cases c1 : i < 16
    · simp [c0, show i - 8 < 8 by omega, show 8 + (i - 8) = i by omega]
    · by_cases c2 : i < 24
      · simp [c0, show ¬ (i - 8 < 8) by omega, show i - 8 - 8 < 8 by omega, show 16 + (i - 8 - 8) = i by omega]
      · simp [c0, show ¬ (i - 8 < 8) by omega, show ¬ i - 8 - 8 < 8 by omega, show i - 8 - 8 - 8 < 8 by omega,
          show 24 + (i - 8 - 8 - 8) = i by omega]

/-- A word of two bytes (R110). -/
theorem wordOf_two (b0 b1 : Byte) : wordOf [b0, b1] = (b1 ++ b0).setWidth 32 := by
  have := wordOf_four b0 b1 0 0
  have e : wordOf [b0, b1, 0, 0] = wordOf [b0, b1] := by simp [wordOf]
  rw [← e, this]
  apply BitVec.eq_of_getLsbD_eq; intro i hi
  simp only [BitVec.getLsbD_append, BitVec.getLsbD_setWidth]; interval_cases i <;> simp

end Sys2Proof
end

