-- ==== Sys2Proof/Laws/Map.lean ====
section
/-! SUPPORT. Which addresses each region holds (R101), and that the region of an address depends on the control registers
and the flash strap alone. -/

namespace Sys2Proof.Machine

/-- The region of an address depends on IMEM_CONTROL, DMEM_CONTROL and the flash strap alone. -/
theorem region_congr {s t : State} (hi : t.imemControl = s.imemControl) (hd : t.dmemControl = s.dmemControl)
    (hf : t.flashBank = s.flashBank) (a : Addr) : t.region a = s.region a := by
  unfold State.region State.externalRegion State.dataBankRegion State.instrRegion State.bankIsCache State.dmc State.imc
  rw [hi, hd, hf]

theorem region_coreMmr_iff (s : State) (a : Addr) : s.region a = .coreMmr ↔ 0xFFE00000 ≤ a.toNat := by
  have := a.isLt
  constructor
  · intro hc
    unfold State.region at hc
    dsimp only [State.externalRegion, State.dataBankRegion, State.instrRegion] at hc
    (repeat' split at hc) <;> first | omega | cases hc
  · intro h
    unfold State.region
    rw [if_neg (by omega), if_neg (by omega), if_neg (by omega), if_neg (by omega), if_neg (by omega),
      if_neg (by omega), if_neg (by omega)]

theorem region_systemMmr_iff (s : State) (a : Addr) :
    s.region a = .systemMmr ↔ 0xFFC00000 ≤ a.toNat ∧ a.toNat < 0xFFE00000 := by
  constructor
  · intro hc
    unfold State.region at hc
    dsimp only [State.externalRegion, State.dataBankRegion, State.instrRegion] at hc
    (repeat' split at hc) <;> first | (cases hc; done) | omega
  · intro h
    unfold State.region
    rw [if_neg (by omega), if_neg (by omega), if_neg (by omega), if_neg (by omega), if_neg (by omega),
      if_neg (by omega), if_pos (by omega)]

theorem region_sdram_iff (s : State) (a : Addr) : s.region a = .sdram ↔ a.toNat < 0x08000000 := by
  constructor
  · intro hc
    unfold State.region at hc
    dsimp only [State.externalRegion, State.dataBankRegion, State.instrRegion] at hc
    (repeat' split at hc) <;> first | (cases hc; done) | omega
  · intro h
    unfold State.region
    rw [if_pos (by omega)]
    exact if_pos h

/-- The dedicated L1 instruction SRAM (R172). -/
theorem region_instrSram (s : State) (a : Addr) (h : 0xFFA00000 ≤ a.toNat) (h' : a.toNat < 0xFFA10000) :
    s.region a = .instrSram := by
  unfold State.region
  rw [if_neg (by omega), if_neg (by omega), if_neg (by omega), if_neg (by omega), if_pos (by omega)]
  exact if_pos h'

/-- L1 data memory, the scratchpad and the reserved space around them: the regions of the data windows (R101). -/
theorem region_dataWindow (s : State) (a : Addr)
    (h : (0xFF800000 ≤ a.toNat ∧ a.toNat < 0xFFA00000) ∨ (0xFFB00000 ≤ a.toNat ∧ a.toNat < 0xFFC00000)) :
    s.region a = .dataSram ∨ s.region a = .reservedData ∨ s.region a = .scratchpad := by
  unfold State.region
  dsimp only [State.dataBankRegion]
  (repeat' split) <;> first | omega | simp

/-- The L1 instruction memory range (R418). -/
theorem region_instrRange (s : State) (a : Addr) (h : inInstrMemory a = true) :
    s.region a = .instrSram ∨ s.region a = .reservedInstr := by
  simp only [inInstrMemory, decide_eq_true_eq] at h
  unfold State.region
  dsimp only [State.instrRegion]
  (repeat' split) <;> first | omega | simp

/-- Clearing the two low bits of a multiple of 4 changes nothing. -/
theorem word_and_mask {a : Addr} (h : a.toNat % 4 = 0) : a &&& 0xFFFFFFFC = a := by
  have hb : ∀ i, i < 32 → (0xFFFFFFFC : Addr).getLsbD i = decide (2 ≤ i) := by decide
  apply BitVec.eq_of_getLsbD_eq
  intro i hi
  rw [BitVec.getLsbD_and, hb i hi]
  by_cases h2 : 2 ≤ i
  · simp [h2]
  · have : a.getLsbD i = false := by
      rw [BitVec.getLsbD, Nat.testBit_eq_decide_div_mod_eq]
      have hi' : i = 0 ∨ i = 1 := by omega
      rcases hi' with rfl | rfl <;> simp <;> omega
    simp [this]

/-- A core MMR's address is a multiple of 4. -/
theorem mmrAt_aligned {a : Addr} {name : MmrName} (h : mmrAt a = some name) : a.toNat % 4 = 0 := by
  by_contra hc
  simp [mmrAt, hc] at h

/-- A core MMR's address names a register (R122). -/
theorem mmrExists_core {a : Addr} {name : MmrName} (ha : 0xFFE00000 ≤ a.toNat) (h : mmrAt a = some name) :
    mmrExists a = true := by
  unfold mmrExists
  rw [if_neg (by omega), word_and_mask (mmrAt_aligned h), h]; rfl

/-- Below MMR space no address is a memory-mapped register. -/
theorem region_mmr (s : State) (a : Addr) (h : inMmrSpace a = false) :
    s.region a ≠ .systemMmr ∧ s.region a ≠ .coreMmr := by
  simp only [inMmrSpace, decide_eq_false_iff_not, not_le] at h
  constructor <;> intro hc
  · rw [region_systemMmr_iff] at hc; omega
  · rw [region_coreMmr_iff] at hc; omega

/-- Data memory lies below MMR space. -/
theorem region_ne_mmr_of_memory {s : State} {a : Addr} (h : (s.region a).isDataMemory = true) :
    inMmrSpace a = false := by
  simp only [inMmrSpace, decide_eq_false_iff_not, not_le]
  by_contra hc
  by_cases h2 : a.toNat < 0xFFE00000
  · rw [(region_systemMmr_iff s a).2 (by omega)] at h; cases h
  · rw [(region_coreMmr_iff s a).2 (by omega)] at h; cases h

/-- Data memory lies outside the L1 instruction memory range. -/
theorem region_instr_of_memory {s : State} {a : Addr} (h : (s.region a).isDataMemory = true) :
    inInstrMemory a = false := by
  by_contra hc
  rcases region_instrRange s a (by simpa using hc) with h' | h' <;> rw [h'] at h <;> cases h

/-- Every region is made of whole blocks of 1 KB: addresses of one block lie in one region. -/
theorem region_block (s : State) {a b : Addr} (h : a.toNat / 1024 = b.toNat / 1024) : s.region a = s.region b := by
  have lt : ∀ K, K % 1024 = 0 → (a.toNat < K ↔ b.toNat < K) := by intro K hK; omega
  have hb : asyncBankOf a.toNat = asyncBankOf b.toNat := by unfold asyncBankOf; omega
  unfold State.region
  dsimp only [State.externalRegion, State.dataBankRegion, State.instrRegion]
  simp only [hb, lt 0xEF000000 (by norm_num), lt 0xFF800000 (by norm_num), lt 0xEF000400 (by norm_num),
    lt 0xFF900000 (by norm_num), lt 0xFFA00000 (by norm_num), lt 0xFFB00000 (by norm_num),
    lt 0xFFC00000 (by norm_num), lt 0xFFB01000 (by norm_num), lt 0xFFE00000 (by norm_num), lt 0x08000000 (by norm_num),
    lt 0x20000000 (by norm_num), lt 0x20400000 (by norm_num), lt 0xFFA10000 (by norm_num), lt 0xFFA14000 (by norm_num),
    lt (0xFF800000 + 0x4000) (by norm_num), lt (0xFF800000 + 0x8000) (by norm_num),
    lt (0xFF900000 + 0x4000) (by norm_num), lt (0xFF900000 + 0x8000) (by norm_num)]

/-- The bytes of an aligned word lie in one region. -/
theorem region_word (s : State) (a : Addr) (k : Nat) (ha : a.toNat % 4 = 0) (hk : k < 4) :
    s.region (a + BitVec.ofNat 32 k) = s.region a := by
  apply region_block
  have : (a + BitVec.ofNat 32 k).toNat = a.toNat + k := by
    rw [BitVec.toNat_add, BitVec.toNat_ofNat]
    have := a.isLt
    omega
  omega

/-- The address of a line, as a number. -/
theorem lineAddr_toNat (a : Addr) : (lineAddr a).toNat = a.toNat / 32 * 32 := by
  have hb : ∀ i, i < 32 → (0xFFFFFFE0#32).getLsbD i = decide (5 ≤ i) := by decide
  have h : lineAddr a = (a >>> 5) <<< 5 := by
    apply BitVec.eq_of_getLsbD_eq
    intro i hi
    show (a &&& 0xFFFFFFE0#32).getLsbD i = _
    rw [BitVec.getLsbD_and, hb i hi, BitVec.getLsbD_shiftLeft, BitVec.getLsbD_ushiftRight]
    by_cases h5 : i < 5
    · simp [h5, show ¬ 5 ≤ i by omega]
    · simp [h5, hi, show 5 ≤ i by omega, show 5 + (i - 5) = i by omega]
  have := a.isLt
  rw [h, BitVec.toNat_shiftLeft, BitVec.toNat_ushiftRight, Nat.shiftRight_eq_div_pow, Nat.shiftLeft_eq]
  omega

/-- The bytes of a line lie in the region of any address of the line. -/
theorem region_line (s : State) (a : Addr) (k : Nat) (hk : k < 32) :
    s.region (lineAddr a + BitVec.ofNat 32 k) = s.region a := by
  apply region_block
  have hl := lineAddr_toNat a
  have : (lineAddr a + BitVec.ofNat 32 k).toNat = (lineAddr a).toNat + k := by
    rw [BitVec.toNat_add, BitVec.toNat_ofNat]
    have := a.isLt
    omega
  omega

/-- The address of a 64-bit fetch word, as a number. -/
theorem wordAddr_toNat (a : Addr) : (wordAddr a).toNat = a.toNat / 8 * 8 := by
  have hb : ∀ i, i < 32 → (0xFFFFFFF8#32).getLsbD i = decide (3 ≤ i) := by decide
  have h : wordAddr a = (a >>> 3) <<< 3 := by
    apply BitVec.eq_of_getLsbD_eq
    intro i hi
    show (a &&& 0xFFFFFFF8#32).getLsbD i = _
    rw [BitVec.getLsbD_and, hb i hi, BitVec.getLsbD_shiftLeft, BitVec.getLsbD_ushiftRight]
    by_cases h3 : i < 3
    · simp [h3, show ¬ 3 ≤ i by omega]
    · simp [h3, hi, show 3 ≤ i by omega, show 3 + (i - 3) = i by omega]
  have := a.isLt
  rw [h, BitVec.toNat_shiftLeft, BitVec.toNat_ushiftRight, Nat.shiftRight_eq_div_pow, Nat.shiftLeft_eq]
  omega

/-- The data windows, MMR space and the space above refuse fetches (R131 step 1). -/
theorem region_noFetch (s : State) (a : Addr)
    (h : (0xFF800000 ≤ a.toNat ∧ a.toNat < 0xFFA00000) ∨ 0xFFB00000 ≤ a.toNat) : (s.region a).noFetch = true := by
  unfold State.region
  dsimp only [State.dataBankRegion]
  (repeat' split) <;> first | omega | rfl

end Sys2Proof.Machine
end

