-- ==== Sys2Proof/Laws/Checks.lean ====
section
/-! SUPPORT. What the checks of a data access and of a fetch answer, once each. -/

namespace Sys2Proof.Machine

/-- Outside core MMR space an access needs the alignment of its width (R140). -/
theorem alignment_below {acc : Access} (h : acc.addr.toNat < 0xFFE00000) : acc.alignment = acc.width.bytes :=
  if_neg (by omega)

/-- A word access needs the alignment of a word everywhere (R121, R140). -/
theorem alignment_word {acc : Access} (h : acc.width = .word) : acc.alignment = 4 := by
  unfold Access.alignment; rw [h]; split <;> rfl

/-- Steps 1 to 4 of R130 pass. -/
theorem minimalDataStop_none {s : State} {acc : Access} (h : s.memoryAccessOk acc) : s.minimalDataStop acc = none := by
  obtain ⟨h1, h2, h3, h4, -⟩ := h
  have h4' : ¬ (s.region acc.addr = .reservedData ∧ !forwarded s.enDcplb (lookup s.dcplb acc.addr)) := by
    simpa [State.reservedStop] using h4
  unfold State.minimalDataStop
  simp only [h1, h2, h3, if_neg h4', Bool.false_eq_true, if_false]

/-- An access that passes the checks is performed as its page says. -/
theorem checkData_ok {s : State} {acc : Access} (h : s.memoryAccessOk acc) :
    s.checkData acc = .ok (s.pageMode acc.addr) := by
  have hm := region_mmr s acc.addr h.2.1
  obtain ⟨-, -, -, -, hp⟩ := id h
  unfold State.checkData State.pageMode
  simp only [minimalDataStop_none h]
  rcases hp with hp | ⟨c, hc, hperm, hnc⟩ | ⟨hmiss, hdef⟩
  · simp [hp]
  · by_cases hen : s.enDcplb = true
    · simp [hen, hc, State.pageCheck, hperm, hnc]
    · simp [hen]
  · by_cases hen : s.enDcplb = true
    · simp [hen, hmiss, hdef]
    · simp [hen]

/-- The page check of an MMR access that the page allows: it goes past the cache. -/
theorem checkData_mmrPage {s : State} {acc : Access} (hmin : s.minimalDataStop acc = none)
    (hr : (s.region acc.addr).neverCacheable = true) (hpage : s.pageAllows acc) : s.checkData acc = .ok .uncached := by
  unfold State.checkData
  simp only [hmin]
  rcases hpage with hp' | ⟨c, hc, hperm, hnc⟩ | ⟨hmiss, hdef⟩
  · simp [hp']
  · by_cases hen : s.enDcplb = true
    · have hch : c.chbl = false := by rw [hr, Bool.and_true] at hnc; exact hnc
      simp [hen, hc, State.pageCheck, hperm, hch, Cplb.cacheMode]
    · simp [hen]
  · by_cases hen : s.enDcplb = true
    · simp [hen, hmiss, hdef]
    · simp [hen]

/-- An access to an existing core MMR that passes the checks. -/
theorem checkData_mmr {s : State} {acc : Access} {name : MmrName} (h : s.mmrAccessOk acc name)
    (hal : acc.misaligned = false) (hd : acc.dag = .dag0) : s.checkData acc = .ok .uncached := by
  obtain ⟨hmode, hreg, hname, hpage⟩ := h
  have hge : 0xFFE00000 ≤ acc.addr.toNat := (region_coreMmr_iff s acc.addr).1 hreg
  have hmmr : inMmrSpace acc.addr = true := by simp [inMmrSpace]; omega
  refine checkData_mmrPage ?_ (by rw [hreg]; rfl) hpage
  unfold State.minimalDataStop
  simp [hal, hmmr, hmode, hd, mmrExists_core hge hname]

/-- An aligned access by DAG0 to system MMR space outside User mode: an exception where no register exists (R122, R426), else
performed past the cache. -/
theorem checkData_systemMmr {s : State} {acc : Access} (hal : acc.misaligned = false) (hd : acc.dag = .dag0)
    (hmode : s.mode ≠ .user) (hreg : s.region acc.addr = .systemMmr) (hpage : s.pageAllows acc) :
    s.checkData acc = if Config.systemMmrExists acc.addr.toNat = true then .ok .uncached
      else .error (acc.exc .illegalMmrAccess) := by
  have hge := (region_systemMmr_iff s acc.addr).1 hreg
  have hmmr : inMmrSpace acc.addr = true := by simp [inMmrSpace]; omega
  have he : mmrExists acc.addr = Config.systemMmrExists acc.addr.toNat := by unfold mmrExists; rw [if_pos (by omega)]
  split
  · next hx =>
    refine checkData_mmrPage ?_ (by rw [hreg]; rfl) hpage
    unfold State.minimalDataStop
    simp [hal, hmmr, hmode, hd, he, hx]
  · next hx =>
    have : s.minimalDataStop acc = some (acc.exc .illegalMmrAccess) := by
      unfold State.minimalDataStop
      simp [hal, hmmr, hmode, hd, he, hx]
    unfold State.checkData
    simp only [this]

/-- A read outside MMR space that passes the checks. -/
theorem memRead_ok {s : State} {acc : Access} (h : s.memoryAccessOk acc) :
    s.memRead acc = .ok (s.readValue acc.addr acc.width.bytes (s.pageMode acc.addr)) := by
  have hm := region_mmr s acc.addr h.2.1
  unfold State.memRead
  simp only [checkData_ok h]
  split
  · next e => exact absurd e hm.1
  · next e => exact absurd e hm.2
  · rfl

/-- A write outside MMR space that passes the checks. -/
theorem memWrite_ok {s : State} {acc : Access} (v : Word) (h : s.memoryAccessOk acc) :
    s.memWrite acc v = .ok (s.pushStore ⟨acc.addr, acc.width, v⟩ (s.storePath acc.addr (s.pageMode acc.addr))) := by
  have hm := region_mmr s acc.addr h.2.1
  unfold State.memWrite
  simp only [checkData_ok h]
  split
  · next e => exact absurd e hm.1
  · next e => exact absurd e hm.2
  · rfl

end Sys2Proof.Machine
end

