-- ==== Sys2Proof/Laws/Sparse.lean ====
section
/-! SUPPORT. The laws of sparse data: reading after a write, the canonical form kept by every operation, and canonical
lists that read alike are equal. -/

namespace Sys2Proof.Machine

variable {α : Type} [DecidableEq α] {d : α}

omit [DecidableEq α] in
/-- The bound of the first key is monotone. -/
theorem sparseAbove_mono {m : List (Nat × α)} {b c : Nat} (h : sparseAbove c m = true) (hbc : b ≤ c) :
    sparseAbove b m = true := by
  cases m with
  | nil => rfl
  | cons e m => simp only [sparseAbove, decide_eq_true_eq] at *; omega

/-- Below the first key everything reads as the default. -/
theorem sparseGet_of_above {m : List (Nat × α)} {k : Nat} (hw : sparseWf d m = true) (h : sparseAbove k m = true) :
    sparseGet d m k = d := by
  induction m with
  | nil => rfl
  | cons e m ih =>
    obtain ⟨j, v⟩ := e
    simp only [sparseWf, sparseAbove, Bool.and_eq_true, decide_eq_true_eq] at hw h
    have hj : j ≠ k := by omega
    simp only [sparseGet, if_neg hj]
    exact ih hw.2 (sparseAbove_mono hw.1.2 (by omega))

/-- A list's first key is not below itself. -/
theorem sparseGet_cons (k i : Nat) (v : α) {m : List (Nat × α)} (hw : sparseWf d m = true) (h : sparseAbove k m = true) :
    sparseGet d (sparseCons d k v m) i = if i = k then v else sparseGet d m i := by
  unfold sparseCons
  by_cases hi : i = k
  · subst hi
    split
    · next hv => rw [if_pos rfl, sparseGet_of_above hw h, hv]
    · simp [sparseGet]
  · have hk : k ≠ i := fun e => hi e.symm
    split <;> simp [sparseGet, hk]

theorem sparseCons_wf (k : Nat) (v : α) {m : List (Nat × α)} (hw : sparseWf d m = true) (h : sparseAbove k m = true) :
    sparseWf d (sparseCons d k v m) = true := by
  unfold sparseCons
  split
  · exact hw
  · next hv => simp [sparseWf, hv, h, hw]

theorem sparseCons_above {b k : Nat} (v : α) {m : List (Nat × α)} (hb : b < k) (h : sparseAbove k m = true) :
    sparseAbove b (sparseCons d k v m) = true := by
  unfold sparseCons
  split
  · exact sparseAbove_mono h (by omega)
  · simpa [sparseAbove] using hb

theorem sparseSet_above {b k : Nat} (v : α) {m : List (Nat × α)} (hw : sparseWf d m = true)
    (h : sparseAbove b m = true) (hb : b < k) : sparseAbove b (sparseSet d m k v) = true := by
  cases m with
  | nil => exact sparseCons_above v hb rfl
  | cons e m =>
    obtain ⟨j, w⟩ := e
    simp only [sparseWf, Bool.and_eq_true] at hw
    unfold sparseSet
    split
    · next hkj => exact sparseCons_above v hb (by simpa [sparseAbove] using hkj)
    · split
      · next hkj => exact sparseCons_above v hb (hkj ▸ hw.1.2)
      · exact h

/-- A write keeps the canonical form. -/
theorem sparseSet_wf (k : Nat) (v : α) {m : List (Nat × α)} (hw : sparseWf d m = true) :
    sparseWf d (sparseSet d m k v) = true := by
  induction m with
  | nil => exact sparseCons_wf k v rfl rfl
  | cons e m ih =>
    obtain ⟨j, w⟩ := e
    have hw' := hw
    simp only [sparseWf, Bool.and_eq_true] at hw'
    unfold sparseSet
    split
    · next hkj => exact sparseCons_wf k v hw (by simpa [sparseAbove] using hkj)
    · next hkj =>
      split
      · next hk => exact sparseCons_wf k v hw'.2 (hk ▸ hw'.1.2)
      · next hk =>
        simp only [sparseWf, Bool.and_eq_true]
        exact ⟨⟨hw'.1.1, sparseSet_above v hw'.2 hw'.1.2 (by omega)⟩, ih hw'.2⟩

/-- Reading after a write: the value at the key, everything else as before. -/
theorem sparseGet_sparseSet (k i : Nat) (v : α) {m : List (Nat × α)} (hw : sparseWf d m = true) :
    sparseGet d (sparseSet d m k v) i = if i = k then v else sparseGet d m i := by
  induction m with
  | nil => exact sparseGet_cons k i v rfl rfl
  | cons e m ih =>
    obtain ⟨j, w⟩ := e
    have hw' := hw
    simp only [sparseWf, Bool.and_eq_true] at hw'
    unfold sparseSet
    split
    · next hkj => exact sparseGet_cons k i v hw (by simpa [sparseAbove] using hkj)
    · next hkj =>
      split
      · next hk =>
        subst hk
        rw [sparseGet_cons k i v hw'.2 hw'.1.2]
        by_cases hi : i = k
        · simp [hi]
        · have : k ≠ i := fun e => hi e.symm
          simp [sparseGet, hi, this]
      · next hk =>
        simp only [sparseGet]
        by_cases hji : j = i
        · subst hji
          have : j ≠ k := fun e => hk e.symm
          simp [this]
        · simp only [if_neg hji]; exact ih hw'.2

theorem sparseMap_above (f : Nat → α → α) {b : Nat} {m : List (Nat × α)} (hw : sparseWf d m = true)
    (h : sparseAbove b m = true) : sparseAbove b (sparseMap d f m) = true := by
  induction m generalizing b with
  | nil => rfl
  | cons e m ih =>
    obtain ⟨j, w⟩ := e
    simp only [sparseWf, Bool.and_eq_true] at hw
    simp only [sparseMap]
    exact sparseCons_above _ (by simpa [sparseAbove] using h) (ih hw.2 hw.1.2)

/-- A map keeps the canonical form. -/
theorem sparseMap_wf (f : Nat → α → α) {m : List (Nat × α)} (hw : sparseWf d m = true) :
    sparseWf d (sparseMap d f m) = true := by
  induction m with
  | nil => rfl
  | cons e m ih =>
    obtain ⟨j, w⟩ := e
    simp only [sparseWf, Bool.and_eq_true] at hw
    exact sparseCons_wf _ _ (ih hw.2) (sparseMap_above f hw.2 hw.1.2)

/-- Reading after a map that keeps the default. -/
theorem sparseGet_sparseMap (f : Nat → α → α) (hf : ∀ k, f k d = d) {m : List (Nat × α)} (hw : sparseWf d m = true)
    (i : Nat) : sparseGet d (sparseMap d f m) i = f i (sparseGet d m i) := by
  induction m with
  | nil => exact (hf i).symm
  | cons e m ih =>
    obtain ⟨j, w⟩ := e
    simp only [sparseWf, Bool.and_eq_true] at hw
    simp only [sparseMap]
    rw [sparseGet_cons _ _ _ (sparseMap_wf f hw.2) (sparseMap_above f hw.2 hw.1.2)]
    by_cases hij : i = j
    · subst hij; simp [sparseGet]
    · have : j ≠ i := fun e => hij e.symm
      simp [sparseGet, hij, this, ih hw.2]

/-- Every listed key is below a bound. -/
theorem sparseSet_all {N k : Nat} (v : α) {m : List (Nat × α)} (hk : k < N)
    (h : m.all (fun c => decide (c.1 < N)) = true) : (sparseSet d m k v).all (fun c => decide (c.1 < N)) = true := by
  have cons : ∀ m' : List (Nat × α), m'.all (fun c => decide (c.1 < N)) = true →
      (sparseCons d k v m').all (fun c => decide (c.1 < N)) = true := by
    intro m' h'
    unfold sparseCons
    split
    · exact h'
    · simp only [List.all_cons, Bool.and_eq_true, decide_eq_true_eq]; exact ⟨hk, h'⟩
  induction m with
  | nil => exact cons [] rfl
  | cons e m ih =>
    have h' := h
    simp only [List.all_cons, Bool.and_eq_true] at h'
    unfold sparseSet
    split
    · exact cons _ h
    · split
      · exact cons _ h'.2
      · simp only [List.all_cons, Bool.and_eq_true]; exact ⟨h'.1, ih h'.2⟩

/-- Canonical lists that read alike are equal. -/
theorem sparse_ext {m n : List (Nat × α)} (hm : sparseWf d m = true) (hn : sparseWf d n = true)
    (h : ∀ k, sparseGet d m k = sparseGet d n k) : m = n := by
  induction m generalizing n with
  | nil =>
    cases n with
    | nil => rfl
    | cons e n =>
      obtain ⟨j, v⟩ := e
      have := h j
      simp only [sparseWf, Bool.and_eq_true, decide_eq_true_eq] at hn
      simp [sparseGet] at this
      exact absurd this.symm hn.1.1
  | cons e m ih =>
    obtain ⟨j, v⟩ := e
    have hm' := hm
    simp only [sparseWf, Bool.and_eq_true, decide_eq_true_eq] at hm'
    cases n with
    | nil =>
      have := h j
      simp [sparseGet] at this
      exact absurd this hm'.1.1
    | cons e' n =>
      obtain ⟨i, w⟩ := e'
      have hn' := hn
      simp only [sparseWf, Bool.and_eq_true, decide_eq_true_eq] at hn'
      rcases Nat.lt_trichotomy i j with hlt | heq | hgt
      · have h1 := h i
        rw [sparseGet_of_above hm (by simpa [sparseAbove] using hlt)] at h1
        simp [sparseGet] at h1
        exact absurd h1.symm hn'.1.1
      · subst heq
        have h1 := h i
        simp [sparseGet] at h1
        subst h1
        congr 1
        apply ih hm'.2 hn'.2
        intro k
        by_cases hk : i = k
        · subst hk
          rw [sparseGet_of_above hm'.2 hm'.1.2, sparseGet_of_above hn'.2 hn'.1.2]
        · have h2 := h k
          simpa [sparseGet, hk] using h2
      · have h1 := h j
        rw [sparseGet_of_above hn (by simpa [sparseAbove] using hgt)] at h1
        simp [sparseGet] at h1
        exact absurd h1 hm'.1.1

end Sys2Proof.Machine
end

