-- ==== Sys2Proof/Laws/Controls.lean ====
section
/-! SUPPORT. Writing the memory control registers: what their words keep, and what becomes of the cache lines (R52, R189,
R191, R227). -/

namespace Sys2Proof.Machine

/-- Packing keeps the DMC field. -/
theorem dmcOf_pack (v : Word) : dmcOf (packDmemControl v) = dmcOf v := by
  have e : ∀ z : Word, dmcOf z = (z.extractLsb' 2 2).toNat := by intro z; simp [dmcOf, fieldAt]
  rw [e, e]
  congr 1
  apply BitVec.eq_of_getLsbD_eq
  intro i hi
  have hb : ∀ i, 2 ≤ i → i < 4 → (0x0000301E#32).getLsbD i = true ∧ (1#32).getLsbD i = false := by decide
  have h := hb (2 + i) (by omega) (by omega)
  simp only [BitVec.getLsbD_extractLsb', hi]
  show (true && ((v &&& 0x0000301E#32) ||| 1#32).getLsbD (2 + i)) = _
  rw [BitVec.getLsbD_or, BitVec.getLsbD_and, h.1, h.2]; simp

theorem packImemControl_idem (v : Word) : packImemControl (packImemControl v) = packImemControl v := by
  apply BitVec.eq_of_getLsbD_eq
  intro i hi
  show ((((v &&& 0x0000207E#32) ||| 1#32) &&& 0x0000207E#32) ||| 1#32).getLsbD i =
    ((v &&& 0x0000207E#32) ||| 1#32).getLsbD i
  simp only [BitVec.getLsbD_or, BitVec.getLsbD_and]
  cases v.getLsbD i <;> cases (0x0000207E#32).getLsbD i <;> cases (1#32).getLsbD i <;> rfl

theorem packDmemControl_idem (v : Word) : packDmemControl (packDmemControl v) = packDmemControl v := by
  apply BitVec.eq_of_getLsbD_eq
  intro i hi
  show ((((v &&& 0x0000301E#32) ||| 1#32) &&& 0x0000301E#32) ||| 1#32).getLsbD i =
    ((v &&& 0x0000301E#32) ||| 1#32).getLsbD i
  simp only [BitVec.getLsbD_or, BitVec.getLsbD_and]
  cases v.getLsbD i <;> cases (0x0000301E#32).getLsbD i <;> cases (1#32).getLsbD i <;> rfl

theorem packIprio_idem (v : Word) : packIprio (packIprio v) = packIprio v := by
  apply BitVec.eq_of_getLsbD_eq
  intro i hi
  show ((v &&& 0x0000000F#32) &&& 0x0000000F#32).getLsbD i = (v &&& 0x0000000F#32).getLsbD i
  simp only [BitVec.getLsbD_and]
  cases v.getLsbD i <;> cases (0x0000000F#32).getLsbD i <;> rfl

/-- A bit of a packed IMEM_CONTROL that the register keeps. -/
theorem packImemControl_bit (v : Word) {k : Nat} (hk : (0x0000207E#32).getLsbD k = true) (h0 : k ≠ 0) :
    (packImemControl v).getLsbD k = v.getLsbD k := by
  show ((v &&& 0x0000207E#32) ||| 1#32).getLsbD k = _
  rw [BitVec.getLsbD_or, BitVec.getLsbD_and, hk, BitVec.getLsbD_one]
  simp [h0]

/-- Writing IMEM_CONTROL changes that register and the instruction cache's tags. -/
theorem writeImemControl_frame (s : State) (v : Word) :
    s.writeImemControl v =
      { s with imemControl := packImemControl v, icache := (s.writeImemControl v).icache } := by
  unfold State.writeImemControl; dsimp only; (repeat' split) <;> rfl

/-- A mapped set, way by way. -/
theorem ISet.mapLines_line (st : ISet) (f : ILine → ILine) (w : Fin 4) :
    (st.mapLines f).lines[w.val] = f st.lines[w.val] := by
  match w with
  | 0 => rfl
  | 1 => rfl
  | 2 => rfl
  | 3 => rfl

/-- A mapped set, way by way. -/
theorem DSet.mapLines_line (st : DSet) (f : DLine → DLine) (w : Fin 2) :
    (st.mapLines f).lines[w.val] = f st.lines[w.val] := by
  match w with
  | 0 => rfl
  | 1 => rfl

/-- Every line of every set invalid (R191). -/
theorem invalidateInstrCache_get {s : State} (h : sparseWf ISet.empty s.icache = true) (k : Nat) :
    sparseGet ISet.empty s.invalidateInstrCache.icache k =
      (sparseGet ISet.empty s.icache k).mapLines ILine.invalidate :=
  sparseGet_sparseMap (fun _ (st : ISet) => st.mapLines ILine.invalidate) (fun _ => rfl) h k

/-- Every line of every set low (R189). -/
theorem clearLruPrio_get {s : State} (h : sparseWf ISet.empty s.icache = true) (k : Nat) :
    sparseGet ISet.empty s.clearLruPrio.icache k =
      (sparseGet ISet.empty s.icache k).mapLines fun l => { l with lruPrio := false } :=
  sparseGet_sparseMap (fun _ (st : ISet) => st.mapLines fun l => { l with lruPrio := false }) (fun _ => rfl) h k

/-- The lines of the banks that are not cache invalid, the others kept (R227, D8). -/
theorem invalidateDataBanks_get {s : State} (h : sparseWf DSet.empty s.dcache = true) (dmc k : Nat) :
    sparseGet DSet.empty (s.invalidateDataBanks dmc).dcache k =
      if bankIsCacheUnder dmc (bankOfKey k) then sparseGet DSet.empty s.dcache k
      else (sparseGet DSet.empty s.dcache k).mapLines DLine.invalidate :=
  sparseGet_sparseMap
    (fun k (st : DSet) => if bankIsCacheUnder dmc (bankOfKey k) then st else st.mapLines DLine.invalidate)
    (fun k => by split <;> rfl) h k

/-- What becomes of a set of the instruction cache when IMEM_CONTROL is written. -/
theorem writeImemControl_get {s : State} (h : sparseWf ISet.empty s.icache = true) (v : Word) (k : Nat) :
    sparseWf ISet.empty (s.writeImemControl v).icache = true ∧
    (sparseGet ISet.empty (s.writeImemControl v).icache k).recency = (sparseGet ISet.empty s.icache k).recency ∧
    ∀ w : Fin 4, (sparseGet ISet.empty (s.writeImemControl v).icache k).lines[w.val] =
      { (sparseGet ISet.empty s.icache k).lines[w.val] with
        valid := ((sparseGet ISet.empty s.icache k).lines[w.val]).valid && v.getLsbD 2
        lruPrio := ((sparseGet ISet.empty s.icache k).lines[w.val]).lruPrio && !v.getLsbD 13 } := by
  have h2 : ∀ u : State, u.imemControl = packImemControl v → u.imc = v.getLsbD 2 := by
    intro u hu; unfold State.imc bitAt; rw [hu]; exact packImemControl_bit v (by decide) (by decide)
  have h13 : ({ s with imemControl := packImemControl v } : State).lruPrioRst = v.getLsbD 13 :=
    packImemControl_bit v (by decide) (by decide)
  have inv : ∀ u : State, u.imemControl = packImemControl v → sparseWf ISet.empty u.icache = true →
      sparseWf ISet.empty (if u.imc then u else u.invalidateInstrCache).icache = true ∧
      ((sparseGet ISet.empty (if u.imc then u else u.invalidateInstrCache).icache k).recency =
        (sparseGet ISet.empty u.icache k).recency) ∧
      ∀ w : Fin 4, (sparseGet ISet.empty (if u.imc then u else u.invalidateInstrCache).icache k).lines[w.val] =
        { (sparseGet ISet.empty u.icache k).lines[w.val] with
          valid := ((sparseGet ISet.empty u.icache k).lines[w.val]).valid && v.getLsbD 2 } := by
    intro u hu hw
    have hu2 := h2 u hu
    by_cases hv : u.imc = true
    · have hv' : v.getLsbD 2 = true := hu2.symm.trans hv
      simp only [if_pos hv, hv']
      exact ⟨hw, trivial, fun w => by simp⟩
    · simp only [if_neg hv]
      have hv' : v.getLsbD 2 = false := by rw [← hu2]; simpa using hv
      refine ⟨sparseMap_wf _ hw, ?_, ?_⟩
      · rw [invalidateInstrCache_get hw]; rfl
      · intro w
        have hl := ISet.mapLines_line (sparseGet ISet.empty u.icache k) ILine.invalidate w
        rw [← invalidateInstrCache_get hw] at hl
        rw [hl, hv']; simp [ILine.invalidate]
  unfold State.writeImemControl
  dsimp only
  by_cases hp : ({ s with imemControl := packImemControl v } : State).lruPrioRst = true
  · rw [if_pos hp]
    obtain ⟨a1, a2, a3⟩ := inv ({ s with imemControl := packImemControl v } : State).clearLruPrio rfl (sparseMap_wf _ h)
    refine ⟨a1, ?_, ?_⟩
    · rw [a2, clearLruPrio_get (s := { s with imemControl := packImemControl v }) h]; rfl
    · intro w
      have hl := ISet.mapLines_line (sparseGet ISet.empty s.icache k) (fun l => { l with lruPrio := false }) w
      have hg := clearLruPrio_get (s := { s with imemControl := packImemControl v }) h k
      have hv : v.getLsbD 13 = true := h13.symm.trans hp
      rw [a3 w, hv]
      simp only [hg, hl]; simp
  · rw [if_neg hp]
    obtain ⟨a1, a2, a3⟩ := inv ({ s with imemControl := packImemControl v } : State) rfl h
    refine ⟨a1, a2, ?_⟩
    intro w
    have : v.getLsbD 13 = false := by rw [← h13]; simpa using hp
    rw [a3 w, this]; simp

/-- What a write of a core MMR leaves alone: the buffers, the pc and the event state. -/
theorem writeMmr_frame (s : State) (name : MmrName) (v : Word) :
    s.writeMmr name v =
      { s.writeMmr name v with
        storeBuf := s.storeBuf, writeBuf := s.writeBuf, victimA := s.victimA, victimB := s.victimB, pc := s.pc,
        irqPending := s.irqPending, hwErrorPending := s.hwErrorPending, imask := s.imask, isrs := s.isrs,
        handling := s.handling } := by
  cases name <;> simp only [State.writeMmr] <;> try rfl
  · simp only [State.dtest, State.dtestInstr, State.dtestData]; (repeat' split) <;> rfl
  · unfold State.writeImemControl; dsimp only; (repeat' split) <;> rfl
  · simp only [State.itest]; (repeat' split) <;> rfl

end Sys2Proof.Machine
end

