-- ==== Sys2Proof/Laws/Faults.lean ====
section
/-! SUPPORT. The bits of a fault record (R280), and the lookup of an address by how many descriptors match. -/

namespace Sys2Proof.Machine

/-- A one-bit field, bit by bit. -/
theorem flagBit_bit (b : Bool) (j k : Nat) (hj : j < 32) : (flagBit b j).getLsbD k = (b && (j == k)) := by
  unfold flagBit
  cases b with
  | false => simp
  | true =>
    rw [if_pos rfl, BitVec.getLsbD_shiftLeft, show (1 : Word) = 1#32 from rfl, BitVec.getLsbD_one, Bool.true_and]
    by_cases h : j = k
    · subst h; simp [hj]
    · have h1 : (j == k) = false := by simpa using h
      rw [h1]
      by_cases h2 : k < j
      · simp [h2]
      · simp [show ¬ (k - j = 0) by omega]

/-- Setting one bit for each number of a list. -/
theorem foldl_flagBit (l : List (Fin 16)) (w : Word) (k : Nat) :
    (l.foldl (fun w n => w ||| flagBit true n.val) w).getLsbD k = (w.getLsbD k || l.any fun n => n.val == k) := by
  induction l generalizing w with
  | nil => rw [List.foldl_nil, List.any_nil, Bool.or_false]
  | cons n l ih =>
    rw [List.foldl_cons, ih, BitVec.getLsbD_or, flagBit_bit true n.val k (by omega), List.any_cons, Bool.true_and,
      Bool.or_assoc]

/-- Bit `k` of the match bits says whether descriptor `k` matches; the bits above the sixteen are 0 (R280). -/
theorem faultBits_bit (v : Vector Cplb 16) (a : Addr) (k : Nat) :
    (faultBits v a).getLsbD k = if h : k < 16 then (v[k]).covers a else false := by
  unfold faultBits
  rw [foldl_flagBit, show (0 : Word) = 0#32 from rfl, BitVec.getLsbD_zero, Bool.false_or]
  by_cases h : k < 16
  · simp only [h, dite_true]
    apply Bool.eq_iff_iff.2
    simp only [List.any_eq_true, beq_iff_eq]
    constructor
    · rintro ⟨n, hn, rfl⟩; exact (List.mem_filter.1 hn).2
    · intro hc
      have mem : ∀ n : Fin 16, n ∈ slots := by decide
      exact ⟨⟨k, h⟩, List.mem_filter.2 ⟨mem _, hc⟩, rfl⟩
  · simp only [h, dite_false, List.any_eq_false, beq_iff_eq]
    intro n _
    omega

/-- No descriptor matches. -/
theorem lookup_miss {v : Vector Cplb 16} {a : Addr} (h : matching v a = []) : lookup v a = .miss := by
  simp [lookup, h]

/-- One descriptor matches. -/
theorem lookup_hit {v : Vector Cplb 16} {a : Addr} {n : Fin 16} (h : matching v a = [n]) :
    lookup v a = .hit v[n.val] := by
  simp [lookup, h]

/-- Two or more descriptors match. -/
theorem lookup_multiple {v : Vector Cplb 16} {a : Addr} (h : 2 ≤ (matching v a).length) : lookup v a = .multiple := by
  unfold lookup
  split <;> simp_all

end Sys2Proof.Machine
end

