-- ==== Sys2Proof/Laws/Frames.lean ====
section
/-! SUPPORT. What each shared operation of the bus, the buffers and the data cache can change: one lemma each. -/

namespace Sys2Proof.Machine

/-! ### The bus and the buffers -/

theorem BusOnly.refl (s : State) : BusOnly s s := rfl

theorem BusOnly.trans {s t u : State} (h : BusOnly s t) (k : BusOnly t u) : BusOnly s u := by
  unfold BusOnly at *; rw [k, h]

theorem StorageOnly.refl (s : State) : StorageOnly s s := rfl

theorem StorageOnly.trans {s t u : State} (h : StorageOnly s t) (k : StorageOnly t u) : StorageOnly s u := by
  unfold StorageOnly at *; rw [k, h]

theorem BusOnly.storage {s t : State} (h : BusOnly s t) : StorageOnly s t := by
  unfold BusOnly at h; unfold StorageOnly; rw [h]

/-- A bus request can only make the hardware error pending. -/
theorem touch_frame (s : State) (a : Addr) :
    s.touch a = { s with hwErrorPending := (s.touch a).hwErrorPending } := by
  unfold State.touch; split <;> rfl

/-- A bus write changes memory and the pending hardware error alone. -/
theorem busWrite_frame (s : State) (a : Addr) (bs : List Byte) :
    s.busWrite a bs = { s with mem := (s.busWrite a bs).mem, hwErrorPending := (s.busWrite a bs).hwErrorPending } := by
  unfold State.busWrite; split
  · rfl
  · split <;> rfl

theorem touch_busOnly (s : State) (a : Addr) : BusOnly s (s.touch a) := by
  unfold BusOnly State.touch; split <;> rfl

theorem busWrite_busOnly (s : State) (a : Addr) (bs : List Byte) : BusOnly s (s.busWrite a bs) := by
  unfold BusOnly State.busWrite; split
  · rfl
  · split <;> rfl

theorem setWriteBuf_busOnly (s : State) (l : List BufEntry) : BusOnly s { s with writeBuf := l } := rfl

theorem setMem_busOnly (s : State) (m : List Host.Cell) : BusOnly s { s with mem := m } := rfl

theorem performWrites_busOnly (s : State) (n : Nat) : BusOnly s (s.performWrites n) := by
  induction n generalizing s with
  | zero => exact BusOnly.refl s
  | succ n ih =>
    unfold State.performWrites
    split
    · exact BusOnly.refl s
    · exact ((setWriteBuf_busOnly s _).trans (busWrite_busOnly _ _ _)).trans (ih _)

theorem flushWrites_busOnly (s : State) : BusOnly s s.flushWrites := performWrites_busOnly s _

theorem setVictim_busOnly (s : State) (k : Bank) (v : Option Victim) : BusOnly s (s.setVictim k v) := by
  cases k <;> rfl

theorem performVictim_busOnly (s : State) (k : Bank) : BusOnly s (s.performVictim k) := by
  unfold State.performVictim
  split
  · exact BusOnly.refl s
  · exact (setVictim_busOnly s k none).trans (busWrite_busOnly _ _ _)

theorem settleVictims_busOnly (s : State) (a : Addr) : BusOnly s (s.settleVictims a) := by
  have one : ∀ (s : State) (k : Bank), BusOnly s (s.settleVictim a k) := by
    intro s k; unfold State.settleVictim; split
    · exact performVictim_busOnly s k
    · exact BusOnly.refl s
  exact (one s _).trans (one _ _)

theorem settleWrites_busOnly (s : State) (a : Addr) : BusOnly s (s.settleWrites a) := by
  unfold State.settleWrites; split
  · exact flushWrites_busOnly s
  · exact BusOnly.refl s

theorem enqueueWrite_busOnly (s : State) (e : BufEntry) : BusOnly s (s.enqueueWrite e) := by
  unfold State.enqueueWrite
  exact ((settleVictims_busOnly s _).trans (performWrites_busOnly _ _)).trans (setWriteBuf_busOnly _ _)

theorem enqueueVictim_busOnly (s : State) (k : Bank) (v : Victim) : BusOnly s (s.enqueueVictim k v) := by
  unfold State.enqueueVictim
  exact (((settleWrites_busOnly s _).trans (settleVictims_busOnly _ _)).trans (performVictim_busOnly _ _)).trans
    (setVictim_busOnly _ _ _)

/-! ### The data cache -/

theorem setDset_storageOnly (s : State) (pl : DPlace) (st : DSet) : StorageOnly s (s.setDset pl st) := rfl

theorem writeBackLine_busOnly (s : State) (pl : DPlace) (w : Fin 2) : BusOnly s (s.writeBackLine pl w) := by
  simp only [State.writeBackLine]; split
  · exact enqueueVictim_busOnly _ _ _
  · exact BusOnly.refl s

theorem allocateLine_storageOnly (s : State) (pl : DPlace) (w : Fin 2) (a : Addr) :
    StorageOnly s (s.allocateLine pl w a) := by
  unfold State.allocateLine
  exact (((writeBackLine_busOnly s pl w).trans (touch_busOnly _ _)).trans (setMem_busOnly _ _)).storage.trans
    (setDset_storageOnly _ _ _)

theorem lineFor_storageOnly (s : State) (pl : DPlace) (a : Addr) : StorageOnly s (s.lineFor pl a).2 := by
  unfold State.lineFor; split
  · exact setDset_storageOnly _ _ _
  · exact allocateLine_storageOnly _ _ _ _

theorem writeLine_storageOnly (s : State) (pl : DPlace) (w : Fin 2) (a : Addr) (bs : List Byte) (m : Bool) :
    StorageOnly s (s.writeLine pl w a bs m) := rfl

theorem storeWriteBack_storageOnly (s : State) (pl : DPlace) (e : BufEntry) :
    StorageOnly s (s.storeWriteBack pl e) := by
  unfold State.storeWriteBack
  exact ((settleWrites_busOnly s _).storage.trans (lineFor_storageOnly _ pl e.addr)).trans
    (writeLine_storageOnly _ _ _ _ _ _)

theorem storeWriteThrough_storageOnly (s : State) (pl : DPlace) (e : BufEntry) (b : Bool) :
    StorageOnly s (s.storeWriteThrough pl e b) := by
  unfold State.storeWriteThrough; split
  · exact ((lineFor_storageOnly s pl e.addr).trans (writeLine_storageOnly _ _ _ _ _ _)).trans
      (enqueueWrite_busOnly _ _).storage
  · exact (enqueueWrite_busOnly _ _).storage

theorem prefetchLine_storageOnly (s : State) (pl : DPlace) (a : Addr) : StorageOnly s (s.prefetchLine pl a) := by
  unfold State.prefetchLine; split
  · exact StorageOnly.refl s
  · exact allocateLine_storageOnly _ _ _ _

theorem flushLine_storageOnly (s : State) (a : Addr) : StorageOnly s (s.flushLine a) := by
  simp only [State.flushLine]
  split
  · exact StorageOnly.refl s
  · split
    · exact StorageOnly.refl s
    · split
      · exact (writeBackLine_busOnly _ _ _).storage.trans (setDset_storageOnly _ _ _)
      · exact StorageOnly.refl s

theorem flushInvalidateLine_storageOnly (s : State) (a : Addr) : StorageOnly s (s.flushInvalidateLine a) := by
  simp only [State.flushInvalidateLine]
  split
  · exact StorageOnly.refl s
  · split
    · exact StorageOnly.refl s
    · exact (writeBackLine_busOnly _ _ _).storage.trans (setDset_storageOnly _ _ _)

/-! ### Reads, stores and drains -/

theorem readUnder_storageOnly (s : State) (a : Addr) (n : Nat) (m : CacheMode) :
    StorageOnly s (s.readUnder a n m).2 := by
  unfold State.readUnder; split
  · exact (touch_busOnly s a).storage
  · exact (touch_busOnly s a).storage
  · exact lineFor_storageOnly _ _ _

/-- A read can change nothing but memory behind the caches, the buffers there, the data cache's tags and the pending
hardware error. -/
theorem readValue_storageOnly (s : State) (a : Addr) (n : Nat) (m : CacheMode) :
    StorageOnly s (s.readValue a n m).2 := by
  unfold State.readValue; split
  · exact StorageOnly.refl s
  · exact readUnder_storageOnly s a n m

/-- A store performed on anything but a core MMR changes storage alone. -/
theorem performStore_storageOnly (s : State) (ps : PendingStore) (h : ps.path ≠ .coreMmr) :
    StorageOnly s (s.performStore ps) := by
  unfold State.performStore
  split
  · next e => exact absurd e h
  · rfl
  · split
    · exact storeWriteBack_storageOnly _ _ _
    · exact (enqueueWrite_busOnly _ _).storage
  · split
    · exact storeWriteThrough_storageOnly _ _ _ _
    · exact (enqueueWrite_busOnly _ _).storage
  · exact (enqueueWrite_busOnly _ _).storage

/-- A list of stores, none to a core MMR, changes storage alone. -/
theorem performStores_storageOnly (s : State) (l : List PendingStore) (h : ∀ ps ∈ l, ps.path ≠ .coreMmr) :
    StorageOnly s (s.performStores l) := by
  induction l generalizing s with
  | nil => exact StorageOnly.refl s
  | cons ps l ih =>
    exact (performStore_storageOnly s ps (h ps (by simp))).trans (ih _ fun q hq => h q (by simp [hq]))

/-! ### Core MMRs and the drains -/

theorem DrainOnly.refl (s : State) : DrainOnly s s := rfl

theorem DrainOnly.trans {s t u : State} (h : DrainOnly s t) (k : DrainOnly t u) : DrainOnly s u := by
  unfold DrainOnly at *; rw [k, h]

theorem StorageOnly.drain {s t : State} (h : StorageOnly s t) : DrainOnly s t := by
  unfold StorageOnly at h; unfold DrainOnly; rw [h]

theorem itest_drainOnly (s : State) (c : Word) : DrainOnly s (s.itest c) := by
  simp only [State.itest]
  (repeat' split) <;> rfl

theorem dtest_drainOnly (s : State) (c : Word) : DrainOnly s (s.dtest c) := by
  simp only [State.dtest, State.dtestInstr, State.dtestData]
  (repeat' split) <;> rfl

/-- A write of a core MMR changes the registers that software can write, the cache arrays and memory cells alone. -/
theorem writeMmr_drainOnly (s : State) (name : MmrName) (v : Word) : DrainOnly s (s.writeMmr name v) := by
  cases name <;> simp only [State.writeMmr]
  case dtestCommand => exact DrainOnly.trans (t := { s with dtestCommand := packDtestCommand v }) rfl (dtest_drainOnly _ _)
  case itestCommand => exact DrainOnly.trans (t := { s with itestCommand := packItestCommand v }) rfl (itest_drainOnly _ _)
  case imemControl =>
    simp only [State.writeImemControl]
    (repeat' split) <;> rfl
  all_goals rfl

/-- A buffered store performed, wherever it goes. -/
theorem performStore_drainOnly (s : State) (ps : PendingStore) : DrainOnly s (s.performStore ps) := by
  by_cases h : ps.path = .coreMmr
  · unfold State.performStore
    rw [h]
    simp only
    split
    · exact writeMmr_drainOnly _ _ _
    · exact DrainOnly.refl s
  · exact (performStore_storageOnly s ps h).drain

theorem performStores_drainOnly (s : State) (l : List PendingStore) : DrainOnly s (s.performStores l) := by
  induction l generalizing s with
  | nil => exact DrainOnly.refl s
  | cons ps l ih => exact (performStore_drainOnly s ps).trans (ih _)

/-- Emptying the store buffer changes what the stores change and empties the buffer. -/
theorem drainStores_drainOnly (s : State) : DrainOnly { s with storeBuf := [] } s.drainStores :=
  performStores_drainOnly _ _

/-- Emptying every buffer. -/
theorem drainAll_drainOnly (s : State) : DrainOnly { s with storeBuf := [] } s.drainAll := by
  unfold State.drainAll
  exact (((drainStores_drainOnly s).trans (flushWrites_busOnly _).storage.drain).trans
    (performVictim_busOnly _ _).storage.drain).trans (performVictim_busOnly _ _).storage.drain

/-! ### What the drains leave in the buffers -/

theorem busWrite_writeBuf (s : State) (a : Addr) (bs : List Byte) : (s.busWrite a bs).writeBuf = s.writeBuf := by
  rw [busWrite_frame]

/-- Performing `n` entries leaves the others. -/
theorem performWrites_writeBuf (s : State) (n : Nat) : (s.performWrites n).writeBuf = s.writeBuf.drop n := by
  induction n generalizing s with
  | zero => rfl
  | succ n ih =>
    unfold State.performWrites
    split
    · next h => simp [h]
    · next e es h => rw [ih, busWrite_writeBuf, h]; rfl

theorem performVictim_victim (s : State) (k : Bank) : (s.performVictim k).victim k = none := by
  unfold State.performVictim
  split
  · assumption
  · have := busWrite_frame (s.setVictim k none)
    rw [this]; cases k <;> rfl

theorem performVictim_other (s : State) (k j : Bank) (h : j ≠ k) : (s.performVictim k).victim j = s.victim j := by
  unfold State.performVictim
  split
  · rfl
  · rw [busWrite_frame]; cases k <;> cases j <;> first | rfl | exact absurd rfl h

theorem performVictim_writeBuf (s : State) (k : Bank) : (s.performVictim k).writeBuf = s.writeBuf := by
  unfold State.performVictim
  split
  · rfl
  · rw [busWrite_frame]; cases k <;> rfl

/-- After a full drain nothing waits. -/
theorem drainAll_quiet (s : State) : s.drainAll.quiet := by
  have hA := performVictim_victim (s.drainStores.flushWrites) .bankA
  have hB := performVictim_victim ((s.drainStores.flushWrites).performVictim .bankA) .bankB
  have hA' := performVictim_other ((s.drainStores.flushWrites).performVictim .bankA) .bankB .bankA (by decide)
  refine ⟨?_, ?_, ?_, ?_⟩
  · have := drainAll_drainOnly s
    unfold DrainOnly at this
    rw [this]
  · unfold State.drainAll
    rw [performVictim_writeBuf, performVictim_writeBuf, State.flushWrites, performWrites_writeBuf]
    simp
  · exact hA'.trans hA
  · exact hB

/-- With nothing waiting a full drain changes nothing. -/
theorem drainAll_of_quiet {s : State} (h : s.quiet) : s.drainAll = s := by
  obtain ⟨h1, h2, h3, h4⟩ := h
  have e1 : s.drainStores = s := by
    unfold State.drainStores
    rw [h1]
    show { s with storeBuf := [] } = s
    rw [← h1]
  unfold State.drainAll
  rw [e1]
  have e2 : s.flushWrites = s := by unfold State.flushWrites; rw [h2]; rfl
  rw [e2]
  have e3 : s.performVictim .bankA = s := by unfold State.performVictim State.victim; rw [h3]
  have e4 : s.performVictim .bankB = s := by unfold State.performVictim State.victim; rw [h4]
  rw [e3, e4]

/-- Emptying an empty store buffer changes nothing. -/
theorem drainStores_empty {s : State} (h : s.storeBuf = []) : s.drainStores = s := by
  unfold State.drainStores
  rw [h]
  show { s with storeBuf := [] } = s
  rw [← h]

/-- With no line on its way out there is nothing to settle. -/
theorem settleVictims_none {s : State} (h1 : s.victimA = none) (h2 : s.victimB = none) (a : Addr) :
    s.settleVictims a = s := by
  have hA : s.settleVictim a .bankA = s := by simp [State.settleVictim, State.victim, h1]
  have hB : s.settleVictim a .bankB = s := by simp [State.settleVictim, State.victim, h2]
  unfold State.settleVictims; rw [hA, hB]

/-- Performing writes from an empty write buffer changes nothing. -/
theorem performWrites_empty {s : State} (h : s.writeBuf = []) (n : Nat) : s.performWrites n = s := by
  cases n <;> simp [State.performWrites, h]

/-- With an empty write buffer there is nothing to settle. -/
theorem settleWrites_empty {s : State} (h : s.writeBuf = []) (a : Addr) : s.settleWrites a = s := by
  simp [State.settleWrites, h]

/-- A store entering an empty write buffer while no line is on its way out. -/
theorem enqueueWrite_quiet {s : State} (hw : s.writeBuf = []) (h1 : s.victimA = none) (h2 : s.victimB = none)
    (e : BufEntry) : s.enqueueWrite e = { s with writeBuf := [e] } := by
  simp only [State.enqueueWrite]
  rw [settleVictims_none h1 h2, performWrites_empty hw, hw]; rfl

end Sys2Proof.Machine
end

