-- ==== Sys2Proof/Laws/Memory.lean ====
section
/-! SUPPORT. The laws of memory: every operation keeps the canonical form, a byte written is read back, and every other
byte is left alone. -/

namespace Sys2Proof.Machine

/-- The canonical form, in its two parts. -/
theorem Memory.wf_iff (m : List Host.Cell) :
    Memory.wf m = true ↔ sparseWf Memory.unlisted m = true ∧ m.all (fun c => decide (c.1 < 2 ^ 32)) = true := by
  unfold Memory.wf; exact Bool.and_eq_true _ _ ▸ Iff.rfl

/-- A byte write keeps the canonical form. -/
theorem Memory.write_wf {m : List Host.Cell} (a : Addr) (v : Byte) (h : Memory.wf m = true) :
    Memory.wf (Memory.write m a v) = true := by
  rw [Memory.wf_iff] at *
  exact ⟨sparseSet_wf _ _ h.1, sparseSet_all v a.isLt h.2⟩

/-- A run of byte writes keeps the canonical form. -/
theorem Memory.writeBytes_wf {m : List Host.Cell} (a : Addr) (bs : List Byte) (h : Memory.wf m = true) :
    Memory.wf (Memory.writeBytes m a bs) = true := by
  induction bs generalizing m a with
  | nil => exact h
  | cons b bs ih => exact ih (a + 1) (Memory.write_wf a b h)

/-- The empty memory is canonical: the memory of State.reset. -/
theorem Memory.wf_nil : Memory.wf [] = true := rfl

/-- The memory of the reset state is canonical. -/
theorem State.reset_mem_wf : Memory.wf State.reset.mem = true := rfl

/-- Reading a byte after a byte write. -/
theorem Memory.read_write {m : List Host.Cell} (a b : Addr) (v : Byte) (h : Memory.wf m = true) :
    Memory.read (Memory.write m a v) b = if b = a then v else Memory.read m b := by
  unfold Memory.read Memory.write
  rw [sparseGet_sparseSet _ _ _ ((Memory.wf_iff m).1 h).1]
  by_cases hab : b = a
  · simp [hab]
  · have : b.toNat ≠ a.toNat := fun e => hab (BitVec.eq_of_toNat_eq e)
    simp [hab, this]

/-- Reading a byte after a run of byte writes shorter than the address space: inside the run the byte written
there, outside it the byte before. -/
theorem Memory.read_writeBytes {m : List Host.Cell} (a b : Addr) (bs : List Byte) (h : Memory.wf m = true)
    (hl : bs.length ≤ 2 ^ 32) :
    Memory.read (Memory.writeBytes m a bs) b = bs[(b - a).toNat]?.getD (Memory.read m b) := by
  induction bs generalizing m a with
  | nil => simp [Memory.writeBytes]
  | cons v vs ih =>
    have hl' : vs.length + 1 ≤ 2 ^ 32 := by simpa using hl
    simp only [Memory.writeBytes]
    rw [ih (a + 1) (Memory.write_wf a v h) (by omega), Memory.read_write a b v h]
    by_cases hab : b = a
    · subst hab
      have h1 : (b - (b + 1)).toNat = 2 ^ 32 - 1 := by
        have : b - (b + 1) = (-1 : Addr) := by ring
        rw [this]; decide
      have h2 : vs[(b - (b + 1)).toNat]? = none := by
        rw [List.getElem?_eq_none_iff, h1]; omega
      rw [h2]; simp
    · have hne : (b - a).toNat ≠ 0 := by
        intro e
        apply hab
        have : b - a = 0 := BitVec.eq_of_toNat_eq (by simpa using e)
        exact (sub_eq_zero.mp this)
      have hs : (b - a).toNat = (b - (a + 1)).toNat + 1 := by
        have : b - (a + 1) = (b - a) - 1 := by ring
        rw [this]; bv_omega
      rw [hs, List.getElem?_cons_succ, if_neg hab]

/-- The length of a run read. -/
@[simp] theorem Memory.readBytes_length (m : List Host.Cell) (a : Addr) (n : Nat) :
    (Memory.readBytes m a n).length = n := by simp [Memory.readBytes]

/-- A run written is read back. -/
theorem Memory.readBytes_writeBytes {m : List Host.Cell} (h : Memory.wf m = true) (a : Addr) (bs : List Byte)
    (hl : bs.length ≤ 2 ^ 32) : Memory.readBytes (Memory.writeBytes m a bs) a bs.length = bs := by
  apply List.ext_getElem
  · simp
  · intro i h1 h2
    simp only [Memory.readBytes, List.getElem_map, List.getElem_range]
    rw [Memory.read_writeBytes _ _ _ h hl]
    have : (a + BitVec.ofNat 32 i - a).toNat = i := by
      rw [add_sub_cancel_left, BitVec.toNat_ofNat, Nat.mod_eq_of_lt (by omega)]
    rw [this]; simp [h2]

/-- A run written leaves every byte outside it alone. -/
theorem Memory.read_writeBytes_out {m : List Host.Cell} (h : Memory.wf m = true) (a b : Addr) (bs : List Byte)
    (hl : bs.length ≤ 2 ^ 32) (ho : bs.length ≤ (b - a).toNat) :
    Memory.read (Memory.writeBytes m a bs) b = Memory.read m b := by
  rw [Memory.read_writeBytes _ _ _ h hl, List.getElem?_eq_none ho]; rfl

end Sys2Proof.Machine
end

