-- ==== Sys2Proof/Laws/State.lean ====
section
/-! SUPPORT. One lemma per field per update of the state, true by rfl, so that no proof unfolds a record update. -/

namespace Sys2Proof.Machine

/-! ### State.advance -/

@[simp] theorem State.advance_r (s : State) (n : Nat) : (s.advance n).r = s.r := rfl
@[simp] theorem State.advance_p (s : State) (n : Nat) : (s.advance n).p = s.p := rfl
@[simp] theorem State.advance_pc (s : State) (n : Nat) : (s.advance n).pc = s.pc + BitVec.ofNat 32 n := rfl
@[simp] theorem State.advance_cc (s : State) (n : Nat) : (s.advance n).cc = s.cc := rfl
@[simp] theorem State.advance_imask (s : State) (n : Nat) : (s.advance n).imask = s.imask := rfl
@[simp] theorem State.advance_mode (s : State) (n : Nat) : (s.advance n).mode = s.mode := rfl
@[simp] theorem State.advance_alignExcOff (s : State) (n : Nat) : (s.advance n).alignExcOff = s.alignExcOff := rfl
@[simp] theorem State.advance_shadow (s : State) (n : Nat) : (s.advance n).shadow = s.shadow := rfl
@[simp] theorem State.advance_mem (s : State) (n : Nat) : (s.advance n).mem = s.mem := rfl
@[simp] theorem State.advance_imemControl (s : State) (n : Nat) : (s.advance n).imemControl = s.imemControl := rfl
@[simp] theorem State.advance_icplb (s : State) (n : Nat) : (s.advance n).icplb = s.icplb := rfl
@[simp] theorem State.advance_icplbStatus (s : State) (n : Nat) : (s.advance n).icplbStatus = s.icplbStatus := rfl
@[simp] theorem State.advance_icplbFaultAddr (s : State) (n : Nat) : (s.advance n).icplbFaultAddr = s.icplbFaultAddr := rfl
@[simp] theorem State.advance_itestCommand (s : State) (n : Nat) : (s.advance n).itestCommand = s.itestCommand := rfl
@[simp] theorem State.advance_itestData0 (s : State) (n : Nat) : (s.advance n).itestData0 = s.itestData0 := rfl
@[simp] theorem State.advance_itestData1 (s : State) (n : Nat) : (s.advance n).itestData1 = s.itestData1 := rfl
@[simp] theorem State.advance_dmemControl (s : State) (n : Nat) : (s.advance n).dmemControl = s.dmemControl := rfl
@[simp] theorem State.advance_dcplb (s : State) (n : Nat) : (s.advance n).dcplb = s.dcplb := rfl
@[simp] theorem State.advance_dcplbStatus (s : State) (n : Nat) : (s.advance n).dcplbStatus = s.dcplbStatus := rfl
@[simp] theorem State.advance_dcplbFaultAddr (s : State) (n : Nat) : (s.advance n).dcplbFaultAddr = s.dcplbFaultAddr := rfl
@[simp] theorem State.advance_dtestCommand (s : State) (n : Nat) : (s.advance n).dtestCommand = s.dtestCommand := rfl
@[simp] theorem State.advance_dtestData0 (s : State) (n : Nat) : (s.advance n).dtestData0 = s.dtestData0 := rfl
@[simp] theorem State.advance_dtestData1 (s : State) (n : Nat) : (s.advance n).dtestData1 = s.dtestData1 := rfl
@[simp] theorem State.advance_iprio (s : State) (n : Nat) : (s.advance n).iprio = s.iprio := rfl
@[simp] theorem State.advance_timerControl (s : State) (n : Nat) : (s.advance n).timerControl = s.timerControl := rfl
@[simp] theorem State.advance_icache (s : State) (n : Nat) : (s.advance n).icache = s.icache := rfl
@[simp] theorem State.advance_dcache (s : State) (n : Nat) : (s.advance n).dcache = s.dcache := rfl
@[simp] theorem State.advance_storeBuf (s : State) (n : Nat) : (s.advance n).storeBuf = s.storeBuf := rfl
@[simp] theorem State.advance_writeBuf (s : State) (n : Nat) : (s.advance n).writeBuf = s.writeBuf := rfl
@[simp] theorem State.advance_writeBufDepth (s : State) (n : Nat) : (s.advance n).writeBufDepth = s.writeBufDepth := rfl
@[simp] theorem State.advance_victimA (s : State) (n : Nat) : (s.advance n).victimA = s.victimA := rfl
@[simp] theorem State.advance_victimB (s : State) (n : Nat) : (s.advance n).victimB = s.victimB := rfl
@[simp] theorem State.advance_retx (s : State) (n : Nat) : (s.advance n).retx = s.retx := rfl
@[simp] theorem State.advance_excause (s : State) (n : Nat) : (s.advance n).excause = s.excause := rfl
@[simp] theorem State.advance_evt3 (s : State) (n : Nat) : (s.advance n).evt3 = s.evt3 := rfl
@[simp] theorem State.advance_savedMode (s : State) (n : Nat) : (s.advance n).savedMode = s.savedMode := rfl
@[simp] theorem State.advance_handling (s : State) (n : Nat) : (s.advance n).handling = s.handling := rfl
@[simp] theorem State.advance_isrs (s : State) (n : Nat) : (s.advance n).isrs = s.isrs := rfl
@[simp] theorem State.advance_irqPending (s : State) (n : Nat) : (s.advance n).irqPending = s.irqPending := rfl
@[simp] theorem State.advance_vectors (s : State) (n : Nat) : (s.advance n).vectors = s.vectors := rfl
@[simp] theorem State.advance_pab (s : State) (n : Nat) : (s.advance n).pab = s.pab := rfl
@[simp] theorem State.advance_hwErrorPending (s : State) (n : Nat) : (s.advance n).hwErrorPending = s.hwErrorPending := rfl
@[simp] theorem State.advance_flashBank (s : State) (n : Nat) : (s.advance n).flashBank = s.flashBank := rfl
@[simp] theorem State.advance_inputs (s : State) (n : Nat) : (s.advance n).inputs = s.inputs := rfl
@[simp] theorem State.advance_tick (s : State) (n : Nat) : (s.advance n).tick = s.tick := rfl

/-! ### State.setD -/

@[simp] theorem State.setD_r (s : State) (d : DReg) (v : Word) : (s.setD d v).r = s.r.set d v := rfl
@[simp] theorem State.setD_p (s : State) (d : DReg) (v : Word) : (s.setD d v).p = s.p := rfl
@[simp] theorem State.setD_pc (s : State) (d : DReg) (v : Word) : (s.setD d v).pc = s.pc := rfl
@[simp] theorem State.setD_cc (s : State) (d : DReg) (v : Word) : (s.setD d v).cc = s.cc := rfl
@[simp] theorem State.setD_imask (s : State) (d : DReg) (v : Word) : (s.setD d v).imask = s.imask := rfl
@[simp] theorem State.setD_mode (s : State) (d : DReg) (v : Word) : (s.setD d v).mode = s.mode := rfl
@[simp] theorem State.setD_alignExcOff (s : State) (d : DReg) (v : Word) : (s.setD d v).alignExcOff = s.alignExcOff := rfl
@[simp] theorem State.setD_shadow (s : State) (d : DReg) (v : Word) : (s.setD d v).shadow = s.shadow := rfl
@[simp] theorem State.setD_mem (s : State) (d : DReg) (v : Word) : (s.setD d v).mem = s.mem := rfl
@[simp] theorem State.setD_imemControl (s : State) (d : DReg) (v : Word) : (s.setD d v).imemControl = s.imemControl := rfl
@[simp] theorem State.setD_icplb (s : State) (d : DReg) (v : Word) : (s.setD d v).icplb = s.icplb := rfl
@[simp] theorem State.setD_icplbStatus (s : State) (d : DReg) (v : Word) : (s.setD d v).icplbStatus = s.icplbStatus := rfl
@[simp] theorem State.setD_icplbFaultAddr (s : State) (d : DReg) (v : Word) : (s.setD d v).icplbFaultAddr = s.icplbFaultAddr := rfl
@[simp] theorem State.setD_itestCommand (s : State) (d : DReg) (v : Word) : (s.setD d v).itestCommand = s.itestCommand := rfl
@[simp] theorem State.setD_itestData0 (s : State) (d : DReg) (v : Word) : (s.setD d v).itestData0 = s.itestData0 := rfl
@[simp] theorem State.setD_itestData1 (s : State) (d : DReg) (v : Word) : (s.setD d v).itestData1 = s.itestData1 := rfl
@[simp] theorem State.setD_dmemControl (s : State) (d : DReg) (v : Word) : (s.setD d v).dmemControl = s.dmemControl := rfl
@[simp] theorem State.setD_dcplb (s : State) (d : DReg) (v : Word) : (s.setD d v).dcplb = s.dcplb := rfl
@[simp] theorem State.setD_dcplbStatus (s : State) (d : DReg) (v : Word) : (s.setD d v).dcplbStatus = s.dcplbStatus := rfl
@[simp] theorem State.setD_dcplbFaultAddr (s : State) (d : DReg) (v : Word) : (s.setD d v).dcplbFaultAddr = s.dcplbFaultAddr := rfl
@[simp] theorem State.setD_dtestCommand (s : State) (d : DReg) (v : Word) : (s.setD d v).dtestCommand = s.dtestCommand := rfl
@[simp] theorem State.setD_dtestData0 (s : State) (d : DReg) (v : Word) : (s.setD d v).dtestData0 = s.dtestData0 := rfl
@[simp] theorem State.setD_dtestData1 (s : State) (d : DReg) (v : Word) : (s.setD d v).dtestData1 = s.dtestData1 := rfl
@[simp] theorem State.setD_iprio (s : State) (d : DReg) (v : Word) : (s.setD d v).iprio = s.iprio := rfl
@[simp] theorem State.setD_timerControl (s : State) (d : DReg) (v : Word) : (s.setD d v).timerControl = s.timerControl := rfl
@[simp] theorem State.setD_icache (s : State) (d : DReg) (v : Word) : (s.setD d v).icache = s.icache := rfl
@[simp] theorem State.setD_dcache (s : State) (d : DReg) (v : Word) : (s.setD d v).dcache = s.dcache := rfl
@[simp] theorem State.setD_storeBuf (s : State) (d : DReg) (v : Word) : (s.setD d v).storeBuf = s.storeBuf := rfl
@[simp] theorem State.setD_writeBuf (s : State) (d : DReg) (v : Word) : (s.setD d v).writeBuf = s.writeBuf := rfl
@[simp] theorem State.setD_writeBufDepth (s : State) (d : DReg) (v : Word) : (s.setD d v).writeBufDepth = s.writeBufDepth := rfl
@[simp] theorem State.setD_victimA (s : State) (d : DReg) (v : Word) : (s.setD d v).victimA = s.victimA := rfl
@[simp] theorem State.setD_victimB (s : State) (d : DReg) (v : Word) : (s.setD d v).victimB = s.victimB := rfl
@[simp] theorem State.setD_retx (s : State) (d : DReg) (v : Word) : (s.setD d v).retx = s.retx := rfl
@[simp] theorem State.setD_excause (s : State) (d : DReg) (v : Word) : (s.setD d v).excause = s.excause := rfl
@[simp] theorem State.setD_evt3 (s : State) (d : DReg) (v : Word) : (s.setD d v).evt3 = s.evt3 := rfl
@[simp] theorem State.setD_savedMode (s : State) (d : DReg) (v : Word) : (s.setD d v).savedMode = s.savedMode := rfl
@[simp] theorem State.setD_handling (s : State) (d : DReg) (v : Word) : (s.setD d v).handling = s.handling := rfl
@[simp] theorem State.setD_isrs (s : State) (d : DReg) (v : Word) : (s.setD d v).isrs = s.isrs := rfl
@[simp] theorem State.setD_irqPending (s : State) (d : DReg) (v : Word) : (s.setD d v).irqPending = s.irqPending := rfl
@[simp] theorem State.setD_vectors (s : State) (d : DReg) (v : Word) : (s.setD d v).vectors = s.vectors := rfl
@[simp] theorem State.setD_pab (s : State) (d : DReg) (v : Word) : (s.setD d v).pab = s.pab := rfl
@[simp] theorem State.setD_hwErrorPending (s : State) (d : DReg) (v : Word) : (s.setD d v).hwErrorPending = s.hwErrorPending := rfl
@[simp] theorem State.setD_flashBank (s : State) (d : DReg) (v : Word) : (s.setD d v).flashBank = s.flashBank := rfl
@[simp] theorem State.setD_inputs (s : State) (d : DReg) (v : Word) : (s.setD d v).inputs = s.inputs := rfl
@[simp] theorem State.setD_tick (s : State) (d : DReg) (v : Word) : (s.setD d v).tick = s.tick := rfl

/-! ### State.setP -/

@[simp] theorem State.setP_r (s : State) (p : PReg) (v : Word) : (s.setP p v).r = s.r := rfl
@[simp] theorem State.setP_p (s : State) (p : PReg) (v : Word) : (s.setP p v).p = s.p.set p v := rfl
@[simp] theorem State.setP_pc (s : State) (p : PReg) (v : Word) : (s.setP p v).pc = s.pc := rfl
@[simp] theorem State.setP_cc (s : State) (p : PReg) (v : Word) : (s.setP p v).cc = s.cc := rfl
@[simp] theorem State.setP_imask (s : State) (p : PReg) (v : Word) : (s.setP p v).imask = s.imask := rfl
@[simp] theorem State.setP_mode (s : State) (p : PReg) (v : Word) : (s.setP p v).mode = s.mode := rfl
@[simp] theorem State.setP_alignExcOff (s : State) (p : PReg) (v : Word) : (s.setP p v).alignExcOff = s.alignExcOff := rfl
@[simp] theorem State.setP_shadow (s : State) (p : PReg) (v : Word) : (s.setP p v).shadow = s.shadow := rfl
@[simp] theorem State.setP_mem (s : State) (p : PReg) (v : Word) : (s.setP p v).mem = s.mem := rfl
@[simp] theorem State.setP_imemControl (s : State) (p : PReg) (v : Word) : (s.setP p v).imemControl = s.imemControl := rfl
@[simp] theorem State.setP_icplb (s : State) (p : PReg) (v : Word) : (s.setP p v).icplb = s.icplb := rfl
@[simp] theorem State.setP_icplbStatus (s : State) (p : PReg) (v : Word) : (s.setP p v).icplbStatus = s.icplbStatus := rfl
@[simp] theorem State.setP_icplbFaultAddr (s : State) (p : PReg) (v : Word) : (s.setP p v).icplbFaultAddr = s.icplbFaultAddr := rfl
@[simp] theorem State.setP_itestCommand (s : State) (p : PReg) (v : Word) : (s.setP p v).itestCommand = s.itestCommand := rfl
@[simp] theorem State.setP_itestData0 (s : State) (p : PReg) (v : Word) : (s.setP p v).itestData0 = s.itestData0 := rfl
@[simp] theorem State.setP_itestData1 (s : State) (p : PReg) (v : Word) : (s.setP p v).itestData1 = s.itestData1 := rfl
@[simp] theorem State.setP_dmemControl (s : State) (p : PReg) (v : Word) : (s.setP p v).dmemControl = s.dmemControl := rfl
@[simp] theorem State.setP_dcplb (s : State) (p : PReg) (v : Word) : (s.setP p v).dcplb = s.dcplb := rfl
@[simp] theorem State.setP_dcplbStatus (s : State) (p : PReg) (v : Word) : (s.setP p v).dcplbStatus = s.dcplbStatus := rfl
@[simp] theorem State.setP_dcplbFaultAddr (s : State) (p : PReg) (v : Word) : (s.setP p v).dcplbFaultAddr = s.dcplbFaultAddr := rfl
@[simp] theorem State.setP_dtestCommand (s : State) (p : PReg) (v : Word) : (s.setP p v).dtestCommand = s.dtestCommand := rfl
@[simp] theorem State.setP_dtestData0 (s : State) (p : PReg) (v : Word) : (s.setP p v).dtestData0 = s.dtestData0 := rfl
@[simp] theorem State.setP_dtestData1 (s : State) (p : PReg) (v : Word) : (s.setP p v).dtestData1 = s.dtestData1 := rfl
@[simp] theorem State.setP_iprio (s : State) (p : PReg) (v : Word) : (s.setP p v).iprio = s.iprio := rfl
@[simp] theorem State.setP_timerControl (s : State) (p : PReg) (v : Word) : (s.setP p v).timerControl = s.timerControl := rfl
@[simp] theorem State.setP_icache (s : State) (p : PReg) (v : Word) : (s.setP p v).icache = s.icache := rfl
@[simp] theorem State.setP_dcache (s : State) (p : PReg) (v : Word) : (s.setP p v).dcache = s.dcache := rfl
@[simp] theorem State.setP_storeBuf (s : State) (p : PReg) (v : Word) : (s.setP p v).storeBuf = s.storeBuf := rfl
@[simp] theorem State.setP_writeBuf (s : State) (p : PReg) (v : Word) : (s.setP p v).writeBuf = s.writeBuf := rfl
@[simp] theorem State.setP_writeBufDepth (s : State) (p : PReg) (v : Word) : (s.setP p v).writeBufDepth = s.writeBufDepth := rfl
@[simp] theorem State.setP_victimA (s : State) (p : PReg) (v : Word) : (s.setP p v).victimA = s.victimA := rfl
@[simp] theorem State.setP_victimB (s : State) (p : PReg) (v : Word) : (s.setP p v).victimB = s.victimB := rfl
@[simp] theorem State.setP_retx (s : State) (p : PReg) (v : Word) : (s.setP p v).retx = s.retx := rfl
@[simp] theorem State.setP_excause (s : State) (p : PReg) (v : Word) : (s.setP p v).excause = s.excause := rfl
@[simp] theorem State.setP_evt3 (s : State) (p : PReg) (v : Word) : (s.setP p v).evt3 = s.evt3 := rfl
@[simp] theorem State.setP_savedMode (s : State) (p : PReg) (v : Word) : (s.setP p v).savedMode = s.savedMode := rfl
@[simp] theorem State.setP_handling (s : State) (p : PReg) (v : Word) : (s.setP p v).handling = s.handling := rfl
@[simp] theorem State.setP_isrs (s : State) (p : PReg) (v : Word) : (s.setP p v).isrs = s.isrs := rfl
@[simp] theorem State.setP_irqPending (s : State) (p : PReg) (v : Word) : (s.setP p v).irqPending = s.irqPending := rfl
@[simp] theorem State.setP_vectors (s : State) (p : PReg) (v : Word) : (s.setP p v).vectors = s.vectors := rfl
@[simp] theorem State.setP_pab (s : State) (p : PReg) (v : Word) : (s.setP p v).pab = s.pab := rfl
@[simp] theorem State.setP_hwErrorPending (s : State) (p : PReg) (v : Word) : (s.setP p v).hwErrorPending = s.hwErrorPending := rfl
@[simp] theorem State.setP_flashBank (s : State) (p : PReg) (v : Word) : (s.setP p v).flashBank = s.flashBank := rfl
@[simp] theorem State.setP_inputs (s : State) (p : PReg) (v : Word) : (s.setP p v).inputs = s.inputs := rfl
@[simp] theorem State.setP_tick (s : State) (p : PReg) (v : Word) : (s.setP p v).tick = s.tick := rfl

/-! ### State.setCC -/

@[simp] theorem State.setCC_r (s : State) (b : Bool) : (s.setCC b).r = s.r := rfl
@[simp] theorem State.setCC_p (s : State) (b : Bool) : (s.setCC b).p = s.p := rfl
@[simp] theorem State.setCC_pc (s : State) (b : Bool) : (s.setCC b).pc = s.pc := rfl
@[simp] theorem State.setCC_cc (s : State) (b : Bool) : (s.setCC b).cc = b := rfl
@[simp] theorem State.setCC_imask (s : State) (b : Bool) : (s.setCC b).imask = s.imask := rfl
@[simp] theorem State.setCC_mode (s : State) (b : Bool) : (s.setCC b).mode = s.mode := rfl
@[simp] theorem State.setCC_alignExcOff (s : State) (b : Bool) : (s.setCC b).alignExcOff = s.alignExcOff := rfl
@[simp] theorem State.setCC_shadow (s : State) (b : Bool) : (s.setCC b).shadow = s.shadow := rfl
@[simp] theorem State.setCC_mem (s : State) (b : Bool) : (s.setCC b).mem = s.mem := rfl
@[simp] theorem State.setCC_imemControl (s : State) (b : Bool) : (s.setCC b).imemControl = s.imemControl := rfl
@[simp] theorem State.setCC_icplb (s : State) (b : Bool) : (s.setCC b).icplb = s.icplb := rfl
@[simp] theorem State.setCC_icplbStatus (s : State) (b : Bool) : (s.setCC b).icplbStatus = s.icplbStatus := rfl
@[simp] theorem State.setCC_icplbFaultAddr (s : State) (b : Bool) : (s.setCC b).icplbFaultAddr = s.icplbFaultAddr := rfl
@[simp] theorem State.setCC_itestCommand (s : State) (b : Bool) : (s.setCC b).itestCommand = s.itestCommand := rfl
@[simp] theorem State.setCC_itestData0 (s : State) (b : Bool) : (s.setCC b).itestData0 = s.itestData0 := rfl
@[simp] theorem State.setCC_itestData1 (s : State) (b : Bool) : (s.setCC b).itestData1 = s.itestData1 := rfl
@[simp] theorem State.setCC_dmemControl (s : State) (b : Bool) : (s.setCC b).dmemControl = s.dmemControl := rfl
@[simp] theorem State.setCC_dcplb (s : State) (b : Bool) : (s.setCC b).dcplb = s.dcplb := rfl
@[simp] theorem State.setCC_dcplbStatus (s : State) (b : Bool) : (s.setCC b).dcplbStatus = s.dcplbStatus := rfl
@[simp] theorem State.setCC_dcplbFaultAddr (s : State) (b : Bool) : (s.setCC b).dcplbFaultAddr = s.dcplbFaultAddr := rfl
@[simp] theorem State.setCC_dtestCommand (s : State) (b : Bool) : (s.setCC b).dtestCommand = s.dtestCommand := rfl
@[simp] theorem State.setCC_dtestData0 (s : State) (b : Bool) : (s.setCC b).dtestData0 = s.dtestData0 := rfl
@[simp] theorem State.setCC_dtestData1 (s : State) (b : Bool) : (s.setCC b).dtestData1 = s.dtestData1 := rfl
@[simp] theorem State.setCC_iprio (s : State) (b : Bool) : (s.setCC b).iprio = s.iprio := rfl
@[simp] theorem State.setCC_timerControl (s : State) (b : Bool) : (s.setCC b).timerControl = s.timerControl := rfl
@[simp] theorem State.setCC_icache (s : State) (b : Bool) : (s.setCC b).icache = s.icache := rfl
@[simp] theorem State.setCC_dcache (s : State) (b : Bool) : (s.setCC b).dcache = s.dcache := rfl
@[simp] theorem State.setCC_storeBuf (s : State) (b : Bool) : (s.setCC b).storeBuf = s.storeBuf := rfl
@[simp] theorem State.setCC_writeBuf (s : State) (b : Bool) : (s.setCC b).writeBuf = s.writeBuf := rfl
@[simp] theorem State.setCC_writeBufDepth (s : State) (b : Bool) : (s.setCC b).writeBufDepth = s.writeBufDepth := rfl
@[simp] theorem State.setCC_victimA (s : State) (b : Bool) : (s.setCC b).victimA = s.victimA := rfl
@[simp] theorem State.setCC_victimB (s : State) (b : Bool) : (s.setCC b).victimB = s.victimB := rfl
@[simp] theorem State.setCC_retx (s : State) (b : Bool) : (s.setCC b).retx = s.retx := rfl
@[simp] theorem State.setCC_excause (s : State) (b : Bool) : (s.setCC b).excause = s.excause := rfl
@[simp] theorem State.setCC_evt3 (s : State) (b : Bool) : (s.setCC b).evt3 = s.evt3 := rfl
@[simp] theorem State.setCC_savedMode (s : State) (b : Bool) : (s.setCC b).savedMode = s.savedMode := rfl
@[simp] theorem State.setCC_handling (s : State) (b : Bool) : (s.setCC b).handling = s.handling := rfl
@[simp] theorem State.setCC_isrs (s : State) (b : Bool) : (s.setCC b).isrs = s.isrs := rfl
@[simp] theorem State.setCC_irqPending (s : State) (b : Bool) : (s.setCC b).irqPending = s.irqPending := rfl
@[simp] theorem State.setCC_vectors (s : State) (b : Bool) : (s.setCC b).vectors = s.vectors := rfl
@[simp] theorem State.setCC_pab (s : State) (b : Bool) : (s.setCC b).pab = s.pab := rfl
@[simp] theorem State.setCC_hwErrorPending (s : State) (b : Bool) : (s.setCC b).hwErrorPending = s.hwErrorPending := rfl
@[simp] theorem State.setCC_flashBank (s : State) (b : Bool) : (s.setCC b).flashBank = s.flashBank := rfl
@[simp] theorem State.setCC_inputs (s : State) (b : Bool) : (s.setCC b).inputs = s.inputs := rfl
@[simp] theorem State.setCC_tick (s : State) (b : Bool) : (s.setCC b).tick = s.tick := rfl

/-! ### State.setIset -/

@[simp] theorem State.setIset_r (s : State) (pl : IPlace) (st : ISet) : (s.setIset pl st).r = s.r := rfl
@[simp] theorem State.setIset_p (s : State) (pl : IPlace) (st : ISet) : (s.setIset pl st).p = s.p := rfl
@[simp] theorem State.setIset_pc (s : State) (pl : IPlace) (st : ISet) : (s.setIset pl st).pc = s.pc := rfl
@[simp] theorem State.setIset_cc (s : State) (pl : IPlace) (st : ISet) : (s.setIset pl st).cc = s.cc := rfl
@[simp] theorem State.setIset_imask (s : State) (pl : IPlace) (st : ISet) : (s.setIset pl st).imask = s.imask := rfl
@[simp] theorem State.setIset_mode (s : State) (pl : IPlace) (st : ISet) : (s.setIset pl st).mode = s.mode := rfl
@[simp] theorem State.setIset_alignExcOff (s : State) (pl : IPlace) (st : ISet) : (s.setIset pl st).alignExcOff = s.alignExcOff := rfl
@[simp] theorem State.setIset_shadow (s : State) (pl : IPlace) (st : ISet) : (s.setIset pl st).shadow = s.shadow := rfl
@[simp] theorem State.setIset_mem (s : State) (pl : IPlace) (st : ISet) : (s.setIset pl st).mem = s.mem := rfl
@[simp] theorem State.setIset_imemControl (s : State) (pl : IPlace) (st : ISet) : (s.setIset pl st).imemControl = s.imemControl := rfl
@[simp] theorem State.setIset_icplb (s : State) (pl : IPlace) (st : ISet) : (s.setIset pl st).icplb = s.icplb := rfl
@[simp] theorem State.setIset_icplbStatus (s : State) (pl : IPlace) (st : ISet) : (s.setIset pl st).icplbStatus = s.icplbStatus := rfl
@[simp] theorem State.setIset_icplbFaultAddr (s : State) (pl : IPlace) (st : ISet) : (s.setIset pl st).icplbFaultAddr = s.icplbFaultAddr := rfl
@[simp] theorem State.setIset_itestCommand (s : State) (pl : IPlace) (st : ISet) : (s.setIset pl st).itestCommand = s.itestCommand := rfl
@[simp] theorem State.setIset_itestData0 (s : State) (pl : IPlace) (st : ISet) : (s.setIset pl st).itestData0 = s.itestData0 := rfl
@[simp] theorem State.setIset_itestData1 (s : State) (pl : IPlace) (st : ISet) : (s.setIset pl st).itestData1 = s.itestData1 := rfl
@[simp] theorem State.setIset_dmemControl (s : State) (pl : IPlace) (st : ISet) : (s.setIset pl st).dmemControl = s.dmemControl := rfl
@[simp] theorem State.setIset_dcplb (s : State) (pl : IPlace) (st : ISet) : (s.setIset pl st).dcplb = s.dcplb := rfl
@[simp] theorem State.setIset_dcplbStatus (s : State) (pl : IPlace) (st : ISet) : (s.setIset pl st).dcplbStatus = s.dcplbStatus := rfl
@[simp] theorem State.setIset_dcplbFaultAddr (s : State) (pl : IPlace) (st : ISet) : (s.setIset pl st).dcplbFaultAddr = s.dcplbFaultAddr := rfl
@[simp] theorem State.setIset_dtestCommand (s : State) (pl : IPlace) (st : ISet) : (s.setIset pl st).dtestCommand = s.dtestCommand := rfl
@[simp] theorem State.setIset_dtestData0 (s : State) (pl : IPlace) (st : ISet) : (s.setIset pl st).dtestData0 = s.dtestData0 := rfl
@[simp] theorem State.setIset_dtestData1 (s : State) (pl : IPlace) (st : ISet) : (s.setIset pl st).dtestData1 = s.dtestData1 := rfl
@[simp] theorem State.setIset_iprio (s : State) (pl : IPlace) (st : ISet) : (s.setIset pl st).iprio = s.iprio := rfl
@[simp] theorem State.setIset_timerControl (s : State) (pl : IPlace) (st : ISet) : (s.setIset pl st).timerControl = s.timerControl := rfl
@[simp] theorem State.setIset_icache (s : State) (pl : IPlace) (st : ISet) : (s.setIset pl st).icache = sparseSet ISet.empty s.icache pl.key st := rfl
@[simp] theorem State.setIset_dcache (s : State) (pl : IPlace) (st : ISet) : (s.setIset pl st).dcache = s.dcache := rfl
@[simp] theorem State.setIset_storeBuf (s : State) (pl : IPlace) (st : ISet) : (s.setIset pl st).storeBuf = s.storeBuf := rfl
@[simp] theorem State.setIset_writeBuf (s : State) (pl : IPlace) (st : ISet) : (s.setIset pl st).writeBuf = s.writeBuf := rfl
@[simp] theorem State.setIset_writeBufDepth (s : State) (pl : IPlace) (st : ISet) : (s.setIset pl st).writeBufDepth = s.writeBufDepth := rfl
@[simp] theorem State.setIset_victimA (s : State) (pl : IPlace) (st : ISet) : (s.setIset pl st).victimA = s.victimA := rfl
@[simp] theorem State.setIset_victimB (s : State) (pl : IPlace) (st : ISet) : (s.setIset pl st).victimB = s.victimB := rfl
@[simp] theorem State.setIset_retx (s : State) (pl : IPlace) (st : ISet) : (s.setIset pl st).retx = s.retx := rfl
@[simp] theorem State.setIset_excause (s : State) (pl : IPlace) (st : ISet) : (s.setIset pl st).excause = s.excause := rfl
@[simp] theorem State.setIset_evt3 (s : State) (pl : IPlace) (st : ISet) : (s.setIset pl st).evt3 = s.evt3 := rfl
@[simp] theorem State.setIset_savedMode (s : State) (pl : IPlace) (st : ISet) : (s.setIset pl st).savedMode = s.savedMode := rfl
@[simp] theorem State.setIset_handling (s : State) (pl : IPlace) (st : ISet) : (s.setIset pl st).handling = s.handling := rfl
@[simp] theorem State.setIset_isrs (s : State) (pl : IPlace) (st : ISet) : (s.setIset pl st).isrs = s.isrs := rfl
@[simp] theorem State.setIset_irqPending (s : State) (pl : IPlace) (st : ISet) : (s.setIset pl st).irqPending = s.irqPending := rfl
@[simp] theorem State.setIset_vectors (s : State) (pl : IPlace) (st : ISet) : (s.setIset pl st).vectors = s.vectors := rfl
@[simp] theorem State.setIset_pab (s : State) (pl : IPlace) (st : ISet) : (s.setIset pl st).pab = s.pab := rfl
@[simp] theorem State.setIset_hwErrorPending (s : State) (pl : IPlace) (st : ISet) : (s.setIset pl st).hwErrorPending = s.hwErrorPending := rfl
@[simp] theorem State.setIset_flashBank (s : State) (pl : IPlace) (st : ISet) : (s.setIset pl st).flashBank = s.flashBank := rfl
@[simp] theorem State.setIset_inputs (s : State) (pl : IPlace) (st : ISet) : (s.setIset pl st).inputs = s.inputs := rfl
@[simp] theorem State.setIset_tick (s : State) (pl : IPlace) (st : ISet) : (s.setIset pl st).tick = s.tick := rfl

/-! ### State.setDset -/

@[simp] theorem State.setDset_r (s : State) (pl : DPlace) (st : DSet) : (s.setDset pl st).r = s.r := rfl
@[simp] theorem State.setDset_p (s : State) (pl : DPlace) (st : DSet) : (s.setDset pl st).p = s.p := rfl
@[simp] theorem State.setDset_pc (s : State) (pl : DPlace) (st : DSet) : (s.setDset pl st).pc = s.pc := rfl
@[simp] theorem State.setDset_cc (s : State) (pl : DPlace) (st : DSet) : (s.setDset pl st).cc = s.cc := rfl
@[simp] theorem State.setDset_imask (s : State) (pl : DPlace) (st : DSet) : (s.setDset pl st).imask = s.imask := rfl
@[simp] theorem State.setDset_mode (s : State) (pl : DPlace) (st : DSet) : (s.setDset pl st).mode = s.mode := rfl
@[simp] theorem State.setDset_alignExcOff (s : State) (pl : DPlace) (st : DSet) : (s.setDset pl st).alignExcOff = s.alignExcOff := rfl
@[simp] theorem State.setDset_shadow (s : State) (pl : DPlace) (st : DSet) : (s.setDset pl st).shadow = s.shadow := rfl
@[simp] theorem State.setDset_mem (s : State) (pl : DPlace) (st : DSet) : (s.setDset pl st).mem = s.mem := rfl
@[simp] theorem State.setDset_imemControl (s : State) (pl : DPlace) (st : DSet) : (s.setDset pl st).imemControl = s.imemControl := rfl
@[simp] theorem State.setDset_icplb (s : State) (pl : DPlace) (st : DSet) : (s.setDset pl st).icplb = s.icplb := rfl
@[simp] theorem State.setDset_icplbStatus (s : State) (pl : DPlace) (st : DSet) : (s.setDset pl st).icplbStatus = s.icplbStatus := rfl
@[simp] theorem State.setDset_icplbFaultAddr (s : State) (pl : DPlace) (st : DSet) : (s.setDset pl st).icplbFaultAddr = s.icplbFaultAddr := rfl
@[simp] theorem State.setDset_itestCommand (s : State) (pl : DPlace) (st : DSet) : (s.setDset pl st).itestCommand = s.itestCommand := rfl
@[simp] theorem State.setDset_itestData0 (s : State) (pl : DPlace) (st : DSet) : (s.setDset pl st).itestData0 = s.itestData0 := rfl
@[simp] theorem State.setDset_itestData1 (s : State) (pl : DPlace) (st : DSet) : (s.setDset pl st).itestData1 = s.itestData1 := rfl
@[simp] theorem State.setDset_dmemControl (s : State) (pl : DPlace) (st : DSet) : (s.setDset pl st).dmemControl = s.dmemControl := rfl
@[simp] theorem State.setDset_dcplb (s : State) (pl : DPlace) (st : DSet) : (s.setDset pl st).dcplb = s.dcplb := rfl
@[simp] theorem State.setDset_dcplbStatus (s : State) (pl : DPlace) (st : DSet) : (s.setDset pl st).dcplbStatus = s.dcplbStatus := rfl
@[simp] theorem State.setDset_dcplbFaultAddr (s : State) (pl : DPlace) (st : DSet) : (s.setDset pl st).dcplbFaultAddr = s.dcplbFaultAddr := rfl
@[simp] theorem State.setDset_dtestCommand (s : State) (pl : DPlace) (st : DSet) : (s.setDset pl st).dtestCommand = s.dtestCommand := rfl
@[simp] theorem State.setDset_dtestData0 (s : State) (pl : DPlace) (st : DSet) : (s.setDset pl st).dtestData0 = s.dtestData0 := rfl
@[simp] theorem State.setDset_dtestData1 (s : State) (pl : DPlace) (st : DSet) : (s.setDset pl st).dtestData1 = s.dtestData1 := rfl
@[simp] theorem State.setDset_iprio (s : State) (pl : DPlace) (st : DSet) : (s.setDset pl st).iprio = s.iprio := rfl
@[simp] theorem State.setDset_timerControl (s : State) (pl : DPlace) (st : DSet) : (s.setDset pl st).timerControl = s.timerControl := rfl
@[simp] theorem State.setDset_icache (s : State) (pl : DPlace) (st : DSet) : (s.setDset pl st).icache = s.icache := rfl
@[simp] theorem State.setDset_dcache (s : State) (pl : DPlace) (st : DSet) : (s.setDset pl st).dcache = sparseSet DSet.empty s.dcache pl.key st := rfl
@[simp] theorem State.setDset_storeBuf (s : State) (pl : DPlace) (st : DSet) : (s.setDset pl st).storeBuf = s.storeBuf := rfl
@[simp] theorem State.setDset_writeBuf (s : State) (pl : DPlace) (st : DSet) : (s.setDset pl st).writeBuf = s.writeBuf := rfl
@[simp] theorem State.setDset_writeBufDepth (s : State) (pl : DPlace) (st : DSet) : (s.setDset pl st).writeBufDepth = s.writeBufDepth := rfl
@[simp] theorem State.setDset_victimA (s : State) (pl : DPlace) (st : DSet) : (s.setDset pl st).victimA = s.victimA := rfl
@[simp] theorem State.setDset_victimB (s : State) (pl : DPlace) (st : DSet) : (s.setDset pl st).victimB = s.victimB := rfl
@[simp] theorem State.setDset_retx (s : State) (pl : DPlace) (st : DSet) : (s.setDset pl st).retx = s.retx := rfl
@[simp] theorem State.setDset_excause (s : State) (pl : DPlace) (st : DSet) : (s.setDset pl st).excause = s.excause := rfl
@[simp] theorem State.setDset_evt3 (s : State) (pl : DPlace) (st : DSet) : (s.setDset pl st).evt3 = s.evt3 := rfl
@[simp] theorem State.setDset_savedMode (s : State) (pl : DPlace) (st : DSet) : (s.setDset pl st).savedMode = s.savedMode := rfl
@[simp] theorem State.setDset_handling (s : State) (pl : DPlace) (st : DSet) : (s.setDset pl st).handling = s.handling := rfl
@[simp] theorem State.setDset_isrs (s : State) (pl : DPlace) (st : DSet) : (s.setDset pl st).isrs = s.isrs := rfl
@[simp] theorem State.setDset_irqPending (s : State) (pl : DPlace) (st : DSet) : (s.setDset pl st).irqPending = s.irqPending := rfl
@[simp] theorem State.setDset_vectors (s : State) (pl : DPlace) (st : DSet) : (s.setDset pl st).vectors = s.vectors := rfl
@[simp] theorem State.setDset_pab (s : State) (pl : DPlace) (st : DSet) : (s.setDset pl st).pab = s.pab := rfl
@[simp] theorem State.setDset_hwErrorPending (s : State) (pl : DPlace) (st : DSet) : (s.setDset pl st).hwErrorPending = s.hwErrorPending := rfl
@[simp] theorem State.setDset_flashBank (s : State) (pl : DPlace) (st : DSet) : (s.setDset pl st).flashBank = s.flashBank := rfl
@[simp] theorem State.setDset_inputs (s : State) (pl : DPlace) (st : DSet) : (s.setDset pl st).inputs = s.inputs := rfl
@[simp] theorem State.setDset_tick (s : State) (pl : DPlace) (st : DSet) : (s.setDset pl st).tick = s.tick := rfl

/-! ### State.pushStore -/

@[simp] theorem State.pushStore_r (s : State) (e : BufEntry) (w : StorePath) : (s.pushStore e w).r = s.r := rfl
@[simp] theorem State.pushStore_p (s : State) (e : BufEntry) (w : StorePath) : (s.pushStore e w).p = s.p := rfl
@[simp] theorem State.pushStore_pc (s : State) (e : BufEntry) (w : StorePath) : (s.pushStore e w).pc = s.pc := rfl
@[simp] theorem State.pushStore_cc (s : State) (e : BufEntry) (w : StorePath) : (s.pushStore e w).cc = s.cc := rfl
@[simp] theorem State.pushStore_imask (s : State) (e : BufEntry) (w : StorePath) : (s.pushStore e w).imask = s.imask := rfl
@[simp] theorem State.pushStore_mode (s : State) (e : BufEntry) (w : StorePath) : (s.pushStore e w).mode = s.mode := rfl
@[simp] theorem State.pushStore_alignExcOff (s : State) (e : BufEntry) (w : StorePath) : (s.pushStore e w).alignExcOff = s.alignExcOff := rfl
@[simp] theorem State.pushStore_shadow (s : State) (e : BufEntry) (w : StorePath) : (s.pushStore e w).shadow = s.shadow := rfl
@[simp] theorem State.pushStore_mem (s : State) (e : BufEntry) (w : StorePath) : (s.pushStore e w).mem = s.mem := rfl
@[simp] theorem State.pushStore_imemControl (s : State) (e : BufEntry) (w : StorePath) : (s.pushStore e w).imemControl = s.imemControl := rfl
@[simp] theorem State.pushStore_icplb (s : State) (e : BufEntry) (w : StorePath) : (s.pushStore e w).icplb = s.icplb := rfl
@[simp] theorem State.pushStore_icplbStatus (s : State) (e : BufEntry) (w : StorePath) : (s.pushStore e w).icplbStatus = s.icplbStatus := rfl
@[simp] theorem State.pushStore_icplbFaultAddr (s : State) (e : BufEntry) (w : StorePath) : (s.pushStore e w).icplbFaultAddr = s.icplbFaultAddr := rfl
@[simp] theorem State.pushStore_itestCommand (s : State) (e : BufEntry) (w : StorePath) : (s.pushStore e w).itestCommand = s.itestCommand := rfl
@[simp] theorem State.pushStore_itestData0 (s : State) (e : BufEntry) (w : StorePath) : (s.pushStore e w).itestData0 = s.itestData0 := rfl
@[simp] theorem State.pushStore_itestData1 (s : State) (e : BufEntry) (w : StorePath) : (s.pushStore e w).itestData1 = s.itestData1 := rfl
@[simp] theorem State.pushStore_dmemControl (s : State) (e : BufEntry) (w : StorePath) : (s.pushStore e w).dmemControl = s.dmemControl := rfl
@[simp] theorem State.pushStore_dcplb (s : State) (e : BufEntry) (w : StorePath) : (s.pushStore e w).dcplb = s.dcplb := rfl
@[simp] theorem State.pushStore_dcplbStatus (s : State) (e : BufEntry) (w : StorePath) : (s.pushStore e w).dcplbStatus = s.dcplbStatus := rfl
@[simp] theorem State.pushStore_dcplbFaultAddr (s : State) (e : BufEntry) (w : StorePath) : (s.pushStore e w).dcplbFaultAddr = s.dcplbFaultAddr := rfl
@[simp] theorem State.pushStore_dtestCommand (s : State) (e : BufEntry) (w : StorePath) : (s.pushStore e w).dtestCommand = s.dtestCommand := rfl
@[simp] theorem State.pushStore_dtestData0 (s : State) (e : BufEntry) (w : StorePath) : (s.pushStore e w).dtestData0 = s.dtestData0 := rfl
@[simp] theorem State.pushStore_dtestData1 (s : State) (e : BufEntry) (w : StorePath) : (s.pushStore e w).dtestData1 = s.dtestData1 := rfl
@[simp] theorem State.pushStore_iprio (s : State) (e : BufEntry) (w : StorePath) : (s.pushStore e w).iprio = s.iprio := rfl
@[simp] theorem State.pushStore_timerControl (s : State) (e : BufEntry) (w : StorePath) : (s.pushStore e w).timerControl = s.timerControl := rfl
@[simp] theorem State.pushStore_icache (s : State) (e : BufEntry) (w : StorePath) : (s.pushStore e w).icache = s.icache := rfl
@[simp] theorem State.pushStore_dcache (s : State) (e : BufEntry) (w : StorePath) : (s.pushStore e w).dcache = s.dcache := rfl
@[simp] theorem State.pushStore_storeBuf (s : State) (e : BufEntry) (w : StorePath) : (s.pushStore e w).storeBuf = s.storeBuf ++ [⟨e, w⟩] := rfl
@[simp] theorem State.pushStore_writeBuf (s : State) (e : BufEntry) (w : StorePath) : (s.pushStore e w).writeBuf = s.writeBuf := rfl
@[simp] theorem State.pushStore_writeBufDepth (s : State) (e : BufEntry) (w : StorePath) : (s.pushStore e w).writeBufDepth = s.writeBufDepth := rfl
@[simp] theorem State.pushStore_victimA (s : State) (e : BufEntry) (w : StorePath) : (s.pushStore e w).victimA = s.victimA := rfl
@[simp] theorem State.pushStore_victimB (s : State) (e : BufEntry) (w : StorePath) : (s.pushStore e w).victimB = s.victimB := rfl
@[simp] theorem State.pushStore_retx (s : State) (e : BufEntry) (w : StorePath) : (s.pushStore e w).retx = s.retx := rfl
@[simp] theorem State.pushStore_excause (s : State) (e : BufEntry) (w : StorePath) : (s.pushStore e w).excause = s.excause := rfl
@[simp] theorem State.pushStore_evt3 (s : State) (e : BufEntry) (w : StorePath) : (s.pushStore e w).evt3 = s.evt3 := rfl
@[simp] theorem State.pushStore_savedMode (s : State) (e : BufEntry) (w : StorePath) : (s.pushStore e w).savedMode = s.savedMode := rfl
@[simp] theorem State.pushStore_handling (s : State) (e : BufEntry) (w : StorePath) : (s.pushStore e w).handling = s.handling := rfl
@[simp] theorem State.pushStore_isrs (s : State) (e : BufEntry) (w : StorePath) : (s.pushStore e w).isrs = s.isrs := rfl
@[simp] theorem State.pushStore_irqPending (s : State) (e : BufEntry) (w : StorePath) : (s.pushStore e w).irqPending = s.irqPending := rfl
@[simp] theorem State.pushStore_vectors (s : State) (e : BufEntry) (w : StorePath) : (s.pushStore e w).vectors = s.vectors := rfl
@[simp] theorem State.pushStore_pab (s : State) (e : BufEntry) (w : StorePath) : (s.pushStore e w).pab = s.pab := rfl
@[simp] theorem State.pushStore_hwErrorPending (s : State) (e : BufEntry) (w : StorePath) : (s.pushStore e w).hwErrorPending = s.hwErrorPending := rfl
@[simp] theorem State.pushStore_flashBank (s : State) (e : BufEntry) (w : StorePath) : (s.pushStore e w).flashBank = s.flashBank := rfl
@[simp] theorem State.pushStore_inputs (s : State) (e : BufEntry) (w : StorePath) : (s.pushStore e w).inputs = s.inputs := rfl
@[simp] theorem State.pushStore_tick (s : State) (e : BufEntry) (w : StorePath) : (s.pushStore e w).tick = s.tick := rfl

/-! ### Reading a register after a write -/

/-- A data register read after a data register write (R20). -/
theorem DRegs.get_set (f : DRegs) (d e : DReg) (v : Word) : (f.set d v).get e = if e = d then v else f.get e := by
  cases d <;> cases e <;> rfl

/-- A pointer register read after a pointer register write (R21). -/
theorem PRegs.get_set (f : PRegs) (p q : PReg) (v : Word) : (f.set p v).get q = if q = p then v else f.get q := by
  cases p <;> cases q <;> rfl

@[simp] theorem State.dreg_setD (s : State) (d e : DReg) (v : Word) :
    (s.setD d v).dreg e = if e = d then v else s.dreg e := DRegs.get_set s.r d e v

@[simp] theorem State.preg_setP (s : State) (p q : PReg) (v : Word) :
    (s.setP p v).preg q = if q = p then v else s.preg q := PRegs.get_set s.p p q v

@[simp] theorem State.dreg_setP (s : State) (p : PReg) (e : DReg) (v : Word) : (s.setP p v).dreg e = s.dreg e := rfl

@[simp] theorem State.preg_setD (s : State) (d : DReg) (q : PReg) (v : Word) : (s.setD d v).preg q = s.preg q := rfl

@[simp] theorem State.dreg_advance (s : State) (n : Nat) (e : DReg) : (s.advance n).dreg e = s.dreg e := rfl

@[simp] theorem State.preg_advance (s : State) (n : Nat) (q : PReg) : (s.advance n).preg q = s.preg q := rfl

@[simp] theorem State.dset_advance (s : State) (n : Nat) (pl : DPlace) : (s.advance n).dset pl = s.dset pl := rfl

@[simp] theorem State.iset_advance (s : State) (n : Nat) (pl : IPlace) : (s.advance n).iset pl = s.iset pl := rfl

@[simp] theorem State.dset_setD (s : State) (d : DReg) (v : Word) (pl : DPlace) : (s.setD d v).dset pl = s.dset pl := rfl

@[simp] theorem State.dset_setP (s : State) (p : PReg) (v : Word) (pl : DPlace) : (s.setP p v).dset pl = s.dset pl := rfl

end Sys2Proof.Machine
end

