-- ==== Sys2Proof/Laws/Reads.lean ====
section
/-! SUPPORT. What a read returns: store forwarding, the bytes behind the caches, an uncached read, a load that passes the
checks. -/

namespace Sys2Proof.Machine

open Host (Outcome)

/-- Rising addresses add up. -/
theorem addr_add (a : Addr) (j k : Nat) : a + BitVec.ofNat 32 j + BitVec.ofNat 32 k = a + BitVec.ofNat 32 (j + k) := by
  rw [add_assoc]; congr 1; rw [BitVec.ofNat_add]

/-- With nothing in the store and write buffers a read's bytes are what lies under them. -/
theorem overlay_empty {s : State} (h1 : s.storeBuf = []) (h2 : s.writeBuf = []) (a : Addr) (l : List Byte) :
    s.overlay a l = l := by
  induction l generalizing a with
  | nil => rfl
  | cons b l ih => simp [State.overlay, State.overlayByte, State.bufferedByte, h1, h2, newestByte, ih]

/-- With nothing in the store and write buffers no read is answered by them. -/
theorem fullyBuffered_empty {s : State} (h1 : s.storeBuf = []) (h2 : s.writeBuf = []) (a : Addr) (n : Nat) :
    s.fullyBuffered a (n + 1) = false := by
  have : s.bufferedByte (a + BitVec.ofNat 32 0) = none := by simp [State.bufferedByte, h1, h2, newestByte]
  simp only [State.fullyBuffered, List.all_eq_false]
  exact ⟨0, by simp, by rw [this]; simp⟩

/-- With nothing waiting the byte behind the store buffer is the bus's. -/
theorem behindByte_quiet {s : State} (h : s.quiet) (a : Addr) : s.behindByte a = s.busByte a := by
  obtain ⟨-, h2, h3, h4⟩ := h
  simp [State.behindByte, h2, newestByte, State.victimByte, h3, h4]

/-- The newest entry is the last. -/
theorem newestByte_append (l : List BufEntry) (e : BufEntry) (a : Addr) :
    newestByte (l ++ [e]) a = match e.byteAt a with | some b => some b | none => newestByte l a := by
  induction l with
  | nil => simp only [List.nil_append, newestByte]; cases e.byteAt a <;> rfl
  | cons f l ih =>
    simp only [List.cons_append, newestByte, ih]
    cases e.byteAt a <;> rfl

/-- A buffered store holds its own bytes. -/
theorem byteAt_offset (a : Addr) (w : Width) (v : Word) (k : Nat) (hk : k < w.bytes) :
    (BufEntry.mk a w v).byteAt (a + BitVec.ofNat 32 k) = some (byteOf v k) := by
  have hk' : k < 2 ^ 32 := by cases w <;> simp [Width.bytes] at hk <;> omega
  have : (a + BitVec.ofNat 32 k - a).toNat = k := by
    rw [add_sub_cancel_left, BitVec.toNat_ofNat, Nat.mod_eq_of_lt hk']
  simp only [BufEntry.byteAt, this, if_pos hk]

/-- The newest store of the store buffer supplies the bytes it covers (R149). -/
theorem bufferedByte_newest {s : State} {l : List PendingStore} {a : Addr} {w : Width} {v : Word} {path : StorePath}
    (h : s.storeBuf = l ++ [⟨⟨a, w, v⟩, path⟩]) (k : Nat) (hk : k < w.bytes) :
    s.bufferedByte (a + BitVec.ofNat 32 k) = some (byteOf v k) := by
  unfold State.bufferedByte
  rw [h, List.map_append, List.map_cons, List.map_nil, newestByte_append]
  simp only [byteAt_offset a w v k hk]

/-- The overlay, byte by byte. -/
theorem overlay_eq (s : State) (a : Addr) (l : List Byte) :
    s.overlay a l = (List.range l.length).map fun k => s.overlayByte (a + BitVec.ofNat 32 k) (l.getD k 0) := by
  induction l generalizing a with
  | nil => rfl
  | cons b l ih =>
    rw [State.overlay, ih, List.length_cons, List.range_succ_eq_map, List.map_cons, List.map_map]
    congr 1
    · simp
    · apply List.map_congr_left
      intro k hk
      simp only [Function.comp, Nat.succ_eq_add_one]
      have : a + 1 + BitVec.ofNat 32 k = a + BitVec.ofNat 32 (k + 1) := by
        rw [add_assoc]; congr 1
        rw [BitVec.ofNat_add]; exact add_comm _ _
      rw [this]; simp

/-- A read whose bytes the buffers all supply returns them and changes nothing (R148). -/
theorem readValue_forwarded {s : State} {a : Addr} {n : Nat} {f : Nat → Byte}
    (h : ∀ k, k < n → s.bufferedByte (a + BitVec.ofNat 32 k) = some (f k)) (m : CacheMode) :
    s.readValue a n m = (wordOf ((List.range n).map f), s) := by
  have hf : s.fullyBuffered a n = true := by
    simp only [State.fullyBuffered, List.all_eq_true, List.mem_range]
    intro k hk; rw [h k hk]; rfl
  simp only [State.readValue, hf, if_true]
  rw [overlay_eq, List.length_replicate]
  congr 2
  apply List.map_congr_left
  intro k hk
  simp only [State.overlayByte, h k (List.mem_range.1 hk)]

/-- Data memory is there. -/
theorem isDataMemory_populated {r : Region} (h : r.isDataMemory = true) : r.unpopulated = false := by
  cases r <;> first | rfl | cases h

/-- A request to memory that is there leaves no trace. -/
theorem touch_of_populated {s : State} {a : Addr} (h : (s.region a).unpopulated = false) : s.touch a = s := by
  simp [State.touch, h]

/-- A bus read of memory that is there. -/
theorem busByte_of_populated {s : State} {a : Addr} (h : (s.region a).unpopulated = false) :
    s.busByte a = Memory.read s.mem a := by
  simp [State.busByte, h]

/-- A load instruction loads its word (R391, R392). -/
theorem exec_loadForm {s : State} {i : Instr} {r : DReg} {a : Addr} {len : Nat} (h : s.loadForm i = some (r, a, len)) :
    exec i s = s.loadWord r a len := by
  unfold State.loadForm at h
  split at h <;> cases h <;> rfl

/-- A store instruction stores its word (R393, R394). -/
theorem exec_storeForm {s : State} {i : Instr} {r : DReg} {a : Addr} {len : Nat} (h : s.storeForm i = some (r, a, len)) :
    exec i s = s.storeWord r a len := by
  unfold State.storeForm at h
  split at h <;> cases h <;> rfl

/-- A load or store whose check stops it. -/
theorem loadWord_stop {s : State} {r : DReg} {a : Addr} {len : Nat} {st : Stop}
    (h : s.checkData (.load a) = .error st) : s.loadWord r a len = s.stopOutcome st := by
  unfold State.loadWord State.memRead; rw [h]

theorem storeWord_stop {s : State} {r : DReg} {a : Addr} {len : Nat} {st : Stop}
    (h : s.checkData (.store a) = .error st) : s.storeWord r a len = s.stopOutcome st := by
  unfold State.storeWord State.memWrite; rw [h]

/-- A load that passes the checks. -/
theorem loadWord_ok {s : State} (r : DReg) (a : Addr) (len : Nat) (h : s.memoryAccessOk (.load a)) :
    s.loadWord r a len =
      .next (((s.readValue a 4 (s.pageMode a)).2.setD r (s.readValue a 4 (s.pageMode a)).1).advance len) := by
  have := memRead_ok h
  unfold State.loadWord
  rw [this]; rfl

/-- A store that passes the checks. -/
theorem storeWord_ok {s : State} (r : DReg) (a : Addr) (len : Nat) (h : s.memoryAccessOk (.store a)) :
    s.storeWord r a len =
      .next ((s.pushStore ⟨a, .word, s.dreg r⟩ (s.storePath a (s.pageMode a))).advance len) := by
  have := memWrite_ok (s.dreg r) h
  unfold State.storeWord
  rw [this]; rfl

/-- The newest entry that covers an address supplies its byte (R149). -/
theorem newestByte_mid (l m : List BufEntry) (e : BufEntry) (a : Addr) (h : ∀ f ∈ m, f.byteAt a = none) :
    newestByte (l ++ e :: m) a = match e.byteAt a with | some b => some b | none => newestByte l a := by
  induction l with
  | nil =>
    have : newestByte m a = none := by
      induction m with
      | nil => rfl
      | cons f m ih => simp only [newestByte, ih (fun g hg => h g (by simp [hg])), h f (by simp)]
    simp only [List.nil_append, newestByte, this]; cases e.byteAt a <;> rfl
  | cons f l ih =>
    simp only [List.cons_append, newestByte, ih]
    cases e.byteAt a <;> rfl

/-- An entry that does not hold an address. -/
theorem byteAt_none {e : BufEntry} {a : Addr} (h : ∀ x, x < e.width.bytes → e.addr + BitVec.ofNat 32 x ≠ a) :
    e.byteAt a = none := by
  unfold BufEntry.byteAt
  simp only
  rw [if_neg]
  intro hlt
  apply h _ hlt
  rw [BitVec.ofNat_toNat, BitVec.setWidth_eq]; bv_omega

/-- Two buffered stores overlap when they share a byte (D9). -/
theorem BufEntry.overlaps_iff (e f : BufEntry) : e.overlaps f = true ↔
    ∃ j k, j < e.width.bytes ∧ k < f.width.bytes ∧ e.addr + BitVec.ofNat 32 j = f.addr + BitVec.ofNat 32 k := by
  have hb : ∀ w : Width, 0 < w.bytes ∧ w.bytes ≤ 4 := by intro w; cases w <;> simp [Width.bytes]
  have he := hb e.width
  have hf := hb f.width
  unfold BufEntry.overlaps
  simp only [Bool.or_eq_true, decide_eq_true_eq]
  constructor
  · rintro (h | h)
    · refine ⟨_, 0, h, hf.1, ?_⟩
      rw [BitVec.ofNat_toNat, BitVec.setWidth_eq]; bv_omega
    · refine ⟨0, _, he.1, h, ?_⟩
      rw [BitVec.ofNat_toNat, BitVec.setWidth_eq]; bv_omega
  · rintro ⟨j, k, h1, h2, h3⟩
    have := congrArg BitVec.toNat h3
    simp only [BitVec.toNat_add, BitVec.toNat_ofNat, BitVec.toNat_sub] at *
    have := e.addr.isLt
    have := f.addr.isLt
    by_cases h : k ≤ j
    · left; omega
    · right; omega

/-- The byte of a line on its way out. -/
theorem victimByte_of {s : State} {b : Bank} {c : Victim} {x : Addr} {v : Byte} (h : s.victim b = some c)
    (hb : c.byteAt x = some v) (ho : ∀ j, j ≠ b → (s.victim j).bind (·.byteAt x) = none) : s.victimByte x = some v := by
  unfold State.victimByte
  cases b with
  | bankA =>
    have : s.victimA = some c := h
    rw [this]; simp only [Option.bind_some, hb]
  | bankB =>
    have h1 : s.victimB = some c := h
    have h2 : s.victimA.bind (·.byteAt x) = none := ho .bankA (by decide)
    rw [h2, h1]; simp only [Option.bind_some, hb]

end Sys2Proof.Machine
end

