-- ==== Sys2Proof/Laws/Fetch.lean ====
section
/-! SUPPORT. Runs of bytes cut and joined, what a fetch can change, a fetch with the ICPLBs disabled, and the stream run
ahead along a path cut in two. -/

namespace Sys2Proof.Machine

/-- A run of bytes is a run and the run after it. -/
theorem Memory.readBytes_append (m : List Host.Cell) (a : Addr) (j k : Nat) :
    Memory.readBytes m a (j + k) = Memory.readBytes m a j ++ Memory.readBytes m (a + BitVec.ofNat 32 j) k := by
  unfold Memory.readBytes
  rw [List.range_add, List.map_append, List.map_map]
  congr 1
  apply List.map_congr_left
  intro x hx
  simp only [Function.comp]; rw [addr_add]

/-- The start of a run. -/
theorem Memory.readBytes_take (m : List Host.Cell) (a : Addr) (j k : Nat) (h : j ≤ k) :
    (Memory.readBytes m a k).take j = Memory.readBytes m a j := by
  obtain ⟨d, rfl⟩ := Nat.exists_eq_add_of_le h
  rw [Memory.readBytes_append, List.take_append_of_le_length (by simp), List.take_of_length_le (by simp)]

/-- The rest of a run. -/
theorem Memory.readBytes_drop (m : List Host.Cell) (a : Addr) (j k : Nat) (h : j ≤ k) :
    (Memory.readBytes m a k).drop j = Memory.readBytes m (a + BitVec.ofNat 32 j) (k - j) := by
  obtain ⟨d, rfl⟩ := Nat.exists_eq_add_of_le h
  rw [Memory.readBytes_append, List.drop_append_of_le_length (by simp), List.drop_of_length_le (by simp)]; simp

/-- A fetch from SDRAM or from the dedicated instruction SRAM, with the ICPLBs disabled, reads memory and changes
nothing. -/
theorem fetchWord_direct {s : State} (hen : s.enIcplb = false) (a : Addr)
    (h : a.toNat + 8 ≤ 0x08000000 ∨ (0xFFA00000 ≤ a.toNat ∧ a.toNat + 8 ≤ 0xFFA10000)) :
    s.fetchWord a = .ok (Memory.readBytes s.mem (wordAddr a) 8, s) := by
  have hw := wordAddr_toNat a
  have hr : ∀ k, k < 8 → s.region (wordAddr a + BitVec.ofNat 32 k) = s.region a := by
    intro k hk
    apply region_block
    have : (wordAddr a + BitVec.ofNat 32 k).toNat = a.toNat / 8 * 8 + k := by
      rw [BitVec.toNat_add, BitVec.toNat_ofNat, hw]; have := a.isLt; omega
    omega
  have hreg : s.region a = .sdram ∨ s.region a = .instrSram := by
    rcases h with h | h
    · exact .inl ((region_sdram_iff s a).2 (by omega))
    · exact .inr (region_instrSram s a h.1 (by omega))
  have hp : (s.region a).unpopulated = false ∧ (s.region a).noFetch = false ∧ s.region a ≠ .reservedInstr := by
    rcases hreg with h | h <;> rw [h] <;> exact ⟨rfl, rfl, by simp⟩
  have hc : s.checkFetch a = .ok .direct := by
    unfold State.checkFetch; simp [hp.2.1, hp.2.2, hen]
  have ht : s.touch (wordAddr a) = s := by
    apply touch_of_populated
    rw [show wordAddr a = wordAddr a + BitVec.ofNat 32 0 by simp, hr 0 (by omega)]; exact hp.1
  unfold State.fetchWord
  rw [hc]
  simp only [ht]
  congr 2
  unfold State.busBytes Memory.readBytes
  apply List.map_congr_left
  intro k hk
  rw [busByte_of_populated]
  rw [hr k (List.mem_range.1 hk)]; exact hp.1

/-- A fetch changes memory (the cells of a line), the instruction cache and the pending hardware error alone (R131, R179). -/
theorem fetchWord_frame {s t : State} {a : Addr} {bs : List Byte} (h : s.fetchWord a = .ok (bs, t)) :
    t = { s with mem := t.mem, icache := t.icache, hwErrorPending := t.hwErrorPending } := by
  have touched : ∀ b, ∃ e, s.touch b = { s with hwErrorPending := e } := fun b => ⟨_, touch_frame s b⟩
  unfold State.fetchWord at h
  split at h
  · cases h
  · obtain ⟨e, he⟩ := touched (wordAddr a)
    cases h; rw [he]
  · obtain rfl : (s.cachedFetch a _).2 = t := congrArg Prod.snd (Except.ok.inj h)
    obtain ⟨e, he⟩ := touched (lineAddr a)
    have : ∀ b, ∃ m c w, (s.cachedFetch a b).2 = { s with mem := m, icache := c, hwErrorPending := w } := by
      intro b
      unfold State.cachedFetch
      dsimp only
      split
      · exact ⟨s.mem, _, s.hwErrorPending, rfl⟩
      · rw [he]; split
        · exact ⟨s.mem, s.icache, e, rfl⟩
        · exact ⟨_, _, e, rfl⟩
    obtain ⟨m, c, w, hu⟩ := this _
    rw [hu]

/-- The same of the fetch of an instruction, which takes one such fetch or two. -/
theorem fetchInstr_frame {s t : State} {bs : List Byte} (h : s.fetchInstr = .ok (bs, t)) :
    t = { s with mem := t.mem, icache := t.icache, hwErrorPending := t.hwErrorPending } := by
  unfold State.fetchInstr at h
  split at h
  · cases h
  · split at h
    · cases h
    · next s1 h1 =>
      have e1 := fetchWord_frame h1
      dsimp only at h
      split at h
      · cases h; exact e1
      · split at h
        · cases h
        · next h2 =>
          have e2 := fetchWord_frame h2
          cases h
          generalize s1.mem = m at e1
          generalize s1.icache = c at e1
          generalize s1.hwErrorPending = b at e1
          subst e1; exact e2

/-- A path cut in two is run ahead along one part after the other. -/
theorem runAhead_append (s : State) (p q : List Bool) :
    s.runAhead (p ++ q) = (s.runAhead p).bind fun t => t.runAhead q := by
  induction p generalizing s with
  | nil => rfl
  | cons b p ih =>
    simp only [List.cons_append, State.runAhead]
    (repeat' split) <;> first | rfl | exact ih _

end Sys2Proof.Machine
end

