-- ==== Sys2Proof/Laws/PerInstr.lean ====
section
/-! SUPPORT. Per instruction: a well-formed instruction is encoded in one 16-bit unit whose length is 2, or in two units, the
first of which says 4 (R312, R313). -/

namespace Sys2Proof.Laws

open Sys2Proof

/-- The units of a well-formed instruction have the length that the first of them decides (R312). -/
def EncodeLength.Statement (i : Instr) : Prop :=
  i.wf = true →
    (∃ h, encode i = [h] ∧ unitLength h = 2) ∨ ∃ h l, encode i = [h, l] ∧ unitLength h = 4

/-- A unit with bit 15 or bit 14 clear is a whole instruction. -/
theorem unitLength_two {h : Half} (hb : h.getLsbD 15 = false ∨ h.getLsbD 14 = false) : unitLength h = 2 := by
  unfold unitLength
  rw [if_pos]
  intro e
  have h15 : (h &&& 0xC000#16).getLsbD 15 = (0xC000#16).getLsbD 15 := congrArg (fun v : Half => v.getLsbD 15) e
  have h14 : (h &&& 0xC000#16).getLsbD 14 = (0xC000#16).getLsbD 14 := congrArg (fun v : Half => v.getLsbD 14) e
  rw [BitVec.getLsbD_and] at h15 h14
  rcases hb with hb | hb
  · rw [hb] at h15; exact absurd h15 (by decide)
  · rw [hb] at h14; exact absurd h14 (by decide)

/-- A first unit of register fields under a long row's pattern is half of an instruction. -/
theorem memUnit_long (p : PReg) (r : DReg) :
    unitLength (memUnit 0xE400 p r) = 4 ∧ unitLength (memUnit 0xE600 p r) = 4 := by
  cases p <;> cases r <;> decide

/-- The bits of a memory unit above the register fields are the base's. -/
theorem memUnit_high (base : Half) (p : PReg) (r : DReg) (k : Nat) (hk : 6 ≤ k) :
    (memUnit base p r).getLsbD k = base.getLsbD k := by
  have hp : (pregNum p <<< 3).getLsbD k = false := by
    rw [BitVec.getLsbD_shiftLeft]
    have : (pregNum p).getLsbD (k - 3) = false := by
      by_cases h : k - 3 < 16
      · have all : ∀ j, 3 ≤ j → j < 16 → (pregNum p).getLsbD j = false := by cases p <;> decide
        exact all _ (by omega) h
      · exact BitVec.getLsbD_of_ge _ _ (by omega)
    rw [this]; simp
  have hr : (dregNum r).getLsbD k = false := by
    by_cases h : k < 16
    · have all : ∀ j, 3 ≤ j → j < 16 → (dregNum r).getLsbD j = false := by cases r <;> decide
      exact all _ (by omega) h
    · exact BitVec.getLsbD_of_ge _ _ (by omega)
  unfold memUnit
  rw [BitVec.getLsbD_or, BitVec.getLsbD_or, hp, hr]; simp

/-- The short indexed forms keep bit 14 clear. -/
theorem shortIndexed_bit (base : Half) (hb : base.getLsbD 14 = false) (u : Nat) (hu : shortOffsetOk u = true) :
    (base ||| BitVec.ofNat 16 (u / 4) <<< 6).getLsbD 14 = false := by
  simp only [shortOffsetOk, Bool.and_eq_true, beq_iff_eq, decide_eq_true_eq] at hu
  rw [BitVec.getLsbD_or, hb, BitVec.getLsbD_shiftLeft]
  have : (BitVec.ofNat 16 (u / 4)).getLsbD (14 - 6) = false := by
    rw [BitVec.getLsbD_ofNat]
    have : (u / 4).testBit (14 - 6) = false := Nat.testBit_lt_two_pow (by omega)
    simp [this]
  rw [this]; simp

theorem EncodeLength.nop : EncodeLength.Statement .nop := fun _ => .inl ⟨_, rfl, rfl⟩
theorem EncodeLength.csync : EncodeLength.Statement .csync := fun _ => .inl ⟨_, rfl, rfl⟩
theorem EncodeLength.ssync : EncodeLength.Statement .ssync := fun _ => .inl ⟨_, rfl, rfl⟩
theorem EncodeLength.cli (d : DReg) : EncodeLength.Statement (.cli d) :=
  fun _ => .inl ⟨_, rfl, by cases d <;> rfl⟩
theorem EncodeLength.sti (d : DReg) : EncodeLength.Statement (.sti d) :=
  fun _ => .inl ⟨_, rfl, by cases d <;> rfl⟩
theorem EncodeLength.testset (p : PReg) : EncodeLength.Statement (.testset p) :=
  fun _ => .inl ⟨_, rfl, by cases p <;> rfl⟩
theorem EncodeLength.prefetch (p : PReg) : EncodeLength.Statement (.prefetch p) :=
  fun _ => .inl ⟨_, rfl, by cases p <;> rfl⟩
theorem EncodeLength.flushinv (p : PReg) : EncodeLength.Statement (.flushinv p) :=
  fun _ => .inl ⟨_, rfl, by cases p <;> rfl⟩
theorem EncodeLength.flush (p : PReg) : EncodeLength.Statement (.flush p) :=
  fun _ => .inl ⟨_, rfl, by cases p <;> rfl⟩
theorem EncodeLength.iflush (p : PReg) : EncodeLength.Statement (.iflush p) :=
  fun _ => .inl ⟨_, rfl, by cases p <;> rfl⟩
theorem EncodeLength.prefetchInc (p : PReg) : EncodeLength.Statement (.prefetchInc p) :=
  fun _ => .inl ⟨_, rfl, by cases p <;> rfl⟩
theorem EncodeLength.flushinvInc (p : PReg) : EncodeLength.Statement (.flushinvInc p) :=
  fun _ => .inl ⟨_, rfl, by cases p <;> rfl⟩
theorem EncodeLength.flushInc (p : PReg) : EncodeLength.Statement (.flushInc p) :=
  fun _ => .inl ⟨_, rfl, by cases p <;> rfl⟩
theorem EncodeLength.iflushInc (p : PReg) : EncodeLength.Statement (.iflushInc p) :=
  fun _ => .inl ⟨_, rfl, by cases p <;> rfl⟩
theorem EncodeLength.load (r : DReg) (p : PReg) : EncodeLength.Statement (.load r p) :=
  fun _ => .inl ⟨_, rfl, unitLength_two (.inr (memUnit_high _ p r 14 (by decide)))⟩
theorem EncodeLength.store (p : PReg) (r : DReg) : EncodeLength.Statement (.store p r) :=
  fun _ => .inl ⟨_, rfl, unitLength_two (.inr (memUnit_high _ p r 14 (by decide)))⟩
theorem EncodeLength.loadShort (r : DReg) (p : PReg) (u : Nat) : EncodeLength.Statement (.loadShort r p u) :=
  fun h => .inl ⟨_, rfl, unitLength_two
    (.inr ((memUnit_high _ p r 14 (by decide)).trans (shortIndexed_bit _ (by decide) u h)))⟩
theorem EncodeLength.storeShort (p : PReg) (u : Nat) (r : DReg) : EncodeLength.Statement (.storeShort p u r) :=
  fun h => .inl ⟨_, rfl, unitLength_two
    (.inr ((memUnit_high _ p r 14 (by decide)).trans (shortIndexed_bit _ (by decide) u h)))⟩
theorem EncodeLength.loadLong (r : DReg) (p : PReg) (k : Int) : EncodeLength.Statement (.loadLong r p k) :=
  fun _ => .inr ⟨_, _, rfl, (memUnit_long p r).1⟩
theorem EncodeLength.storeLong (p : PReg) (k : Int) (r : DReg) : EncodeLength.Statement (.storeLong p k r) :=
  fun _ => .inr ⟨_, _, rfl, (memUnit_long p r).2⟩
theorem EncodeLength.bitset (d : DReg) (n : Nat) : EncodeLength.Statement (.bitset d n) := by
  intro h
  refine .inl ⟨_, rfl, unitLength_two (.inl ?_)⟩
  have hn : n ≤ 31 := by simpa [Instr.wf, bitNumberOk] using h
  have h1 : (BitVec.ofNat 16 n <<< 3).getLsbD 15 = false := by
    rw [BitVec.getLsbD_shiftLeft, BitVec.getLsbD_ofNat]
    have : n.testBit (15 - 3) = false := Nat.testBit_lt_two_pow (by omega)
    simp [this]
  rw [BitVec.getLsbD_or, BitVec.getLsbD_or, h1]
  cases d <;> decide
theorem EncodeLength.jumpCC (o : Int) : EncodeLength.Statement (.jumpCC o) := by
  intro _
  refine .inl ⟨_, rfl, unitLength_two (.inl ?_)⟩
  rw [BitVec.getLsbD_or, BitVec.getLsbD_setWidth, BitVec.getLsbD_of_ge (BitVec.ofInt 10 o) 15 (by decide)]
  decide
theorem EncodeLength.jumpNotCC (o : Int) : EncodeLength.Statement (.jumpNotCC o) := by
  intro _
  refine .inl ⟨_, rfl, unitLength_two (.inl ?_)⟩
  rw [BitVec.getLsbD_or, BitVec.getLsbD_setWidth, BitVec.getLsbD_of_ge (BitVec.ofInt 10 o) 15 (by decide)]
  decide
theorem EncodeLength.pLow (p : PReg) (imm : Half) : EncodeLength.Statement (.pLow p imm) :=
  fun _ => .inr ⟨_, _, rfl, by cases p <;> rfl⟩
theorem EncodeLength.pHigh (p : PReg) (imm : Half) : EncodeLength.Statement (.pHigh p imm) :=
  fun _ => .inr ⟨_, _, rfl, by cases p <;> rfl⟩
theorem EncodeLength.disalgnexcpt : EncodeLength.Statement .disalgnexcpt := fun _ => .inr ⟨_, _, rfl, rfl⟩

end Sys2Proof.Laws
end

