-- ==== Sys2Proof/Laws/Fields.lean ====
section
/-! SUPPORT. The fields of encodings, both ways: register numbers, offsets, displacements, bit numbers (R311, R313). -/

namespace Sys2Proof

/-! ### Register numbers -/

theorem and_seven_toNat (h : Half) : (h &&& 7).toNat = h.toNat % 8 := by
  rw [BitVec.toNat_and]; exact Nat.and_two_pow_sub_one_eq_mod h.toNat 3

/-- The number of the data register that a field names. -/
theorem dregNum_dregOf (h : Half) : dregNum (dregOf h) = h &&& 7 := by
  apply BitVec.eq_of_toNat_eq
  rw [and_seven_toNat]
  unfold dregOf
  have : h.toNat % 8 < 8 := Nat.mod_lt _ (by decide)
  generalize h.toNat % 8 = n at *
  match n with
  | 0 => rfl | 1 => rfl | 2 => rfl | 3 => rfl | 4 => rfl | 5 => rfl | 6 => rfl | 7 => rfl
  | n + 8 => omega

/-- The number of the pointer register that a field names. -/
theorem pregNum_pregOf (h : Half) : pregNum (pregOf h) = h &&& 7 := by
  apply BitVec.eq_of_toNat_eq
  rw [and_seven_toNat]
  unfold pregOf
  have : h.toNat % 8 < 8 := Nat.mod_lt _ (by decide)
  generalize h.toNat % 8 = n at *
  match n with
  | 0 => rfl | 1 => rfl | 2 => rfl | 3 => rfl | 4 => rfl | 5 => rfl | 6 => rfl | 7 => rfl
  | n + 8 => omega

/-- The data register that a field with its number names. -/
theorem dregOf_eq {h : Half} {r : DReg} (e : h &&& 7 = dregNum r) : dregOf h = r := by
  have := dregNum_dregOf h
  rw [e] at this
  revert this
  generalize dregOf h = d
  cases d <;> cases r <;> decide

/-- The pointer register that a field with its number names. -/
theorem pregOf_eq {h : Half} {p : PReg} (e : h &&& 7 = pregNum p) : pregOf h = p := by
  have := pregNum_pregOf h
  rw [e] at this
  revert this
  generalize pregOf h = d
  cases d <;> cases p <;> decide

/-- A bit of a unit of a pointer field and a data field under a base whose low six bits are clear. -/
theorem memUnit_bit (base : Half) (p : PReg) (r : DReg) (k : Nat) :
    (memUnit base p r).getLsbD k =
      (base.getLsbD k || (decide (k < 16) && !decide (k < 3) && (pregNum p).getLsbD (k - 3)) || (dregNum r).getLsbD k) := by
  unfold memUnit
  rw [BitVec.getLsbD_or, BitVec.getLsbD_or, BitVec.getLsbD_shiftLeft]

theorem pregNum_high (p : PReg) (k : Nat) (h : 3 ≤ k) : (pregNum p).getLsbD k = false := by
  by_cases hk : k < 16
  · have all : ∀ j, 3 ≤ j → j < 16 → (pregNum p).getLsbD j = false := by cases p <;> decide
    exact all k h hk
  · exact BitVec.getLsbD_of_ge _ _ (by omega)

theorem dregNum_high (r : DReg) (k : Nat) (h : 3 ≤ k) : (dregNum r).getLsbD k = false := by
  by_cases hk : k < 16
  · have all : ∀ j, 3 ≤ j → j < 16 → (dregNum r).getLsbD j = false := by cases r <;> decide
    exact all k h hk
  · exact BitVec.getLsbD_of_ge _ _ (by omega)

/-- The low three bits of a half word, bit by bit. -/
theorem seven_bit (k : Nat) : (7 : Half).getLsbD k = decide (k < 3) := by
  by_cases hk : k < 16
  · have all : ∀ j, j < 16 → (7#16).getLsbD j = decide (j < 3) := by decide
    exact all k hk
  · rw [BitVec.getLsbD_of_ge _ _ (by omega)]; simp; omega

/-- The data register of a memory unit. -/
theorem dregOf_memUnit {base : Half} (hb : ∀ k, k < 6 → base.getLsbD k = false) (p : PReg) (r : DReg) :
    dregOf (memUnit base p r) = r := by
  apply dregOf_eq
  apply BitVec.eq_of_getLsbD_eq
  intro k hk
  rw [BitVec.getLsbD_and, seven_bit, memUnit_bit]
  by_cases h : k < 3
  · rw [hb k (by omega)]; simp [h]
  · rw [dregNum_high r k (by omega)]; simp [h]

/-- The pointer register of a memory unit. -/
theorem pregOf_memUnit {base : Half} (hb : ∀ k, k < 6 → base.getLsbD k = false) (p : PReg) (r : DReg) :
    pregOf (memUnit base p r >>> 3) = p := by
  apply pregOf_eq
  apply BitVec.eq_of_getLsbD_eq
  intro k hk
  rw [BitVec.getLsbD_and, seven_bit, BitVec.getLsbD_ushiftRight, memUnit_bit]
  by_cases h : k < 3
  · rw [hb (3 + k) (by omega), dregNum_high r (3 + k) (by omega)]
    simp [h, show 3 + k < 16 by omega]
  · rw [pregNum_high p k (by omega)]; simp [h]

/-- A unit with register numbers in bits 5:3 and 2:0 is rebuilt from its high bits and the registers it names. -/
theorem memUnit_rebuild (h base : Half) (hb : ∀ k, k < 16 → base.getLsbD k = (decide (6 ≤ k) && h.getLsbD k)) :
    memUnit base (pregOf (h >>> 3)) (dregOf h) = h := by
  apply BitVec.eq_of_getLsbD_eq
  intro k hk
  rw [memUnit_bit, dregNum_dregOf, pregNum_pregOf, hb k hk, BitVec.getLsbD_and, BitVec.getLsbD_and, seven_bit,
    seven_bit, BitVec.getLsbD_ushiftRight]
  by_cases h3 : k < 3
  · simp [h3, show ¬ 6 ≤ k by omega]
  · by_cases h6 : k < 6
    · simp [h3, hk, show ¬ 6 ≤ k by omega, show k - 3 < 3 by omega, show 3 + (k - 3) = k by omega]
    · simp [h3, show 6 ≤ k by omega, show ¬ k - 3 < 3 by omega]

/-! ### Offsets, displacements, bit numbers -/

/-- The long offset that a unit names, from the offset. -/
theorem longOffsetOf_ofInt {s : Int} (h : longOffsetOk s = true) : longOffsetOf (BitVec.ofInt 16 (s / 4)) = s := by
  simp only [longOffsetOk, Bool.and_eq_true, beq_iff_eq, decide_eq_true_eq] at h
  unfold longOffsetOf
  have : (BitVec.ofInt 16 (s / 4)).toInt = s / 4 := by
    apply BitVec.toInt_ofInt_eq_self (by decide) <;> omega
  rw [this]; omega

/-- The unit that names an offset, from the unit. -/
theorem ofInt_longOffsetOf (l : Half) :
    BitVec.ofInt 16 (longOffsetOf l / 4) = l ∧ longOffsetOk (longOffsetOf l) = true := by
  have h1 := BitVec.toInt_lt (x := l)
  have h2 := BitVec.le_toInt l
  norm_num at h1 h2
  constructor
  · unfold longOffsetOf
    rw [Int.mul_ediv_cancel_left _ (by decide), BitVec.ofInt_toInt]
  · unfold longOffsetOf
    simp only [longOffsetOk, Bool.and_eq_true, beq_iff_eq, decide_eq_true_eq]
    omega

/-- The displacement that a unit names, from the displacement. -/
theorem jumpOffsetOf_ofInt {base : Half} (hb : ∀ k, k < 10 → base.getLsbD k = false) {o : Int}
    (h : jumpOffsetOk o = true) : jumpOffsetOf (base ||| (BitVec.ofInt 10 o).setWidth 16) = o := by
  simp only [jumpOffsetOk, Bool.and_eq_true, decide_eq_true_eq] at h
  unfold jumpOffsetOf
  have : (base ||| (BitVec.ofInt 10 o).setWidth 16).setWidth 10 = BitVec.ofInt 10 o := by
    apply BitVec.eq_of_getLsbD_eq
    intro k hk
    rw [BitVec.getLsbD_setWidth, BitVec.getLsbD_or, BitVec.getLsbD_setWidth, hb k hk]
    simp [hk, show k < 16 by omega]
  rw [this]
  apply BitVec.toInt_ofInt_eq_self (by decide) <;> omega

/-- The unit of a conditional jump, from its high bits and its displacement. -/
theorem jump_rebuild (h base : Half) (hb : ∀ k, k < 16 → base.getLsbD k = (decide (10 ≤ k) && h.getLsbD k)) :
    base ||| (BitVec.ofInt 10 (jumpOffsetOf h)).setWidth 16 = h ∧ jumpOffsetOk (jumpOffsetOf h) = true := by
  constructor
  · unfold jumpOffsetOf
    rw [BitVec.ofInt_toInt]
    apply BitVec.eq_of_getLsbD_eq
    intro k hk
    rw [BitVec.getLsbD_or, BitVec.getLsbD_setWidth, BitVec.getLsbD_setWidth, hb k hk]
    by_cases h10 : k < 10
    · simp [h10, hk, show ¬ 10 ≤ k by omega]
    · simp [h10, show 10 ≤ k by omega]
  · unfold jumpOffsetOf
    generalize h.setWidth 10 = x
    have h1 := BitVec.toInt_lt (x := x)
    have h2 := BitVec.le_toInt x
    norm_num at h1 h2
    simp only [jumpOffsetOk, Bool.and_eq_true, decide_eq_true_eq]
    omega

/-- The short offset that a unit names, from the offset. -/
theorem shortOffsetOf_memUnit {base : Half} (hb : ∀ k, k < 10 → base.getLsbD k = false) (p : PReg) (r : DReg) {u : Nat}
    (h : shortOffsetOk u = true) : shortOffsetOf (memUnit (base ||| BitVec.ofNat 16 (u / 4) <<< 6) p r) = u := by
  simp only [shortOffsetOk, Bool.and_eq_true, beq_iff_eq, decide_eq_true_eq] at h
  unfold shortOffsetOf
  have e : ∀ z : Half, z.toNat % 16 = (z.extractLsb' 0 4).toNat := by intro z; simp
  have : (memUnit (base ||| BitVec.ofNat 16 (u / 4) <<< 6) p r >>> 6).extractLsb' 0 4 = BitVec.ofNat 4 (u / 4) := by
    apply BitVec.eq_of_getLsbD_eq
    intro k hk
    rw [BitVec.getLsbD_extractLsb', BitVec.getLsbD_ushiftRight, Laws.memUnit_high _ _ _ _ (by omega), BitVec.getLsbD_or,
      hb _ (by omega), BitVec.getLsbD_shiftLeft, BitVec.getLsbD_ofNat, BitVec.getLsbD_ofNat]
    simp [hk, show 6 + k < 16 by omega, show k < 16 by omega]
  rw [e, this, BitVec.toNat_ofNat]
  omega

/-- A 5-bit number placed at bit 3, read back. -/
theorem bitNumber_roundtrip {n : Nat} (h : n ≤ 31) (d : DReg) :
    ((0x4A00 ||| (BitVec.ofNat 16 n <<< 3) ||| dregNum d : Half) >>> 3).toNat % 32 = n := by
  have e : ∀ z : Half, z.toNat % 32 = (z.extractLsb' 0 5).toNat := by intro z; simp
  have : ((0x4A00 ||| (BitVec.ofNat 16 n <<< 3) ||| dregNum d : Half) >>> 3).extractLsb' 0 5 = BitVec.ofNat 5 n := by
    apply BitVec.eq_of_getLsbD_eq
    intro k hk
    have hb : ∀ j, j < 5 → (0x4A00#16).getLsbD (3 + j) = false := by decide
    rw [BitVec.getLsbD_extractLsb', BitVec.getLsbD_ushiftRight, BitVec.getLsbD_or, BitVec.getLsbD_or,
      dregNum_high d _ (by omega), BitVec.getLsbD_shiftLeft, BitVec.getLsbD_ofNat, BitVec.getLsbD_ofNat]
    show (decide (k < 5) && ((0x4A00#16).getLsbD (3 + (0 + k)) || _ || false)) = _
    rw [show 0 + k = k by omega, hb k hk]
    simp [hk, show 3 + k < 16 by omega, show k < 16 by omega]
  rw [e, this, BitVec.toNat_ofNat]
  omega

/-! ### From stored bytes to rows -/

/-- A unit read back from its stored bytes (R301). -/
theorem halfOf_halfBytes (h : Half) : halfOf (h.extractLsb' 0 8) (h.extractLsb' 8 8) = h := by
  unfold halfOf
  apply BitVec.eq_of_getLsbD_eq
  intro k hk
  rw [BitVec.getLsbD_append]
  by_cases h8 : k < 8
  · simp [h8]
  · simp [h8, show k - 8 < 8 by omega, show 8 + (k - 8) = k by omega]

/-- The stored bytes of a unit read from stored bytes (R301). -/
theorem halfBytes_halfOf (b0 b1 : Byte) : halfBytes (halfOf b0 b1) = [b0, b1] := by
  have h0 : (halfOf b0 b1).extractLsb' 0 8 = b0 := by
    apply BitVec.eq_of_getLsbD_eq; intro k hk
    rw [BitVec.getLsbD_extractLsb', halfOf, BitVec.getLsbD_append]; simp [hk]
  have h1 : (halfOf b0 b1).extractLsb' 8 8 = b1 := by
    apply BitVec.eq_of_getLsbD_eq; intro k hk
    rw [BitVec.getLsbD_extractLsb', halfOf, BitVec.getLsbD_append]; simp [hk]
  unfold halfBytes; rw [h0, h1]

/-- A 16-bit instruction from its stored bytes: its row decides. -/
theorem decode_short {h : Half} {i : Instr} (hl : unitLength h = 2) (hr : rowsDecode shortRows h 0 = some i)
    (rest : List Byte) : decode (unitsBytes [h] ++ rest) = .ok (i, rest) := by
  show decode (h.extractLsb' 0 8 :: h.extractLsb' 8 8 :: rest) = _
  unfold decode
  simp only [halfOf_halfBytes, hl, if_true, hr]

/-- A 32-bit instruction from its stored bytes: its row decides. -/
theorem decode_long {h l : Half} {i : Instr} (hl : unitLength h = 4) (hr : rowsDecode longRows h l = some i)
    (rest : List Byte) : decode (unitsBytes [h, l] ++ rest) = .ok (i, rest) := by
  show decode (h.extractLsb' 0 8 :: h.extractLsb' 8 8 :: l.extractLsb' 0 8 :: l.extractLsb' 8 8 :: rest) = _
  unfold decode
  simp only [halfOf_halfBytes, hl, hr]; rfl

end Sys2Proof
end

