-- ==== Sys2Proof/Laws/Steps.lean ====
section
/-! SUPPORT. What one instruction can do, said once: every next state of exec is an exception entry, CLI or STI, or one of
the shared operations followed by a change of registers alone; STI, CSYNC and SSYNC may then enter an interrupt. -/

namespace Sys2Proof.Machine

open Host (Outcome)

/-- `t` is `s` but for the general registers, the pc, CC, the alignment disable and the branch shadow. -/
def RegsOnly (s t : State) : Prop :=
  t = { s with r := t.r, p := t.p, pc := t.pc, cc := t.cc, alignExcOff := t.alignExcOff, shadow := t.shadow }

/-- What a store to a core MMR in the store buffer must be: the packed value of a store that is not refused, to a register
that software can write. -/
def mmrStoreOk (a : Addr) (v : Word) : Prop :=
  ∃ name w, mmrAt a = some name ∧ name.readOnly = false ∧ mmrStoreRefusal name w = none ∧ v = name.pack w

/-- The shared operations that an instruction may perform on a state. -/
inductive ExecMove (s : State) : State → Prop where
  | stay : ExecMove s s
  | drainStores : ExecMove s s.drainStores
  | drainAll : ExecMove s s.drainAll
  | testAndSet (a : Addr) (bs : List Byte) : ExecMove s (s.drainAll.busWrite a bs)
  | prefetchLine (pl : DPlace) (a : Addr) (h : s.dplace a = some pl) : ExecMove s (s.prefetchLine pl a)
  | flushLine (a : Addr) : ExecMove s (s.flushLine a)
  | flushInvalidateLine (a : Addr) : ExecMove s (s.flushInvalidateLine a)
  | invalidateInstrLine (a : Addr) : ExecMove s (s.invalidateInstrLine a)
  | readValue (a : Addr) (n : Nat) (m : CacheMode) : ExecMove s (s.readValue a n m).2
  | systemMmr (l : List PabAccess) (h : s.mode ≠ .user) : ExecMove s { s with pab := l }
  | writeMmrNow (name : MmrName) (a : Addr) (v : Word) (hd : s.inEnabledGroup name = true) (h : s.mode ≠ .user) :
      ExecMove s (s.writeMmrNow name a v)
  | pushStore (e : BufEntry) (path : StorePath)
      (h : path = .coreMmr → s.mode ≠ .user ∧ mmrStoreOk e.addr e.value) : ExecMove s (s.pushStore e path)

/-- A pending interrupt is taken, or there is none to take. -/
theorem takeInterrupt_cases (s : State) :
    (s.nextInterrupt = none ∧ s.takeInterrupt = s) ∨
    ∃ k, s.nextInterrupt = some k ∧ s.takeInterrupt = s.enterInterrupt k := by
  unfold State.takeInterrupt
  cases h : s.nextInterrupt with
  | none => exact .inl ⟨rfl, rfl⟩
  | some k => exact .inr ⟨k, rfl, rfl⟩

/-- CSYNC and SSYNC end by completing, or by entering an interrupt. -/
theorem synchronised_cases (s : State) :
    (s.nextInterrupt = none ∧ s.synchronised = s.advance 2) ∨
    ∃ k, s.nextInterrupt = some k ∧ s.synchronised = s.enterInterrupt k := by
  unfold State.synchronised
  cases h : s.nextInterrupt with
  | none => exact .inl ⟨rfl, rfl⟩
  | some k => exact .inr ⟨k, rfl, rfl⟩

/-- A refused or excepted access: no next state but an exception entry. -/
theorem stopOutcome_next {s t : State} {st : Stop} (h : s.stopOutcome st = .next t) :
    ∃ e, st = .exception e ∧ s.handling = none ∧ t = s.enterException e := by
  cases st with
  | refusal r => cases h
  | exception e =>
    simp only [State.stopOutcome, State.takeException] at h
    split at h
    · cases h
    · next hn => cases h; exact ⟨e, rfl, hn, rfl⟩

/-- Data accesses to MMR space pass their checks in Supervisor and Emulation mode alone (R120). -/
theorem checkData_mmrSpace {s : State} {acc : Access} {m : CacheMode} (h : s.checkData acc = .ok m)
    (ha : inMmrSpace acc.addr = true) : s.mode ≠ .user := by
  intro hu
  unfold State.checkData State.minimalDataStop at h
  by_cases hm : acc.misaligned = true
  · simp [hm] at h
  · simp [hm, ha, hu] at h

/-- A read that is performed changes what `readValue` changes, or nothing. -/
theorem memRead_next {s s1 : State} {acc : Access} {v : Word} (h : s.memRead acc = .ok (v, s1)) : ExecMove s s1 := by
  unfold State.memRead at h
  split at h
  · cases h
  · next hc =>
    split at h
    · next hr =>
      have e := Except.ok.inj h
      rw [show s1 = (s.readSystemMmr acc).2 from (congrArg Prod.snd e).symm]
      exact .systemMmr _ (checkData_mmrSpace hc (by simp [inMmrSpace]; exact ((region_systemMmr_iff _ _).1 hr).1))
    · split at h
      · cases h; exact .stay
      · cases h
    · have e := Except.ok.inj h
      rw [show s1 = (s.readValue acc.addr acc.width.bytes _).2 from (congrArg Prod.snd e).symm]
      exact .readValue _ _ _

/-- A write that is performed enters the store buffer, or reaches a page descriptor or a system MMR at once, or, to a
read-only register, does nothing. -/
theorem memWrite_next {s s1 : State} {acc : Access} {v : Word} (h : s.memWrite acc v = .ok s1) : ExecMove s s1 := by
  unfold State.memWrite at h
  split at h
  · cases h
  · next m hc =>
    split at h
    · next hr =>
      cases h
      exact .systemMmr _ (checkData_mmrSpace hc (by simp [inMmrSpace]; exact ((region_systemMmr_iff _ _).1 hr).1))
    · next hr =>
      have hu : s.mode ≠ .user := checkData_mmrSpace hc (by
        have := (region_coreMmr_iff _ _).1 hr
        simp [inMmrSpace]; omega)
      split at h
      · next name hw hn =>
        unfold State.storeMmr at h
        split at h
        · cases h; exact .stay
        · next hro =>
          split at h
          · cases h
          · next hnone =>
            split at h
            · next hd => cases h; exact .writeMmrNow _ _ _ hd hu
            · cases h
              exact .pushStore _ _ fun _ => ⟨hu, name, v, hn, by simpa using hro, hnone, rfl⟩
      · cases h
    · next h1 h2 =>
      cases h
      refine .pushStore _ _ fun hp => ?_
      exfalso
      unfold State.storePath at hp
      (repeat' split at hp) <;> cases hp

/-- What an instruction other than CSYNC, SSYNC and STI that gives a next state can have done. -/
def PlainMove (s t : State) : Prop :=
  (∃ e, s.handling = none ∧ t = s.enterException e) ∨
  (s.mode ≠ .user ∧ t = { s with r := t.r, imask := t.imask, pc := t.pc }) ∨
  ∃ u, ExecMove s u ∧ RegsOnly u t

/-- Everything an instruction that gives a next state can have done: a plain move, or, for CSYNC, SSYNC and STI, an interrupt
taken after one. -/
theorem exec_cases {i : Instr} {s t : State} (h : exec i s = .next t) :
    PlainMove s t ∨
    (i = .csync ∨ i = .ssync ∨ ∃ d, i = .sti d) ∧ ∃ u k, PlainMove s u ∧ u.handling = s.handling ∧ u.mode = s.mode ∧
      u.nextInterrupt = some k ∧ t = u.enterInterrupt k := by
  have hload : ∀ (r : DReg) (a : Addr) (len : Nat), s.loadWord r a len = .next t →
      (∃ e, s.handling = none ∧ t = s.enterException e) ∨ ∃ u, ExecMove s u ∧ RegsOnly u t := by
    intro r a len h
    unfold State.loadWord at h
    split at h
    · obtain ⟨e, -, hn, ht⟩ := stopOutcome_next h; exact .inl ⟨e, hn, ht⟩
    · next hm => cases h; exact .inr ⟨_, memRead_next hm, rfl⟩
  have hstore : ∀ (r : DReg) (a : Addr) (len : Nat), s.storeWord r a len = .next t →
      (∃ e, s.handling = none ∧ t = s.enterException e) ∨ ∃ u, ExecMove s u ∧ RegsOnly u t := by
    intro r a len h
    unfold State.storeWord at h
    split at h
    · obtain ⟨e, -, hn, ht⟩ := stopOutcome_next h; exact .inl ⟨e, hn, ht⟩
    · next hm => cases h; exact .inr ⟨_, memWrite_next hm, rfl⟩
  have hcache : ∀ (a : Addr) (f g : State → State), (∀ u, RegsOnly (g u) (f u)) → ExecMove s (g s) →
      s.cacheOp a f = .next t → (∃ e, s.handling = none ∧ t = s.enterException e) ∨ ∃ u, ExecMove s u ∧ RegsOnly u t := by
    intro a f g hf hg h
    unfold State.cacheOp at h
    split at h
    · obtain ⟨e, -, hn, ht⟩ := stopOutcome_next h; exact .inl ⟨e, hn, ht⟩
    · cases h
      refine .inr ⟨_, hg, ?_⟩
      have := hf s
      unfold RegsOnly at this ⊢
      rw [this]; rfl
  have hpre : ∀ (a : Addr) (f : State → State), (∀ u, RegsOnly u (f u)) →
      s.prefetchOp a f = .next t → ∃ u, ExecMove s u ∧ RegsOnly u t := by
    intro a f hf h
    have adv : ∀ u, RegsOnly u ((f u).advance 2) := by
      intro u
      have := hf u
      unfold RegsOnly at this ⊢
      rw [this]; rfl
    unfold State.prefetchOp at h
    split at h
    · cases h
    · cases h; exact ⟨_, .stay, adv _⟩
    · cases h; exact ⟨_, .stay, adv _⟩
    · split at h
      · cases h; exact ⟨_, .stay, adv _⟩
      · next hd => cases h; exact ⟨_, .prefetchLine _ _ hd, adv _⟩
  have hjump : ∀ (b : Bool) (o : Int), s.condJump b o = .next t → ∃ u, ExecMove s u ∧ RegsOnly u t := by
    intro b o h
    unfold State.condJump at h
    split at h <;> (cases h; exact ⟨_, .stay, rfl⟩)
  have core : ∀ (e : Exc) (o : Outcome State Fault Refusal),
      (s.mode ≠ .user → o = .next t → t = { s with r := t.r, imask := t.imask, pc := t.pc }) →
      (if s.mode = .user then s.takeException e else o) = .next t →
      (∃ e, s.handling = none ∧ t = s.enterException e) ∨
        (s.mode ≠ .user ∧ t = { s with r := t.r, imask := t.imask, pc := t.pc }) := by
    intro e o ho h
    split at h
    · obtain ⟨e', -, hn, ht⟩ := stopOutcome_next (st := .exception e) h; exact .inl ⟨e', hn, ht⟩
    · next hm => exact .inr ⟨hm, ho hm h⟩
  have two : ((∃ e, s.handling = none ∧ t = s.enterException e) ∨ ∃ u, ExecMove s u ∧ RegsOnly u t) →
      (∃ e, s.handling = none ∧ t = s.enterException e) ∨
      (s.mode ≠ .user ∧ t = { s with r := t.r, imask := t.imask, pc := t.pc }) ∨
      ∃ u, ExecMove s u ∧ RegsOnly u t := by
    rintro (h | h)
    · exact .inl h
    · exact .inr (.inr h)
  cases i with
  | nop => cases h; exact .inl (.inr (.inr ⟨_, .stay, rfl⟩))
  | csync =>
    cases h
    rcases synchronised_cases s.drainStores with ⟨-, e⟩ | ⟨k, hk, e⟩ <;> rw [e]
    · exact .inl (.inr (.inr ⟨_, .drainStores, rfl⟩))
    · have hd := drainStores_drainOnly s
      have hp : PlainMove s s.drainStores := .inr (.inr ⟨_, .drainStores, rfl⟩)
      exact .inr ⟨.inl rfl, _, k, hp, by rw [hd], by rw [hd], hk, rfl⟩
  | ssync =>
    cases h
    rcases synchronised_cases s.drainAll with ⟨-, e⟩ | ⟨k, hk, e⟩ <;> rw [e]
    · exact .inl (.inr (.inr ⟨_, .drainAll, rfl⟩))
    · have hd := drainAll_drainOnly s
      have hp : PlainMove s s.drainAll := .inr (.inr ⟨_, .drainAll, rfl⟩)
      exact .inr ⟨.inr (.inl rfl), _, k, hp, by rw [hd], by rw [hd], hk, rfl⟩
  | cli d =>
    rcases core _ _ (fun _ e => by cases e; rfl) h with h | h
    · exact .inl (.inl h)
    · exact .inl (.inr (.inl h))
  | sti d =>
    simp only [exec, execSti] at h
    split at h
    · obtain ⟨e', -, hn, ht⟩ := stopOutcome_next (st := .exception _) h; exact .inl (.inl ⟨e', hn, ht⟩)
    · next hm =>
      cases h
      have hp : PlainMove s ({ s with imask := s.dreg d }.advance 2) := .inr (.inl ⟨hm, rfl⟩)
      rcases takeInterrupt_cases ({ s with imask := s.dreg d }.advance 2) with ⟨-, e⟩ | ⟨k, hk, e⟩ <;> rw [e]
      · exact .inl hp
      · exact .inr ⟨.inr (.inr ⟨d, rfl⟩), _, k, hp, rfl, rfl, hk, rfl⟩
  | testset p =>
    simp only [exec, execTestset] at h
    split at h
    · obtain ⟨e, -, hn, ht⟩ := stopOutcome_next h; exact .inl (.inl ⟨e, hn, ht⟩)
    · cases h; exact .inl (.inr (.inr ⟨_, .testAndSet _ _, rfl⟩))
  | prefetch p => exact .inl (.inr (.inr (hpre (s.preg p) id (fun _ => rfl) h)))
  | prefetchInc p => exact .inl (.inr (.inr (hpre (s.preg p) (fun t => t.bumpPointer p) (fun _ => rfl) h)))
  | flushinv p =>
    exact .inl (two (hcache (s.preg p) (fun t => t.flushInvalidateLine (s.preg p)) (fun t => t.flushInvalidateLine (s.preg p))
      (fun _ => rfl) (.flushInvalidateLine _) h))
  | flush p =>
    exact .inl (two (hcache (s.preg p) (fun t => t.flushLine (s.preg p)) (fun t => t.flushLine (s.preg p)) (fun _ => rfl)
      (.flushLine _) h))
  | iflush p =>
    exact .inl (two (hcache (s.preg p) (fun t => t.invalidateInstrLine (s.preg p))
      (fun t => t.invalidateInstrLine (s.preg p)) (fun _ => rfl) (.invalidateInstrLine _) h))
  | flushinvInc p =>
    exact .inl (two (hcache (s.preg p) (fun t => (t.flushInvalidateLine (s.preg p)).bumpPointer p)
      (fun t => t.flushInvalidateLine (s.preg p)) (fun _ => rfl) (.flushInvalidateLine _) h))
  | flushInc p =>
    exact .inl (two (hcache (s.preg p) (fun t => (t.flushLine (s.preg p)).bumpPointer p) (fun t => t.flushLine (s.preg p))
      (fun _ => rfl) (.flushLine _) h))
  | iflushInc p =>
    exact .inl (two (hcache (s.preg p) (fun t => (t.invalidateInstrLine (s.preg p)).bumpPointer p)
      (fun t => t.invalidateInstrLine (s.preg p)) (fun _ => rfl) (.invalidateInstrLine _) h))
  | load r p => exact .inl (two (hload _ _ _ h))
  | loadShort r p u => exact .inl (two (hload _ _ _ h))
  | loadLong r p k => exact .inl (two (hload _ _ _ h))
  | store p r => exact .inl (two (hstore _ _ _ h))
  | storeShort p u r => exact .inl (two (hstore _ _ _ h))
  | storeLong p k r => exact .inl (two (hstore _ _ _ h))
  | bitset d n => cases h; exact .inl (.inr (.inr ⟨_, .stay, rfl⟩))
  | jumpCC o => exact .inl (.inr (.inr (hjump _ _ h)))
  | jumpNotCC o => exact .inl (.inr (.inr (hjump _ _ h)))
  | pLow p imm => cases h; exact .inl (.inr (.inr ⟨_, .stay, rfl⟩))
  | pHigh p imm => cases h; exact .inl (.inr (.inr ⟨_, .stay, rfl⟩))
  | disalgnexcpt => cases h; exact .inl (.inr (.inr ⟨_, .stay, rfl⟩))

/-- A shared operation changes storage, core MMRs, the store buffer and the accesses on the PAB alone. -/
theorem execMove_frame {s u : State} (h : ExecMove s u) :
    DrainOnly { s with storeBuf := u.storeBuf, pab := u.pab } u := by
  have sto : ∀ {v : State}, StorageOnly s v → DrainOnly { s with storeBuf := v.storeBuf, pab := v.pab } v := by
    intro v hv
    have hb : v.storeBuf = s.storeBuf ∧ v.pab = s.pab := by rw [hv]; exact ⟨rfl, rfl⟩
    rw [show { s with storeBuf := v.storeBuf, pab := v.pab } = s by rw [hb.1, hb.2]]
    exact hv.drain
  have dra : ∀ {v : State}, DrainOnly { s with storeBuf := [] } v →
      DrainOnly { s with storeBuf := v.storeBuf, pab := v.pab } v := by
    intro v hv
    have hb : v.storeBuf = [] ∧ v.pab = s.pab := by rw [hv]; exact ⟨rfl, rfl⟩
    rw [show ({ s with storeBuf := v.storeBuf, pab := v.pab } : State) = { s with storeBuf := [] } by rw [hb.1, hb.2]]
    exact hv
  cases h with
  | stay => exact DrainOnly.refl s
  | drainStores => exact dra (drainStores_drainOnly s)
  | drainAll => exact dra (drainAll_drainOnly s)
  | testAndSet a bs => exact dra ((drainAll_drainOnly s).trans (busWrite_busOnly _ _ _).storage.drain)
  | prefetchLine pl a h => exact sto (prefetchLine_storageOnly _ _ _)
  | flushLine a => exact sto (flushLine_storageOnly _ _)
  | flushInvalidateLine a => exact sto (flushInvalidateLine_storageOnly _ _)
  | invalidateInstrLine a => unfold State.invalidateInstrLine; split <;> rfl
  | readValue a n m => exact sto (readValue_storageOnly _ _ _ _)
  | systemMmr l h => rfl
  | writeMmrNow name a v hd h => cases name <;> first | cases hd | rfl
  | pushStore e path h => rfl

/-- With no store to a core MMR in the store buffer, a shared operation in User mode changes storage and the store
buffer alone, and leaves no store to a core MMR there. -/
theorem execMove_user {s u : State} (h : ExecMove s u) (hu : s.mode = .user)
    (hb : ∀ ps ∈ s.storeBuf, ps.path ≠ .coreMmr) :
    StorageOnly { s with storeBuf := u.storeBuf, icache := u.icache } u ∧ ∀ ps ∈ u.storeBuf, ps.path ≠ .coreMmr := by
  have sto : ∀ {v : State}, StorageOnly s v →
      StorageOnly { s with storeBuf := v.storeBuf, icache := v.icache } v ∧ ∀ ps ∈ v.storeBuf, ps.path ≠ .coreMmr := by
    intro v hv
    have h1 : v.storeBuf = s.storeBuf := by rw [hv]
    have h2 : v.icache = s.icache := by rw [hv]
    rw [show { s with storeBuf := v.storeBuf, icache := v.icache } = s by rw [h1, h2], h1]
    exact ⟨hv, hb⟩
  have dra : ∀ {v : State}, StorageOnly { s with storeBuf := [] } v →
      StorageOnly { s with storeBuf := v.storeBuf, icache := v.icache } v ∧ ∀ ps ∈ v.storeBuf, ps.path ≠ .coreMmr := by
    intro v hv
    have h1 : v.storeBuf = [] := by rw [hv]
    have h2 : v.icache = s.icache := by rw [hv]
    rw [h1, h2]
    exact ⟨hv, by simp⟩
  have hds : StorageOnly { s with storeBuf := [] } s.drainStores := performStores_storageOnly _ _ hb
  have hda : StorageOnly { s with storeBuf := [] } s.drainAll :=
    ((hds.trans (flushWrites_busOnly _).storage).trans (performVictim_busOnly _ _).storage).trans
      (performVictim_busOnly _ _).storage
  cases h with
  | stay => exact sto (StorageOnly.refl s)
  | drainStores => exact dra hds
  | drainAll => exact dra hda
  | testAndSet a bs => exact dra (hda.trans (busWrite_busOnly _ _ _).storage)
  | prefetchLine pl a h => exact sto (prefetchLine_storageOnly _ _ _)
  | flushLine a => exact sto (flushLine_storageOnly _ _)
  | flushInvalidateLine a => exact sto (flushInvalidateLine_storageOnly _ _)
  | invalidateInstrLine a =>
    unfold State.invalidateInstrLine
    split
    · exact ⟨rfl, hb⟩
    · exact sto (StorageOnly.refl s)
  | readValue a n m => exact sto (readValue_storageOnly _ _ _ _)
  | systemMmr l hm => exact absurd hu hm
  | writeMmrNow name a v hd hm => exact absurd hu hm
  | pushStore e path h =>
    refine ⟨rfl, ?_⟩
    intro ps hps
    rcases List.mem_append.1 hps with h1 | h1
    · exact hb ps h1
    · rw [List.mem_singleton.1 h1]; exact fun hp => (h hp).1 hu

end Sys2Proof.Machine
end

