-- ==== Sys2Proof/Laws/Invariant.lean ====
section
/-! SUPPORT. The induction over a step, once: a property that a few primitive moves keep is kept by every step. -/

namespace Sys2Proof.Machine

open Host (Outcome)

/-- `t` is `s` but for the state that no memory operation and no control register reads: the general registers, the pc, CC,
IMASK, the mode, the exception and interrupt state, the test registers, the descriptors, the model's own fields. -/
def CoreOnly (s t : State) : Prop :=
  t = { s with r := t.r, p := t.p, pc := t.pc, cc := t.cc, imask := t.imask, mode := t.mode,
               alignExcOff := t.alignExcOff, shadow := t.shadow, icplb := t.icplb, icplbStatus := t.icplbStatus,
               icplbFaultAddr := t.icplbFaultAddr, itestCommand := t.itestCommand, itestData0 := t.itestData0,
               itestData1 := t.itestData1, dcplb := t.dcplb, dcplbStatus := t.dcplbStatus,
               dcplbFaultAddr := t.dcplbFaultAddr, dtestCommand := t.dtestCommand, dtestData0 := t.dtestData0,
               dtestData1 := t.dtestData1, timerControl := t.timerControl, retx := t.retx, excause := t.excause,
               evt3 := t.evt3, savedMode := t.savedMode, handling := t.handling, isrs := t.isrs,
               irqPending := t.irqPending, vectors := t.vectors, pab := t.pab,
               hwErrorPending := t.hwErrorPending, inputs := t.inputs, tick := t.tick }

/-- The primitive moves of the machine. `G` is what is known of the stores in the store buffer. -/
structure Closed (G : PendingStore → Prop) (P : State → Prop) : Prop where
  core : ∀ {s t}, P s → CoreOnly s t → P t
  mem : ∀ {s} a bs, P s → P { s with mem := Memory.writeBytes s.mem a bs }
  shorter : ∀ {s} e es, P s → s.writeBuf = e :: es → P { s with writeBuf := es }
  longer : ∀ {s} e, P s → (0 < s.writeBufDepth → s.writeBuf.length < s.writeBufDepth) →
    P { s with writeBuf := s.writeBuf ++ [e] }
  victim : ∀ {s} k v, P s → P (s.setVictim k v)
  dset : ∀ {s} (pl : DPlace) st, P s → s.bankIsCache (bankOfKey pl.key) = true → P (s.setDset pl st)
  iset : ∀ {s} (pl : IPlace) st, P s → s.imc = true →
    ((s.iset pl).recency.Perm iways → st.recency.Perm iways) → P (s.setIset pl st)
  imem : ∀ {s} v, P s → P (s.writeImemControl v)
  dmem : ∀ {s} a w v, P s → mmrAt a = some .dmemControl → G ⟨⟨a, w, v⟩, .coreMmr⟩ → P (s.writeDmemControl v)
  iprio : ∀ {s} v, P s → P { s with iprio := packIprio v }
  stores : ∀ {s} l, P s → (∀ ps ∈ l, ps ∈ s.storeBuf) → P { s with storeBuf := l }
  push : ∀ {s} e path, P s → (path = .coreMmr → mmrStoreOk e.addr e.value) → P (s.pushStore e path)
  deep : ∀ {s}, P s → P { s with writeBufDepth := 8 }
  shallow : ∀ {s}, P s → s.writeBuf.length ≤ 2 → P { s with writeBufDepth := 2 }
  good : ∀ {s}, P s → ∀ ps ∈ s.storeBuf, G ps

variable {G : PendingStore → Prop} {P : State → Prop}

/-! ### The bus and the buffers -/

theorem Closed.touch (c : Closed G P) {s : State} (h : P s) (a : Addr) : P (s.touch a) := by
  unfold State.touch; split
  · exact c.core h rfl
  · exact h

theorem Closed.busWrite (c : Closed G P) {s : State} (h : P s) (a : Addr) (bs : List Byte) : P (s.busWrite a bs) := by
  unfold State.busWrite; split
  · exact c.core h rfl
  · split
    · exact h
    · exact c.mem a bs h

theorem Closed.performWrites (c : Closed G P) (n : Nat) {s : State} (h : P s) : P (s.performWrites n) := by
  induction n generalizing s with
  | zero => exact h
  | succ n ih =>
    unfold State.performWrites; split
    · exact h
    · next e es he => exact ih (c.busWrite (c.shorter e es h he) _ _)

theorem Closed.performVictim (c : Closed G P) {s : State} (h : P s) (k : Bank) : P (s.performVictim k) := by
  unfold State.performVictim; split
  · exact h
  · exact c.busWrite (c.victim k none h) _ _

theorem Closed.settleVictims (c : Closed G P) {s : State} (h : P s) (a : Addr) : P (s.settleVictims a) := by
  have one : ∀ {s : State} (k : Bank), P s → P (s.settleVictim a k) := by
    intro s k h; unfold State.settleVictim; split
    · exact c.performVictim h k
    · exact h
  exact one _ (one _ h)

theorem Closed.settleWrites (c : Closed G P) {s : State} (h : P s) (a : Addr) : P (s.settleWrites a) := by
  unfold State.settleWrites; split
  · exact c.performWrites _ h
  · exact h

theorem performWrites_depth (s : State) (n : Nat) : (s.performWrites n).writeBufDepth = s.writeBufDepth := by
  have := performWrites_busOnly s n; unfold BusOnly at this; rw [this]

theorem Closed.enqueueWrite (c : Closed G P) {s : State} (h : P s) (e : BufEntry) : P (s.enqueueWrite e) := by
  simp only [State.enqueueWrite]
  apply c.longer e (c.performWrites _ (c.settleVictims h _))
  intro hd
  rw [performWrites_depth] at hd ⊢
  rw [performWrites_writeBuf, List.length_drop]
  omega

theorem Closed.enqueueVictim (c : Closed G P) {s : State} (h : P s) (k : Bank) (v : Victim) :
    P (s.enqueueVictim k v) :=
  c.victim k _ (c.performVictim (c.settleVictims (c.settleWrites h _) _) k)

/-! ### The caches -/

/-- The set of an address lies in a bank that is cache. -/
theorem dplace_bankIsCache {s : State} {a : Addr} {pl : DPlace} (h : s.dplace a = some pl) :
    s.bankIsCache pl.bank = true ∧ pl.sub = fieldAt a 12 2 ∧ pl.set = fieldAt a 5 6 := by
  unfold State.dplace State.bankFor at h
  revert h
  cases hA : s.bankIsCache .bankA <;> cases hB : s.bankIsCache .bankB <;> intro h <;> simp only [Option.map] at h
  · cases h
  · cases h; exact ⟨hB, rfl, rfl⟩
  · cases h; exact ⟨hA, rfl, rfl⟩
  · cases h
    refine ⟨?_, rfl, rfl⟩
    show s.bankIsCache (if _ then _ else _) = true
    generalize bitAt a _ = x
    cases x <;> assumption

/-- The bank of a set's key is the set's bank. -/
theorem bankOfKey_key (pl : DPlace) (hs : pl.sub < 4) (ht : pl.set < 64) : bankOfKey pl.key = pl.bank := by
  unfold bankOfKey DPlace.key
  cases pl.bank with
  | bankA => exact if_pos (show (0 * 4 + pl.sub) * 64 + pl.set < 256 by omega)
  | bankB => exact if_neg (show ¬ (1 * 4 + pl.sub) * 64 + pl.set < 256 by omega)

theorem fieldAt_lt (w : Word) (lo n : Nat) : fieldAt w lo n < 2 ^ n := Nat.mod_lt _ (Nat.two_pow_pos n)

/-- The key of an address's set lies in a bank that is cache. -/
theorem dplace_key {s : State} {a : Addr} {pl : DPlace} (h : s.dplace a = some pl) :
    s.bankIsCache (bankOfKey pl.key) = true := by
  obtain ⟨h1, h2, h3⟩ := dplace_bankIsCache h
  rw [bankOfKey_key pl (by rw [h2]; exact fieldAt_lt a 12 2) (by rw [h3]; exact fieldAt_lt a 5 6)]
  exact h1

theorem bankIsCache_busOnly {s t : State} (h : BusOnly s t) (k : Bank) : t.bankIsCache k = s.bankIsCache k := by
  unfold BusOnly at h; rw [h]; rfl

theorem bankIsCache_storageOnly {s t : State} (h : StorageOnly s t) (k : Bank) : t.bankIsCache k = s.bankIsCache k := by
  unfold StorageOnly at h; rw [h]; rfl

theorem Closed.writeBackLine (c : Closed G P) {s : State} (h : P s) (pl : DPlace) (w : Fin 2) :
    P (s.writeBackLine pl w) := by
  simp only [State.writeBackLine]; split
  · exact c.enqueueVictim h _ _
  · exact h

theorem Closed.allocateLine (c : Closed G P) {s : State} (h : P s) (pl : DPlace) (w : Fin 2) (a : Addr)
    (hk : s.bankIsCache (bankOfKey pl.key) = true) : P (s.allocateLine pl w a) := by
  unfold State.allocateLine
  apply c.dset _ _ (c.mem _ _ (c.touch (c.writeBackLine h pl w) _))
  rw [← hk]
  exact bankIsCache_busOnly (((writeBackLine_busOnly s pl w).trans (touch_busOnly _ _)).trans (setMem_busOnly _ _)) _

theorem Closed.lineFor (c : Closed G P) {s : State} (h : P s) (pl : DPlace) (a : Addr)
    (hk : s.bankIsCache (bankOfKey pl.key) = true) : P (s.lineFor pl a).2 := by
  unfold State.lineFor; split
  · exact c.dset _ _ h hk
  · exact c.allocateLine h _ _ _ hk

theorem Closed.writeLine (c : Closed G P) {s : State} (h : P s) (pl : DPlace) (w : Fin 2) (a : Addr) (bs : List Byte)
    (m : Bool) (hk : s.bankIsCache (bankOfKey pl.key) = true) : P (s.writeLine pl w a bs m) :=
  c.dset _ _ (c.mem _ _ h) hk

theorem Closed.storeWriteBack (c : Closed G P) {s : State} (h : P s) (pl : DPlace) (e : BufEntry)
    (hk : s.bankIsCache (bankOfKey pl.key) = true) : P (s.storeWriteBack pl e) := by
  have hk1 : (s.settleWrites (lineAddr e.addr)).bankIsCache (bankOfKey pl.key) = true := by
    rw [bankIsCache_busOnly (settleWrites_busOnly s _)]; exact hk
  unfold State.storeWriteBack
  apply c.writeLine (c.lineFor (c.settleWrites h _) pl e.addr hk1)
  rw [bankIsCache_storageOnly (lineFor_storageOnly _ _ _)]; exact hk1

theorem Closed.storeWriteThrough (c : Closed G P) {s : State} (h : P s) (pl : DPlace) (e : BufEntry) (b : Bool)
    (hk : s.bankIsCache (bankOfKey pl.key) = true) : P (s.storeWriteThrough pl e b) := by
  unfold State.storeWriteThrough; split
  · apply c.enqueueWrite
    apply c.writeLine (c.lineFor h pl e.addr hk)
    rw [bankIsCache_storageOnly (lineFor_storageOnly _ _ _)]; exact hk
  · exact c.enqueueWrite h e

theorem Closed.prefetchLine (c : Closed G P) {s : State} (h : P s) (pl : DPlace) (a : Addr)
    (hk : s.bankIsCache (bankOfKey pl.key) = true) : P (s.prefetchLine pl a) := by
  unfold State.prefetchLine; split
  · exact h
  · exact c.allocateLine h _ _ _ hk

theorem Closed.flushLine (c : Closed G P) {s : State} (h : P s) (a : Addr) : P (s.flushLine a) := by
  simp only [State.flushLine]; split
  · exact h
  · next pl hp =>
    split
    · exact h
    · split
      · apply c.dset _ _ (c.writeBackLine h _ _)
        rw [bankIsCache_busOnly (writeBackLine_busOnly _ _ _)]; exact dplace_key hp
      · exact h

theorem Closed.flushInvalidateLine (c : Closed G P) {s : State} (h : P s) (a : Addr) :
    P (s.flushInvalidateLine a) := by
  simp only [State.flushInvalidateLine]; split
  · exact h
  · next pl hp =>
    split
    · exact h
    · apply c.dset _ _ (c.writeBackLine h _ _)
      rw [bankIsCache_busOnly (writeBackLine_busOnly _ _ _)]; exact dplace_key hp

theorem Closed.invalidateInstrLine (c : Closed G P) {s : State} (h : P s) (a : Addr) :
    P (s.invalidateInstrLine a) := by
  unfold State.invalidateInstrLine; split
  · next hi => exact c.iset _ _ h hi id
  · exact h

/-- Marking a way keeps the recency order an order of the four ways. -/
theorem touchWay_recency {l : List (Fin 4)} (w : Fin 4) (h : l.Perm iways) :
    (l.filter (· ≠ w) ++ [w]).Perm iways := by
  have h2 : ∀ w : Fin 4, (iways.filter (· ≠ w) ++ [w]).Perm iways := by decide
  exact ((h.filter (· ≠ w)).append_right [w]).trans (h2 w)

theorem Closed.cachedFetch (c : Closed G P) {s : State} (h : P s) (a : Addr) (b : Bool) (hi : s.imc = true) :
    P (s.cachedFetch a b).2 := by
  simp only [State.cachedFetch]
  split
  · exact c.iset _ _ h hi fun hp => touchWay_recency _ hp
  · split
    · exact c.touch h _
    · next w hw =>
      have ht := touch_frame s (lineAddr a)
      have hi1 : (s.touch (lineAddr a)).imc = true := by rw [ht]; exact hi
      have hs : (s.touch (lineAddr a)).iset (iplaceOf a) = s.iset (iplaceOf a) := by rw [ht]; rfl
      have h1 := c.touch h (lineAddr a)
      generalize s.touch (lineAddr a) = s1 at hi1 hs h1
      generalize s.busBytes (lineAddr a) 32 = bs
      have h2 := c.mem ((iplaceOf a).cells w) bs h1
      generalize Memory.writeBytes s1.mem ((iplaceOf a).cells w) bs = m at h2
      refine c.iset _ _ h2 hi1 fun hp => ?_
      have hp' : (s1.iset (iplaceOf a)).recency.Perm iways := hp
      rw [hs] at hp'
      exact touchWay_recency _ hp'

/-! ### Core MMRs, stores and drains -/

theorem Closed.itest (c : Closed G P) {s : State} (h : P s) (v : Word) : P (s.itest v) := by
  simp only [State.itest]
  split
  · split
    · exact c.mem _ _ h
    · exact c.core h rfl
  · split
    · next hi =>
      split
      · exact c.iset _ _ h hi id
      · exact c.core h rfl
    · split
      · exact h
      · exact c.core h rfl

theorem Closed.dtest (c : Closed G P) {s : State} (h : P s) (v : Word) : P (s.dtest v) := by
  unfold State.dtest; split
  · exact h
  · split
    · simp only [State.dtestInstr]; split
      · exact c.mem _ _ h
      · exact c.core h rfl
    · simp only [State.dtestData]
      split
      · next hb =>
        split
        · split
          · exact c.mem _ _ h
          · exact c.core h rfl
        · split
          · apply c.dset _ _ h
            rw [bankOfKey_key _ (fieldAt_lt v 16 2) (fieldAt_lt v 5 6)]
            exact hb
          · exact c.core h rfl
      · (repeat' split) <;> first | exact h | exact c.core h rfl

theorem Closed.writeMmr (c : Closed G P) {s : State} (h : P s) {a : Addr} {name : MmrName} (w : Width) (v : Word)
    (ha : mmrAt a = some name) (hg : G ⟨⟨a, w, v⟩, .coreMmr⟩) : P (s.writeMmr name v) := by
  cases name
  case dmemControl => exact c.dmem a w v h ha hg
  case imemControl => exact c.imem v h
  case iprio => exact c.iprio v h
  case dtestCommand => exact c.dtest (s := { s with dtestCommand := packDtestCommand v }) (c.core h rfl) _
  case itestCommand => exact c.itest (s := { s with itestCommand := packItestCommand v }) (c.core h rfl) _
  all_goals exact c.core h rfl

theorem Closed.performStore (c : Closed G P) {s : State} (h : P s) (ps : PendingStore) (hg : G ps) :
    P (s.performStore ps) := by
  obtain ⟨⟨a, w, v⟩, path⟩ := ps
  unfold State.performStore
  split
  · next hp =>
    cases hp
    split
    · next name hn => exact c.writeMmr h w v hn hg
    · exact h
  · exact c.mem _ _ h
  · split
    · next hd => exact c.storeWriteBack h _ _ (dplace_key hd)
    · exact c.enqueueWrite h _
  · split
    · next hd => exact c.storeWriteThrough h _ _ _ (dplace_key hd)
    · exact c.enqueueWrite h _
  · exact c.enqueueWrite h _

theorem Closed.performStores (c : Closed G P) (l : List PendingStore) {s : State} (h : P s) (hg : ∀ ps ∈ l, G ps) :
    P (s.performStores l) := by
  induction l generalizing s with
  | nil => exact h
  | cons ps l ih => exact ih (c.performStore h ps (hg ps (by simp))) fun q hq => hg q (by simp [hq])

theorem Closed.drainStores (c : Closed G P) {s : State} (h : P s) : P s.drainStores :=
  c.performStores _ (c.stores [] h (by simp)) (c.good h)

theorem Closed.drainAll (c : Closed G P) {s : State} (h : P s) : P s.drainAll :=
  c.performVictim (c.performVictim (c.performWrites _ (c.drainStores h)) _) _

theorem Closed.readValue (c : Closed G P) {s : State} (h : P s) (a : Addr) (n : Nat) (m : CacheMode) :
    P (s.readValue a n m).2 := by
  unfold State.readValue; split
  · exact h
  · show P (s.readUnder a n m).2
    unfold State.readUnder; split
    · exact c.touch h a
    · exact c.touch h a
    · next hd => exact c.lineFor h _ _ (dplace_key hd)

/-! ### Instructions, fetches, events and steps -/

theorem Closed.execMove (c : Closed G P) {s u : State} (h : P s) (m : ExecMove s u) : P u := by
  cases m with
  | stay => exact h
  | drainStores => exact c.drainStores h
  | drainAll => exact c.drainAll h
  | testAndSet a bs => exact c.busWrite (c.drainAll h) _ _
  | prefetchLine pl a hd => exact c.prefetchLine h _ _ (dplace_key hd)
  | flushLine a => exact c.flushLine h a
  | flushInvalidateLine a => exact c.flushInvalidateLine h a
  | invalidateInstrLine a => exact c.invalidateInstrLine h a
  | readValue a n m => exact c.readValue h a n m
  | systemMmr l hm => exact c.core h rfl
  | writeMmrNow name a v hd hm =>
    have h1 : P { s with storeBuf := s.storeBuf.filter fun ps => ps.entry.addr != a } :=
      c.stores _ h fun q hq => List.mem_of_mem_filter hq
    cases name <;> first | cases hd | exact c.core h1 rfl
  | pushStore e path hp => exact c.push e path h fun e => (hp e).2

theorem enterException_core (s : State) (e : Exc) : CoreOnly s (s.enterException e) := by
  unfold State.enterException State.recordFault; cases e.side <;> rfl

theorem Closed.enterInterrupt (c : Closed G P) {s : State} (h : P s) (k : Fin 16) : P (s.enterInterrupt k) := by
  unfold State.enterInterrupt
  split
  · exact c.core (c.deep h) rfl
  · exact c.core h rfl

theorem Closed.takeInterrupt (c : Closed G P) {s : State} (h : P s) : P s.takeInterrupt := by
  rcases takeInterrupt_cases s with ⟨-, e⟩ | ⟨k, -, e⟩ <;> rw [e]
  · exact h
  · exact c.enterInterrupt h k

theorem Closed.plainMove (c : Closed G P) {s t : State} (h : P s) (he : PlainMove s t) : P t := by
  rcases he with ⟨e, -, rfl⟩ | ⟨-, ht⟩ | ⟨u, hu, ht⟩
  · exact c.core h (enterException_core s e)
  · refine c.core h ?_
    unfold CoreOnly; rw [ht]
  · refine c.core (c.execMove h hu) ?_
    unfold RegsOnly at ht
    unfold CoreOnly; rw [ht]

theorem Closed.exec (c : Closed G P) {i : Instr} {s t : State} (h : P s) (he : exec i s = .next t) : P t := by
  rcases exec_cases he with hp | ⟨-, u, k, hp, -, -, -, rfl⟩
  · exact c.plainMove h hp
  · exact c.enterInterrupt (c.plainMove h hp) k

/-- A fetch goes through the instruction cache only while it is enabled. -/
theorem checkFetch_cached {s : State} {a : Addr} {b : Bool} (h : s.checkFetch a = .ok (.cached b)) : s.imc = true := by
  unfold State.checkFetch at h
  split at h
  · cases h
  · split at h
    · cases h
    · split at h
      · cases h
      · split at h
        · cases h
        · cases h
        · split at h
          · cases h
          · split at h
            · next hc => simp only [Bool.and_eq_true] at hc; exact hc.2
            · cases h

theorem Closed.fetchWord (c : Closed G P) {s s1 : State} {a : Addr} {bs : List Byte} (h : P s)
    (hf : s.fetchWord a = .ok (bs, s1)) : P s1 := by
  unfold State.fetchWord at hf
  split at hf
  · cases hf
  · cases hf; exact c.touch h _
  · next b hc =>
    have e := Except.ok.inj hf
    rw [show s1 = (s.cachedFetch a b).2 from (congrArg Prod.snd e).symm]
    exact c.cachedFetch h a b (checkFetch_cached hc)

theorem Closed.fetchInstr (c : Closed G P) {s : State} (h : P s) :
    (∀ bs s1, s.fetchInstr = .ok (bs, s1) → P s1) ∧ ∀ s1 st, s.fetchInstr = .error (s1, st) → P s1 := by
  unfold State.fetchInstr
  split
  · exact ⟨fun _ _ e => (by cases e), fun _ _ e => (by cases e; exact h)⟩
  · split
    · exact ⟨fun _ _ e => (by cases e), fun _ _ e => (by cases e; exact h)⟩
    · next hf =>
      have h1 := c.fetchWord h hf
      dsimp only
      split
      · exact ⟨fun _ _ e => (by cases e; exact h1), fun _ _ e => (by cases e)⟩
      · split
        · exact ⟨fun _ _ e => (by cases e), fun _ _ e => (by cases e; exact h1)⟩
        · next hf2 => exact ⟨fun _ _ e => (by cases e; exact c.fetchWord h1 hf2), fun _ _ e => (by cases e)⟩

theorem Closed.issueRead (c : Closed G P) {s : State} (h : P s) (a : Addr) : P (s.issueRead a) := by
  unfold State.issueRead
  split
  · exact h
  · split
    · exact h
    · next hm => exact c.execMove h (memRead_next hm)

theorem Closed.requestRead (c : Closed G P) {s : State} (h : P s) (a : Addr) (m : CacheMode) : P (s.requestRead a m) := by
  unfold State.requestRead
  (repeat' split) <;> first | exact h | exact c.touch h a

theorem Closed.restoreDepth (c : Closed G P) {s : State} (h : P s) : P s.restoreDepth := by
  unfold State.restoreDepth; split
  · exact h
  · apply c.shallow (c.performWrites _ h)
    rw [performWrites_writeBuf, List.length_drop]
    omega

theorem Closed.applyEvent (c : Closed G P) {s : State} (h : P s) (e : Event) : P (s.applyEvent e) := by
  cases e with
  | drainStore i =>
    show P (s.drainStore i)
    unfold State.drainStore
    split
    · exact h
    · next ps hp =>
      split
      · exact c.performStore (c.stores _ h fun q hq => List.mem_of_mem_eraseIdx hq) ps
          (c.good h ps (List.mem_of_getElem? hp))
      · exact h
  | drainWrite => exact c.performWrites 1 h
  | drainVictim k => exact c.performVictim h k
  | speculativeRead path =>
    show P (s.speculativeRead path)
    unfold State.speculativeRead
    (repeat' split) <;> first | exact h | exact c.requestRead h _ _
  | speculativeFetch path =>
    show P (s.speculativeFetch path)
    unfold State.speculativeFetch
    split
    · exact h
    · split <;> exact c.core h rfl
  | dmaWrite a v =>
    show P (s.dmaWrite a v)
    unfold State.dmaWrite
    split
    · exact c.mem a [v] h
    · split
      · exact c.core h rfl
      · exact h
  | setVector k a => exact c.core h rfl
  | request k => exact c.core h rfl
  | takeInterrupt => exact c.takeInterrupt h
  | interruptReturn =>
    show P s.interruptReturn
    unfold State.interruptReturn
    split
    · exact h
    · split
      · exact c.restoreDepth (c.core h rfl)
      · exact h
  | exceptionReturn =>
    show P s.exceptionReturn
    unfold State.exceptionReturn
    split
    · exact c.core h rfl
    · exact h
  | cancelledLoad path =>
    show P (s.cancelledLoad path)
    unfold State.cancelledLoad
    split
    · exact h
    · split
      · exact c.enterInterrupt h _
      · exact c.enterInterrupt (c.issueRead h _) _

theorem Closed.applyEvents (c : Closed G P) (l : List Event) {s : State} (h : P s) : P (s.applyEvents l) := by
  induction l generalizing s with
  | nil => exact h
  | cons e l ih => exact ih (c.applyEvent h e)

theorem Closed.boundary (c : Closed G P) {s : State} (h : P s) : P s.boundary := by
  simp only [State.boundary]
  split
  · exact c.core (c.drainAll h) rfl
  · next es rest hi =>
    have h1 : P { s with inputs := rest } := c.core h rfl
    exact c.core (c.applyEvents es h1) rfl

/-- A property that the primitive moves keep is kept by every step. -/
theorem Closed.step (c : Closed G P) {s t : State} (h : P s) (hs : step s = .next t) : P t := by
  have fin : ∀ {o : Outcome State Fault Refusal}, (∀ u, o = .next u → P u) → State.finish o = .next t → P t := by
    intro o ho hf
    cases o with
    | next u => cases hf; exact c.boundary (ho u rfl)
    | fault f => cases hf
    | refused r => cases hf
  unfold Machine.step at hs
  split at hs
  · next s1 st hf =>
    apply fin _ hs
    intro u hu
    obtain ⟨e, -, -, rfl⟩ := stopOutcome_next hu
    exact c.core ((c.fetchInstr h).2 _ _ hf) (enterException_core s1 e)
  · next bs s1 hf =>
    have h1 := (c.fetchInstr h).1 _ _ hf
    split at hs
    · cases hs
    · exact fin (fun u hu => c.exec h1 hu) hs

/-- The primitive moves keep memory in its canonical form. -/
theorem memoryCanonical_closed : Closed (fun _ => True) State.memoryCanonical where
  core := by intro s t h ht; unfold CoreOnly at ht; unfold State.memoryCanonical; rw [ht]; exact h
  mem := fun a bs h => Memory.writeBytes_wf a bs h
  shorter := fun _ _ h _ => h
  longer := fun _ h _ => h
  victim := by intro s k v h; cases k <;> exact h
  dset := fun _ _ h _ => h
  iset := fun _ _ h _ _ => h
  imem := by intro s v h; unfold State.memoryCanonical; rw [writeImemControl_frame]; exact h
  dmem := fun _ _ _ h _ _ => h
  iprio := fun _ h => h
  stores := fun _ h _ => h
  push := fun _ _ h _ => h
  deep := fun h => h
  shallow := fun h _ => h
  good := fun _ _ _ => trivial

end Sys2Proof.Machine
end

