-- ==== Sys2Proof/Laws/Testset.lean ====
section
/-! SUPPORT. The checks of TESTSET on external RAM (R372). -/

namespace Sys2Proof.Machine

/-- External RAM lies below the flash's end (R101). -/
theorem region_externalRam {s : State} {a : Addr} (h : (s.region a).isExternalRam = true) : a.toNat < 0x20400000 := by
  by_contra hc
  unfold State.region at h
  dsimp only [State.externalRegion, State.dataBankRegion, State.instrRegion] at h
  (repeat' split at h) <;> first | omega | cases h

/-- External RAM is there, writable and not closed to cacheable pages. -/
theorem isExternalRam_facts {r : Region} (h : r.isExternalRam = true) :
    r.unpopulated = false ∧ r.readOnly = false ∧ r.neverCacheable = false := by
  cases r <;> first | exact ⟨rfl, rfl, rfl⟩ | cases h

/-- Steps 1 to 4 of R130 pass at an even address of external RAM. -/
theorem testset_minimal {s : State} {a : Addr} (b : Bool) (hr : (s.region a).isExternalRam = true)
    (he : a.toNat % 2 = 0) : s.minimalDataStop (testsetAccess a b) = none := by
  have := region_externalRam hr
  have h1 : (testsetAccess a b).misaligned = false := by
    have ha : (testsetAccess a b).addr.toNat < 0xFFE00000 := by show a.toNat < _; omega
    unfold Access.misaligned
    rw [alignment_below ha]
    simp [testsetAccess, Width.bytes, he]
  have h2 : inMmrSpace a = false := by simp [inMmrSpace]; omega
  have h3 : inInstrMemory a = false := by simp [inInstrMemory]; omega
  have h4 : s.region a ≠ .reservedData := by intro h; rw [h] at hr; cases hr
  unfold State.minimalDataStop
  rw [h1]; simp [testsetAccess, h2, h3, h4]

/-- The page check of TESTSET on external RAM with the DCPLBs enabled: the descriptor's permission decides. -/
theorem testset_page {s : State} {a : Addr} {b : Bool} {c : Cplb} (hr : (s.region a).isExternalRam = true)
    (he : a.toNat % 2 = 0) (hen : s.enDcplb = true) (hc : lookup s.dcplb a = .hit c) :
    s.checkData (testsetAccess a b) =
      if c.permits s.mode b then .ok c.cacheMode else .error ((testsetAccess a b).exc .dataProtViolation) := by
  obtain ⟨_, _, hn⟩ := isExternalRam_facts hr
  have e1 : (testsetAccess a b).addr = a := rfl
  have e2 : (testsetAccess a b).write = b := rfl
  unfold State.checkData
  rw [testset_minimal b hr he, hen]
  simp only [e1, hc, State.pageCheck, e2, hn]
  cases c.permits s.mode b <;> simp

end Sys2Proof.Machine
end

