-- ==== Sys2Proof/Laws/Lines.lean ====
section
/-! SUPPORT. The lines of the data cache: their addresses and cells, a set after an update, and what a fill and a write-back
do while nothing waits in the buffers. -/

namespace Sys2Proof.Machine

/-! ### Addresses and cells -/

/-- A bit of a field taken as a number. -/
theorem ofNat_fieldAt_bit (a : Word) (lo n k : Nat) (hk : k < n) :
    (BitVec.ofNat n (fieldAt a lo n)).getLsbD k = a.getLsbD (lo + k) := by
  have e : fieldAt a lo n = (a.extractLsb' lo n).toNat := by simp [fieldAt]
  rw [e, BitVec.ofNat_toNat, BitVec.setWidth_eq, BitVec.getLsbD_extractLsb']
  simp [hk]

/-- The address of a line, bit by bit. -/
theorem lineAddr_bit (a : Addr) (k : Nat) (hk : k < 32) :
    (lineAddr a).getLsbD k = (decide (5 ≤ k) && a.getLsbD k) := by
  have hb : ∀ i, i < 32 → (0xFFFFFFE0#32).getLsbD i = decide (5 ≤ i) := by decide
  show (a &&& 0xFFFFFFE0#32).getLsbD k = _
  rw [BitVec.getLsbD_and, hb k hk, Bool.and_comm]

/-- The address of a line is recovered from its place and tag, in whichever bank it lies (R211, D13). -/
theorem lineAddress_dtagOf {s : State} {a : Addr} {pl : DPlace} (h : s.dplace a = some pl) :
    pl.lineAddress (dtagOf a) = lineAddr a := by
  obtain ⟨-, hs, ht⟩ := dplace_bankIsCache h
  apply BitVec.eq_of_getLsbD_eq
  intro k hk
  rw [lineAddr_bit a k hk]
  unfold DPlace.lineAddress dtagOf
  rw [hs, ht]
  simp only [BitVec.getLsbD_append, BitVec.getLsbD_extractLsb']
  by_cases h5 : k < 5
  · simp [h5, show ¬ 5 ≤ k by omega]
  · by_cases h11 : k < 11
    · rw [ofNat_fieldAt_bit a 5 6 (k - 5) (by omega)]
      simp [h5, show 5 ≤ k by omega, show k - 5 < 6 by omega, show 5 + (k - 5) = k by omega]
    · by_cases h12 : k = 11
      · subst h12; simp
      · by_cases h14 : k < 14
        · rw [ofNat_fieldAt_bit a 12 2 (k - 5 - 6 - 1) (by omega)]
          simp [h5, show ¬ k - 5 < 6 by omega, show ¬ k - 5 - 6 < 1 by omega, show k - 5 - 6 - 1 < 2 by omega,
            show 5 ≤ k by omega, show 12 + (k - 5 - 6 - 1) = k by omega]
        · simp [h5, show ¬ k - 5 < 6 by omega, show ¬ k - 5 - 6 < 1 by omega, show ¬ k - 5 - 6 - 1 < 2 by omega,
            show k - 5 - 6 - 1 - 2 < 18 by omega, show 5 ≤ k by omega,
            show ¬ 1 + (k - 5 - 6 - 1 - 2) < 1 by omega, show 14 + (k - 5 - 6 - 1 - 2) = k by omega]

/-- The offset of an address in its line, as a number. -/
theorem lineOffset_toNat (a : Addr) : (lineOffset a).toNat = a.toNat % 32 := by
  show (a &&& 0x1F#32).toNat = _
  rw [BitVec.toNat_and]
  exact Nat.and_two_pow_sub_one_eq_mod a.toNat 5

/-- An address is its line's and its offset in the line. -/
theorem lineAddr_add_offset (a : Addr) : lineAddr a + lineOffset a = a := by
  apply BitVec.eq_of_toNat_eq
  rw [BitVec.toNat_add, lineAddr_toNat, lineOffset_toNat]
  have := a.isLt
  omega

/-- A part of a run, read back from a copy of the run. -/
theorem readBytes_copy {m : List Host.Cell} (h : Memory.wf m = true) (src dst off : Addr) (n len : Nat)
    (hl : off.toNat + n ≤ len) (hlen : len ≤ 2 ^ 32) :
    Memory.readBytes (Memory.writeBytes m dst (Memory.readBytes m src len)) (dst + off) n =
      Memory.readBytes m (src + off) n := by
  unfold Memory.readBytes
  apply List.map_congr_left
  intro k hk
  have hk := List.mem_range.1 hk
  rw [Memory.read_writeBytes _ _ _ h (by simpa using hlen)]
  have : (dst + off + BitVec.ofNat 32 k - dst).toNat = off.toNat + k := by
    have e : dst + off + BitVec.ofNat 32 k - dst = off + BitVec.ofNat 32 k := by ring
    rw [e, BitVec.toNat_add, BitVec.toNat_ofNat]
    omega
  rw [this, List.getElem?_map, List.getElem?_range (by omega)]
  simp only [Option.map_some, Option.getD_some]
  congr 1
  have : BitVec.ofNat 32 (off.toNat + k) = off + BitVec.ofNat 32 k := by
    rw [BitVec.ofNat_add]; congr 1; simp
  rw [this, add_assoc]

/-! ### Sets -/

/-- A set read after a set update. -/
theorem dset_setDset {s : State} (h : sparseWf DSet.empty s.dcache = true) (pl q : DPlace) (st : DSet) :
    (s.setDset pl st).dset q = if q.key = pl.key then st else s.dset q := by
  unfold State.dset State.setDset
  rw [sparseGet_sparseSet _ _ _ h]

/-- A set read after a set update. -/
theorem iset_setIset {s : State} (h : sparseWf ISet.empty s.icache = true) (pl q : IPlace) (st : ISet) :
    (s.setIset pl st).iset q = if q.key = pl.key then st else s.iset q := by
  unfold State.iset State.setIset
  rw [sparseGet_sparseSet _ _ _ h]

/-- A line read after a line update. -/
theorem setLine_line (st : DSet) (w v : Fin 2) (l : DLine) :
    (st.setLine w l).lines[v.val] = if v = w then l else st.lines[v.val] := by
  unfold DSet.setLine
  simp only [Vector.getElem_set]
  by_cases h : v = w
  · subst h; simp
  · rw [if_neg h, if_neg fun e => h (Fin.ext e.symm)]

/-- The way that hits holds the tag in a valid line. -/
theorem hitWay_holds {st : DSet} {t : BitVec 19} {w : Fin 2} (h : st.hitWay t = some w) :
    (st.lines[w.val]).valid = true ∧ (st.lines[w.val]).tag = t := by
  unfold DSet.hitWay at h
  split at h
  · next h0 => cases h; simpa [DSet.holds] using h0
  · split at h
    · next h1 => cases h; simpa [DSet.holds] using h1
    · cases h

/-- No way holds a tag that does not hit. -/
theorem hitWay_none {st : DSet} {t : BitVec 19} (h : st.hitWay t = none) (w : Fin 2) : st.holds t w = false := by
  unfold DSet.hitWay at h
  split at h
  · cases h
  · next h0 =>
    split at h
    · cases h
    · next h1 =>
      match w with
      | 0 => simpa using h0
      | 1 => simpa using h1

/-- A line filled into a set that did not hold its tag is the way that hits. -/
theorem hitWay_fill {st : DSet} {t : BitVec 19} (h : st.hitWay t = none) (w : Fin 2) (d : Bool) :
    ((st.setLine w ⟨t, true, d⟩).touchWay w).hitWay t = some w := by
  have h0 := hitWay_none h 0
  have h1 := hitWay_none h 1
  have hl : ∀ v : Fin 2, ((st.setLine w ⟨t, true, d⟩).touchWay w).holds t v =
      if v = w then true else st.holds t v := by
    intro v
    show ((st.setLine w ⟨t, true, d⟩).lines[v.val].valid && (st.setLine w ⟨t, true, d⟩).lines[v.val].tag == t) = _
    rw [setLine_line]
    by_cases e : v = w
    · simp [e]
    · rw [if_neg e, if_neg e]; rfl
  unfold DSet.hitWay
  rw [hl 0, hl 1]
  match w with
  | 0 => rfl
  | 1 => simp [h0]

/-! ### Fills and write-backs while nothing waits -/

/-- A dirty line leaves for its bank's copy-back buffer; memory keeps its bytes. -/
theorem enqueueVictim_quiet {s : State} (h : s.quiet) (k : Bank) (v : Victim) :
    s.enqueueVictim k v = s.setVictim k (some v) := by
  obtain ⟨-, hw, hA, hB⟩ := h
  unfold State.enqueueVictim
  rw [settleWrites_empty hw, settleVictims_none hA hB]
  congr 1
  unfold State.performVictim State.victim
  cases k
  · simp [hA]
  · simp [hB]

/-- A write-back leaves memory alone while nothing waits. -/
theorem writeBackLine_mem {s : State} (h : s.quiet) (pl : DPlace) (w : Fin 2) :
    (s.writeBackLine pl w).mem = s.mem := by
  simp only [State.writeBackLine]
  split
  · rw [enqueueVictim_quiet h]; cases pl.bank <;> rfl
  · rfl

/-- A fill changes no byte of memory but the cells of the way it fills, while nothing waits. -/
theorem allocateLine_read {s : State} (h : s.quiet) (hm : Memory.wf s.mem = true) (pl : DPlace) (w : Fin 2) (a b : Addr)
    (hb : 32 ≤ (b - pl.cells w).toNat) : Memory.read (s.allocateLine pl w a).mem b = Memory.read s.mem b := by
  have e : ((s.writeBackLine pl w).touch (lineAddr a)).mem = s.mem := by
    rw [touch_frame]; exact writeBackLine_mem h pl w
  unfold State.allocateLine
  dsimp only [State.setDset]
  rw [e]
  exact Memory.read_writeBytes_out hm _ _ _ (by simp) (by simpa using hb)

/-- The tag of a line's address is the line's tag (R211). -/
theorem dtagOf_lineAddress (pl : DPlace) (t : BitVec 19) : dtagOf (pl.lineAddress t) = t := by
  apply BitVec.eq_of_getLsbD_eq
  intro k hk
  unfold DPlace.lineAddress dtagOf
  simp only [BitVec.getLsbD_append, BitVec.getLsbD_extractLsb']
  by_cases h0 : k < 1
  · have : k = 0 := by omega
    subst this; simp
  · simp [h0, show ¬ 14 + (k - 1) < 5 by omega, show ¬ 14 + (k - 1) - 5 < 6 by omega,
      show ¬ 14 + (k - 1) - 5 - 6 < 1 by omega, show ¬ 14 + (k - 1) - 5 - 6 - 1 < 2 by omega,
      show k - 1 < 18 by omega, show 14 + (k - 1) - 5 - 6 - 1 - 2 < 18 by omega,
      show 1 + (14 + (k - 1) - 5 - 6 - 1 - 2) = k by omega]

/-- The addresses of a line share its tag (R211). -/
theorem dtagOf_lineAddr (a : Addr) : dtagOf (lineAddr a) = dtagOf a := by
  apply BitVec.eq_of_getLsbD_eq
  intro k hk
  unfold dtagOf
  simp only [BitVec.getLsbD_append, BitVec.getLsbD_extractLsb']
  by_cases h0 : k < 1
  · simp [h0, lineAddr_bit a (11 + k) (by omega), show 5 ≤ 11 + k by omega]
  · simp [h0, lineAddr_bit a (14 + (k - 1)) (by omega), show 5 ≤ 14 + (k - 1) by omega]

/-- A line's address is a multiple of 32. -/
theorem lineAddress_mod (pl : DPlace) (t : BitVec 19) : (pl.lineAddress t).toNat % 32 = 0 := by
  have h : ∀ (x : BitVec 27), (x ++ (0 : BitVec 5)).toNat % 32 = 0 := by
    intro x
    rw [BitVec.toNat_append]
    simp [Nat.shiftLeft_eq]
  exact h _

/-- A line of another tag holds no byte of the line of `a`. -/
theorem victim_other (pl : DPlace) (t : BitVec 19) (a : Addr) (data : List Byte) (hl : data.length ≤ 32)
    (ht : t ≠ dtagOf a) (k : Nat) (hk : k < 32) :
    (Victim.mk (pl.lineAddress t) data).byteAt (lineAddr a + BitVec.ofNat 32 k) = none := by
  have hne : (pl.lineAddress t).toNat ≠ (lineAddr a).toNat := by
    intro e
    apply ht
    rw [← dtagOf_lineAddr a, ← BitVec.eq_of_toNat_eq e, dtagOf_lineAddress]
  have h1 := lineAddress_mod pl t
  have h2 := lineAddr_toNat a
  have h3 := (pl.lineAddress t).isLt
  have h4 := a.isLt
  unfold Victim.byteAt
  apply List.getElem?_eq_none
  show data.length ≤ (lineAddr a + BitVec.ofNat 32 k - pl.lineAddress t).toNat
  rw [BitVec.toNat_sub, BitVec.toNat_add, BitVec.toNat_ofNat]
  omega

/-- A write-back while nothing waits: the line goes to its bank's copy-back buffer, and nothing else changes. -/
theorem writeBackLine_quiet {s : State} (h : s.quiet) (pl : DPlace) (w : Fin 2) :
    s.writeBackLine pl w = { s with victimA := s.copiedOut pl w .bankA, victimB := s.copiedOut pl w .bankB } := by
  obtain ⟨-, -, hA, hB⟩ := id h
  have hs : ∀ va vb, va = s.victimA → vb = s.victimB → s = { s with victimA := va, victimB := vb } := by
    rintro _ _ rfl rfl; rfl
  by_cases hd : ((s.dset pl).lines[w.val]).valid = true ∧ ((s.dset pl).lines[w.val]).dirty = true
  · have e : s.writeBackLine pl w = s.setVictim pl.bank (some
        ⟨pl.lineAddress ((s.dset pl).lines[w.val]).tag, Memory.readBytes s.mem (pl.cells w) 32⟩) := by
      simp only [State.writeBackLine, hd.1, hd.2, Bool.and_self, if_true]
      exact enqueueVictim_quiet h _ _
    have hc : ∀ k, s.copiedOut pl w k = if k = pl.bank then some
        ⟨pl.lineAddress ((s.dset pl).lines[w.val]).tag, Memory.readBytes s.mem (pl.cells w) 32⟩ else none := by
      intro k; simp only [State.copiedOut, hd.1, hd.2, and_true]
    rw [e, hc, hc]
    cases pl.bank
    · rw [if_pos rfl, if_neg (by decide), ← hB]; rfl
    · rw [if_pos rfl, if_neg (by decide), ← hA]; rfl
  · have hc : ∀ k, s.copiedOut pl w k = none := by
      intro k
      simp only [State.copiedOut]
      exact if_neg fun q => hd q.2
    have e : s.writeBackLine pl w = s := by
      simp only [State.writeBackLine]
      rw [if_neg (by simpa using hd)]
    rw [e, hc, hc]
    exact hs _ _ hA.symm hB.symm

/-- A fill of a line that is absent from populated memory, while nothing waits: the way's cells hold the line's 32 bytes, its
entry is valid, clean and last used, and what was in the way waits in the copy-back buffer if it was valid and dirty. -/
theorem allocateLine_quiet {s : State} (h : s.quiet) (pl : DPlace) (w : Fin 2) (a : Addr)
    (hr : (s.region a).unpopulated = false) (hn : (s.dset pl).hitWay (dtagOf a) = none) :
    s.allocateLine pl w a =
      { s with mem := Memory.writeBytes s.mem (pl.cells w) (Memory.readBytes s.mem (lineAddr a) 32),
               dcache := sparseSet DSet.empty s.dcache pl.key
                 (((s.dset pl).setLine w ⟨dtagOf a, true, false⟩).touchWay w),
               victimA := s.copiedOut pl w .bankA, victimB := s.copiedOut pl w .bankB } := by
  have hreg : ∀ k, k < 32 → (s.region (lineAddr a + BitVec.ofNat 32 k)).unpopulated = false := by
    intro k hk; rw [region_line s a k hk]; exact hr
  have hb := writeBackLine_quiet h pl w
  have hvic : ∀ (b : Bank) k, k < 32 → (s.copiedOut pl w b).bind (·.byteAt (lineAddr a + BitVec.ofNat 32 k)) = none := by
    intro b k hk
    simp only [State.copiedOut]
    split
    · next hc =>
      refine victim_other pl _ a _ (by simp) ?_ k hk
      intro e
      have := hitWay_none hn w
      simp [DSet.holds, hc.2.1, e] at this
    · rfl
  generalize hva : s.copiedOut pl w .bankA = va at hb ⊢
  generalize hvb : s.copiedOut pl w .bankB = vb at hb ⊢
  have hva' := hvic .bankA
  have hvb' := hvic .bankB
  rw [hva] at hva'
  rw [hvb] at hvb'
  have h2 : ({ s with victimA := va, victimB := vb } : State).touch (lineAddr a) =
      { s with victimA := va, victimB := vb } := by
    apply touch_of_populated
    have h0 := hreg 0 (by omega)
    rw [show lineAddr a + BitVec.ofNat 32 0 = lineAddr a by simp] at h0
    exact h0
  unfold State.allocateLine
  rw [hb, h2]
  have h3 : ((List.range 32).map fun k =>
      ({ s with victimA := va, victimB := vb } : State).behindByte (lineAddr a + BitVec.ofNat 32 k)) =
      Memory.readBytes s.mem (lineAddr a) 32 := by
    unfold Memory.readBytes
    apply List.map_congr_left
    intro k hk
    have hk := List.mem_range.1 hk
    have e1 : ({ s with victimA := va, victimB := vb } : State).victimByte (lineAddr a + BitVec.ofNat 32 k) = none := by
      simp only [State.victimByte, hva' k hk, hvb' k hk]
    have e2 : newestByte ({ s with victimA := va, victimB := vb } : State).writeBuf
        (lineAddr a + BitVec.ofNat 32 k) = none := by
      show newestByte s.writeBuf _ = none
      rw [h.2.1]; rfl
    simp only [State.behindByte, e1, e2]
    exact busByte_of_populated (hreg k hk)
  dsimp only
  rw [h3]
  generalize Memory.readBytes s.mem (lineAddr a) 32 = line
  rfl

/-- A read changes no byte of memory but the cells of the set of its address, while nothing waits. -/
theorem readValue_read {s : State} (h : s.quiet) (hm : Memory.wf s.mem = true) (a b : Addr) (n : Nat) (m : CacheMode)
    (hb : ∀ pl w, s.dplace a = some pl → 32 ≤ (b - pl.cells w).toNat) :
    Memory.read (s.readValue a n m).2.mem b = Memory.read s.mem b := by
  have ht : (s.touch a).mem = s.mem := by rw [touch_frame]
  unfold State.readValue
  split
  · rfl
  · show Memory.read (s.readUnder a n m).2.mem b = _
    unfold State.readUnder
    split
    · show Memory.read (s.touch a).mem b = _; rw [ht]
    · show Memory.read (s.touch a).mem b = _; rw [ht]
    · next pl _ hp =>
      show Memory.read (s.lineFor pl a).2.mem b = _
      unfold State.lineFor
      split
      · rfl
      · exact allocateLine_read h hm _ _ _ _ (hb _ _ hp)

/-- The set of a fill: the victim way holds the line, valid, clean and last used. -/
theorem allocateLine_dset {s : State} (h : sparseWf DSet.empty s.dcache = true) (pl : DPlace) (w : Fin 2) (a : Addr) :
    (s.allocateLine pl w a).dset pl = ((s.dset pl).setLine w ⟨dtagOf a, true, false⟩).touchWay w := by
  have e : ((s.writeBackLine pl w).touch (lineAddr a)).dcache = s.dcache := by
    have := (writeBackLine_busOnly s pl w).trans (touch_busOnly _ (lineAddr a))
    unfold BusOnly at this; rw [this]
  unfold State.allocateLine
  dsimp only
  rw [dset_setDset, if_pos rfl]
  dsimp only
  rw [e]; exact h

/-- A cached read that misses: what it returns and leaves. -/
theorem readUnder_miss {s : State} {a : Addr} {n : Nat} {m : CacheMode} {pl : DPlace} (hm : m ≠ .uncached)
    (hp : s.dplace a = some pl) (h : (s.dset pl).hitWay (dtagOf a) = none) :
    s.readUnder a n m =
      (Memory.readBytes (s.allocateLine pl (s.dset pl).victimWay a).mem (pl.cells (s.dset pl).victimWay + lineOffset a) n,
        s.allocateLine pl (s.dset pl).victimWay a) := by
  have hl : s.lineFor pl a = ((s.dset pl).victimWay, s.allocateLine pl (s.dset pl).victimWay a) := by
    unfold State.lineFor; rw [h]
  unfold State.readUnder
  rw [hp]
  cases m with
  | uncached => exact absurd rfl hm
  | writeThrough b => dsimp only; rw [hl]
  | writeBack => dsimp only; rw [hl]

/-- The bytes of a line's write-back reach memory when its copy-back buffer is performed. -/
theorem performVictim_some {s : State} {k : Bank} {v : Victim} (h : s.victim k = some v)
    (hp : (s.region v.line).unpopulated = false) (hr : (s.region v.line).readOnly = false) :
    s.performVictim k = { s.setVictim k none with mem := Memory.writeBytes s.mem v.line v.data } := by
  have hreg : (s.setVictim k none).region v.line = s.region v.line := by cases k <;> rfl
  have hmem : (s.setVictim k none).mem = s.mem := by cases k <;> rfl
  unfold State.performVictim
  rw [h]
  simp only [State.busWrite, hreg, hp, hr, hmem, Bool.false_eq_true, if_false]

/-- An empty copy-back buffer. -/
theorem performVictim_empty {s : State} {k : Bank} (h : s.victim k = none) : s.performVictim k = s := by
  unfold State.performVictim; rw [h]

/-- SSYNC with one line on its way out and nothing else waiting. -/
theorem drainAll_victim {s : State} {k : Bank} {v : Victim} (h1 : s.storeBuf = []) (h2 : s.writeBuf = [])
    (h : s.victim k = some v) (ho : ∀ j, j ≠ k → s.victim j = none)
    (hp : (s.region v.line).unpopulated = false) (hr : (s.region v.line).readOnly = false) :
    s.drainAll = { s.setVictim k none with mem := Memory.writeBytes s.mem v.line v.data } := by
  have e2 : s.flushWrites = s := performWrites_empty h2 _
  unfold State.drainAll
  rw [drainStores_empty h1, e2]
  cases k with
  | bankA =>
    rw [performVictim_some h hp hr]
    exact performVictim_empty (s := { s.setVictim .bankA none with mem := Memory.writeBytes s.mem v.line v.data })
      (ho .bankB (by decide))
  | bankB => rw [performVictim_empty (ho .bankA (by decide)), performVictim_some h hp hr]

/-- What a fill leaves in memory: the bytes from behind the caches, in the cells of the way. -/
theorem allocateLine_mem (s : State) (pl : DPlace) (w : Fin 2) (a : Addr) :
    (s.allocateLine pl w a).mem = Memory.writeBytes ((s.writeBackLine pl w).touch (lineAddr a)).mem (pl.cells w)
      ((List.range 32).map fun k => ((s.writeBackLine pl w).touch (lineAddr a)).behindByte (lineAddr a + BitVec.ofNat 32 k)) := by
  unfold State.allocateLine; dsimp only [State.setDset]

/-- The byte of a line that waits in a copy-back buffer. -/
theorem Victim.byteAt_line {c : Victim} {a : Addr} (hc : c.line = lineAddr a) (hl : c.data.length = 32) (k : Nat)
    (hk : k < 32) : c.byteAt (lineAddr a + BitVec.ofNat 32 k) = some (c.data[k]'(by omega)) := by
  have : (lineAddr a + BitVec.ofNat 32 k - lineAddr a).toNat = k := by
    rw [add_sub_cancel_left, BitVec.toNat_ofNat, Nat.mod_eq_of_lt (by omega)]
  unfold Victim.byteAt
  rw [hc, this]
  exact List.getElem?_eq_getElem _

/-- The copy-back buffer set, read back, and the other one. -/
theorem setVictim_victim (s : State) (k j : Bank) (v : Option Victim) :
    (s.setVictim k v).victim j = if j = k then v else s.victim j := by
  cases k <;> cases j <;> rfl

/-- A write-back of another line leaves the copy-back buffers alone. -/
theorem settleVictims_other {s : State} {line : Addr} (h : ∀ k c, s.victim k = some c → c.line ≠ line) :
    s.settleVictims line = s := by
  have h1 : ∀ k, s.settleVictim line k = s := by
    intro k
    unfold State.settleVictim
    rw [if_neg]
    cases hk : s.victim k with
    | none => simp
    | some c => simpa using h k c hk
  unfold State.settleVictims
  rw [h1, h1]

/-- A miss on a line that waits in a copy-back buffer finds its bytes, whatever line leaves the way for it: the buffer
still holds them, or has passed them to memory to make room (R146 item 2, log 10). -/
theorem writeBackLine_behind {s : State} {a : Addr} {pl : DPlace} {b : Bank} {c : Victim}
    (hm : Memory.wf s.mem = true) (hw : s.writeBuf = []) (hv : s.victim b = some c)
    (ho : ∀ j, j ≠ b → s.victim j = none) (hc : c.line = lineAddr a) (hl : c.data.length = 32)
    (hr : (s.region a).isExternalRam = true) (hn : (s.dset pl).hitWay (dtagOf a) = none) (w : Fin 2) :
    Memory.wf (s.writeBackLine pl w).mem = true ∧
    ∀ k (hk : k < 32), (s.writeBackLine pl w).behindByte (lineAddr a + BitVec.ofNat 32 k) = c.data[k]'(by omega) := by
  obtain ⟨hpop, hro, -⟩ := isExternalRam_facts hr
  have hreg : ∀ k, k < 32 → s.region (lineAddr a + BitVec.ofNat 32 k) = s.region a := region_line s a
  have hreg0 : s.region (lineAddr a) = s.region a := by simpa using hreg 0 (by omega)
  have held : ∀ (x : State) (k : Nat) (hk : k < 32), x.writeBuf = [] → x.victim b = some c →
      (∀ j, j ≠ b → (x.victim j).bind (·.byteAt (lineAddr a + BitVec.ofNat 32 k)) = none) →
      x.behindByte (lineAddr a + BitVec.ofNat 32 k) = c.data[k]'(by omega) := by
    intro x k hk h1 h2 h3
    simp only [State.behindByte, h1, newestByte, victimByte_of h2 (Victim.byteAt_line hc hl k hk) h3]
  unfold State.writeBackLine
  dsimp only
  split
  case isFalse =>
    exact ⟨hm, fun k hk => held s k hk hw hv fun j hj => by rw [ho j hj]; rfl⟩
  case isTrue hd =>
    simp only [Bool.and_eq_true] at hd
    have ht : ((s.dset pl).lines[w.val]).tag ≠ dtagOf a := by
      intro e
      have := hitWay_none hn w
      simp [DSet.holds, hd.1, e] at this
    generalize hvd : (⟨pl.lineAddress ((s.dset pl).lines[w.val]).tag, Memory.readBytes s.mem (pl.cells w) 32⟩ : Victim) = v
    have hvn : ∀ k, k < 32 → v.byteAt (lineAddr a + BitVec.ofNat 32 k) = none := by
      rw [← hvd]; exact victim_other pl _ a _ (by simp) ht
    have hne : lineAddr a ≠ v.line := by
      intro e
      have := congrArg dtagOf e
      rw [dtagOf_lineAddr, ← hvd, dtagOf_lineAddress] at this
      exact ht this.symm
    have hse : s.settleVictims v.line = s := by
      apply settleVictims_other
      intro k d hk
      by_cases e : k = b
      · rw [e, hv] at hk
        rw [← Option.some.inj hk, hc]; exact hne
      · rw [ho k e] at hk; cases hk
    unfold State.enqueueVictim
    rw [settleWrites_empty hw, hse]
    by_cases hb : pl.bank = b
    · rw [hb, performVictim_some hv (by rw [hc, hreg0]; exact hpop) (by rw [hc, hreg0]; exact hro)]
      have hmem : ∀ x y, ({ s.setVictim b x with mem := Memory.writeBytes s.mem c.line c.data }.setVictim b y).mem =
          Memory.writeBytes s.mem c.line c.data := by intro x y; cases b <;> rfl
      rw [hmem]
      refine ⟨Memory.writeBytes_wf _ _ hm, fun k hk => ?_⟩
      have passed : ∀ x : State, x.writeBuf = [] → x.victimByte (lineAddr a + BitVec.ofNat 32 k) = none →
          x.region (lineAddr a + BitVec.ofNat 32 k) = s.region (lineAddr a + BitVec.ofNat 32 k) →
          x.mem = Memory.writeBytes s.mem c.line c.data →
          x.behindByte (lineAddr a + BitVec.ofNat 32 k) = c.data[k]'(by omega) := by
        intro x h1 h2 h3 h4
        have : (lineAddr a + BitVec.ofNat 32 k - lineAddr a).toNat = k := by
          rw [add_sub_cancel_left, BitVec.toNat_ofNat, Nat.mod_eq_of_lt (by omega)]
        simp only [State.behindByte, h1, newestByte, h2]
        unfold State.busByte
        rw [h3, hreg k hk, hpop, h4, hc, Memory.read_writeBytes _ _ _ hm (by omega), this]
        simp [List.getElem?_eq_getElem (show k < c.data.length by omega)]
      apply passed
      · rw [← hw]; cases b <;> rfl
      · unfold State.victimByte
        cases b with
        | bankA => simp [State.setVictim, show s.victimB = none from ho .bankB (by decide), hvn k hk]
        | bankB => simp [State.setVictim, show s.victimA = none from ho .bankA (by decide), hvn k hk]
      · cases b <;> rfl
      · exact hmem _ _
    · rw [performVictim_empty (ho _ hb)]
      refine ⟨by cases pl.bank <;> exact hm, fun k hk => held _ k hk ?_ ?_ fun j hj => ?_⟩
      · rw [← hw]; cases pl.bank <;> rfl
      · rw [setVictim_victim, if_neg (Ne.symm hb)]; exact hv
      · rw [setVictim_victim]
        split
        · exact hvn k hk
        · rw [ho j hj]; rfl

end Sys2Proof.Machine
end

