-- ==== Sys2Proof/Laws/Operands.lean ====
section
/-! SUPPORT. The halves of a pointer register (R398), as concatenations. -/

namespace Sys2Proof.Machine

/-- `Pp.L = imm16`: the high half kept, the low half replaced. -/
theorem withLowHalf_eq (v : Word) (i : Half) : withLowHalf v i = v.extractLsb' 16 16 ++ i := by
  have hb : ∀ k, k < 32 → (0xFFFF0000#32).getLsbD k = decide (16 ≤ k) := by decide
  apply BitVec.eq_of_getLsbD_eq
  intro k hk
  show ((v &&& 0xFFFF0000#32) ||| i.setWidth 32).getLsbD k = _
  rw [BitVec.getLsbD_or, BitVec.getLsbD_and, hb k hk, BitVec.getLsbD_append]
  by_cases h : k < 16
  · simp [h, hk, show ¬ 16 ≤ k by omega]
  · simp [h, show 16 ≤ k by omega, show 16 + (k - 16) = k by omega, show k - 16 < 16 by omega]

/-- `Pp.H = imm16`: the low half kept, the high half replaced. -/
theorem withHighHalf_eq (v : Word) (i : Half) : withHighHalf v i = i ++ v.extractLsb' 0 16 := by
  have hb : ∀ k, k < 32 → (0x0000FFFF#32).getLsbD k = decide (k < 16) := by decide
  apply BitVec.eq_of_getLsbD_eq
  intro k hk
  show ((v &&& 0x0000FFFF#32) ||| i.setWidth 32 <<< 16).getLsbD k = _
  rw [BitVec.getLsbD_or, BitVec.getLsbD_and, hb k hk, BitVec.getLsbD_append]
  by_cases h : k < 16
  · simp [h]
  · simp [h, hk]

end Sys2Proof.Machine
end

