-- ==== Sys2Proof/Laws/TestAccess.lean ====
section
/-! SUPPORT. The fields of the test commands and the tag views (R32, R33, R42, R43). -/

namespace Sys2Proof.Machine

/-- Clearing or setting bit 1 leaves every other bit. -/
theorem bitAt_xor_two (c : Word) (k : Nat) (h : k ≠ 1) : bitAt (c ^^^ 2) k = bitAt c k := by
  unfold bitAt; rw [BitVec.getLsbD_xor]
  have : (2 : Word).getLsbD k = false := by
    by_cases hk : k < 32
    · revert h; revert hk; revert k; decide
    · simp; apply BitVec.getLsbD_of_ge; omega
  rw [this]; simp

/-- The read or write bit of a test command flipped. -/
theorem bitAt_xor_two_one (c : Word) : bitAt (c ^^^ 2) 1 = !bitAt c 1 := by
  unfold bitAt; rw [BitVec.getLsbD_xor]; simp

/-- The fields of a test command above its low bits. -/
theorem fieldAt_xor_two (c : Word) (lo n : Nat) (h : 2 ≤ lo) : fieldAt (c ^^^ 2) lo n = fieldAt c lo n := by
  have e : ∀ z : Word, fieldAt z lo n = (z.extractLsb' lo n).toNat := by intro z; simp [fieldAt]
  rw [e, e]; congr 1
  apply BitVec.eq_of_getLsbD_eq; intro i hi
  have := bitAt_xor_two c (lo + i) (by omega)
  unfold bitAt at this
  simp only [BitVec.getLsbD_extractLsb', this]

/-- The tag view of an instruction cache line, bit by bit (R33). -/
theorem ILine.view_bit (l : ILine) (i : Nat) (hi : i < 32) : l.view.getLsbD i =
    ((decide (14 ≤ i) && l.tag.getLsbD (2 + (i - 14))) || (decide (10 ≤ i) && decide (i < 12) && l.tag.getLsbD (i - 10)) ||
      (l.lruPrio && decide (i = 1)) || (l.valid && decide (i = 0))) := by
  unfold ILine.view
  simp only [BitVec.getLsbD_or, BitVec.getLsbD_shiftLeft, BitVec.getLsbD_setWidth, BitVec.getLsbD_extractLsb',
    flagBit_bit _ 1 _ (by omega), flagBit_bit _ 0 _ (by omega)]
  interval_cases i <;> simp

/-- The tag view of a data cache line, bit by bit (R43). -/
theorem dlineView_bit (l : DLine) (r : Bool) (i : Nat) (hi : i < 32) : (dlineView l r).getLsbD i =
    ((decide (14 ≤ i) && l.tag.getLsbD (1 + (i - 14))) || (decide (i = 11) && l.tag.getLsbD 0) ||
      (r && decide (i = 2)) || (l.dirty && decide (i = 1)) || (l.valid && decide (i = 0))) := by
  unfold dlineView
  simp only [BitVec.getLsbD_or, BitVec.getLsbD_shiftLeft, BitVec.getLsbD_setWidth, BitVec.getLsbD_extractLsb',
    flagBit_bit _ 2 _ (by omega), flagBit_bit _ 1 _ (by omega), flagBit_bit _ 0 _ (by omega)]
  interval_cases i <;> simp

/-- The tag view of the line that a tag view describes: the fields of R33 alone. -/
theorem view_ilineOfView (v : Word) : (ilineOfView v).view = v &&& 0xFFFFCC03 := by
  apply BitVec.eq_of_getLsbD_eq; intro i hi
  rw [ILine.view_bit _ _ hi]
  unfold ilineOfView bitAt
  simp only [BitVec.getLsbD_and, BitVec.getLsbD_append, BitVec.getLsbD_extractLsb']
  interval_cases i <;> simp

/-- The tag view of the line that a tag view describes: the fields of R43 alone. -/
theorem dlineView_dlineOfView (v : Word) : dlineView (dlineOfView v) (bitAt v 2) = v &&& 0xFFFFC807 := by
  apply BitVec.eq_of_getLsbD_eq; intro i hi
  rw [dlineView_bit _ _ _ hi]
  unfold dlineOfView bitAt
  simp only [BitVec.getLsbD_and, BitVec.getLsbD_append, BitVec.getLsbD_extractLsb']
  interval_cases i <;> simp

/-- The fields of the tag view of an instruction cache line (R33). -/
theorem ILine.view_fields (l : ILine) : l.view.extractLsb' 14 18 ++ l.view.extractLsb' 10 2 = l.tag ∧
    bitAt l.view 0 = l.valid ∧ bitAt l.view 1 = l.lruPrio := by
  unfold bitAt
  refine ⟨?_, ?_, ?_⟩
  · apply BitVec.eq_of_getLsbD_eq; intro i hi
    simp only [BitVec.getLsbD_append, BitVec.getLsbD_extractLsb']
    rw [view_bit _ _ (by omega), view_bit l (14 + (i - 2)) (by omega)]
    interval_cases i <;> simp
  all_goals (rw [view_bit _ _ (by omega)]; simp)

/-- The fields of the tag view of a data cache line and its set's LRU bit (R43). -/
theorem dlineView_fields (l : DLine) (r : Bool) :
    (dlineView l r).extractLsb' 14 18 ++ (dlineView l r).extractLsb' 11 1 = l.tag ∧
    bitAt (dlineView l r) 0 = l.valid ∧ bitAt (dlineView l r) 1 = l.dirty ∧ bitAt (dlineView l r) 2 = r := by
  unfold bitAt
  refine ⟨?_, ?_, ?_, ?_⟩
  · apply BitVec.eq_of_getLsbD_eq; intro i hi
    simp only [BitVec.getLsbD_append, BitVec.getLsbD_extractLsb']
    rw [dlineView_bit _ _ _ (by omega), dlineView_bit l r (14 + (i - 1)) (by omega)]
    interval_cases i <;> simp
  all_goals (rw [dlineView_bit _ _ _ (by omega)]; simp)

/-- A field bit of a command that its register keeps. -/
theorem bitAt_and (c m : Word) (k : Nat) (hm : m.getLsbD k = true) : bitAt (c &&& m) k = bitAt c k := by
  unfold bitAt; rw [BitVec.getLsbD_and, hm, Bool.and_true]

/-- A field of a command that its register keeps. -/
theorem fieldAt_and (c m : Word) (lo n : Nat) (hm : ∀ i, i < n → m.getLsbD (lo + i) = true) :
    fieldAt (c &&& m) lo n = (c.extractLsb' lo n).toNat := by
  have e : fieldAt (c &&& m) lo n = ((c &&& m).extractLsb' lo n).toNat := by simp [fieldAt]
  rw [e]; congr 1
  apply BitVec.eq_of_getLsbD_eq; intro i hi
  simp only [BitVec.getLsbD_extractLsb', BitVec.getLsbD_and, hm i hi, Bool.and_true]

/-- The two words of a test datum read. -/
theorem readBytes_eight (m : List Host.Cell) (a : Addr) :
    lowWord (Memory.readBytes m a 8) = wordOf (Memory.readBytes m a 4) ∧
    highWord (Memory.readBytes m a 8) = wordOf (Memory.readBytes m (a + 4) 4) := by
  constructor
  · rfl
  · unfold highWord; congr 1
    simp only [Memory.readBytes, List.range, List.range.loop, List.map_cons, List.map_nil, List.drop, List.take,
      List.cons.injEq, and_true]
    refine ⟨?_, ?_, ?_, ?_⟩ <;> (congr 1; rw [show (4 : Addr) = BitVec.ofNat 32 4 from rfl, addr_add])

/-- A test datum written, read back; every other byte as before. -/
theorem writeBytes_eight {m : List Host.Cell} (hm : Memory.wf m = true) (a : Addr) (x y : Word) :
    Memory.readBytes (Memory.writeBytes m a (testBytes x y)) a 8 = bytesOf x 4 ++ bytesOf y 4 ∧
    ∀ b : Addr, 8 ≤ (b - a).toNat → Memory.read (Memory.writeBytes m a (testBytes x y)) b = Memory.read m b := by
  have hl : (testBytes x y).length = 8 := rfl
  have hr := Memory.readBytes_writeBytes hm a (testBytes x y) (by rw [hl]; omega)
  rw [hl] at hr
  exact ⟨hr, fun b hb => Memory.read_writeBytes_out hm a b _ (by rw [hl]; omega) (by rw [hl]; exact hb)⟩

end Sys2Proof.Machine
end

