-- ==== Sys2Proof/Tests/Slice0.lean ====
section
/-! SUPPORT. Tests: the well-formedness checks, words written out from the encodings of 30_encoding.md, the vectors of
95_test_vectors.md one step at a time, and for every statement with hypotheses a state and operands that meet them. -/

namespace Sys2Proof.Tests

open Sys2Proof Sys2Proof.Machine
open Host (Outcome)

/-! ### Well-formedness: a term that each check refuses, and the ends of each range (R313, R314) -/

theorem test_shortOffset_unaligned : (Instr.loadShort .r0 .p0 2).wf = false := by decide
theorem test_shortOffset_large : (Instr.storeShort .p0 64 .r0).wf = false := by decide
theorem test_shortOffset_ends : (Instr.loadShort .r1 .p0 60).wf = true ∧ (Instr.storeShort .p0 0 .r0).wf = true := by
  decide
theorem test_longOffset_unaligned : (Instr.loadLong .r0 .p0 (-2)).wf = false := by decide
theorem test_longOffset_low : (Instr.storeLong .p0 (-131076) .r0).wf = false := by decide
theorem test_longOffset_high : (Instr.loadLong .r0 .p0 131072).wf = false := by decide
theorem test_longOffset_ends :
    (Instr.loadLong .r0 .p0 (-131072)).wf = true ∧ (Instr.storeLong .p0 131068 .r0).wf = true := by decide
theorem test_bitNumber : (Instr.bitset .r0 32).wf = false ∧ (Instr.bitset .r0 31).wf = true := by decide
theorem test_jumpOffset_low : (Instr.jumpCC (-513)).wf = false ∧ (Instr.jumpCC (-512)).wf = true := by decide
theorem test_jumpOffset_high : (Instr.jumpNotCC 512).wf = false ∧ (Instr.jumpNotCC 511).wf = true := by decide

/-! ### Decoding: words from the table of 95_test_vectors.md section 2.2 and from R313, every constructor -/

theorem test_decode_plain :
    decodeTableWord 16 0x0000 = some .nop ∧ decodeTableWord 16 0x0023 = some .csync ∧
    decodeTableWord 16 0x0024 = some .ssync ∧ decodeTableWord 16 0x0030 = some (.cli .r0) ∧
    decodeTableWord 16 0x0037 = some (.cli .r7) ∧ decodeTableWord 16 0x0047 = some (.sti .r7) ∧
    decodeTableWord 16 0x00B5 = some (.testset .p5) := by decide

theorem test_decode_cache :
    decodeTableWord 16 0x0240 = some (.prefetch .p0) ∧ decodeTableWord 16 0x0248 = some (.flushinv .p0) ∧
    decodeTableWord 16 0x0250 = some (.flush .p0) ∧ decodeTableWord 16 0x025A = some (.iflush .p2) ∧
    decodeTableWord 16 0x0266 = some (.prefetchInc .sp) ∧ decodeTableWord 16 0x026F = some (.flushinvInc .fp) ∧
    decodeTableWord 16 0x0271 = some (.flushInc .p1) ∧ decodeTableWord 16 0x027C = some (.iflushInc .p4) := by decide

theorem test_decode_memory :
    decodeTableWord 16 0x9110 = some (.load .r0 .p2) ∧ decodeTableWord 16 0x9301 = some (.store .p0 .r1) ∧
    decodeTableWord 16 0xA3C1 = some (.loadShort .r1 .p0 60) ∧ decodeTableWord 16 0xB041 = some (.storeShort .p0 4 .r1) ∧
    decodeTableWord 32 0xE4010040 = some (.loadLong .r1 .p0 0x100) ∧
    decodeTableWord 32 0xE401FFFF = some (.loadLong .r1 .p0 (-4)) ∧
    decodeTableWord 32 0xE6010040 = some (.storeLong .p0 0x100 .r1) := by decide

theorem test_decode_rest :
    decodeTableWord 16 0x4AA1 = some (.bitset .r1 20) ∧ decodeTableWord 16 0x1803 = some (.jumpCC 3) ∧
    decodeTableWord 16 0x1BFE = some (.jumpCC (-2)) ∧ decodeTableWord 16 0x13FF = some (.jumpNotCC (-1)) ∧
    decodeTableWord 32 0xE1083000 = some (.pLow .p0 0x3000) ∧
    decodeTableWord 32 0xE148FFE0 = some (.pHigh .p0 0xFFE0) ∧
    decodeTableWord 32 0xC412C000 = some .disalgnexcpt := by decide

/-- R315 and section 2.2: not decoded. -/
theorem test_decode_refused :
    decodeTableWord 16 0x0001 = none ∧ decodeTableWord 16 0x0025 = none ∧ decodeTableWord 16 0x00B8 = none ∧
    decodeTableWord 32 0xFFFFFFFF = none ∧ decodeTableWord 32 0xCC12C000 = none := by decide

/-- Section 2.1: the bytes of `P0.H = 0xFFE0` in memory. -/
theorem test_encode_bytes : encodeBytes (.pHigh .p0 0xFFE0) = [0x48, 0xE1, 0xE0, 0xFF] := by decide

/-! ### One step at a time -/

/-- A check on a next state. -/
def Gives (o : Outcome State Fault Refusal) (check : State → Bool) : Bool :=
  match o with
  | .next t => check t
  | .fault _ => false
  | .refused _ => false

/-- A refusal. -/
def Refuses (o : Outcome State Fault Refusal) (r : Refusal) : Bool :=
  match o with
  | .refused q => decide (q = r)
  | .next _ => false
  | .fault _ => false

/-- The base state of sections 2.14 and 3: Supervisor, pc 0x1000, P0 as given. -/
def at0 (a : Addr) : State := { State.reset with pc := 0x1000, p := { State.reset.p with p0 := a } }

/-- The same in User mode. -/
def userAt (a : Addr) : State := { at0 a with mode := .user }

/-- Memory with a run of bytes. -/
def withBytes (s : State) (a : Addr) (bs : List Byte) : State := { s with mem := Memory.writeBytes s.mem a bs }

/-- The state of program 3: both data banks cache, one 4 MB page at 0 with the given descriptor. -/
def cachedAt (data : Word) (a : Addr) : State :=
  { at0 a with dmemControl := 0x100F, dcplb := State.reset.dcplb.set 0 ⟨0, data⟩ }

/-- A write-back page, all permissions, dirty (program 3's 0x0003 109D). -/
def writeBack (a : Addr) : State := cachedAt 0x3109D a

/-- The instruction cache enabled, one cacheable ICPLB page of 4 MB at 0. -/
def icacheAt (a : Addr) : State :=
  { at0 a with imemControl := 7, icplb := State.reset.icplb.set 0 ⟨0, 0x31005⟩ }

/-- The set of 0x0000 2004 (section 2.5). -/
def place2004 : DPlace := ⟨.bankB, 2, 0⟩

/-- Program 3's cache with the line of 0x2004 dirty in Way0. -/
def dirtyLine : State :=
  let s := writeBack 0x2004
  { withBytes s (place2004.cells 0 + 4) [0xDD, 0xCC, 0xBB, 0xAA] with
    dcache := sparseSet DSet.empty [] place2004.key (DSet.empty.setLine 0 ⟨0, true, true⟩) }

/-- Interrupt `k` pending and enabled, its vector 0x4000. -/
def irqAt (k : Fin 16) : State :=
  { at0 0 with irqPending := State.reset.irqPending.set k.val true, imask := 0xFFFF,
               vectors := State.reset.vectors.set k.val 0x4000 }

/-- Section 2.13. -/
theorem test_nop : Gives (exec .nop (at0 0)) (fun t => t.pc == 0x1002) = true := by decide
theorem test_cli :
    Gives (exec (.cli .r0) { at0 0 with imask := 0x801F }) (fun t => t.r.r0 == 0x801F && t.imask == 0) = true := by decide
theorem test_cli_user :
    Gives (exec (.cli .r0) { userAt 0 with imask := 0x801F, evt3 := 0x3000 })
      (fun t => t.r.r0 == 0 && t.imask == 0x801F && t.retx == 0x1000 && t.pc == 0x3000) = true := by decide
theorem test_sti :
    Gives (exec (.sti .r0) { at0 0 with r := { State.reset.r with r0 := 0x801F } }) (fun t => t.imask == 0x801F) = true := by
  decide
theorem test_disalgnexcpt : Gives (exec .disalgnexcpt (at0 0)) (fun t => t.pc == 0x1004 && !t.alignExcOff) = true := by
  decide

/-- Section 2.14. -/
theorem test_load :
    Gives (exec (.load .r1 .p0) (withBytes (at0 0x2000) 0x2000 [0x44, 0x33, 0x22, 0x11]))
      (fun t => t.r.r1 == 0x11223344 && t.pc == 0x1002) = true := by decide
theorem test_load_misaligned :
    Gives (exec (.load .r1 .p0) (at0 0x2002))
      (fun t => t.excause == 0x24 && t.retx == 0x1000 && t.dcplbFaultAddr == 0x2002 && t.r.r1 == 0) = true := by decide
theorem test_loadShort :
    Gives (exec (.loadShort .r1 .p0 4) (withBytes (at0 0x2000) 0x2004 [0x88, 0x77, 0x66, 0x55]))
      (fun t => t.r.r1 == 0x55667788 && t.p.p0 == 0x2000) = true := by decide
theorem test_loadLong :
    Gives (exec (.loadLong .r1 .p0 0x100) (withBytes (at0 0x2000) 0x2100 [1]))
      (fun t => t.r.r1 == 1 && t.pc == 0x1004) = true := by decide
theorem test_loadLong_wraps :
    Gives (exec (.loadLong .r1 .p0 (-4)) (userAt 0))
      (fun t => t.excause == 0x23 && t.dcplbFaultAddr == 0xFFFFFFFC) = true := by decide
theorem test_store :
    Gives (exec (.store .p0 .r1) { at0 0x2000 with r := { State.reset.r with r1 := 0xAABBCCDD } })
      (fun t => Memory.readBytes t.drainAll.mem 0x2000 4 == [0xDD, 0xCC, 0xBB, 0xAA] && t.mem == []) = true := by decide
theorem test_storeShort :
    Gives (exec (.storeShort .p0 4 .r1) { at0 0x2000 with r := { State.reset.r with r1 := 7 } })
      (fun t => t.storeBuf == [⟨⟨0x2004, .word, 7⟩, .uncached⟩]) = true := by decide
theorem test_storeLong :
    Gives (exec (.storeLong .p0 (-4) .r1) { at0 0x2000 with r := { State.reset.r with r1 := 7 } })
      (fun t => t.storeBuf == [⟨⟨0x1FFC, .word, 7⟩, .uncached⟩] && t.pc == 0x1004) = true := by decide
theorem test_bitset_31 :
    Gives (exec (.bitset .r1 31) { at0 0 with r := { State.reset.r with r1 := 1 } })
      (fun t => t.r.r1 == 0x80000001 && !t.cc) = true := by decide
theorem test_jumpCC :
    Gives (exec (.jumpCC 3) { at0 0 with cc := true }) (fun t => t.pc == 0x1006) = true ∧
    Gives (exec (.jumpCC 3) (at0 0)) (fun t => t.pc == 0x1002) = true := by decide
theorem test_jumpNotCC : Gives (exec (.jumpNotCC (-1)) (at0 0)) (fun t => t.pc == 0x0FFE) = true := by decide
theorem test_pLow : Gives (exec (.pLow .p0 0x3000) (at0 0xFFE01234)) (fun t => t.p.p0 == 0xFFE03000) = true := by decide
theorem test_pHigh : Gives (exec (.pHigh .p0 0xFFE0) (at0 0x3000)) (fun t => t.p.p0 == 0xFFE03000) = true := by decide

/-- Section 2.11: the store buffer, CSYNC, SSYNC. -/
theorem test_csync :
    Gives (exec .csync ((at0 0).pushStore ⟨0x20000000, .word, 1⟩ .uncached))
      (fun t => t.storeBuf == [] && t.writeBuf == [⟨0x20000000, .word, 1⟩]) = true := by decide
theorem test_ssync :
    Gives (exec .ssync ((at0 0).pushStore ⟨0x20000000, .word, 1⟩ .uncached))
      (fun t => t.writeBuf == [] && Memory.read t.mem 0x20000000 == 1) = true := by decide

/-- Section 2.12. -/
theorem test_testset_free :
    Gives (exec (.testset .p0) (withBytes (at0 0x3000) 0x3000 [0x00, 0x55]))
      (fun t => t.cc && Memory.readBytes t.mem 0x3000 2 == [0x80, 0x55]) = true := by decide
theorem test_testset_taken :
    Gives (exec (.testset .p0) (withBytes (at0 0x3000) 0x3000 [0x7F, 0x00]))
      (fun t => !t.cc && Memory.readBytes t.mem 0x3000 2 == [0xFF, 0x00]) = true := by decide

/-- R140, R412: TESTSET half-way into a core MMR is misaligned. -/
theorem test_testset_mmr_alignment :
    Gives (exec (.testset .p0) (at0 0xFFE00006)) (fun t => t.excause == 0x24 && t.dcplbFaultAddr == 0xFFE00006) = true := by
  decide

/-- R377, R441: a request made while IMASK holds it back stays pending, and STI's restored mask lets it in. -/
theorem test_sti_takes_pending :
    Gives (exec (.sti .r0) { (at0 0).request 15 with r := { State.reset.r with r0 := 0x8000 } })
      (fun t => t.imask == 0x8000 && t.isrs.length == 1 && t.irqPending[15] == false) = true := by decide

/-- R273: with its group enabled, a page descriptor's new word is there for the next lookup, and a store to it that still
waited does not come after it. -/
theorem test_descriptor_immediate :
    Gives (exec (.store .p0 .r0) { (writeBack 0xFFE00200).pushStore ⟨0xFFE00200, .word, 1⟩ .coreMmr with
        r := { State.reset.r with r0 := 0x3109D } })
      (fun t => t.storeBuf == [] && (t.dcplb[0]).data == 0x3109D) = true := by decide

/-- Program 1: with its group disabled the store is buffered, and CSYNC drains it. -/
theorem test_descriptor_buffered :
    Gives (exec (.storeLong .p0 0x100 .r1) { at0 0xFFE00000 with r := { State.reset.r with r1 := 0x100000 } })
      (fun t => t.storeBuf == [⟨⟨0xFFE00100, .word, 0x100000⟩, .coreMmr⟩] && (t.dcplb[0]).addr == 0 &&
        Gives (exec .csync t) fun u => u.storeBuf == [] && (u.dcplb[0]).addr == 0x100000) = true := by decide

/-- Section 2.10: the cache control instructions. -/
theorem test_flush :
    Gives (exec (.flush .p0) dirtyLine)
      (fun t => (t.dset place2004).lines[0] == ⟨0, true, false⟩ &&
        Memory.readBytes t.drainAll.mem 0x2004 4 == [0xDD, 0xCC, 0xBB, 0xAA]) = true := by decide
theorem test_flushInc : Gives (exec (.flushInc .p0) dirtyLine) (fun t => t.p.p0 == 0x2024) = true := by decide
theorem test_flushinv :
    Gives (exec (.flushinv .p0) dirtyLine)
      (fun t => !((t.dset place2004).lines[0]).valid &&
        Memory.readBytes t.drainAll.mem 0x2004 4 == [0xDD, 0xCC, 0xBB, 0xAA]) = true := by decide
theorem test_flushinvInc :
    Gives (exec (.flushinvInc .p0) dirtyLine)
      (fun t => t.p.p0 == 0x2024 && !((t.dset place2004).lines[0]).valid) = true := by decide
theorem test_prefetch :
    Gives (exec (.prefetch .p0) (withBytes (writeBack 0x2004) 0x2000 [1, 2]))
      (fun t => (t.dset place2004).lines[0] == ⟨0, true, false⟩ && Memory.readBytes t.mem (place2004.cells 0) 2 == [1, 2])
      = true := by decide
theorem test_prefetchInc_nop :
    Gives (exec (.prefetchInc .p0) (at0 0xFFA00000)) (fun t => t.p.p0 == 0xFFA00020 && t.pc == 0x1002) = true := by decide
theorem test_iflush :
    Gives (exec (.iflush .p0) { icacheAt 0x12347E with
        icache := [(99, { ISet.empty with lines := ISet.empty.lines.set 2 ⟨0x121, true, false⟩ })], imemControl := 0x27 })
      (fun t => (t.iset ⟨3, 3⟩).hitWay 0x121 == none) = true := by decide
theorem test_iflushInc :
    Gives (exec (.iflushInc .p0) (icacheAt 0x123480)) (fun t => t.p.p0 == 0x1234A0 && t.icache == []) = true := by decide

/-- Section 2.15: an MMR access from User mode. -/
theorem test_exception_entry :
    Gives (exec (.load .r0 .p0) { userAt 0xFFE00004 with evt3 := 0x3000 })
      (fun t => t.dcplbFaultAddr == 0xFFE00004 && t.dcplbStatus == 0 && t.excause == 0x23 && t.retx == 0x1000 &&
        t.pc == 0x3000 && decide (t.mode = .supervisor ∧ t.returnFromException.mode = .user)) = true := by decide

/-- Program 3's variant: a store to a clean write-back page; DCPLB_STATUS 0x0003 0001. -/
theorem test_dirty_protection :
    Gives (exec (.store .p0 .r1) (cachedAt 0x3101D 0x2004))
      (fun t => t.dcplbStatus == 0x30001 && t.dcplbFaultAddr == 0x2004 && t.excause == 0x23) = true := by decide

/-- Section 2.7: the page match. -/
theorem test_cplb_match :
    (⟨0x100000, 0x20001⟩ : Cplb).covers 0x1FFFFF = true ∧ (⟨0x100000, 0x20001⟩ : Cplb).covers 0x200000 = false ∧
    (⟨0xFF800400, 1⟩ : Cplb).covers 0xFF8007FF = true ∧ (⟨0x100400, 0x20001⟩ : Cplb).covers 0x100000 = true := by decide

/-- Section 2.5: the places and tag views of 0x0012 3464 and 0x007F FFFF. -/
theorem test_data_place :
    (writeBack 0).dplace 0x123464 = some ⟨.bankB, 3, 35⟩ ∧ (writeBack 0).dplace 0x7FFFFF = some ⟨.bankA, 3, 63⟩ ∧
    dlineView ⟨dtagOf 0x7FFFFF, true, false⟩ false = 0x7FC801 := by decide

/-- Section 2.3: the place and tag view of 0x0012 3464. -/
theorem test_instr_place :
    iplaceOf 0x123464 = ⟨3, 3⟩ ∧ itagOf 0x123464 = 0x121 ∧ ILine.view ⟨itagOf 0x123464, true, false⟩ = 0x120401 := by
  decide

/-- R425: a store to reserved external space makes the hardware error pending when it is performed. -/
theorem test_hardware_error :
    Gives (exec (.store .p0 .r0) (at0 0x08000000)) (fun t => t.drainAll.hwErrorPending && t.drainAll.mem == []) = true := by
  decide

/-- The host's question on one word: the instruction placed is the one that step runs. -/
theorem test_withFetchWord :
    Gives (step (State.reset.withFetchWord 32 0xE148FFE0)) (fun t => t.p.p0 == 0xFFE00000 && t.pc == 0xEF000004) = true := by
  decide

/-! ### Witnesses: states and operands that meet the hypotheses of each statement, clause by clause -/

theorem test_witness_DecodeOfEncode :
    (Instr.loadShort .r7 .fp 60).wf = true ∧ (Instr.loadLong .r0 .p0 (-131072)).wf = true ∧
    (Instr.storeLong .fp 131068 .r7).wf = true ∧ (Instr.bitset .r7 31).wf = true ∧ (Instr.jumpCC (-512)).wf = true ∧
    (Instr.jumpNotCC 511).wf = true ∧ (Instr.pHigh .fp 0xFFFF).wf = true ∧ (Instr.testset .p5).wf = true := by decide

theorem test_witness_EncodeOfDecode :
    decode [0x00, 0x00, 0x55] = .ok (.nop, [0x55]) ∧
    decode [0x01, 0xE4, 0xFF, 0xFF] = .ok (.loadLong .r1 .p0 (-4), []) := by decide

theorem test_witness_LengthFromFirstUnit :
    ((0xBFFF : Half).extractLsb' 14 2 ≠ 3 ∧ (0x0000 : Half).extractLsb' 14 2 ≠ 3) ∧
    ((0xC800 : Half).extractLsb' 14 2 = 3 ∧ (0xC800 : Half).extractLsb' 12 4 = 12 ∧ (0xC800 : Half).getLsbD 11 = true) ∧
    ((0xCFFF : Half).extractLsb' 14 2 = 3 ∧ (0xCFFF : Half).extractLsb' 12 4 = 12 ∧ (0xCFFF : Half).getLsbD 11 = true) ∧
    ((0xC7FF : Half).extractLsb' 14 2 = 3 ∧ ¬ ((0xC7FF : Half).extractLsb' 12 4 = 12 ∧ (0xC7FF : Half).getLsbD 11 = true)) ∧
    ((0xD000 : Half).extractLsb' 14 2 = 3 ∧ ¬ ((0xD000 : Half).extractLsb' 12 4 = 12 ∧ (0xD000 : Half).getLsbD 11 = true)) ∧
    ((0xFFFF : Half).extractLsb' 14 2 = 3 ∧ ¬ ((0xFFFF : Half).extractLsb' 12 4 = 12 ∧ (0xFFFF : Half).getLsbD 11 = true)) := by
  decide

theorem test_witness_StepRunsDecodedInstruction_next :
    State.reset.fetchInstr = .ok ([0x00, 0x00], State.reset) ∧ decode [0x00, 0x00] = .ok (.nop, []) ∧
    exec .nop State.reset = .next { State.reset with pc := 0xEF000002 } := ⟨rfl, rfl, rfl⟩

/-- A misaligned load in the handler: a double fault. -/
theorem test_witness_StepRunsDecodedInstruction_fault :
    let s : State := { withBytes (at0 0x2002) 0x1000 [0x01, 0x91] with handling := some .data }
    s.fetchInstr = .ok ([0x01, 0x91], s) ∧ decode [0x01, 0x91] = .ok (.load .r1 .p0, []) ∧
    exec (.load .r1 .p0) s = .fault .doubleFault := ⟨rfl, rfl, rfl⟩

/-- TESTSET in L1 memory: U7. -/
theorem test_witness_StepRunsDecodedInstruction_refused :
    let s : State := withBytes (at0 0xFF800000) 0x1000 [0xB0, 0x00]
    s.fetchInstr = .ok ([0xB0, 0x00], s) ∧ decode [0xB0, 0x00] = .ok (.testset .p0, []) ∧
    exec (.testset .p0) s = .refused (.testsetOnCoreMemory 0xFF800000) := ⟨rfl, rfl, rfl⟩

/-- The ends of the two ranges, a 32-bit instruction at the last place of each. -/
theorem test_witness_StepRunsStoredInstruction :
    ∀ pc ∈ ([0, 0x07FFFFF0, 0xFFA00000, 0xFFA0FFF0] : List Addr),
      let s : State := { withBytes State.reset pc [0x48, 0xE1, 0xE0, 0xFF] with pc := pc }
      s.enIcplb = false ∧ s.pc.toNat % 2 = 0 ∧
      (s.pc.toNat + 16 ≤ 0x08000000 ∨ (0xFFA00000 ≤ s.pc.toNat ∧ s.pc.toNat + 16 ≤ 0xFFA10000)) ∧
      (Instr.pHigh .p0 0xFFE0).wf = true ∧
      Memory.readBytes s.mem s.pc (encodeBytes (.pHigh .p0 0xFFE0)).length = encodeBytes (.pHigh .p0 0xFFE0) := by
  intro pc h
  simp only [List.mem_cons, List.not_mem_nil, or_false] at h
  rcases h with rfl | rfl | rfl | rfl <;> decide

/-- Both ends of each range; the reserved instruction memory with the ICPLBs disabled, and under a page that keeps its request
in L1. -/
theorem test_witness_IllegalFetchTraps :
    (∀ pc ∈ ([0xFF800000, 0xFF9FFFFE, 0xFFB00000, 0xFFFFFFFE] : List Addr),
      pc.toNat % 2 = 0 ∧ { State.reset with pc := pc }.handling = none ∧
      ((0xFF800000 ≤ pc.toNat ∧ pc.toNat < 0xFFA00000) ∨ 0xFFB00000 ≤ pc.toNat)) ∧
    (∀ pc ∈ ([0xFFA14000, 0xFFAFFFFE] : List Addr),
      pc.toNat % 2 = 0 ∧ 0xFFA14000 ≤ pc.toNat ∧ pc.toNat < 0xFFB00000 ∧
      forwarded State.reset.enIcplb (lookup State.reset.icplb pc) = false) ∧
    (let s : State := { icacheAt 0 with icplb := State.reset.icplb.set 0 ⟨0xFFA00000, 0x30025⟩ }
     s.enIcplb = true ∧ forwarded s.enIcplb (lookup s.icplb 0xFFA14000) = false) := by
  refine ⟨fun pc h => ?_, fun pc h => ?_, by decide⟩ <;> simp only [List.mem_cons, List.not_mem_nil, or_false] at h
  · rcases h with rfl | rfl | rfl | rfl <;> decide
  · rcases h with rfl | rfl <;> decide

/-- States with the ICPLBs enabled: no match, two matches, one match that shuts User mode out, one that admits: cacheable
with the cache enabled, cacheable with it disabled, not cacheable. -/
theorem test_witness_IcplbLookup :
    (let s := icacheAt 0
     s.enIcplb = true ∧ (s.region 0x400000).noFetch = false ∧ s.region 0x400000 ≠ .reservedInstr ∧
       matching s.icplb 0x400000 = []) ∧
    (let s := { icacheAt 0 with icplb := (icacheAt 0).icplb.set 15 ⟨0x3FFC00, 1⟩ }
     s.enIcplb = true ∧ (s.region 0x3FFFFF).noFetch = false ∧ s.region 0x3FFFFF ≠ .reservedInstr ∧
       2 ≤ (matching s.icplb 0x3FFFFF).length) ∧
    (let s : State := { icacheAt 0 with mode := .user, icplb := State.reset.icplb.set 0 ⟨0, 0x31001⟩ }
     s.enIcplb = true ∧ (s.region 0x3FFFFF).noFetch = false ∧ s.region 0x3FFFFF ≠ .reservedInstr ∧
       matching s.icplb 0x3FFFFF = [0] ∧ s.mode = .user ∧ (s.icplb[0]).userRd = false) ∧
    (let s : State := { icacheAt 0 with mode := .user }
     s.enIcplb = true ∧ (s.region 0).noFetch = false ∧ s.region 0 ≠ .reservedInstr ∧
       matching s.icplb 0 = [0] ∧ (s.icplb[0]).userRd = true ∧ (s.icplb[0]).chbl = true ∧ s.imc = true) ∧
    (let s : State := { icacheAt 0 with imemControl := 3 }
     s.enIcplb = true ∧ matching s.icplb 0x3FFFFF = [0] ∧ s.mode ≠ .user ∧ s.imc = false) ∧
    (let s : State := { icacheAt 0 with icplb := State.reset.icplb.set 0 ⟨0, 0x30001⟩ }
     s.enIcplb = true ∧ (s.region 0).noFetch = false ∧ s.region 0 ≠ .reservedInstr ∧
       matching s.icplb 0 = [0] ∧ s.mode ≠ .user ∧ (s.icplb[0]).chbl = false) := by decide

theorem test_witness_MmrSpaceIsPrivileged :
    (Access.load 0xFFC00000).misaligned = false ∧ 0xFFC00000 ≤ (Access.load 0xFFC00000).addr.toNat ∧
    (userAt 0).mode = .user ∧
    ({ Access.store 0xFFFFFFFC with dag := .dag1 }).misaligned = false ∧
    0xFFC00000 ≤ ({ Access.store 0xFFFFFFFC with dag := .dag1 }).addr.toNat := by decide

/-- The pages of the six clauses on the permissions: no user read; no user write; no supervisor write; clean write-back;
readable; writable. -/
theorem test_witness_PagePermissions :
    (let s : State := { cachedAt 0x31099 0 with mode := .user }
     s.enDcplb = true ∧ s.minimalDataStop (.load 0x3FFFFC) = none ∧ lookup s.dcplb 0x3FFFFC = .hit ⟨0, 0x31099⟩ ∧
       s.mode = .user ∧ (⟨0, 0x31099⟩ : Cplb).userRd = false) ∧
    (let s : State := { cachedAt 0x31095 0 with mode := .user }
     s.enDcplb = true ∧ s.minimalDataStop (.store 0) = none ∧ lookup s.dcplb 0 = .hit ⟨0, 0x31095⟩ ∧
       (Access.store 0).write = true ∧ (⟨0, 0x31095⟩ : Cplb).userWr = false) ∧
    (let s := cachedAt 0x3108D 0
     s.enDcplb = true ∧ s.minimalDataStop (.store 0) = none ∧ lookup s.dcplb 0 = .hit ⟨0, 0x3108D⟩ ∧
       s.mode ≠ .user ∧ (⟨0, 0x3108D⟩ : Cplb).supvWr = false) ∧
    (let s := cachedAt 0x3101D 0
     let c : Cplb := ⟨0, 0x3101D⟩
     s.enDcplb = true ∧ s.minimalDataStop (.store 0) = none ∧ lookup s.dcplb 0 = .hit c ∧
       c.chbl = true ∧ c.wt = false ∧ c.dirty = false) ∧
    (let s : State := { writeBack 0 with mode := .user }
     let c : Cplb := ⟨0, 0x3109D⟩
     s.enDcplb = true ∧ s.minimalDataStop (.load 0) = none ∧ s.minimalDataStop (.store 0) = none ∧
       lookup s.dcplb 0 = .hit c ∧ (Access.load 0).write = false ∧ c.userRd = true ∧ c.userWr = true ∧
       ¬ (c.chbl = true ∧ c.wt = false ∧ c.dirty = false)) ∧
    (let s := cachedAt 0x31099 0
     s.minimalDataStop (.load 0) = none ∧ lookup s.dcplb 0 = .hit ⟨0, 0x31099⟩ ∧ s.mode ≠ .user ∧
       (⟨0, 0x31099⟩ : Cplb).supvWr = true) := by decide

/-- The cache modes: ENDCPLB 0; no CPLB_L1_CHBL; write-through without and with CPLB_L1_AOW; write-back; a cacheable page
over L1 data SRAM. -/
theorem test_witness_PagePermissions_modes :
    ((at0 0).minimalDataStop (.load 0x07FFFFFC) = none ∧ (at0 0).enDcplb = false) ∧
    (∀ data ∈ ([0x3009D, 0x3509D, 0x3D09D, 0x3109D] : List Word),
      (cachedAt data 0).minimalDataStop (.store 0x3FFFFC) = none ∧ (cachedAt data 0).enDcplb = true ∧
      lookup (cachedAt data 0).dcplb 0x3FFFFC = .hit ⟨0, data⟩ ∧
      (⟨0, data⟩ : Cplb).permits (cachedAt data 0).mode true = true ∧
      ((cachedAt data 0).region 0x3FFFFC).neverCacheable = false) ∧
    ((0x3009D : Word).getLsbD 12 = false ∧
      ((0x3509D : Word).getLsbD 12 = true ∧ (0x3509D : Word).getLsbD 14 = true ∧ (0x3509D : Word).getLsbD 15 = false) ∧
      ((0x3D09D : Word).getLsbD 12 = true ∧ (0x3D09D : Word).getLsbD 14 = true ∧ (0x3D09D : Word).getLsbD 15 = true) ∧
      (0x3109D : Word).getLsbD 12 = true ∧ (0x3109D : Word).getLsbD 14 = false) ∧
    (let s : State := { writeBack 0 with dcplb := State.reset.dcplb.set 0 ⟨0xFF800000, 0x3109D⟩ }
     s.minimalDataStop (.load 0xFF803FFC) = none ∧ lookup s.dcplb 0xFF803FFC = .hit ⟨0xFF800000, 0x3109D⟩ ∧
       (⟨0xFF800000, 0x3109D⟩ : Cplb).permits s.mode false = true ∧
       (s.region 0xFF803FFC).neverCacheable = true) := by
  refine ⟨by decide, fun data h => ?_, by decide, by decide⟩
  simp only [List.mem_cons, List.not_mem_nil, or_false] at h
  rcases h with rfl | rfl | rfl | rfl <;> decide

theorem test_witness_DcplbMissAndMultipleHit :
    (let s := writeBack 0
     s.enDcplb = true ∧ s.minimalDataStop (.load 0x400000) = none ∧ matching s.dcplb 0x400000 = [] ∧
       (s.region 0x400000).hasDefault = false ∧
       s.minimalDataStop (.load 0xFFE00004) = none ∧ matching s.dcplb 0xFFE00004 = [] ∧
       (s.region 0xFFE00004).hasDefault = true) ∧
    (let s : State := { writeBack 0 with dcplb := (writeBack 0).dcplb.set 15 ⟨0x3FFC00, 1⟩ }
     s.enDcplb = true ∧ s.minimalDataStop (.store 0x3FFFFC) = none ∧ 2 ≤ (matching s.dcplb 0x3FFFFC).length) := by
  decide

/-- One byte below and above a multiple of 4; an address that wraps. -/
theorem test_witness_MisalignedAccessTraps :
    ((at0 0x2001).preg .p0).toNat % 4 ≠ 0 ∧ ((at0 0x1FFF).preg .p0).toNat % 4 ≠ 0 ∧
    (shortAddress (at0 0xFFFFFFFE) .p0 60).toNat % 4 ≠ 0 ∧ (longAddress (at0 2) .p0 (-131072)).toNat % 4 ≠ 0 := by decide

/-- Both ends of the range, each form's address there. -/
theorem test_witness_DagAccessToInstructionMemory :
    inInstrMemory ((at0 0xFFA00000).preg .p0) = true ∧ ((at0 0xFFA00000).preg .p0).toNat % 4 = 0 ∧
    inInstrMemory (shortAddress (at0 0xFFAFFFC0) .p0 60) = true ∧ (shortAddress (at0 0xFFAFFFC0) .p0 60).toNat % 4 = 0 ∧
    inInstrMemory (longAddress (at0 0xFFB00000) .p0 (-4)) = true ∧
    (longAddress (at0 0xFFB00000) .p0 (-4)).toNat % 4 = 0 ∧
    inInstrMemory ((at0 0xFFAFFFFE).preg .p0) = true ∧ ((at0 0xFFAFFFFE).preg .p0).toNat % 2 = 0 := by decide

/-- Core MMR space without a register, in each form; the ends of the three reserved windows of L1 data memory, in User
mode. -/
theorem test_witness_IllegalAddressesTrap :
    ((at0 0xFFE00000).mode ≠ .user ∧ mmrAt 0xFFE00000 = none ∧
      (at0 0xFFE00000).loadForm (.load .r1 .p0) = some (.r1, 0xFFE00000, 2)) ∧
    (mmrAt 0xFFE00010 = none ∧
      (at0 0xFFE00004).storeForm (.storeShort .p0 12 .r1) = some (.r1, 0xFFE00010, 2)) ∧
    (mmrAt 0xFFFFFFFC = none ∧ (at0 0).loadForm (.loadLong .r1 .p0 (-4)) = some (.r1, 0xFFFFFFFC, 4)) ∧
    ∀ a ∈ ([0xFF808000, 0xFF8FFFFC, 0xFF908000, 0xFF9FFFFC, 0xFFB01000, 0xFFBFFFFC] : List Addr),
      a.toNat % 4 = 0 ∧ (userAt a).storeForm (.store .p0 .r1) = some (.r1, a, 2) ∧
      ((0xFF808000 ≤ a.toNat ∧ a.toNat < 0xFF900000) ∨ (0xFF908000 ≤ a.toNat ∧ a.toNat < 0xFFA00000) ∨
        (0xFFB01000 ≤ a.toNat ∧ a.toNat < 0xFFC00000)) ∧
      forwarded (userAt a).enDcplb (lookup (userAt a).dcplb a) = false := by
  refine ⟨by decide, by decide, by decide, fun a h => ?_⟩
  simp only [List.mem_cons, List.not_mem_nil, or_false] at h
  rcases h with rfl | rfl | rfl | rfl | rfl | rfl <;> decide

/-- The exception of a misaligned load at 0x2002. -/
def loadFault : Exc := { cause := .dataMisaligned, side := .data, addr := 0x2002, write := false, dag := .dag0 }

theorem test_witness_FaultRecord :
    (userAt 0).mode ≠ .emulation ∧ loadFault.side = .data ∧ { loadFault with side := .instr }.side = .instr := by decide

/-- In a plain context, in User mode, and in an interrupt routine. -/
theorem test_witness_ExceptionEntry :
    (State.reset.handling = none ∧ State.reset.isrs.head? = none) ∧ ((userAt 0).handling = none ∧ loadFault.side = .data) ∧
    let s : State := { at0 0 with isrs := [⟨15, 0, .user, false⟩] }
    s.handling = none ∧ s.isrs.head? = some ⟨15, 0, .user, false⟩ ∧ { loadFault with side := .instr }.side = .instr := by
  decide

/-- R421: the handler reads the address that failed. -/
theorem test_handler_reads_fault : ((userAt 0x2002).enterException loadFault).readMmr .dcplbFaultAddr 0xFFE0000C =
    loadFault.addr := by decide

theorem test_witness_ExceptionReturn :
    let s := userAt 0x2002
    let h : State := { s.enterException loadFault with r := { State.reset.r with r0 := 1 } }
    s.handling = none ∧ h.retx = (s.enterException loadFault).retx ∧
      h.savedMode = (s.enterException loadFault).savedMode := by decide

/-- The three alternatives: the mode kept, an exception taken, an interrupt taken by STI. -/
theorem test_witness_ModeChangesOnlyByExceptionOrInterrupt :
    exec .nop State.reset = .next { State.reset with pc := 0xEF000002 } ∧
    Gives (exec (.load .r1 .p0) (userAt 0x2002)) (fun t => decide (t.mode = .supervisor)) = true ∧
    Gives (exec (.sti .r0) { irqAt 15 with imask := 0, r := { State.reset.r with r0 := 0x8000 } })
      (fun t => t.pc == 0x4000 && t.isrs == [⟨15, 0x1002, .supervisor, false⟩]) = true := ⟨rfl, by decide, by decide⟩

/-- A store in User mode that completes, and a CLI that traps. -/
theorem test_witness_UserModeCannotChangeProtection :
    (userAt 0x2000).mode = .user ∧ (∀ ps ∈ (userAt 0x2000).storeBuf, ps.path ≠ .coreMmr) ∧
    Gives (exec (.store .p0 .r1) (userAt 0x2000)) (fun t => t.storeBuf.length == 1) = true ∧
    Gives (exec (.cli .r0) (userAt 0x2000)) (fun t => t.imask == 0) = true := by decide

/-- None pending, and the last interrupt pending under the restored mask. -/
theorem test_witness_CliAndStiComplete :
    ((at0 0).mode ≠ .user ∧ { at0 0 with mode := .emulation }.mode ≠ .user) ∧
    { at0 0 with imask := (at0 0).dreg .r0, pc := 0x1002 }.nextInterrupt = none ∧
    (let s : State := { irqAt 15 with imask := 0, r := { State.reset.r with r0 := 0x8000 } }
     s.mode ≠ .user ∧ { s with imask := s.dreg .r0, pc := s.pc + 2 }.nextInterrupt = some 15) := by decide

theorem test_witness_CliStiTrapInUserMode : (userAt 0).mode = .user ∧ (userAt 0).handling = none := by decide

theorem test_witness_BitsetAndDisalgnexcptComplete : (0 : Nat) ≤ 31 ∧ (31 : Nat) ≤ 31 := by decide

theorem test_witness_ConditionalJumpsComplete : (at0 0).cc = false ∧ { at0 0 with cc := true }.cc = true := by decide

/-- A store to an asynchronous bank waits in the store buffer. -/
def storedAsync : State := (at0 0).pushStore ⟨0x20000000, .word, 1⟩ .uncached

theorem quiet_of_empty (s : State) (h : s.storeBuf = [] ∧ s.writeBuf = [] ∧ s.victimA = none ∧ s.victimB = none) :
    s.quiet := h

/-- Buffers empty, one store waiting, and an enabled interrupt pending: the hardware error that SSYNC's own drain raises. -/
theorem test_witness_CsyncAndSsyncComplete :
    (at0 0).storeBuf = [] ∧ storedAsync.storeBuf = [⟨⟨0x20000000, .word, 1⟩, .uncached⟩] ∧ storedAsync.writeBuf = [] ∧
    0 < storedAsync.writeBufDepth ∧ (at0 0).quiet ∧ (at0 0).nextInterrupt = none ∧ (irqAt 0).nextInterrupt = some 0 ∧
    (let s : State := { (at0 0).pushStore ⟨0x08000000, .word, 1⟩ .uncached with imask := 0x20 }
     s.nextInterrupt = none ∧ s.drainAll.nextInterrupt = some 5 ∧
       Gives (exec .ssync s) (fun t => t.pc == 0 && !t.hwErrorPending && t.isrs == [⟨5, 0x1000, .supervisor, false⟩])
         = true) :=
  ⟨rfl, rfl, rfl, by decide, quiet_of_empty _ (by decide), by decide, by decide, by decide⟩

/-- The first word of L1 data SRAM, the first of an asynchronous bank, the last of SDRAM. -/
theorem test_witness_SynchronisationPerformsStores :
    (let s := (at0 0).pushStore ⟨0xFF800000, .word, 1⟩ .sram
     s.memoryCanonical ∧ s.nextInterrupt = none ∧ s.storeBuf = [⟨⟨0xFF800000, .word, 1⟩, .sram⟩]) ∧
    (storedAsync.memoryCanonical ∧ storedAsync.nextInterrupt = none ∧
      (storedAsync.region 0x20000000).isExternalRam = true ∧
      storedAsync.storeBuf = [⟨⟨0x20000000, .word, 1⟩, .uncached⟩] ∧ storedAsync.writeBuf = [] ∧
      storedAsync.victimA = none ∧ storedAsync.victimB = none) ∧
    let s := (at0 0).pushStore ⟨0x07FFFFFC, .word, 1⟩ .uncached
    s.memoryCanonical ∧ s.nextInterrupt = none ∧ (s.region 0x07FFFFFC).isExternalRam = true ∧
      s.storeBuf = [⟨⟨0x07FFFFFC, .word, 1⟩, .uncached⟩] ∧ s.writeBuf = [] ∧ s.victimA = none ∧ s.victimB = none :=
  ⟨⟨rfl, by decide, rfl⟩, ⟨rfl, by decide, rfl, rfl, rfl, rfl, rfl⟩, rfl, by decide, rfl, rfl, rfl, rfl, rfl⟩

/-- A core MMR store, for CSYNC and for SSYNC; a buffer of two stores, of which the second may leave first or, sharing its
last byte with the first, may not. -/
theorem test_witness_SynchronisationPerformsStores_order :
    (let s := (at0 0).pushStore ⟨0xFFE00100, .word, 0x100000⟩ .coreMmr
     s.nextInterrupt = none ∧ s.storeBuf = [⟨⟨0xFFE00100, .word, 0x100000⟩, .coreMmr⟩] ∧
       mmrAt 0xFFE00100 = some (.dcplbAddr 0) ∧ (MmrName.dcplbAddr 0).readOnly = false ∧ s.writeBuf = [] ∧
       s.victimA = none ∧ s.victimB = none) ∧
    ((at0 0).pushStore ⟨0x20000000, .word, 1⟩ .uncached).storeBuf = [⟨⟨0x20000000, .word, 1⟩, .uncached⟩] ++ [] ∧
    (∀ j k, j < Width.word.bytes → k < Width.word.bytes →
      (0x20000000 : Addr) + BitVec.ofNat 32 j ≠ (0x20000004 : Addr) + BitVec.ofNat 32 k) ∧
    ∃ j k, j < Width.word.bytes ∧ k < Width.word.bytes ∧
      (0x20000000 : Addr) + BitVec.ofNat 32 j = (0x1FFFFFFD : Addr) + BitVec.ofNat 32 k := by
  refine ⟨by decide, rfl, fun j k hj hk => ?_, 0, 3, by decide⟩
  have hj : j < 4 := hj
  have hk : k < 4 := hk
  interval_cases j <;> interval_cases k <;> decide

/-- The last half-word of SDRAM with the DCPLBs disabled, and a page that lets User mode read and write. -/
theorem test_witness_TestsetCompletes :
    (let s := at0 0x07FFFFFE
     s.memoryCanonical ∧ (s.region (s.preg .p0)).isExternalRam = true ∧ (s.preg .p0).toNat % 2 = 0 ∧ s.enDcplb = false ∧
       s.quiet) ∧
    (let s : State := { writeBack 0x3000 with mode := .user }
     s.memoryCanonical ∧ (s.region (s.preg .p0)).isExternalRam = true ∧ (s.preg .p0).toNat % 2 = 0 ∧
       lookup s.dcplb (s.preg .p0) = .hit ⟨0, 0x3109D⟩ ∧ (⟨0, 0x3109D⟩ : Cplb).permits s.mode false = true ∧
       (⟨0, 0x3109D⟩ : Cplb).permits s.mode true = true) :=
  ⟨⟨rfl, rfl, rfl, rfl, quiet_of_empty _ (by decide)⟩, rfl, rfl, rfl, by decide, by decide, by decide⟩

/-- An odd address; both ends of L1 data memory and the scratchpad; a core MMR; pages that forbid the read, and the
write only. -/
theorem test_witness_TestsetChecks :
    ((at0 0x3001).preg .p0).toNat % 2 = 1 ∧
    (((at0 0xFF800000).preg .p0).toNat % 2 = 0 ∧ (at0 0xFF800000).region 0xFF800000 = .dataSram) ∧
    (((at0 0xFFB00FFE).preg .p0).toNat % 2 = 0 ∧ (at0 0xFFB00FFE).region 0xFFB00FFE = .scratchpad) ∧
    (((at0 0xFFE00004).preg .p0).toNat % 4 = 0 ∧ (at0 0xFFE00004).mode ≠ .user ∧
      (at0 0xFFE00004).region 0xFFE00004 = .coreMmr ∧ (mmrAt 0xFFE00004).isSome = true) ∧
    (let s : State := { cachedAt 0x31099 0x3000 with mode := .user }
     (s.region (s.preg .p0)).isExternalRam = true ∧ s.enDcplb = true ∧ lookup s.dcplb (s.preg .p0) = .hit ⟨0, 0x31099⟩ ∧
       (⟨0, 0x31099⟩ : Cplb).permits s.mode false = false) ∧
    (let s := cachedAt 0x3101D 0x3000
     (s.region (s.preg .p0)).isExternalRam = true ∧ s.enDcplb = true ∧ lookup s.dcplb (s.preg .p0) = .hit ⟨0, 0x3101D⟩ ∧
       (⟨0, 0x3101D⟩ : Cplb).permits s.mode false = true ∧ (⟨0, 0x3101D⟩ : Cplb).permits s.mode true = false) := by
  decide

/-- An access with the DCPLBs disabled that passes the checks of R130. -/
theorem ok_uncached (s : State) (acc : Access) (h : acc.misaligned = false ∧ inMmrSpace acc.addr = false ∧
    inInstrMemory acc.addr = false ∧ s.region acc.addr ≠ .reservedData ∧ s.enDcplb = false) : s.memoryAccessOk acc :=
  ⟨h.1, h.2.1, h.2.2.1, fun q => h.2.2.2.1 q.1, .inl h.2.2.2.2⟩

/-- An access that one descriptor admits. -/
theorem ok_page (s : State) (acc : Access) (c : Cplb) (h : acc.misaligned = false ∧ inMmrSpace acc.addr = false ∧
    inInstrMemory acc.addr = false ∧ s.region acc.addr ≠ .reservedData ∧ lookup s.dcplb acc.addr = .hit c ∧
    c.permits s.mode acc.write = true ∧ (c.chbl && (s.region acc.addr).neverCacheable) = false) : s.memoryAccessOk acc :=
  ⟨h.1, h.2.1, h.2.2.1, fun q => h.2.2.2.1 q.1, .inr (.inl ⟨c, h.2.2.2.2⟩)⟩

/-- The three forms, uncached at the ends of SDRAM and in the scratchpad, and cached in User mode. -/
theorem test_witness_LoadsComplete :
    ((at0 0).memoryAccessOk (.load ((at0 0).preg .p0)) ∧ (at0 0).quiet ∧ (at0 0).memoryCanonical) ∧
    (at0 0x07FFFFC0).memoryAccessOk (.load ((at0 0x07FFFFC0).preg .p0 + BitVec.ofNat 32 60)) ∧
    (at0 0xFFB01000).memoryAccessOk (.load ((at0 0xFFB01000).preg .p0 + BitVec.ofInt 32 (-4))) ∧
    (let s : State := { dirtyLine with mode := .user }
     s.memoryAccessOk (.load (s.preg .p0)) ∧ s.dplace (s.preg .p0) = some place2004 ∧ s.quiet ∧ s.memoryCanonical) :=
  ⟨⟨ok_uncached _ _ (by decide), quiet_of_empty _ (by decide), rfl⟩, ok_uncached _ _ (by decide),
    ok_uncached _ _ (by decide),
    ok_page _ _ ⟨0, 0x3109D⟩ (by decide), by decide, quiet_of_empty _ (by decide), by unfold State.memoryCanonical; decide⟩

/-- The set of 0x2004 with Way1 last used and Way0 holding another line: dirty, or invalid with a stale Dirty bit. -/
def victimSet (valid : Bool) : State :=
  { writeBack 0x2004 with
    dcache := sparseSet DSet.empty [] place2004.key {
      lines := #v[⟨2, valid, true⟩, ⟨4, true, false⟩], lru := true } }

/-- The ends of SDRAM and the scratchpad uncached; a hit; a miss over an empty way, over a dirty line, and over an invalid
one with a stale Dirty bit. -/
theorem test_witness_ReadsReturnTheWord :
    ((at0 0).quiet ∧ ((at0 0).region 0x07FFFFFC).isDataMemory = true ∧ (0x07FFFFFC : Addr).toNat % 4 = 0 ∧
      ((at0 0).region 0xFFB00FFC).isDataMemory = true ∧ (0xFFB00FFC : Addr).toNat % 4 = 0) ∧
    (dirtyLine.quiet ∧ (0x2004 : Addr).toNat % 4 = 0 ∧ CacheMode.writeBack ≠ .uncached ∧
      dirtyLine.dplace 0x2004 = some place2004 ∧ (dirtyLine.dset place2004).hitWay (dtagOf 0x2004) = some 0) ∧
    (∀ s ∈ [writeBack 0x2004, victimSet true, victimSet false],
      s.quiet ∧ s.memoryCanonical ∧ CacheMode.writeThrough true ≠ .uncached ∧ (s.region 0x2004).unpopulated = false ∧
      s.dplace 0x2004 = some place2004 ∧ (s.dset place2004).hitWay (dtagOf 0x2004) = none ∧
      (s.dset place2004).victimWay = 0) ∧
    ((victimSet true).copiedOut place2004 0 .bankB).isSome = true ∧
    (victimSet false).copiedOut place2004 0 .bankB = none ∧
    ((victimSet true).dset place2004).lines[0].dirty = true ∧ ((victimSet false).dset place2004).lines[0].dirty = true := by
  refine ⟨⟨quiet_of_empty _ (by decide), by decide⟩, ⟨quiet_of_empty _ (by decide), by decide⟩, fun s h => ?_, ?_⟩
  · simp only [List.mem_cons, List.not_mem_nil, or_false] at h
    rcases h with rfl | rfl | rfl <;> exact ⟨quiet_of_empty _ (by decide), rfl, by decide⟩
  · decide

/-- A store and a load of different forms; a narrow read; a word in the write buffer under a later store that lies beside it;
its line in a copy-back buffer, uncached, and on a miss that copies out another line. -/
theorem test_witness_BufferedStoresAreForwarded :
    (let s := at0 0x2000
     s.storeForm (.storeShort .p0 60 .r1) = some (.r1, 0x203C, 2) ∧ s.loadForm (.loadLong .r2 .p0 60) = some (.r2, 0x203C, 4) ∧
     s.memoryAccessOk (.store 0x203C) ∧ s.memoryAccessOk (.load 0x203C) ∧
     exec (.storeShort .p0 60 .r1) s = .next { s with storeBuf := [⟨⟨0x203C, .word, 0⟩, .uncached⟩], pc := 0x1002 }) ∧
    storedAsync.storeBuf = (at0 0).storeBuf ++ [⟨⟨0x20000000, .word, 1⟩, .uncached⟩] ∧
    (let s : State := { at0 0x07FFFFFC with writeBuf := [⟨0x07FFFFFC, .word, 7⟩, ⟨0x07FFFFF8, .word, 8⟩] }
     s.loadForm (.load .r2 .p0) = some (.r2, 0x07FFFFFC, 2) ∧ s.memoryAccessOk (.load 0x07FFFFFC) ∧ s.storeBuf = [] ∧
     s.writeBuf = [] ++ ⟨0x07FFFFFC, .word, 7⟩ :: [⟨0x07FFFFF8, .word, 8⟩] ∧
     ∀ x y, x < Width.word.bytes → y < 4 → (0x07FFFFF8 : Addr) + BitVec.ofNat 32 x ≠ 0x07FFFFFC + BitVec.ofNat 32 y) ∧
    (let s : State := { at0 0x201C with victimA := some ⟨0x2000, List.replicate 32 5⟩ }
     s.loadForm (.load .r2 .p0) = some (.r2, 0x201C, 2) ∧ s.memoryAccessOk (.load 0x201C) ∧
     s.victim .bankA = some ⟨lineAddr 0x201C, List.replicate 32 5⟩ ∧ s.victim .bankB = none ∧
     (s.region 0x201C).unpopulated = false ∧ s.pageMode 0x201C = .uncached) ∧
    let s : State := { victimSet true with victimB := some ⟨0x2000, List.replicate 32 5⟩ }
    s.memoryAccessOk (.load 0x2004) ∧ s.memoryCanonical ∧ (s.region 0x2004).isExternalRam = true ∧
      s.pageMode 0x2004 ≠ .uncached ∧ s.dplace 0x2004 = some place2004 ∧
      (s.dset place2004).hitWay (dtagOf 0x2004) = none ∧ s.storeBuf = [] ∧ s.writeBuf = [] ∧
      s.victim .bankB = some ⟨lineAddr 0x2004, List.replicate 32 5⟩ ∧ s.victim .bankA = none := by
  refine ⟨⟨rfl, rfl, ok_uncached _ _ (by decide), ok_uncached _ _ (by decide), rfl⟩, rfl,
    ⟨rfl, ok_uncached _ _ (by decide), rfl, rfl, fun x y hx hy => ?_⟩,
    ⟨rfl, ok_uncached _ _ (by decide), by decide⟩, ok_page _ _ ⟨0, 0x3109D⟩ (by decide), rfl, by decide⟩
  have hx : x < 4 := hx
  interval_cases x <;> interval_cases y <;> decide

theorem test_witness_StoresComplete :
    (at0 0x2000).memoryAccessOk (.store ((at0 0x2000).preg .p0)) ∧
    (at0 0x07FFFFC0).memoryAccessOk (.store ((at0 0x07FFFFC0).preg .p0 + BitVec.ofNat 32 60)) ∧
    (writeBack 0x20000).memoryAccessOk (.store ((writeBack 0x20000).preg .p0 + BitVec.ofInt 32 (-131072))) :=
  ⟨ok_uncached _ _ (by decide), ok_uncached _ _ (by decide), ok_page _ _ ⟨0, 0x3109D⟩ (by decide)⟩

/-- The paths: L1 SRAM at the ends of its ranges, the upper halves while no bank is cache; a write-back and a write-through
page with both banks cache; no page; a write-back page with no bank cache. -/
theorem test_witness_StoresComplete_paths :
    (∀ a ∈ ([0xFF800000, 0xFF803FFC, 0xFF900000, 0xFF903FFC, 0xFFB00000, 0xFFB00FFC, 0xFF804000, 0xFF807FFC, 0xFF904000,
        0xFF907FFC] : List Addr), (at0 a).memoryAccessOk (.store ((at0 a).preg .p0))) ∧
    ((at0 0).bankIsCache .bankA = false ∧ (at0 0).bankIsCache .bankB = false) ∧
    (∀ s ∈ [writeBack 0x2000, cachedAt 0x3D09D 0x2000, at0 0x2000, { writeBack 0x2000 with dmemControl := 0x1003 }],
      s.region 0x2000 ≠ .dataSram ∧ s.region 0x2000 ≠ .scratchpad) ∧
    ((writeBack 0x2000).pageMode 0x2000 = .writeBack ∧ ((writeBack 0x2000).bankFor 0x2000).isSome = true) ∧
    ((cachedAt 0x3D09D 0x2000).pageMode 0x2000 = .writeThrough true ∧
      ((cachedAt 0x3D09D 0x2000).bankFor 0x2000).isSome = true) ∧
    (at0 0x2000).pageMode 0x2000 = .uncached ∧ { writeBack 0x2000 with dmemControl := 0x1003 }.bankFor 0x2000 = none := by
  refine ⟨fun a h => ?_, by decide, fun s h => ?_, by decide⟩ <;>
    simp only [List.mem_cons, List.not_mem_nil, or_false] at h
  · rcases h with rfl | rfl | rfl | rfl | rfl | rfl | rfl | rfl | rfl | rfl <;> exact ok_uncached _ _ (by decide)
  · rcases h with rfl | rfl | rfl | rfl <;> decide

/-- A hit; a miss over an empty way, over a dirty line, over an invalid one with a stale Dirty bit. -/
theorem test_witness_CachedStores :
    (dirtyLine.quiet ∧ sparseWf DSet.empty dirtyLine.dcache = true ∧
      dirtyLine.dplace 0x2004 = some place2004 ∧ (dirtyLine.dset place2004).hitWay (dtagOf 0x2004) = some 0) ∧
    ∀ s ∈ [writeBack 0x2004, victimSet true, victimSet false],
      s.quiet ∧ sparseWf DSet.empty s.dcache = true ∧ s.dplace 0x2004 = some place2004 ∧
      (s.dset place2004).hitWay (dtagOf 0x2004) = none ∧ (s.region 0x2004).unpopulated = false ∧
      (s.dset place2004).victimWay = 0 := by
  refine ⟨⟨quiet_of_empty _ (by decide), by decide⟩, fun s h => ?_⟩
  simp only [List.mem_cons, List.not_mem_nil, or_false] at h
  rcases h with rfl | rfl | rfl <;> exact ⟨quiet_of_empty _ (by decide), by decide⟩

/-- A load of each form, a store to a read-only register, to a descriptor of an enabled group, to the last descriptor of a
disabled one, to a control register. -/
theorem test_witness_CoreMmrAccessesComplete :
    ((at0 0xFFE00004).mmrAccessOk (.load 0xFFE00004) .dmemControl ∧ (at0 0xFFE00004).storeBuf = [] ∧
      (at0 0xFFE00004).writeBuf = [] ∧ (at0 0xFFE00004).loadForm (.load .r1 .p0) = some (.r1, 0xFFE00004, 2)) ∧
    (at0 0xFFE00000).loadForm (.loadShort .r1 .p0 4) = some (.r1, 0xFFE00004, 2) ∧
    (at0 0xFFE01004).loadForm (.loadLong .r1 .p0 (-0x1000)) = some (.r1, 0xFFE00004, 4) ∧
    ((at0 0xFFE00008).mmrAccessOk (.store 0xFFE00008) .dcplbStatus ∧ MmrName.dcplbStatus.readOnly = true ∧
      (at0 0xFFE00008).storeForm (.store .p0 .r1) = some (.r1, 0xFFE00008, 2)) ∧
    ((writeBack 0xFFE00200).mmrAccessOk (.store 0xFFE0023C) (.dcplbData 15) ∧
      (writeBack 0xFFE00200).inEnabledGroup (.dcplbData 15) = true ∧
      (writeBack 0xFFE00200).storeForm (.storeShort .p0 60 .r1) = some (.r1, 0xFFE0023C, 2)) ∧
    ((icacheAt 0xFFE01100).mmrAccessOk (.store 0xFFE01100) (.icplbAddr 0) ∧
      (icacheAt 0xFFE01100).inEnabledGroup (.icplbAddr 0) = true ∧
      (icacheAt 0xFFE01100).storeForm (.store .p0 .r1) = some (.r1, 0xFFE01100, 2)) ∧
    ((at0 0xFFE01200).mmrAccessOk (.store 0xFFE0123C) (.icplbData 15) ∧
      (at0 0xFFE01200).inEnabledGroup (.icplbData 15) = false ∧ (MmrName.icplbData 15).readOnly = false ∧
      mmrStoreRefusal (.icplbData 15) ((at0 0xFFE01200).dreg .r1) = none ∧
      (at0 0xFFE01200).storeForm (.storeShort .p0 60 .r1) = some (.r1, 0xFFE0123C, 2)) ∧
    ((at0 0xFFE03000).mmrAccessOk (.store 0xFFE00004) .dmemControl ∧ MmrName.dmemControl.readOnly = false ∧
      (at0 0xFFE03000).inEnabledGroup .dmemControl = false ∧ mmrStoreRefusal .dmemControl ((at0 0xFFE03000).dreg .r0) = none ∧
      (at0 0xFFE03000).storeForm (.storeLong .p0 (-0x2FFC) .r0) = some (.r0, 0xFFE00004, 4)) :=
  ⟨⟨⟨by decide, rfl, rfl, .inl rfl⟩, rfl, rfl, by decide⟩, by decide, by decide, ⟨⟨by decide, rfl, rfl, .inl rfl⟩, rfl, by decide⟩,
    ⟨⟨by decide, rfl, rfl, .inr (.inr ⟨by decide, rfl⟩)⟩, rfl, by decide⟩, ⟨⟨by decide, rfl, rfl, .inl rfl⟩, rfl, by decide⟩,
    ⟨⟨by decide, rfl, rfl, .inl rfl⟩, rfl, rfl, by decide, by decide⟩,
    ⟨by decide, rfl, rfl, .inl rfl⟩, rfl, rfl, by decide, by decide⟩

/-- The ends of the system half, each with a load and a store. Whether a register stands there is a free value, so either
branch of the statement may be the one that holds. -/
theorem test_witness_SystemMmrAccessesComplete :
    ∀ a ∈ ([0xFFC00000, 0xFFDFFFFC] : List Addr),
      a.toNat % 4 = 0 ∧ (at0 a).mode ≠ .user ∧ 0xFFC00000 ≤ a.toNat ∧ a.toNat < 0xFFE00000 ∧
      (at0 a).loadForm (.load .r1 .p0) = some (.r1, a, 2) ∧ (at0 a).storeForm (.store .p0 .r1) = some (.r1, a, 2) ∧
      (at0 a).pageAllows (.load a) ∧ (at0 a).pageAllows (.store a) := by
  intro a h
  simp only [List.mem_cons, List.not_mem_nil, or_false] at h
  rcases h with rfl | rfl <;>
    exact ⟨by decide, by decide, by decide, by decide, by decide, by decide, .inl rfl, .inl rfl⟩

theorem test_witness_MmrReadsBackItsFields :
    MmrName.dmemControl.readOnly = false ∧ (MmrName.dcplbAddr 0).readOnly = false ∧
    (MmrName.icplbData 15).readOnly = false ∧ MmrName.itestData1.readOnly = false := by decide

/-- The first and the last word of the gap above SDRAM, by the three forms. -/
theorem test_witness_ReservedExternalLoad :
    (∀ a ∈ ([0x08000000, 0x1FFFFFFC] : List Addr),
      (at0 a).loadForm (.load .r1 .p0) = some (.r1, a, 2) ∧ (at0 a).quiet ∧ (at0 a).enDcplb = false ∧ a.toNat % 4 = 0 ∧
      (at0 a).region a = .reservedExternal) ∧
    (at0 0x07FFFFC4).loadForm (.loadShort .r1 .p0 60) = some (.r1, 0x08000000, 2) ∧
    (at0 0x20000000).loadForm (.loadLong .r1 .p0 (-4)) = some (.r1, 0x1FFFFFFC, 4) := by
  refine ⟨fun a h => ?_, by decide⟩
  simp only [List.mem_cons, List.not_mem_nil, or_false] at h
  rcases h with rfl | rfl <;> exact ⟨by decide, quiet_of_empty _ (by decide), by decide⟩

theorem test_witness_CacheControlCompletes :
    (at0 0).memoryAccessOk (.cacheControl ((at0 0).preg .p0)) ∧ (at0 0).quiet ∧
    dirtyLine.memoryAccessOk (.cacheControl (dirtyLine.preg .p0)) ∧ dirtyLine.quiet :=
  ⟨ok_uncached _ _ (by decide), quiet_of_empty _ (by decide), ok_page _ _ ⟨0, 0x3109D⟩ (by decide),
    quiet_of_empty _ (by decide)⟩

/-- A state that no line of a cache is valid in. -/
theorem noLines (s : State) (h : s.icache = [] ∧ s.dcache = []) : s.disabledCachesInvalid := by
  refine ⟨by rw [h.1]; rfl, by rw [h.2]; rfl, fun _ k w => ?_, fun k _ w => ?_⟩
  · rw [h.1]; exact (by decide : ∀ w : Fin 4, ((ISet.empty).lines[w.val]).valid = false) w
  · rw [h.2]; exact (by decide : ∀ w : Fin 2, ((DSet.empty).lines[w.val]).valid = false) w

/-- With the instruction cache empty and both data banks cache, no disabled cache has a line. -/
theorem cacheOn_disabledCachesInvalid (s : State)
    (h : s.icache = [] ∧ sparseWf DSet.empty s.dcache = true ∧ s.bankIsCache .bankA = true ∧ s.bankIsCache .bankB = true) :
    s.disabledCachesInvalid := by
  refine ⟨by rw [h.1]; rfl, h.2.1, fun _ k w => ?_, fun k hk => ?_⟩
  · rw [h.1]; exact (by decide : ∀ w : Fin 4, ((ISet.empty).lines[w.val]).valid = false) w
  · have : s.bankIsCache (bankOfKey k) = true := by cases bankOfKey k <;> simp [h]
    rw [this] at hk; cases hk

theorem dirtyLine_disabledCachesInvalid : dirtyLine.disabledCachesInvalid :=
  cacheOn_disabledCachesInvalid _ (by decide)

/-- The NOP forms (an exception, an uncached page, a disabled cache, a hit), and a miss, over a dirty line too. -/
theorem test_witness_PrefetchCompletes :
    (∃ e, (at0 0xFFA00000).checkData (.cacheControl ((at0 0xFFA00000).preg .p0)) = .error (.exception e)) ∧
    (at0 0).checkData (.cacheControl ((at0 0).preg .p0)) = .ok .uncached ∧
    (let s : State := { writeBack 0x2004 with dmemControl := 0x1003 }
     s.checkData (.cacheControl (s.preg .p0)) = .ok .writeBack ∧ s.dplace (s.preg .p0) = none) ∧
    (dirtyLine.checkData (.cacheControl (dirtyLine.preg .p0)) = .ok .writeBack ∧
      dirtyLine.dplace (dirtyLine.preg .p0) = some place2004 ∧
      (dirtyLine.dset place2004).hitWay (dtagOf (dirtyLine.preg .p0)) = some 0) ∧
    ∀ s ∈ [writeBack 0x2004, victimSet true],
      s.disabledCachesInvalid ∧ s.checkData (.cacheControl (s.preg .p0)) = .ok .writeBack ∧
      CacheMode.writeBack ≠ .uncached ∧ s.dplace (s.preg .p0) = some place2004 ∧
      (s.dset place2004).hitWay (dtagOf (s.preg .p0)) = none ∧ s.quiet ∧ s.memoryCanonical ∧
      (s.region (s.preg .p0)).unpopulated = false := by
  refine ⟨⟨_, rfl⟩, rfl, ⟨rfl, by decide⟩, ⟨rfl, by decide⟩, fun s h => ?_⟩
  simp only [List.mem_cons, List.not_mem_nil, or_false] at h
  rcases h with rfl | rfl
  · exact ⟨noLines _ ⟨rfl, rfl⟩, rfl, by decide, by decide, by decide, quiet_of_empty _ (by decide), rfl, by decide⟩
  · exact ⟨cacheOn_disabledCachesInvalid _ (by decide), rfl, by decide, by decide, by decide,
      quiet_of_empty _ (by decide), rfl, by decide⟩

theorem test_witness_FlushThenSsyncWritesTheLine :
    dirtyLine.quiet ∧ dirtyLine.memoryCanonical ∧ dirtyLine.disabledCachesInvalid ∧
    dirtyLine.memoryAccessOk (.cacheControl (dirtyLine.preg .p0)) ∧
    (dirtyLine.region (dirtyLine.preg .p0)).isExternalRam = true ∧
    dirtyLine.dplace (dirtyLine.preg .p0) = some place2004 ∧
    (dirtyLine.dset place2004).hitWay (dtagOf (dirtyLine.preg .p0)) = some 0 ∧
    ((dirtyLine.dset place2004).lines[0]).dirty = true ∧
    Instr.flushinvInc .p0 ∈ ([.flush .p0, .flushInc .p0, .flushinv .p0, .flushinvInc .p0] : List Instr) :=
  ⟨quiet_of_empty _ (by decide), by unfold State.memoryCanonical; decide, dirtyLine_disabledCachesInvalid,
    ok_page _ _ ⟨0, 0x3109D⟩ (by decide), by decide⟩

/-- The line of 0x12347E in Way2 of its set. -/
def heldLine : State :=
  { icacheAt 0x12347E with
    icache := sparseSet ISet.empty [] (iplaceOf 0x12347E).key
      { ISet.empty with lines := ISet.empty.lines.set 2 ⟨0x121, true, false⟩ } }

theorem heldLine_disabledCachesInvalid : heldLine.disabledCachesInvalid := by
  refine ⟨by decide, rfl, fun h => absurd h (by decide), fun k _ w => ?_⟩
  show ((sparseGet DSet.empty [] k).lines[w.val]).valid = false
  revert w; exact (by decide : ∀ w : Fin 2, ((DSet.empty).lines[w.val]).valid = false)

/-- The cache disabled; enabled with the address not cached; enabled with the line held; the pointer of the second form. -/
theorem test_witness_IflushInvalidatesTheLine :
    ((at0 0).disabledCachesInvalid ∧ (at0 0).memoryAccessOk (.cacheControl ((at0 0).preg .p0)) ∧ (at0 0).imc = false) ∧
    ((icacheAt 0x123480).disabledCachesInvalid ∧
      (icacheAt 0x123480).memoryAccessOk (.cacheControl ((icacheAt 0x123480).preg .p0)) ∧
      (icacheAt 0x123480).imc = true ∧ ((icacheAt 0x123480).iset ⟨3, 4⟩).hitWay 0x121 = none) ∧
    heldLine.disabledCachesInvalid ∧ heldLine.memoryAccessOk (.cacheControl (heldLine.preg .p0)) ∧
      heldLine.imc = true ∧
      (heldLine.iset (iplaceOf (heldLine.preg .p0))).hitWay (itagOf (heldLine.preg .p0)) = some 2 ∧
      heldLine.p.set .p0 (heldLine.preg .p0 + 32) = (at0 0x12349E).p :=
  ⟨⟨noLines _ ⟨rfl, rfl⟩, ok_uncached _ _ (by decide), by decide⟩,
    ⟨noLines _ ⟨rfl, rfl⟩, ok_uncached _ _ (by decide), by decide, by decide⟩,
    heldLine_disabledCachesInvalid, ok_uncached _ _ (by decide), by decide, by decide, by decide⟩

theorem test_witness_DataBankSelection :
    ((writeBack 0).dmc = 3 ∧ (writeBack 0).dcbs = false) ∧
    ({ at0 0 with dmemControl := 0x101D }.dmc = 3 ∧ { at0 0 with dmemControl := 0x101D }.dcbs = true) ∧
    { at0 0 with dmemControl := 0x1009 }.dmc = 2 ∧ (at0 0).dmc = 0 := by decide

/-- Ways 0 to 2 valid, way 3 high. -/
def fullSet : ISet :=
  { ISet.empty with
    lines := #v[⟨1, true, false⟩, ⟨2, true, false⟩, ⟨3, true, false⟩, ⟨4, true, true⟩] }

/-- A free way behind a locked one; the least recently used of the low ways; a high way taken by a high line; no way. -/
theorem test_witness_InstructionVictimWay :
    ISet.empty.recency.Perm iways ∧ fullSet.recency.Perm iways ∧
    (ISet.empty.victimWay (fun w => w == 0) false = some 1 ∧ ((ISet.empty).lines[1]).valid = false ∧
      ∀ v : Fin 4, v < 1 → (v == 0) = true ∨ ((ISet.empty).lines[v.val]).valid = true) ∧
    (∀ v : Fin 4, ((fullSet).lines[v.val]).valid = true) ∧
    { fullSet with recency := [3, 2, 0, 1] }.recency.Perm iways ∧
    { fullSet with recency := [3, 2, 0, 1] }.victimWay (fun _ => false) true = some 2 ∧
    ((∀ v : Fin 4, (v != 3) = true ∨ ((fullSet).lines[v.val]).valid = true) ∧
      fullSet.victimWay (fun w => w != 3) true = some 3 ∧ ((fullSet).lines[3]).lruPrio = true) ∧
    fullSet.victimWay (fun w => w != 3) false = none ∧ fullSet.victimWay (fun _ => true) true = none := by decide

/-- A hit in Way2 and a fill of Way0. -/
theorem test_witness_CachedFetches :
    (sparseWf ISet.empty heldLine.icache = true ∧ (heldLine.iset (iplaceOf 0x12347E)).hitWay (itagOf 0x12347E) = some 2) ∧
    let s := icacheAt 0
    sparseWf ISet.empty s.icache = true ∧ (s.iset (iplaceOf 0x3FFFFE)).hitWay (itagOf 0x3FFFFE) = none ∧
      s.memoryCanonical ∧ (s.region 0x3FFFFE).unpopulated = false ∧
      (s.iset (iplaceOf 0x3FFFFE)).victimWay s.iloc (true && !s.lruPrioRst) = some 0 :=
  ⟨by decide, by decide, by decide, rfl, by decide⟩

/-- A hit returns the line's bytes, not memory's. -/
theorem test_cached_fetch :
    (let s := withBytes heldLine ((iplaceOf 0x12347E).cells 2 + 0x18) [1, 2, 3, 4, 5, 6, 7, 8]
     (s.cachedFetch 0x12347E false).1 == [1, 2, 3, 4, 5, 6, 7, 8]) = true := by decide

theorem test_witness_AllWaysLockedCachesNothing :
    let s : State := { icacheAt 0 with imemControl := 0x7F }
    (∀ w, s.iloc w = true) ∧ (s.region 0x07FFFFFC).unpopulated = false ∧
    (s.region (lineAddr 0x07FFFFFC)).unpopulated = false ∧
    (s.iset (iplaceOf 0x07FFFFFC)).hitWay (itagOf 0x07FFFFFC) = none := by decide

theorem test_witness_LruPrioResetClears :
    sparseWf ISet.empty (icacheAt 0).icache = true ∧ (0x2007 : Word).getLsbD 13 = true ∧
    let t : State := { icacheAt 0 with imemControl := 0x2007 }
    t.lruPrioRst = true ∧ sparseWf ISet.empty t.icache = true ∧ (t.iset (iplaceOf 0)).hitWay (itagOf 0) = none ∧
    (t.iset (iplaceOf 0)).victimWay t.iloc false = some 0 := by decide

/-- IMC cleared; DMC from 11 to 10 (bank B loses its lines, bank A keeps them). -/
theorem test_witness_ClearingTheControlsInvalidates :
    sparseWf ISet.empty dirtyLine.icache = true ∧ sparseWf DSet.empty dirtyLine.dcache = true ∧
    (0x1009 : Word).getLsbD 2 = false ∧
    bankIsCacheUnder (dmcOf 0x1009) (bankOfKey place2004.key) = false ∧
    bankIsCacheUnder (dmcOf 0x1009) (bankOfKey 0) = true := by decide

/-- The four places: the tag array and the data array of each cache, and L1 instruction SRAM. -/
theorem test_witness_TestWriteThenRead :
    bitAt 2 1 = true ∧ bitAt 2 2 = false ∧ bitAt 6 1 = true ∧ bitAt 6 2 = true ∧
    ((icacheAt 0).memoryCanonical ∧ (icacheAt 0).imc = true ∧ sparseWf ISet.empty (icacheAt 0).icache = true) ∧
    ((writeBack 0).memoryCanonical ∧ (writeBack 0).bankIsCache (dtestPlace 2).bank = true ∧
      sparseWf DSet.empty (writeBack 0).dcache = true) ∧
    (writeBack 0).bankIsCache (dtestPlace 0x800006).bank = true :=
  ⟨by decide, by decide, by decide, by decide, ⟨rfl, by decide⟩, ⟨rfl, by decide⟩, by decide⟩

/-- The places that the commands name, with every field at its largest value: the last word of the instruction bank, of L1
instruction SRAM, of data bank B, the last line of an instruction set, of a data set; and the first word of data bank A. -/
theorem test_witness_TestWriteThenRead_places :
    (∀ c ∈ ([0x0C0303FE, 0x0C0303FC] : List Word), bitAt c 2 = true ∧
      (0xFFA13FF8 : Addr) = BitVec.ofNat 32 (0xFFA10000 + (c.extractLsb' 16 2).toNat * 0x1000 +
        (c.extractLsb' 26 2).toNat * 0x400 + (c.extractLsb' 5 5).toNat * 0x20 + (c.extractLsb' 3 2).toNat * 8)) ∧
    (∀ c ∈ ([0x058347FE, 0x058347FC] : List Word), bitAt c 2 = true ∧ bitAt c 24 = true ∧
      (0xFFA0FFF8 : Addr) = BitVec.ofNat 32 ((if bitAt c 23 then 0xFFA08000 else 0xFFA00000) +
        (c.extractLsb' 14 1).toNat * 0x4000 + (c.extractLsb' 16 2).toNat * 0x1000 + (c.extractLsb' 26 1).toNat * 0x800 +
        (c.extractLsb' 5 6).toNat * 0x20 + (c.extractLsb' 3 2).toNat * 8)) ∧
    (∀ ca ∈ ([(0x048347FE, 0xFF907FF8), (0x4004, 0xFF804000)] : List (Word × Addr)),
      bitAt ca.1 2 = true ∧ bitAt ca.1 24 = false ∧ bitAt ca.1 14 = true ∧
      (writeBack 0).bankIsCache (if bitAt ca.1 23 then .bankB else .bankA) = true ∧
      ca.2 = BitVec.ofNat 32 ((if bitAt ca.1 23 then 0xFF904000 else 0xFF804000) + (ca.1.extractLsb' 16 2).toNat * 0x1000 +
        (ca.1.extractLsb' 26 1).toNat * 0x800 + (ca.1.extractLsb' 5 6).toNat * 0x20 + (ca.1.extractLsb' 3 2).toNat * 8)) ∧
    (∀ c ∈ ([0x0C0303FA, 0x0C0303F8] : List Word), bitAt c 2 = false ∧
      (⟨3, 31⟩ : IPlace) = ⟨(c.extractLsb' 16 2).toNat, (c.extractLsb' 5 5).toNat⟩ ∧
      (3 : Fin 4).val = (c.extractLsb' 26 2).toNat) ∧
    ∀ c ∈ ([0x048347FA, 0x048347F8] : List Word), bitAt c 2 = false ∧ bitAt c 24 = false ∧ bitAt c 14 = true ∧
      (⟨.bankB, 3, 63⟩ : DPlace) =
        ⟨if bitAt c 23 then .bankB else .bankA, (c.extractLsb' 16 2).toNat, (c.extractLsb' 5 6).toNat⟩ ∧
      (1 : Fin 2).val = (c.extractLsb' 26 1).toNat := by
  refine ⟨fun c h => ?_, fun c h => ?_, fun c h => ?_, fun c h => ?_, fun c h => ?_⟩ <;>
    simp only [List.mem_cons, List.not_mem_nil, or_false] at h <;> rcases h with rfl | rfl <;> decide

/-- Both ends of the maskable and of the non-maskable interrupts, above and below the watermark; the hardware error; what holds
one back: IMASK, an interrupted context, a handler. -/
theorem test_witness_InterruptTakenAndReturned :
    ((irqAt 0).nextInterrupt = some 0 ∧ { irqAt 0 with imask := 0 }.nextInterrupt = some 0 ∧
      { irqAt 4 with imask := 0 }.nextInterrupt = some 4 ∧ (irqAt 15).nextInterrupt = some 15) ∧
    ({ irqAt 5 with imask := 0 }.nextInterrupt = none ∧ (at0 0).nextInterrupt = none) ∧
    ({ at0 0 with imask := 0x20, hwErrorPending := true, iprio := 6 }.nextInterrupt = some 5 ∧
      5 < ((6 : Word) &&& 0xF).toNat ∧ ¬ 5 < ((5 : Word) &&& 0xF).toNat) ∧
    ({ irqAt 2 with handling := some .data }.nextInterrupt = some 2 ∧
      { irqAt 3 with handling := some .data }.nextInterrupt = none) ∧
    ({ irqAt 6 with isrs := [⟨7, 0, .user, false⟩] }.nextInterrupt = some 6 ∧
      { irqAt 7 with isrs := [⟨7, 0, .user, false⟩] }.nextInterrupt = none) ∧
    (let s := irqAt 15
     s.interruptible 15 = true ∧ (s.enterInterrupt 15).isrs = (s.enterInterrupt 15).isrs) := by decide

/-- R430: entry 3 of the vector table is EVT3. -/
theorem test_event3_vector :
    Gives (exec .csync { irqAt 3 with evt3 := 0x3000 }) (fun t => t.pc == 0x3000 && t.handling == none) = true := by decide

/-- An interrupt above the watermark raises the depth to 8; its return performs the writes above 2. -/
theorem test_interrupt_depth :
    (let s : State := { irqAt 6 with iprio := 7 }.takeInterrupt
     let h : State := { s with writeBuf := [⟨0, .word, 1⟩, ⟨4, .word, 2⟩, ⟨8, .word, 3⟩] }.interruptReturn
     s.writeBufDepth == 8 && s.pc == 0x4000 && h.writeBufDepth == 2 && h.writeBuf == [⟨4, .word, 2⟩, ⟨8, .word, 3⟩] &&
       Memory.read h.mem 0 == 1 && h.pc == 0x1000) = true := by decide

/-- The shadow of a branch: `R1 = [P0]` at 0x1000, and the same behind a NOP and a CSYNC at 0x1002. -/
def shadowAt (a : Addr) : State :=
  { withBytes (at0 a) 0x1000 [0x01, 0x91, 0x00, 0x00, 0x23, 0x00, 0x01, 0x91] with shadow := some 0x1000 }

/-- R396, R477: two conditional jumps, the second at the fall-through of the first; the load behind the second is read ahead
whichever way CC would send it. -/
theorem test_speculation_second_jump :
    (let s : State := { withBytes (at0 0x08000000) 0x1000 [0x02, 0x18, 0x02, 0x18, 0x01, 0x91] with cc := true }
     Gives (exec (.jumpCC 2) s) fun t =>
       t.shadow == some 0x1002 && (t.speculativeRead [false]).hwErrorPending &&
         !(t.speculativeRead [true]).hwErrorPending) = true := by decide

/-- In the shadow: a load that fails its checks, one in MMR space, one answered, one that nothing answers, uncached and on a
miss; a load past a CSYNC; a further conditional jump. No branch taken before: a load at pc cancelled, one behind a CLI at pc,
one three instructions on, one in MMR space. -/
theorem test_witness_DroppedReads :
    ((shadowAt 0x2002).shadow = some 0x1000 ∧ (shadowAt 0x2002).loadAhead 0x1000 [] = some 0x2002 ∧
      ∃ st, (shadowAt 0x2002).checkData (.load 0x2002) = .error st) ∧
    ((shadowAt 0xFFC00000).loadAhead 0x1000 [] = some 0xFFC00000 ∧ inMmrSpace 0xFFC00000 = true) ∧
    ((shadowAt 0x2000).loadAhead 0x1000 [] = some 0x2000 ∧ (shadowAt 0x2000).memoryAccessOk (.load 0x2000) ∧
      ((shadowAt 0x2000).region 0x2000).unpopulated = false) ∧
    ((shadowAt 0x08000000).loadAhead 0x1000 [] = some 0x08000000 ∧
      (shadowAt 0x08000000).memoryAccessOk (.load 0x08000000) ∧
      (shadowAt 0x08000000).pageMode 0x08000000 = .uncached ∧ (shadowAt 0x08000000).fullyBuffered 0x08000000 4 = false ∧
      ((shadowAt 0x08000000).region 0x08000000).unpopulated = true ∧
      ((shadowAt 0x08000000).speculativeRead [false, false, false]).hwErrorPending = false) ∧
    (let s : State :=
       { shadowAt 0x08000000 with dmemControl := 0x100F, dcplb := State.reset.dcplb.set 0 ⟨0x08000000, 0x3109D⟩ }
     s.loadAhead 0x1000 [] = some 0x08000000 ∧ s.memoryAccessOk (.load 0x08000000) ∧
       s.pageMode 0x08000000 = .writeBack ∧ s.fullyBuffered 0x08000000 4 = false ∧
       (∀ pl, s.dplace 0x08000000 = some pl → (s.dset pl).hitWay (dtagOf 0x08000000) = none)) ∧
    (∃ t t1, ({ shadowAt 0x08000000 with pc := 0x1000 }.runAhead [false, false]) = some t ∧
      t.fetchInstr = .ok ([0x23, 0x00], t1) ∧ decode [0x23, 0x00] = .ok (.csync, [])) ∧
    (∃ t1, (withBytes (at0 0) 0x1000 [0x02, 0x18]).fetchInstr = .ok ([0x02, 0x18], t1) ∧
      decode [0x02, 0x18] = .ok (.jumpCC 2, [])) ∧
    (let s : State := { withBytes (irqAt 15) 0x1000 [0x01, 0x91] with p := { State.reset.p with p0 := 0x08000000 } }
     s.shadow = none ∧ s.nextInterrupt = some 15 ∧ s.loadAhead s.pc (List.take 3 []) = some 0x08000000 ∧
       s.memoryAccessOk (.load 0x08000000) ∧ (s.cancelledLoad []).hwErrorPending = true ∧
       (s.cancelledLoad []).isrs = [⟨15, 0x1000, .supervisor, false⟩]) ∧
    (let s : State := { withBytes (irqAt 15) 0x1000 [0x30, 0x00, 0x01, 0x91] with p := { State.reset.p with p0 := 0x2000 } }
     s.shadow = none ∧ s.nextInterrupt = some 15 ∧ s.loadAhead s.pc (List.take 3 [false]) = some 0x2000) ∧
    (let s : State :=
       { withBytes (irqAt 15) 0x1000 [0x30, 0x00, 0, 0, 0, 0, 0x01, 0x91] with p := { State.reset.p with p0 := 0xFFC00000 } }
     s.nextInterrupt = some 15 ∧ s.loadAhead s.pc (List.take 3 [false, false, false, true]) = some 0xFFC00000) :=
  ⟨⟨rfl, by decide, _, rfl⟩, ⟨by decide, by decide⟩, ⟨by decide, ok_uncached _ _ (by decide), by decide⟩,
    ⟨by decide, ok_uncached _ _ (by decide), by decide⟩,
    ⟨by decide, ok_page _ _ ⟨0x08000000, 0x3109D⟩ (by decide), by decide, by decide, fun _ _ => rfl⟩,
    ⟨_, _, rfl, rfl, rfl⟩, ⟨_, rfl, rfl⟩, ⟨by decide, by decide, by decide, ok_uncached _ _ (by decide), by decide⟩,
    by decide, by decide⟩

theorem recencyLegal_of_empty (s : State) (h : s.icache = []) : s.recencyLegal := by
  refine ⟨by rw [h]; rfl, fun k => ?_⟩
  rw [h]
  exact (by decide : ISet.empty.recency.Perm iways)

/-- The invariants hold at reset, and a step from there answers a next state. -/
theorem test_witness_StepKeeps :
    State.reset.memoryCanonical ∧ State.reset.controlsLegal ∧ State.reset.disabledCachesInvalid ∧
    State.reset.recencyLegal ∧ State.reset.writeBufferBounded ∧
    Gives (step State.reset) (fun t => t.pc == 0xEF000002) = true :=
  ⟨rfl, ⟨rfl, rfl, by decide, rfl, fun _ h => by cases h⟩, noLines _ ⟨rfl, rfl⟩, recencyLegal_of_empty _ rfl,
    ⟨by decide, .inl rfl⟩, by decide⟩

/-- The same away from reset: a cached load that fills a line. -/
theorem test_witness_StepKeeps_cached :
    let s := withBytes (writeBack 0x2004) 0x1000 [0x01, 0x91]
    s.memoryCanonical ∧ s.controlsLegal ∧ s.disabledCachesInvalid ∧ s.recencyLegal ∧ s.writeBufferBounded ∧
    Gives (step s) (fun t => ((t.dset place2004).lines[0]).valid) = true :=
  ⟨by unfold State.memoryCanonical; decide, ⟨by decide, by decide, by decide, by decide, fun _ h => by cases h⟩,
    noLines _ ⟨rfl, rfl⟩, recencyLegal_of_empty _ rfl, ⟨by decide, .inl rfl⟩, by decide⟩

end Sys2Proof.Tests
end

section
/-! Protection of MMR space (R120): the minimal address check stops the access before any descriptor is looked up. -/

namespace Sys2Proof.Machine

/-- An access that the minimal address check stops ends with that stop, whatever the DCPLBs say (R130, R419). -/
theorem checkData_of_minimalDataStop {s : State} {acc : Access} {st : Stop} (h : s.minimalDataStop acc = some st) :
    s.checkData acc = .error st := by
  unfold State.checkData
  rw [h]

/-- In MMR space the check of privilege (R120) comes after that of alignment and before that of existence (R130). -/
theorem minimalDataStop_mmrSpace_of_unprivileged {s : State} {acc : Access} (hal : acc.misaligned = false)
    (hmmr : inMmrSpace acc.addr = true) (hpriv : s.mode = .user ∨ acc.dag = .dag1) :
    s.minimalDataStop acc = some (acc.exc .dataProtViolation) := by
  unfold State.minimalDataStop
  rw [hal, if_neg Bool.false_ne_true, if_pos hmmr, if_pos hpriv]

/-- Settles O11: the check of privilege is part of the minimal address check, which is made first. -/
theorem mmrSpaceIsPrivileged : Obligations.MmrSpaceIsPrivileged := by
  intro s acc hal haddr hpriv
  have hmmr : inMmrSpace acc.addr = true := decide_eq_true haddr
  exact checkData_of_minimalDataStop (minimalDataStop_mmrSpace_of_unprivileged hal hmmr hpriv)

end Sys2Proof.Machine
end

section
/-! Locked ways of the instruction cache (R188): a set none of whose ways may be replaced caches nothing. -/

namespace Sys2Proof.Machine

/-- Every search of victimWay passes over a locked way, so that none is left to take. -/
theorem victimWay_of_allLocked (st : ISet) {locked : Fin 4 → Bool} (high : Bool) (h : ∀ w, locked w = true) :
    st.victimWay locked high = none := by
  have hskip (ways : List (Fin 4)) (p : Fin 4 → Bool) : (ways.find? fun w => !locked w && p w) = none := by
    simp [h]
  have hany (ways : List (Fin 4)) : (ways.find? fun w => !locked w) = none := by
    simp [h]
  unfold ISet.victimWay
  rw [hskip, hskip, hany, ite_self]

/-- A fetch that misses and finds no way to fill is answered by the bus and leaves only the line's bus request (R188). -/
theorem cachedFetch_of_noVictim {s : State} {a : Addr} {prio : Bool}
    (hmiss : (s.iset (iplaceOf a)).hitWay (itagOf a) = none)
    (hfull : (s.iset (iplaceOf a)).victimWay s.iloc (prio && !s.lruPrioRst) = none) :
    s.cachedFetch a prio = (s.busBytes (wordAddr a) 8, s.touch (lineAddr a)) := by
  simp only [State.cachedFetch, hmiss, hfull]

/-- Settles O48: no way of the set can be filled, and the request for a populated line leaves no mark. -/
theorem allWaysLockedCachesNothing : Obligations.AllWaysLockedCachesNothing := by
  intro s a prio hlocked _ hline hmiss
  rw [cachedFetch_of_noVictim hmiss (victimWay_of_allLocked _ _ hlocked), touch_of_populated hline]

end Sys2Proof.Machine
end

section
/-! NOP (R381): the pc moves over the instruction's two bytes and nothing else changes. -/

namespace Sys2Proof.Machine

/-- NOP has no stop and no fault, in any mode. -/
theorem exec_nop (s : State) : exec .nop s = .next (s.advance 2) := rfl

/-- Settles O22: a NOP advances by its own length, 2, and advancing writes the pc alone. -/
theorem nopCompletes : Obligations.NopCompletes := by
  intro s
  have hadvance : s.advance 2 = { s with pc := s.pc + 2 } := rfl
  rw [exec_nop, hadvance]

end Sys2Proof.Machine
end

section
/-! The step invariants (R27, R31, R40, R50, R60, R63): each is kept by the primitive moves, and so by every step
(`Closed.step`). -/

namespace Sys2Proof.Machine

/-! ### Memory in canonical form -/

/-- Settles O56: the primitive moves keep memory canonical. -/
theorem stepKeepsMemoryCanonical : Obligations.StepKeepsMemoryCanonical :=
  fun _ _ h hstep => memoryCanonical_closed.step h hstep

/-! ### The write buffer within its depth -/

/-- Only a move of the write buffer itself or of its depth bears on the bound (R63, R228). -/
theorem writeBufferBounded_congr {s t : State} (h : s.writeBufferBounded) (hb : t.writeBuf = s.writeBuf)
    (hd : t.writeBufDepth = s.writeBufDepth) : t.writeBufferBounded := by
  unfold State.writeBufferBounded at *
  rw [hb, hd]
  exact h

/-- The primitive moves keep the write buffer within its depth. -/
theorem writeBufferBounded_closed : Closed (fun _ => True) State.writeBufferBounded where
  core := fun h ht => writeBufferBounded_congr h (by rw [ht]) (by rw [ht])
  mem := fun _ _ h => h
  shorter := by
    intro s e es h he
    obtain ⟨hlen, hdepth⟩ := h
    rw [he, List.length_cons] at hlen
    exact ⟨Nat.le_of_succ_le hlen, hdepth⟩
  longer := by
    intro s e h hroom
    obtain ⟨-, hdepth⟩ := h
    have hlt : s.writeBuf.length < s.writeBufDepth := hroom (by omega)
    refine ⟨?_, hdepth⟩
    show (s.writeBuf ++ [e]).length ≤ s.writeBufDepth
    rw [List.length_append, List.length_singleton]
    exact hlt
  victim := by intro s k v h; cases k <;> exact h
  dset := fun _ _ h _ => h
  iset := fun _ _ h _ _ => h
  imem := fun v h => writeBufferBounded_congr h (by rw [writeImemControl_frame]) (by rw [writeImemControl_frame])
  dmem := fun _ _ _ h _ _ => h
  iprio := fun _ h => h
  stores := fun _ h _ => h
  push := fun _ _ h _ => h
  deep := by
    intro s h
    obtain ⟨hlen, hdepth⟩ := h
    refine ⟨?_, .inr rfl⟩
    show s.writeBuf.length ≤ 8
    omega
  shallow := fun _ hlen => ⟨hlen, .inl rfl⟩
  good := fun _ _ _ => trivial

/-- Settles O60: a full write buffer performs its oldest entries before it takes another. -/
theorem stepKeepsWriteBufferBounded : Obligations.StepKeepsWriteBufferBounded :=
  fun _ _ h hstep => writeBufferBounded_closed.step h hstep

/-! ### The recency orders -/

/-- Only a move of the instruction cache's tags bears on the recency orders. -/
theorem recencyLegal_congr {s t : State} (h : s.recencyLegal) (hi : t.icache = s.icache) : t.recencyLegal := by
  unfold State.recencyLegal at *
  rw [hi]
  exact h

/-- A set whose recency stays an order of the four ways may take the place of another. -/
theorem recencyLegal_setIset {s : State} {pl : IPlace} {st : ISet} (h : s.recencyLegal)
    (hperm : (s.iset pl).recency.Perm iways → st.recency.Perm iways) : (s.setIset pl st).recencyLegal := by
  obtain ⟨hwf, hall⟩ := h
  refine ⟨sparseSet_wf _ _ hwf, fun k => ?_⟩
  rw [State.setIset_icache, sparseGet_sparseSet _ _ _ hwf]
  by_cases hk : k = pl.key
  · rw [if_pos hk]; exact hperm (hall pl.key)
  · rw [if_neg hk]; exact hall k

/-- Writing IMEM_CONTROL leaves the recency orders alone. -/
theorem recencyLegal_writeImemControl {s : State} (v : Word) (h : s.recencyLegal) :
    (s.writeImemControl v).recencyLegal := by
  obtain ⟨hwf, hall⟩ := h
  refine ⟨(writeImemControl_get hwf v 0).1, fun k => ?_⟩
  rw [(writeImemControl_get hwf v k).2.1]
  exact hall k

/-- The primitive moves keep every recency an order of the four ways. -/
theorem recencyLegal_closed : Closed (fun _ => True) State.recencyLegal where
  core := fun h ht => recencyLegal_congr h (by rw [ht])
  mem := fun _ _ h => h
  shorter := fun _ _ h _ => h
  longer := fun _ h _ => h
  victim := by intro s k v h; cases k <;> exact h
  dset := fun _ _ h _ => h
  iset := fun _ _ h _ hperm => recencyLegal_setIset h hperm
  imem := fun v h => recencyLegal_writeImemControl v h
  dmem := fun _ _ _ h _ _ => h
  iprio := fun _ h => h
  stores := fun _ h _ => h
  push := fun _ _ h _ => h
  deep := fun h => h
  shallow := fun h _ => h
  good := fun _ _ _ => trivial

/-- Settles O59: a way that is marked moves to the end of its set's order, and nothing else moves a way. -/
theorem stepKeepsRecencyLegal : Obligations.StepKeepsRecencyLegal :=
  fun _ _ h hstep => recencyLegal_closed.step h hstep

/-! ### Disabled caches hold no valid line -/

/-- Only the caches' tags and the memory control registers bear on it. -/
theorem disabledCachesInvalid_congr {s t : State} (h : s.disabledCachesInvalid) (hi : t.icache = s.icache)
    (hd : t.dcache = s.dcache) (him : t.imemControl = s.imemControl) (hdm : t.dmemControl = s.dmemControl) :
    t.disabledCachesInvalid := by
  unfold State.disabledCachesInvalid State.imc State.bankIsCache State.dmc at *
  rw [hi, hd, him, hdm]
  exact h

/-- A data set changes only in a bank that is cache. -/
theorem disabledCachesInvalid_setDset {s : State} {pl : DPlace} (st : DSet) (h : s.disabledCachesInvalid)
    (hk : s.bankIsCache (bankOfKey pl.key) = true) : (s.setDset pl st).disabledCachesInvalid := by
  obtain ⟨hwi, hwd, hinstr, hdata⟩ := h
  refine ⟨hwi, sparseSet_wf _ _ hwd, hinstr, fun k hoff w => ?_⟩
  have hoff' : s.bankIsCache (bankOfKey k) = false := hoff
  have hne : k ≠ pl.key := by rintro rfl; rw [hk] at hoff'; cases hoff'
  simp only [State.setDset_dcache, sparseGet_sparseSet _ _ _ hwd, if_neg hne]
  exact hdata k hoff' w

/-- An instruction set changes only while the instruction cache is enabled. -/
theorem disabledCachesInvalid_setIset {s : State} (pl : IPlace) (st : ISet) (h : s.disabledCachesInvalid)
    (hon : s.imc = true) : (s.setIset pl st).disabledCachesInvalid := by
  obtain ⟨hwi, hwd, -, hdata⟩ := h
  refine ⟨sparseSet_wf _ _ hwi, hwd, fun hoff => ?_, hdata⟩
  have hoff' : s.imc = false := hoff
  rw [hon] at hoff'
  cases hoff'

/-- IMC as IMEM_CONTROL holds it after it is written. -/
theorem writeImemControl_imc (s : State) (v : Word) : (s.writeImemControl v).imc = v.getLsbD 2 := by
  unfold State.imc bitAt
  rw [writeImemControl_frame]
  exact packImemControl_bit v (by decide) (by decide)

/-- DMC as DMEM_CONTROL holds it after it is written. -/
theorem writeDmemControl_bankIsCache (s : State) (v : Word) (b : Bank) :
    (s.writeDmemControl v).bankIsCache b = bankIsCacheUnder (dmcOf v) b := by
  show bankIsCacheUnder (dmcOf (packDmemControl v)) b = _
  rw [dmcOf_pack]

/-- Writing IMEM_CONTROL with IMC = 0 invalidates the instruction cache (R191). -/
theorem disabledCachesInvalid_writeImemControl {s : State} (v : Word) (h : s.disabledCachesInvalid) :
    (s.writeImemControl v).disabledCachesInvalid := by
  obtain ⟨hwi, hwd, -, hdata⟩ := h
  have hdcache : (s.writeImemControl v).dcache = s.dcache := by rw [writeImemControl_frame]
  have hbank (b : Bank) : (s.writeImemControl v).bankIsCache b = s.bankIsCache b := by
    rw [writeImemControl_frame]; rfl
  refine ⟨(writeImemControl_get hwi v 0).1, by rw [hdcache]; exact hwd, fun hoff k w => ?_, fun k hoff w => ?_⟩
  · rw [writeImemControl_imc] at hoff
    rw [(writeImemControl_get hwi v k).2.2 w, hoff, Bool.and_false]
  · rw [hbank] at hoff
    simp only [hdcache]
    exact hdata k hoff w

/-- A set of a data bank after DMEM_CONTROL is written. -/
theorem writeDmemControl_get {s : State} (h : sparseWf DSet.empty s.dcache = true) (v : Word) (k : Nat) :
    sparseGet DSet.empty (s.writeDmemControl v).dcache k =
      if bankIsCacheUnder (dmcOf v) (bankOfKey k) then sparseGet DSet.empty s.dcache k
      else (sparseGet DSet.empty s.dcache k).mapLines DLine.invalidate :=
  invalidateDataBanks_get (s := { s with dmemControl := packDmemControl v }) h (dmcOf v) k

/-- A line of a bank that the written code makes no cache is invalid (R227, D8). -/
theorem writeDmemControl_invalid {s : State} (h : sparseWf DSet.empty s.dcache = true) {v : Word} {k : Nat}
    (hoff : bankIsCacheUnder (dmcOf v) (bankOfKey k) = false) (w : Fin 2) :
    ((sparseGet DSet.empty (s.writeDmemControl v).dcache k).lines[w.val]).valid = false := by
  have hget : sparseGet DSet.empty (s.writeDmemControl v).dcache k =
      (sparseGet DSet.empty s.dcache k).mapLines DLine.invalidate := by
    rw [writeDmemControl_get h, hoff]; rfl
  simp only [hget, DSet.mapLines_line]
  rfl

/-- Writing DMEM_CONTROL invalidates the banks that are cache no more (R227). -/
theorem disabledCachesInvalid_writeDmemControl {s : State} (v : Word) (h : s.disabledCachesInvalid) :
    (s.writeDmemControl v).disabledCachesInvalid := by
  obtain ⟨hwi, hwd, hinstr, -⟩ := h
  refine ⟨hwi, sparseMap_wf _ hwd, hinstr, fun k hoff w => ?_⟩
  rw [writeDmemControl_bankIsCache] at hoff
  exact writeDmemControl_invalid hwd hoff w

/-- The primitive moves leave a disabled cache without a valid line. -/
theorem disabledCachesInvalid_closed : Closed (fun _ => True) State.disabledCachesInvalid where
  core := fun h ht => disabledCachesInvalid_congr h (by rw [ht]) (by rw [ht]) (by rw [ht]) (by rw [ht])
  mem := fun _ _ h => h
  shorter := fun _ _ h _ => h
  longer := fun _ h _ => h
  victim := by intro s k v h; cases k <;> exact h
  dset := fun _ st h hk => disabledCachesInvalid_setDset st h hk
  iset := fun pl st h hon _ => disabledCachesInvalid_setIset pl st h hon
  imem := fun v h => disabledCachesInvalid_writeImemControl v h
  dmem := fun _ _ v h _ _ => disabledCachesInvalid_writeDmemControl v h
  iprio := fun _ h => h
  stores := fun _ h _ => h
  push := fun _ _ h _ => h
  deep := fun h => h
  shallow := fun h _ => h
  good := fun _ _ _ => trivial

/-- Settles O58: lines enter an enabled cache alone, and disabling a cache invalidates its lines. -/
theorem stepKeepsDisabledCachesInvalid : Obligations.StepKeepsDisabledCachesInvalid :=
  fun _ _ h hstep => disabledCachesInvalid_closed.step h hstep

/-! ### The control registers -/

/-- A store on its way does not bring the reserved DMC code (R40, log 29). -/
def KeepsDmcLegal (ps : PendingStore) : Prop :=
  ps.path = .coreMmr → mmrAt ps.entry.addr = some .dmemControl → dmcOf ps.entry.value ≠ 1

/-- Only the control registers and the store buffer bear on their legality, and a shorter store buffer keeps it. -/
theorem controlsLegal_congr {s t : State} (h : s.controlsLegal) (hi : t.imemControl = s.imemControl)
    (hd : t.dmemControl = s.dmemControl) (hp : t.iprio = s.iprio) (hb : ∀ ps ∈ t.storeBuf, ps ∈ s.storeBuf) :
    t.controlsLegal := by
  obtain ⟨himem, hdmem, hdmc, hiprio, hbuf⟩ := h
  unfold State.controlsLegal State.dmc at *
  rw [hi, hd, hp]
  exact ⟨himem, hdmem, hdmc, hiprio, fun ps hps => hbuf ps (hb ps hps)⟩

/-- A store to DMEM_CONTROL that is not refused does not hold the reserved code (R40). -/
theorem mmrStoreOk_keepsDmcLegal {e : BufEntry} {path : StorePath}
    (h : path = .coreMmr → mmrStoreOk e.addr e.value) : KeepsDmcLegal ⟨e, path⟩ := by
  intro hpath hname
  obtain ⟨name, v, hat, -, hok, hval⟩ := h hpath
  have hdm : name = .dmemControl := Option.some.inj (hat.symm.trans hname)
  subst hdm
  show dmcOf e.value ≠ 1
  rw [hval]
  show dmcOf (packDmemControl v) ≠ 1
  rw [dmcOf_pack]
  intro hone
  simp [mmrStoreRefusal, hone] at hok

/-- A store that is not refused enters the store buffer. -/
theorem controlsLegal_pushStore {s : State} {e : BufEntry} {path : StorePath} (h : s.controlsLegal)
    (hok : path = .coreMmr → mmrStoreOk e.addr e.value) : (s.pushStore e path).controlsLegal := by
  obtain ⟨himem, hdmem, hdmc, hiprio, hbuf⟩ := h
  refine ⟨himem, hdmem, hdmc, hiprio, fun ps hps => ?_⟩
  rcases List.mem_append.1 hps with hold | hnew
  · exact hbuf ps hold
  · rw [List.mem_singleton.1 hnew]; exact mmrStoreOk_keepsDmcLegal hok

/-- The primitive moves keep the control registers legal: each write packs its register. -/
theorem controlsLegal_closed : Closed KeepsDmcLegal State.controlsLegal where
  core := fun h ht => controlsLegal_congr h (by rw [ht]) (by rw [ht]) (by rw [ht]) (by rw [ht]; exact fun _ hp => hp)
  mem := fun _ _ h => h
  shorter := fun _ _ h _ => h
  longer := fun _ h _ => h
  victim := by intro s k v h; cases k <;> exact h
  dset := fun _ _ h _ => h
  iset := fun _ _ h _ _ => h
  imem := by
    intro s v h
    obtain ⟨-, hdmem, hdmc, hiprio, hbuf⟩ := h
    rw [writeImemControl_frame]
    exact ⟨packImemControl_idem v, hdmem, hdmc, hiprio, hbuf⟩
  dmem := by
    intro s a w v h ha hg
    obtain ⟨himem, -, -, hiprio, hbuf⟩ := h
    refine ⟨himem, packDmemControl_idem v, ?_, hiprio, hbuf⟩
    show dmcOf (packDmemControl v) ≠ 1
    rw [dmcOf_pack]
    exact hg rfl ha
  iprio := by
    intro s v h
    obtain ⟨himem, hdmem, hdmc, -, hbuf⟩ := h
    exact ⟨himem, hdmem, hdmc, packIprio_idem v, hbuf⟩
  stores := fun _ h hsub => controlsLegal_congr h rfl rfl rfl hsub
  push := fun _ _ h hok => controlsLegal_pushStore h hok
  deep := fun h => h
  shallow := fun h _ => h
  good := by
    intro s h
    obtain ⟨-, -, -, -, hbuf⟩ := h
    exact hbuf

/-- Settles O57: a register is packed when it is written, and the reserved DMC code never enters the store buffer. -/
theorem stepKeepsControlsLegal : Obligations.StepKeepsControlsLegal :=
  fun _ _ h hstep => controlsLegal_closed.step h hstep

/-! ### Reset -/

/-- Empty tag arrays hold no valid line. -/
theorem disabledCachesInvalid_of_empty {s : State} (hi : s.icache = []) (hd : s.dcache = []) :
    s.disabledCachesInvalid := by
  have hiset : ∀ w : Fin 4, (ISet.empty.lines[w.val]).valid = false := by decide
  have hdset : ∀ w : Fin 2, (DSet.empty.lines[w.val]).valid = false := by decide
  unfold State.disabledCachesInvalid
  rw [hi, hd]
  exact ⟨rfl, rfl, fun _ _ => hiset, fun _ _ => hdset⟩

/-- Settles O55: at reset memory, tag arrays and buffers list nothing, and the control words are packed ones. -/
theorem resetMeetsInvariants : Obligations.ResetMeetsInvariants := by
  have hcontrols : State.reset.controlsLegal :=
    ⟨rfl, rfl, by decide, rfl, fun _ hps => absurd hps List.not_mem_nil⟩
  have hrecency : State.reset.recencyLegal := ⟨rfl, fun _ => List.Perm.refl _⟩
  exact ⟨State.reset_mem_wf, hcontrols, disabledCachesInvalid_of_empty rfl rfl, hrecency, Nat.zero_le _, .inl rfl⟩

/-- Settles O54: each is a field of the reset state; no set of either tag array is listed. -/
theorem resetState : Obligations.ResetState := by
  have hinstr : ∀ w : Fin 4, (ISet.empty.lines[w.val]).valid = false := by decide
  have hdata : ∀ w : Fin 2, (DSet.empty.lines[w.val]).valid = false := by decide
  exact ⟨rfl, rfl, rfl, rfl, ⟨rfl, rfl, rfl, rfl⟩, rfl, rfl, rfl, fun _ => hinstr, fun _ => hdata⟩

end Sys2Proof.Machine
end

section
/-! The decoder and the encoder (R312, R313): no two rows of a table accept the same units, every well-formed instruction
is found by its own row, and what a row builds encodes back to the units that the row accepted. -/

namespace Sys2Proof

/-! ### Units under a mask -/

/-- A unit has a pattern under a mask when the two agree on the mask's bits. -/
theorem and_eq_of_bits {h mask pat : Half} (hpat : pat &&& mask = pat)
    (hbits : ∀ k, k < 16 → mask.getLsbD k = true → h.getLsbD k = pat.getLsbD k) : h &&& mask = pat := by
  rw [← hpat]
  apply BitVec.eq_of_getLsbD_eq
  intro k hk
  rw [BitVec.getLsbD_and, BitVec.getLsbD_and]
  cases hm : mask.getLsbD k with
  | false => rw [Bool.and_false, Bool.and_false]
  | true => rw [hbits k hk hm]

/-- A unit is what two masks that cover it leave of it. -/
theorem and_or_and_of_cover (h : Half) {m n : Half} (hc : m ||| n = BitVec.allOnes 16) : (h &&& m) ||| (h &&& n) = h := by
  rw [← BitVec.and_or_distrib_left, hc, BitVec.and_allOnes]

/-- A unit from its pattern and the data register that its low bits name (R311). -/
theorem or_dregNum_dregOf {h pat : Half} (hm : h &&& 0xFFF8 = pat) : pat ||| dregNum (dregOf h) = h := by
  rw [dregNum_dregOf, ← hm]
  exact and_or_and_of_cover h (by decide)

/-- A unit from its pattern and the pointer register that its low bits name (R311). -/
theorem or_pregNum_pregOf {h pat : Half} (hm : h &&& 0xFFF8 = pat) : pat ||| pregNum (pregOf h) = h := by
  rw [pregNum_pregOf, ← hm]
  exact and_or_and_of_cover h (by decide)

/-- The bits of a pattern that covers the bits from `n` up. -/
theorem pattern_bit {h mask pat : Half} {n : Nat} (hm : h &&& mask = pat)
    (hmask : ∀ k, k < 16 → mask.getLsbD k = decide (n ≤ k)) (k : Nat) (hk : k < 16) :
    pat.getLsbD k = (decide (n ≤ k) && h.getLsbD k) := by
  rw [← hm, BitVec.getLsbD_and, hmask k hk, Bool.and_comm]

/-! ### Rows -/

/-- No pair of units is accepted by both rows. -/
def Row.disjoint (q r : Row) : Prop := ∀ h l, ¬ (q.accepts h l = true ∧ r.accepts h l = true)

/-- Rows whose patterns of the first unit differ where both masks look accept no common units. -/
theorem Row.disjoint_of_match {q r : Row} (hne : q.match1 &&& r.mask1 ≠ r.match1 &&& q.mask1) : q.disjoint r := by
  rintro h l ⟨hq, hr⟩
  simp only [Row.accepts, Bool.and_eq_true, beq_iff_eq] at hq hr
  obtain ⟨hq, -⟩ := hq
  obtain ⟨hr, -⟩ := hr
  apply hne
  rw [← hq, ← hr, BitVec.and_assoc, BitVec.and_assoc, BitVec.and_comm q.mask1]

theorem shortRows_disjoint : shortRows.Pairwise Row.disjoint :=
  List.Pairwise.imp (fun hne => Row.disjoint_of_match hne)
    (by decide : shortRows.Pairwise fun q r => q.match1 &&& r.mask1 ≠ r.match1 &&& q.mask1)

theorem longRows_disjoint : longRows.Pairwise Row.disjoint :=
  List.Pairwise.imp (fun hne => Row.disjoint_of_match hne)
    (by decide : longRows.Pairwise fun q r => q.match1 &&& r.mask1 ≠ r.match1 &&& q.mask1)

/-- Settles O4: the patterns of any two rows differ on a bit of the first unit that both masks keep. -/
theorem rowsDoNotOverlap : Obligations.RowsDoNotOverlap := ⟨shortRows_disjoint, longRows_disjoint⟩

/-- A 16-bit row tests the first unit alone. -/
theorem shortRow_accepts {mask pat h l : Half} {build : Half → Instr} :
    (shortRow mask pat build).accepts h l = true ↔ h &&& mask = pat := by
  simp [shortRow, Row.accepts]

/-- A 32-bit row without a mask of the second unit tests the first unit alone. -/
theorem longRow_accepts {mask pat h l : Half} {build : Half → Half → Instr} :
    (Row.mk mask pat 0 0 build).accepts h l = true ↔ h &&& mask = pat := by
  simp [Row.accepts]

/-- Of rows that do not overlap, the one that accepts the units builds the instruction. -/
theorem rowsDecode_of_row {rows : List Row} (hd : rows.Pairwise Row.disjoint) {r : Row} (k : Nat)
    (hk : rows[k]? = some r) {h l : Half} (ha : r.accepts h l = true) : rowsDecode rows h l = some (r.build h l) := by
  have hmem : r ∈ rows := List.mem_of_getElem? hk
  unfold rowsDecode
  suffices hfind : (rows.find? fun r => r.accepts h l) = some r by rw [hfind]; rfl
  clear hk
  induction rows with
  | nil => cases hmem
  | cons q rows ih =>
    obtain ⟨hq, hd⟩ := List.pairwise_cons.1 hd
    rcases List.mem_cons.1 hmem with rfl | hmem
    · exact List.find?_cons_of_pos ha
    · have hqa : ¬ q.accepts h l = true := fun hqa => hq r hmem h l ⟨hqa, ha⟩
      rw [List.find?_cons_of_neg (p := fun r : Row => r.accepts h l) hqa]
      exact ih hd hmem

/-- The row that a decoded instruction comes from. -/
theorem rowsDecode_some {rows : List Row} {h l : Half} {i : Instr} (hi : rowsDecode rows h l = some i) :
    ∃ r ∈ rows, r.accepts h l = true ∧ r.build h l = i := by
  unfold rowsDecode at hi
  obtain ⟨r, hr, hb⟩ := Option.map_eq_some_iff.1 hi
  exact ⟨r, List.mem_of_find?_eq_some hr, by simpa using List.find?_some hr, hb⟩

/-! ### From an instruction to its row -/

/-- The table of the instruction's length gives the instruction for its own units (R313). -/
def Instr.foundByRow (i : Instr) : Prop :=
  match encode i with
  | [h] => rowsDecode shortRows h 0 = some i
  | [h, l] => rowsDecode longRows h l = some i
  | _ => False

/-- A memory unit over a base whose low six bits are clear keeps its pattern. -/
theorem memUnit_and {mask pat base : Half} (p : PReg) (r : DReg) (hpat : pat &&& mask = pat)
    (hmask : ∀ k, k < 16 → mask.getLsbD k = true → 6 ≤ k)
    (hbase : ∀ k, k < 16 → mask.getLsbD k = true → base.getLsbD k = pat.getLsbD k) :
    memUnit base p r &&& mask = pat :=
  and_eq_of_bits hpat fun k hk hm => (Laws.memUnit_high base p r k (hmask k hk hm)).trans (hbase k hk hm)

/-- The number of a short offset, placed at bit 6, lies in bits 9:6. -/
theorem shortOffset_bit {u : Nat} (hu : shortOffsetOk u = true) (k : Nat) (hk : k < 6 ∨ 10 ≤ k) :
    (BitVec.ofNat 16 (u / 4) <<< 6 : Half).getLsbD k = false := by
  simp only [shortOffsetOk, Bool.and_eq_true, beq_iff_eq, decide_eq_true_eq] at hu
  rw [BitVec.getLsbD_shiftLeft, BitVec.getLsbD_ofNat]
  rcases hk with hk | hk
  · simp [hk]
  · have hlow : u / 4 < 2 ^ (k - 6) :=
      lt_of_lt_of_le (show u / 4 < 2 ^ 4 by omega) (Nat.pow_le_pow_right (by decide) (by omega))
    rw [Nat.testBit_lt_two_pow hlow, Bool.and_false, Bool.and_false]

/-- The base of a short indexed form keeps the pattern's bits above the offset and clear bits below it. -/
theorem shortBase_bit {base : Half} {u : Nat} (hu : shortOffsetOk u = true) (k : Nat) (hk : k < 6 ∨ 10 ≤ k) :
    (base ||| BitVec.ofNat 16 (u / 4) <<< 6).getLsbD k = base.getLsbD k := by
  rw [BitVec.getLsbD_or, shortOffset_bit hu k hk, Bool.or_false]

theorem mask_ten_le : ∀ k, k < 16 → (0xFC00#16).getLsbD k = decide (10 ≤ k) := by decide
theorem mask_six_le : ∀ k, k < 16 → (0xFFC0#16).getLsbD k = decide (6 ≤ k) := by decide
theorem mask_eight_le : ∀ k, k < 16 → (0xFF00#16).getLsbD k = decide (8 ≤ k) := by decide

/-- The short indexed forms: the unit keeps its pattern and names its registers and its offset. -/
theorem shortIndexed_fields {base : Half} (hb : ∀ k, k < 10 → base.getLsbD k = false) (hp : base &&& 0xFC00 = base)
    (p : PReg) (r : DReg) {u : Nat} (hu : shortOffsetOk u = true) :
    let h := memUnit (base ||| BitVec.ofNat 16 (u / 4) <<< 6) p r
    h &&& 0xFC00 = base ∧ dregOf h = r ∧ pregOf (h >>> 3) = p ∧ shortOffsetOf h = u := by
  have hlow : ∀ k, k < 6 → (base ||| BitVec.ofNat 16 (u / 4) <<< 6).getLsbD k = false := fun k hk => by
    rw [shortBase_bit hu k (.inl hk)]; exact hb k (by omega)
  refine ⟨memUnit_and p r hp (fun k hk hm => ?_) fun k hk hm => ?_, dregOf_memUnit hlow p r, pregOf_memUnit hlow p r,
    shortOffsetOf_memUnit hb p r hu⟩
  · have hm' : 10 ≤ k := of_decide_eq_true ((mask_ten_le k hk).symm.trans hm)
    omega
  · exact shortBase_bit hu k (.inr (of_decide_eq_true ((mask_ten_le k hk).symm.trans hm)))

/-- A memory unit keeps its pattern and names its registers. -/
theorem memUnit_fields {base : Half} (hb : ∀ k, k < 6 → base.getLsbD k = false) (hp : base &&& 0xFFC0 = base)
    (p : PReg) (r : DReg) :
    memUnit base p r &&& 0xFFC0 = base ∧ dregOf (memUnit base p r) = r ∧ pregOf (memUnit base p r >>> 3) = p :=
  ⟨memUnit_and p r hp (fun k hk hm => of_decide_eq_true ((mask_six_le k hk).symm.trans hm)) fun _ _ _ => rfl,
    dregOf_memUnit hb p r, pregOf_memUnit hb p r⟩

/-- The unit of a conditional jump keeps its pattern. -/
theorem jumpUnit_and {base : Half} (hp : base &&& 0xFC00 = base) (o : Int) :
    (base ||| (BitVec.ofInt 10 o).setWidth 16) &&& 0xFC00 = base :=
  and_eq_of_bits hp fun k hk hm => by
    have hm' : 10 ≤ k := of_decide_eq_true ((mask_ten_le k hk).symm.trans hm)
    rw [BitVec.getLsbD_or, BitVec.getLsbD_setWidth, BitVec.getLsbD_of_ge _ k hm', Bool.and_false, Bool.or_false]

theorem foundByRow_load (r : DReg) (p : PReg) : (Instr.load r p).foundByRow := by
  obtain ⟨ha, hr, hp⟩ := memUnit_fields (base := 0x9100) (by decide) (by decide) p r
  refine (rowsDecode_of_row shortRows_disjoint 14 rfl (shortRow_accepts.2 ha)).trans ?_
  simp only [shortRow, hr, hp]

theorem foundByRow_store (p : PReg) (r : DReg) : (Instr.store p r).foundByRow := by
  obtain ⟨ha, hr, hp⟩ := memUnit_fields (base := 0x9300) (by decide) (by decide) p r
  refine (rowsDecode_of_row shortRows_disjoint 15 rfl (shortRow_accepts.2 ha)).trans ?_
  simp only [shortRow, hr, hp]

theorem foundByRow_loadShort (r : DReg) (p : PReg) {u : Nat} (hu : shortOffsetOk u = true) :
    (Instr.loadShort r p u).foundByRow := by
  obtain ⟨ha, hr, hp, ho⟩ := shortIndexed_fields (base := 0xA000) (by decide) (by decide) p r hu
  refine (rowsDecode_of_row shortRows_disjoint 16 rfl (shortRow_accepts.2 ha)).trans ?_
  simp only [shortRow, hr, hp, ho]

theorem foundByRow_storeShort (p : PReg) {u : Nat} (r : DReg) (hu : shortOffsetOk u = true) :
    (Instr.storeShort p u r).foundByRow := by
  obtain ⟨ha, hr, hp, ho⟩ := shortIndexed_fields (base := 0xB000) (by decide) (by decide) p r hu
  refine (rowsDecode_of_row shortRows_disjoint 17 rfl (shortRow_accepts.2 ha)).trans ?_
  simp only [shortRow, hr, hp, ho]

theorem foundByRow_loadLong (r : DReg) (p : PReg) {s : Int} (hs : longOffsetOk s = true) :
    (Instr.loadLong r p s).foundByRow := by
  obtain ⟨ha, hr, hp⟩ := memUnit_fields (base := 0xE400) (by decide) (by decide) p r
  refine (rowsDecode_of_row longRows_disjoint 0 rfl (longRow_accepts.2 ha)).trans ?_
  simp only [hr, hp, longOffsetOf_ofInt hs]

theorem foundByRow_storeLong (p : PReg) {s : Int} (r : DReg) (hs : longOffsetOk s = true) :
    (Instr.storeLong p s r).foundByRow := by
  obtain ⟨ha, hr, hp⟩ := memUnit_fields (base := 0xE600) (by decide) (by decide) p r
  refine (rowsDecode_of_row longRows_disjoint 1 rfl (longRow_accepts.2 ha)).trans ?_
  simp only [hr, hp, longOffsetOf_ofInt hs]

/-- A bit number placed at bit 3 lies in bits 7:3. -/
theorem bitNumber_bit {n : Nat} (hn : n ≤ 31) (k : Nat) (hk : k < 3 ∨ 8 ≤ k) :
    (BitVec.ofNat 16 n <<< 3 : Half).getLsbD k = false := by
  rw [BitVec.getLsbD_shiftLeft, BitVec.getLsbD_ofNat]
  rcases hk with hk | hk
  · simp [hk]
  · have hlow : n < 2 ^ (k - 3) :=
      lt_of_lt_of_le (show n < 2 ^ 5 by omega) (Nat.pow_le_pow_right (by decide) (by omega))
    rw [Nat.testBit_lt_two_pow hlow, Bool.and_false, Bool.and_false]

theorem foundByRow_bitset (d : DReg) {n : Nat} (hn : n ≤ 31) : (Instr.bitset d n).foundByRow := by
  have hbit (k : Nat) : (0x4A00 ||| (BitVec.ofNat 16 n <<< 3) ||| dregNum d : Half).getLsbD k =
      ((0x4A00#16).getLsbD k || (BitVec.ofNat 16 n <<< 3 : Half).getLsbD k || (dregNum d).getLsbD k) := by
    rw [BitVec.getLsbD_or, BitVec.getLsbD_or]; rfl
  have ha : (0x4A00 ||| (BitVec.ofNat 16 n <<< 3) ||| dregNum d : Half) &&& 0xFF00 = 0x4A00 :=
    and_eq_of_bits (by decide) fun k hk hm => by
      have h8 : 8 ≤ k := of_decide_eq_true ((mask_eight_le k hk).symm.trans hm)
      rw [hbit, bitNumber_bit hn k (.inr h8), dregNum_high d k (by omega), Bool.or_false, Bool.or_false]; rfl
  have hd : dregOf (0x4A00 ||| (BitVec.ofNat 16 n <<< 3) ||| dregNum d) = d := dregOf_eq <|
    BitVec.eq_of_getLsbD_eq fun k hk => by
      have hbase : ∀ j, j < 3 → (0x4A00#16).getLsbD j = false := by decide
      rw [BitVec.getLsbD_and, seven_bit]
      by_cases h3 : k < 3
      · rw [hbit, bitNumber_bit hn k (.inl h3), hbase k h3]; simp [h3]
      · rw [dregNum_high d k (by omega)]; simp [h3]
  refine (rowsDecode_of_row shortRows_disjoint 18 rfl (shortRow_accepts.2 ha)).trans ?_
  simp only [shortRow, hd, bitNumber_roundtrip hn d]

theorem foundByRow_jumpCC {o : Int} (ho : jumpOffsetOk o = true) : (Instr.jumpCC o).foundByRow := by
  refine (rowsDecode_of_row shortRows_disjoint 19 rfl (shortRow_accepts.2 (jumpUnit_and (by decide) o))).trans ?_
  simp only [shortRow, jumpOffsetOf_ofInt (base := 0x1800) (by decide) ho]

theorem foundByRow_jumpNotCC {o : Int} (ho : jumpOffsetOk o = true) : (Instr.jumpNotCC o).foundByRow := by
  refine (rowsDecode_of_row shortRows_disjoint 20 rfl (shortRow_accepts.2 (jumpUnit_and (by decide) o))).trans ?_
  simp only [shortRow, jumpOffsetOf_ofInt (base := 0x1000) (by decide) ho]

theorem foundByRow_pLow (p : PReg) (imm : Half) : (Instr.pLow p imm).foundByRow := by
  have ha : (0xE108 ||| pregNum p) &&& 0xFFF8 = 0xE108 := by cases p <;> decide
  have hp : pregOf (0xE108 ||| pregNum p) = p := by cases p <;> decide
  refine (rowsDecode_of_row longRows_disjoint 2 rfl (longRow_accepts.2 ha)).trans ?_
  simp only [hp]

theorem foundByRow_pHigh (p : PReg) (imm : Half) : (Instr.pHigh p imm).foundByRow := by
  have ha : (0xE148 ||| pregNum p) &&& 0xFFF8 = 0xE148 := by cases p <;> decide
  have hp : pregOf (0xE148 ||| pregNum p) = p := by cases p <;> decide
  refine (rowsDecode_of_row longRows_disjoint 3 rfl (longRow_accepts.2 ha)).trans ?_
  simp only [hp]

/-- Every well-formed instruction is found by its own row. The forms with no operand, or with one register, are words
that can be written out. -/
theorem foundByRow_of_wf {i : Instr} (hwf : i.wf = true) : i.foundByRow := by
  cases i with
  | nop => rfl
  | csync => rfl
  | ssync => rfl
  | cli d => cases d <;> rfl
  | sti d => cases d <;> rfl
  | testset p => cases p <;> rfl
  | prefetch p => cases p <;> rfl
  | flushinv p => cases p <;> rfl
  | flush p => cases p <;> rfl
  | iflush p => cases p <;> rfl
  | prefetchInc p => cases p <;> rfl
  | flushinvInc p => cases p <;> rfl
  | flushInc p => cases p <;> rfl
  | iflushInc p => cases p <;> rfl
  | load r p => exact foundByRow_load r p
  | store p r => exact foundByRow_store p r
  | loadShort r p u => exact foundByRow_loadShort r p hwf
  | storeShort p u r => exact foundByRow_storeShort p r hwf
  | loadLong r p s => exact foundByRow_loadLong r p hwf
  | storeLong p s r => exact foundByRow_storeLong p r hwf
  | bitset d n => exact foundByRow_bitset d (of_decide_eq_true hwf)
  | jumpCC o => exact foundByRow_jumpCC hwf
  | jumpNotCC o => exact foundByRow_jumpNotCC hwf
  | pLow p imm => exact foundByRow_pLow p imm
  | pHigh p imm => exact foundByRow_pHigh p imm
  | disalgnexcpt => rfl

/-- A well-formed instruction's units have the length that their first one decides (R312). -/
theorem encodeLength (i : Instr) : Laws.EncodeLength.Statement i := by
  cases i with
  | nop => exact Laws.EncodeLength.nop
  | csync => exact Laws.EncodeLength.csync
  | ssync => exact Laws.EncodeLength.ssync
  | cli d => exact Laws.EncodeLength.cli d
  | sti d => exact Laws.EncodeLength.sti d
  | testset p => exact Laws.EncodeLength.testset p
  | prefetch p => exact Laws.EncodeLength.prefetch p
  | flushinv p => exact Laws.EncodeLength.flushinv p
  | flush p => exact Laws.EncodeLength.flush p
  | iflush p => exact Laws.EncodeLength.iflush p
  | prefetchInc p => exact Laws.EncodeLength.prefetchInc p
  | flushinvInc p => exact Laws.EncodeLength.flushinvInc p
  | flushInc p => exact Laws.EncodeLength.flushInc p
  | iflushInc p => exact Laws.EncodeLength.iflushInc p
  | load r p => exact Laws.EncodeLength.load r p
  | store p r => exact Laws.EncodeLength.store p r
  | loadShort r p u => exact Laws.EncodeLength.loadShort r p u
  | storeShort p u r => exact Laws.EncodeLength.storeShort p u r
  | loadLong r p s => exact Laws.EncodeLength.loadLong r p s
  | storeLong p s r => exact Laws.EncodeLength.storeLong p s r
  | bitset d n => exact Laws.EncodeLength.bitset d n
  | jumpCC o => exact Laws.EncodeLength.jumpCC o
  | jumpNotCC o => exact Laws.EncodeLength.jumpNotCC o
  | pLow p imm => exact Laws.EncodeLength.pLow p imm
  | pHigh p imm => exact Laws.EncodeLength.pHigh p imm
  | disalgnexcpt => exact Laws.EncodeLength.disalgnexcpt

/-- Settles O2: the first unit gives the length, and the table of that length holds the instruction's own row. -/
theorem decodeOfEncode : Obligations.DecodeOfEncode := by
  intro i rest hwf
  have hrow := foundByRow_of_wf hwf
  unfold Instr.foundByRow at hrow
  unfold encodeBytes
  rcases encodeLength i hwf with ⟨h, he, hlen⟩ | ⟨h, l, he, hlen⟩ <;> rw [he] at hrow ⊢
  · exact decode_short hlen hrow rest
  · exact decode_long hlen hrow rest

/-! ### From a row to its instruction -/

/-- What a row builds from units is well formed and encodes to those units. -/
def Instr.encodesTo (i : Instr) (units : List Half) : Prop := i.wf = true ∧ encode i = units

/-- The short indexed forms, rebuilt from the unit that the row accepted. -/
theorem shortIndexed_rebuild {h base : Half} (hm : h &&& 0xFC00 = base) :
    shortOffsetOk (shortOffsetOf h) = true ∧
    memUnit (base ||| BitVec.ofNat 16 (shortOffsetOf h / 4) <<< 6) (pregOf (h >>> 3)) (dregOf h) = h := by
  constructor
  · have hlt : (h >>> 6).toNat % 16 < 16 := Nat.mod_lt _ (by decide)
    refine Bool.and_eq_true_iff.2 ⟨beq_iff_eq.2 (Nat.mul_mod_right 4 _), decide_eq_true ?_⟩
    unfold shortOffsetOf
    omega
  · apply memUnit_rebuild
    intro k hk
    have hnum : shortOffsetOf h / 4 = (h >>> 6).toNat % 2 ^ 4 := by unfold shortOffsetOf; omega
    rw [BitVec.getLsbD_or, pattern_bit hm mask_ten_le k hk, BitVec.getLsbD_shiftLeft, BitVec.getLsbD_ofNat, hnum,
      Nat.testBit_mod_two_pow]
    by_cases h6 : k < 6
    · simp [h6, show ¬ 6 ≤ k by omega, show ¬ 10 ≤ k by omega]
    · have hbit : (h >>> 6).toNat.testBit (k - 6) = h.getLsbD k := by
        rw [BitVec.testBit_toNat, BitVec.getLsbD_ushiftRight, show 6 + (k - 6) = k by omega]
      rw [hbit]
      by_cases h10 : 10 ≤ k
      · simp [h6, h10, hk, show 6 ≤ k by omega]
      · simp [h6, h10, hk, show 6 ≤ k by omega, show k - 6 < 4 by omega, show k - 6 < 16 by omega]

/-- The unit of BITSET, rebuilt from its pattern, its bit number and its register. -/
theorem bitset_rebuild {h : Half} (hm : h &&& 0xFF00 = 0x4A00#16) :
    0x4A00#16 ||| (BitVec.ofNat 16 ((h >>> 3).toNat % 32) <<< 3) ||| dregNum (dregOf h) = h := by
  rw [dregNum_dregOf]
  apply BitVec.eq_of_getLsbD_eq
  intro k hk
  rw [BitVec.getLsbD_or, BitVec.getLsbD_or, pattern_bit hm mask_eight_le k hk, BitVec.getLsbD_shiftLeft,
    BitVec.getLsbD_ofNat, show (32 : Nat) = 2 ^ 5 from rfl, Nat.testBit_mod_two_pow, BitVec.getLsbD_and, seven_bit]
  by_cases h3 : k < 3
  · simp [h3, show ¬ 8 ≤ k by omega]
  · have hbit : (h >>> 3).toNat.testBit (k - 3) = h.getLsbD k := by
      rw [BitVec.testBit_toNat, BitVec.getLsbD_ushiftRight, show 3 + (k - 3) = k by omega]
    rw [hbit]
    by_cases h8 : 8 ≤ k
    · simp [h3, h8, hk, show ¬ k - 3 < 5 by omega]
    · simp [h3, h8, hk, show k - 3 < 5 by omega, show k - 3 < 16 by omega]

/-- A memory unit, rebuilt from its pattern and its registers. -/
theorem memUnit_of_pattern {h base : Half} (hm : h &&& 0xFFC0 = base) :
    memUnit base (pregOf (h >>> 3)) (dregOf h) = h :=
  memUnit_rebuild h base (pattern_bit hm mask_six_le)

/-- A row with a full mask accepts its own pattern alone. -/
theorem eq_of_fullMask {h pat : Half} (hm : h &&& 0xFFFF = pat) : h = pat := by
  rw [← hm]
  exact (BitVec.and_allOnes (x := h)).symm

/-- What a 16-bit row builds encodes to the unit. -/
theorem shortRows_encodesTo {r : Row} (hr : r ∈ shortRows) {h : Half} (ha : r.accepts h 0 = true) :
    (r.build h 0).encodesTo [h] := by
  have jump {base : Half} (hm : h &&& 0xFC00 = base) := jump_rebuild h base (pattern_bit hm mask_ten_le)
  have one {a : Half} (ha : a = h) : [a] = [h] := congrArg (fun u => [u]) ha
  simp only [shortRows, List.mem_cons, List.not_mem_nil, or_false] at hr
  rcases hr with rfl | rfl | rfl | rfl | rfl | rfl | rfl | rfl | rfl | rfl | rfl | rfl | rfl | rfl | rfl | rfl | rfl |
    rfl | rfl | rfl | rfl <;> have hm := shortRow_accepts.1 ha
  · exact ⟨rfl, one (eq_of_fullMask hm).symm⟩
  · exact ⟨rfl, one (eq_of_fullMask hm).symm⟩
  · exact ⟨rfl, one (eq_of_fullMask hm).symm⟩
  · exact ⟨rfl, one (or_dregNum_dregOf hm)⟩
  · exact ⟨rfl, one (or_dregNum_dregOf hm)⟩
  · exact ⟨rfl, one (or_pregNum_pregOf hm)⟩
  · exact ⟨rfl, one (or_pregNum_pregOf hm)⟩
  · exact ⟨rfl, one (or_pregNum_pregOf hm)⟩
  · exact ⟨rfl, one (or_pregNum_pregOf hm)⟩
  · exact ⟨rfl, one (or_pregNum_pregOf hm)⟩
  · exact ⟨rfl, one (or_pregNum_pregOf hm)⟩
  · exact ⟨rfl, one (or_pregNum_pregOf hm)⟩
  · exact ⟨rfl, one (or_pregNum_pregOf hm)⟩
  · exact ⟨rfl, one (or_pregNum_pregOf hm)⟩
  · exact ⟨rfl, one (memUnit_of_pattern hm)⟩
  · exact ⟨rfl, one (memUnit_of_pattern hm)⟩
  · exact ⟨(shortIndexed_rebuild hm).1, one (shortIndexed_rebuild hm).2⟩
  · exact ⟨(shortIndexed_rebuild hm).1, one (shortIndexed_rebuild hm).2⟩
  · exact ⟨decide_eq_true (Nat.le_of_lt_succ (Nat.mod_lt _ (by decide))), one (bitset_rebuild hm)⟩
  · exact ⟨(jump hm).2, one (jump hm).1⟩
  · exact ⟨(jump hm).2, one (jump hm).1⟩

/-- What a 32-bit row builds encodes to the two units. -/
theorem longRows_encodesTo {r : Row} (hr : r ∈ longRows) {h l : Half} (ha : r.accepts h l = true) :
    (r.build h l).encodesTo [h, l] := by
  have two {a b : Half} (ha : a = h) (hb : b = l) : [a, b] = [h, l] := by rw [ha, hb]
  simp only [longRows, List.mem_cons, List.not_mem_nil, or_false] at hr
  rcases hr with rfl | rfl | rfl | rfl | rfl
  · exact ⟨(ofInt_longOffsetOf l).2, two (memUnit_of_pattern (longRow_accepts.1 ha)) (ofInt_longOffsetOf l).1⟩
  · exact ⟨(ofInt_longOffsetOf l).2, two (memUnit_of_pattern (longRow_accepts.1 ha)) (ofInt_longOffsetOf l).1⟩
  · exact ⟨rfl, two (or_pregNum_pregOf (longRow_accepts.1 ha)) rfl⟩
  · exact ⟨rfl, two (or_pregNum_pregOf (longRow_accepts.1 ha)) rfl⟩
  · simp only [Row.accepts, Bool.and_eq_true, beq_iff_eq] at ha
    exact ⟨rfl, two (eq_of_fullMask ha.1).symm (eq_of_fullMask ha.2).symm⟩

/-- The bytes of a decoded instruction are those of the units its row accepted (R301, R302). -/
theorem encodeBytes_of_row {rows : List Row} {h l : Half} {i : Instr} {units : List Half}
    (hrows : ∀ r ∈ rows, r.accepts h l = true → (r.build h l).encodesTo units) (hi : rowsDecode rows h l = some i) :
    i.wf = true ∧ encodeBytes i = unitsBytes units := by
  obtain ⟨r, hr, ha, rfl⟩ := rowsDecode_some hi
  obtain ⟨hwf, he⟩ := hrows r hr ha
  exact ⟨hwf, congrArg unitsBytes he⟩

/-- Settles O3: the row that gave the instruction rebuilds the units, and these the bytes read. -/
theorem encodeOfDecode : Obligations.EncodeOfDecode := by
  intro bs rest i hd
  unfold decode at hd
  split at hd
  · next b0 b1 tail =>
    simp only at hd
    split at hd
    · split at hd
      · next j hj =>
        cases hd
        obtain ⟨hwf, he⟩ := encodeBytes_of_row (fun r hr ha => shortRows_encodesTo hr ha) hj
        refine ⟨hwf, ?_⟩
        rw [he, unitsBytes, unitsBytes, halfBytes_halfOf]; rfl
      · cases hd
    · split at hd
      · cases hd
      · split at hd
        · next b2 b3 tail' =>
          split at hd
          · next j hj =>
            cases hd
            obtain ⟨hwf, he⟩ := encodeBytes_of_row (fun r hr ha => longRows_encodesTo hr ha) hj
            refine ⟨hwf, ?_⟩
            rw [he, unitsBytes, unitsBytes, unitsBytes, halfBytes_halfOf, halfBytes_halfOf]; rfl
          · cases hd
        · cases hd
  · cases hd

/-! ### Words and lengths -/

/-- Settles O1: the decoder run on each of the eleven words. -/
theorem writtenWordsDecode : Obligations.WrittenWordsDecode := by
  unfold Obligations.WrittenWordsDecode
  decide

/-- A unit has both high bits set exactly when its field 15:14 is 3. -/
theorem and_C000_iff (h : Half) : h &&& 0xC000 = 0xC000 ↔ h.extractLsb' 14 2 = 3 := by
  have hfield : h &&& 0xC000 = h.extractLsb' 14 2 ++ (0 : BitVec 14) := by
    apply BitVec.eq_of_getLsbD_eq
    intro k hk
    rw [BitVec.getLsbD_and, BitVec.getLsbD_append, BitVec.getLsbD_extractLsb']
    interval_cases k <;> simp
  rw [hfield, show (0xC000 : Half) = (3 : BitVec 2) ++ (0 : BitVec 14) from rfl]
  exact ⟨fun e => BitVec.append_left_inj 0 |>.1 e, fun e => by rw [e]⟩

/-- A unit is the mark of a 64-bit instruction exactly when its field 15:12 is 12 and its bit 11 is 1. -/
theorem and_F800_iff (h : Half) : h &&& 0xF800 = 0xC800 ↔ h.extractLsb' 12 4 = 12 ∧ h.getLsbD 11 = true := by
  have hbit : h.getLsbD 11 = true ↔ h.extractLsb' 11 1 = 1 := by
    constructor
    · intro e
      apply BitVec.eq_of_getLsbD_eq
      intro k hk
      have hk0 : k = 0 := by omega
      subst hk0
      simp [e]
    · intro e
      have := congrArg (fun v : BitVec 1 => v.getLsbD 0) e
      simpa using this
  have hfields : h &&& 0xF800 = h.extractLsb' 12 4 ++ h.extractLsb' 11 1 ++ (0 : BitVec 11) := by
    apply BitVec.eq_of_getLsbD_eq
    intro k hk
    rw [BitVec.getLsbD_and, BitVec.getLsbD_append, BitVec.getLsbD_append, BitVec.getLsbD_extractLsb',
      BitVec.getLsbD_extractLsb']
    interval_cases k <;> simp
  rw [hbit, hfields, show (0xC800 : Half) = (12 : BitVec 4) ++ (1 : BitVec 1) ++ (0 : BitVec 11) from rfl,
    BitVec.append_left_inj]
  constructor
  · intro e
    have hlow := congrArg (fun v : BitVec (4 + 1) => v.getLsbD 0) e
    simp only [BitVec.getLsbD_append, BitVec.getLsbD_extractLsb'] at hlow
    have hone := hbit.1 (by simpa using hlow)
    exact ⟨by rw [hone] at e; exact BitVec.append_left_inj _ |>.1 e, hone⟩
  · rintro ⟨hfield, hone⟩
    rw [hfield, hone]

/-- Settles O5: the length rule tests the field 15:14, then the field 15:12 and bit 11. -/
theorem lengthFromFirstUnit : Obligations.LengthFromFirstUnit := by
  intro h
  rw [← and_F800_iff, Ne, ← and_C000_iff]
  unfold unitLength
  refine ⟨fun hshort => if_pos hshort, fun hlong h12 h11 => ?_, fun hlong hnot => ?_⟩
  · rw [if_neg (not_not.2 hlong), if_pos ((and_F800_iff h).2 ⟨h12, h11⟩)]
  · rw [if_neg (not_not.2 hlong), if_neg hnot]

end Sys2Proof
end

section
/-! Fetches and steps (R131, R255): what a step does with what its fetch answers, the instruction that memory holds, and
the fetches that the checks stop. -/

namespace Sys2Proof.Machine

open Host (Outcome)

/-! ### A step, by what its fetch answers -/

/-- A step whose bytes decode executes the instruction on the state that the fetch left. -/
theorem step_of_decoded {s s1 : State} {bs rest : List Byte} {i : Instr} (hf : s.fetchInstr = .ok (bs, s1))
    (hd : decode bs = .ok (i, rest)) : step s = State.finish (exec i s1) := by
  simp only [step, hf, hd]

/-- A step whose fetch is not performed takes the fetch's exception. -/
theorem step_of_fetchStop {s s1 : State} {st : Stop} (hf : s.fetchInstr = .error (s1, st)) :
    step s = State.finish (s1.stopOutcome st) := by
  simp only [step, hf]

/-- Settles O6: the boundary follows a next state, and a fault or a refusal ends the step. -/
theorem stepRunsDecodedInstruction : Obligations.StepRunsDecodedInstruction := by
  intro s s1 bs rest i hf hd
  have hstep := step_of_decoded hf hd
  refine ⟨hstep, fun t ht => ?_, fun f hfault => ?_, fun r hr => ?_⟩
  · rw [hstep, ht]; rfl
  · rw [hstep, hfault]; rfl
  · rw [hstep, hr]; rfl

/-! ### The instruction that memory holds -/

/-- The length of an instruction is decided by its first two bytes (R312). -/
theorem lengthOf_readBytes (m : List Host.Cell) (a : Addr) {n : Nat} (hn : 2 ≤ n) :
    lengthOf (Memory.readBytes m a n) = lengthOf (Memory.readBytes m a 2) := by
  obtain ⟨k, rfl⟩ := Nat.exists_eq_add_of_le hn
  rw [Memory.readBytes_append]
  rfl

/-- The bytes of a run from an address to the end of its 64-bit word. -/
theorem readBytes_wordAddr_drop (m : List Host.Cell) (a : Addr) :
    (Memory.readBytes m (wordAddr a) 8).drop (a.toNat % 8) = Memory.readBytes m a (8 - a.toNat % 8) := by
  have haddr : wordAddr a + BitVec.ofNat 32 (a.toNat % 8) = a := by
    apply BitVec.eq_of_toNat_eq
    have hlt := a.isLt
    rw [BitVec.toNat_add, BitVec.toNat_ofNat, wordAddr_toNat]
    omega
  rw [Memory.readBytes_drop _ _ _ _ (by omega), haddr]

/-- SDRAM and the dedicated instruction SRAM, `n` bytes before the end of the region (R101, R172). -/
def inPlainCode (a : Addr) (n : Nat) : Prop :=
  a.toNat + n ≤ 0x08000000 ∨ (0xFFA00000 ≤ a.toNat ∧ a.toNat + n ≤ 0xFFA10000)

/-- With the ICPLBs disabled the fetch of an instruction from plain code memory answers memory's bytes, over one 64-bit
word or two, and changes nothing (R131). -/
theorem fetchInstr_plain {s : State} (hen : s.enIcplb = false) (heven : s.pc.toNat % 2 = 0)
    (hplain : inPlainCode s.pc 16) {n : Nat} (hn : lengthOf (Memory.readBytes s.mem s.pc 2) = n) (hn8 : n ≤ 8) :
    s.fetchInstr = .ok (Memory.readBytes s.mem s.pc n, s) := by
  have hw := wordAddr_toNat s.pc
  have hlt := s.pc.isLt
  have hnext : (wordAddr s.pc + 8).toNat = s.pc.toNat / 8 * 8 + 8 := by
    rw [BitVec.toNat_add, hw, show (8 : Addr).toNat = 8 from rfl]
    rcases hplain with h | h <;> omega
  have hfirst := fetchWord_direct hen s.pc (by rcases hplain with h | h <;> omega)
  have hsecond := fetchWord_direct hen (wordAddr s.pc + 8) (by rcases hplain with h | h <;> omega)
  have hself : wordAddr (wordAddr s.pc + 8) = s.pc + BitVec.ofNat 32 (8 - s.pc.toNat % 8) := by
    apply BitVec.eq_of_toNat_eq
    rw [wordAddr_toNat, hnext, BitVec.toNat_add, BitVec.toNat_ofNat]
    rcases hplain with h | h <;> omega
  rw [hself] at hsecond
  unfold State.fetchInstr
  rw [if_neg (not_not.2 heven)]
  simp only [hfirst, hsecond, readBytes_wordAddr_drop, Memory.readBytes_length]
  rw [lengthOf_readBytes _ _ (by omega), hn, ← Memory.readBytes_append]
  split
  · next hle => rw [Memory.readBytes_take _ _ _ _ hle]
  · rw [Memory.readBytes_take _ _ _ _ (by omega)]

/-- The first unit of a well-formed instruction's bytes says how many there are (R312). -/
theorem lengthOf_encodeBytes {i : Instr} (hwf : i.wf = true) :
    lengthOf ((encodeBytes i).take 2) = (encodeBytes i).length ∧ 2 ≤ (encodeBytes i).length ∧
      (encodeBytes i).length ≤ 8 := by
  unfold encodeBytes
  rcases encodeLength i hwf with ⟨h, he, hlen⟩ | ⟨h, l, he, hlen⟩ <;> rw [he]
  · refine ⟨?_, show 2 ≤ 2 by decide, show 2 ≤ 8 by decide⟩
    show unitLength (halfOf (h.extractLsb' 0 8) (h.extractLsb' 8 8)) = 2
    rw [halfOf_halfBytes, hlen]
  · refine ⟨?_, show 2 ≤ 4 by decide, show 4 ≤ 8 by decide⟩
    show unitLength (halfOf (h.extractLsb' 0 8) (h.extractLsb' 8 8)) = 4
    rw [halfOf_halfBytes, hlen]

/-- Settles O7: the fetch answers the stored bytes, and these decode to the instruction. -/
theorem stepRunsStoredInstruction : Obligations.StepRunsStoredInstruction := by
  intro s i hen heven hplain hwf hmem
  obtain ⟨hlen, h2, h8⟩ := lengthOf_encodeBytes hwf
  have hfirst : lengthOf (Memory.readBytes s.mem s.pc 2) = (encodeBytes i).length := by
    rw [← Memory.readBytes_take _ _ _ _ h2, hmem, hlen]
  have hfetch := fetchInstr_plain hen heven hplain hfirst h8
  rw [hmem] at hfetch
  have hdecode := decodeOfEncode i [] hwf
  rw [List.append_nil] at hdecode
  exact step_of_decoded hfetch hdecode

/-! ### Fetches that the checks stop -/

/-- The reserved space above the 16 KB instruction bank (R101). -/
theorem region_reservedInstr (s : State) (a : Addr) (hlo : 0xFFA14000 ≤ a.toNat) (hhi : a.toNat < 0xFFB00000) :
    s.region a = .reservedInstr := by
  unfold State.region
  rw [if_neg (by omega), if_neg (by omega), if_neg (by omega), if_neg (by omega), if_pos hhi]
  unfold State.instrRegion
  rw [if_neg (by omega), if_neg (by omega)]

/-- A fetch from closed space is the illegal fetch address whatever the descriptors say (R131 step 1). -/
theorem checkFetch_noFetch {s : State} {a : Addr} (h : (s.region a).noFetch = true) :
    s.checkFetch a = .error (fetchExc a .illegalFetchAddress) := by
  unfold State.checkFetch
  rw [if_pos h]

/-- A fetch from reserved instruction space that no descriptor forwards (R131 step 1, R264). -/
theorem checkFetch_reservedInstr {s : State} {a : Addr} (h : s.region a = .reservedInstr)
    (hf : forwarded s.enIcplb (lookup s.icplb a) = false) :
    s.checkFetch a = .error (fetchExc a .illegalFetchAddress) := by
  unfold State.checkFetch
  rw [h, hf]
  rfl

/-- The fetch of an instruction at an even pc stops where its first word's check does. -/
theorem fetchInstr_stop {s : State} {st : Stop} (heven : s.pc.toNat % 2 = 0) (h : s.checkFetch s.pc = .error st) :
    s.fetchInstr = .error (s, st) := by
  have hword : s.fetchWord s.pc = .error st := by unfold State.fetchWord; rw [h]
  unfold State.fetchInstr
  rw [if_neg (not_not.2 heven), hword]

/-- Outside a handler an exception is entered. -/
theorem takeException_of_none {s : State} (h : s.handling = none) (e : Exc) :
    s.takeException e = .next (s.enterException e) := by
  unfold State.takeException
  rw [h]

/-- Settles O8: step 1 of R131 stops the fetch, and its exception is entered on the same state. -/
theorem illegalFetchTraps : Obligations.IllegalFetchTraps := by
  intro s heven hnone haddr
  have hcheck : s.checkFetch s.pc = .error (fetchExc s.pc .illegalFetchAddress) := by
    rcases haddr with h | h | ⟨hlo, hhi, hf⟩
    · exact checkFetch_noFetch (region_noFetch s s.pc (.inl h))
    · exact checkFetch_noFetch (region_noFetch s s.pc (.inr h))
    · exact checkFetch_reservedInstr (region_reservedInstr s s.pc hlo hhi) hf
  have hfetch := fetchInstr_stop heven hcheck
  have hstop := takeException_of_none hnone ⟨.illegalFetchAddress, .instr, s.pc, false, .dag0⟩
  refine ⟨_, hfetch, hstop, ?_, rfl, rfl, rfl, rfl, rfl⟩
  rw [step_of_fetchStop hfetch]
  exact congrArg State.finish hstop

/-! ### The ICPLB lookup -/

/-- Past step 1 of R131 with the ICPLBs enabled, no match is a miss (R255). -/
theorem checkFetch_miss {s : State} {a : Addr} (hen : s.enIcplb = true) (hno : (s.region a).noFetch = false)
    (hres : s.region a ≠ .reservedInstr) (hl : lookup s.icplb a = .miss) :
    s.checkFetch a = .error (fetchExc a .icplbMiss) := by
  simp [State.checkFetch, hno, hen, hres, hl]

/-- Past step 1 of R131 with the ICPLBs enabled, several matches are a multiple hit (R255). -/
theorem checkFetch_multiple {s : State} {a : Addr} (hen : s.enIcplb = true) (hno : (s.region a).noFetch = false)
    (hres : s.region a ≠ .reservedInstr) (hl : lookup s.icplb a = .multiple) :
    s.checkFetch a = .error (fetchExc a .icplbMultipleHit) := by
  simp [State.checkFetch, hno, hen, hres, hl]

/-- Past step 1 of R131 with the ICPLBs enabled, one match decides by its permission and its cacheability (R255). -/
theorem checkFetch_hit {s : State} {a : Addr} {c : Cplb} (hen : s.enIcplb = true)
    (hno : (s.region a).noFetch = false) (hres : s.region a ≠ .reservedInstr) (hl : lookup s.icplb a = .hit c) :
    s.checkFetch a =
      if s.mode = .user ∧ c.userRd = false then .error (fetchExc a .instrProtViolation)
      else .ok (if c.chbl && s.imc then .cached c.lruPrio else .direct) := by
  simp only [State.checkFetch, hno, hen, hres, hl, Bool.not_eq_true', false_and, if_false, Bool.false_eq_true,
    Bool.not_true]
  split
  · rfl
  · split <;> rfl

/-- Settles O9: the lookup by how many descriptors match, then the permission, then the cache. -/
theorem icplbLookup : Obligations.IcplbLookup := by
  intro s a hen hno hres
  refine ⟨fun hnone => checkFetch_miss hen hno hres (lookup_miss hnone),
    fun htwo => checkFetch_multiple hen hno hres (lookup_multiple htwo), fun n hone huser hrd => ?_, fun n hone hperm => ?_⟩
  · rw [checkFetch_hit hen hno hres (lookup_hit hone), if_pos ⟨huser, hrd⟩]
  · have hallowed : ¬ (s.mode = .user ∧ (s.icplb[n.val]).userRd = false) := by
      rintro ⟨huser, hrd⟩
      rcases hperm with h | h
      · exact h huser
      · rw [h] at hrd; cases hrd
    have hcheck := checkFetch_hit hen hno hres (lookup_hit hone)
    rw [if_neg hallowed] at hcheck
    refine ⟨fun hch himc => ?_, fun hoff => ?_⟩
    · rw [hch, himc, Bool.and_self, if_pos rfl] at hcheck
      exact ⟨hcheck, by unfold State.fetchWord; rw [hcheck]⟩
    · have hnocache : ((s.icplb[n.val]).chbl && s.imc) = false := by
        rcases hoff with h | h <;> rw [h]
        · exact Bool.false_and _
        · exact Bool.and_false _
      rw [hnocache, if_neg Bool.false_ne_true] at hcheck
      exact ⟨hcheck, by unfold State.fetchWord; rw [hcheck]⟩

end Sys2Proof.Machine
end

section
/-! The checks of data accesses (R130, R254 to R263, R372): which descriptor covers an address, what the page check
answers, and the accesses that the minimal address check stops. -/

namespace Sys2Proof.Machine

open Host (Outcome)

/-! ### Descriptors -/

/-- A field of a word, as a number, is its extracted bits. -/
theorem fieldAt_eq (w : Word) (lo n : Nat) : fieldAt w lo n = (w.extractLsb' lo n).toNat := by
  simp [fieldAt]

/-- The page size that the two bits of PAGE_SIZE name (R254). -/
theorem pageSize_eq (c : Cplb) :
    c.pageSize = [1024, 4096, 1048576, 4194304].getD (c.data.extractLsb' 16 2).toNat 0 := by
  have hlt : (c.data.extractLsb' 16 2).toNat < 4 := (c.data.extractLsb' 16 2).isLt
  unfold Cplb.pageSize
  rw [fieldAt_eq]
  generalize (c.data.extractLsb' 16 2).toNat = n at hlt
  interval_cases n <;> rfl

/-- Settles O10: Valid, and the same page of the descriptor's size. -/
theorem descriptorMatch : Obligations.DescriptorMatch := by
  intro c a
  rw [← pageSize_eq]
  simp only [Cplb.covers, Cplb.valid, bitAt, Bool.and_eq_true, beq_iff_eq]

/-! ### The page check -/

/-- With the DCPLBs disabled an access that passes the minimal check is allowed, uncached. -/
theorem checkData_disabled {s : State} {acc : Access} (hmin : s.minimalDataStop acc = none) (hen : s.enDcplb = false) :
    s.checkData acc = .ok .uncached := by
  simp [State.checkData, hmin, hen]

/-- Under one descriptor the page check decides (R256). -/
theorem checkData_hit {s : State} {acc : Access} {c : Cplb} (hmin : s.minimalDataStop acc = none)
    (hen : s.enDcplb = true) (hl : lookup s.dcplb acc.addr = .hit c) : s.checkData acc = s.pageCheck acc c := by
  simp [State.checkData, hmin, hen, hl]

/-- Several descriptors are a multiple hit (R256). -/
theorem checkData_multiple {s : State} {acc : Access} (hmin : s.minimalDataStop acc = none)
    (hen : s.enDcplb = true) (hl : lookup s.dcplb acc.addr = .multiple) :
    s.checkData acc = .error (acc.exc .dcplbMultipleHit) := by
  simp [State.checkData, hmin, hen, hl]

/-- No descriptor is a miss but where a default descriptor stands (R256, R258). -/
theorem checkData_miss {s : State} {acc : Access} (hmin : s.minimalDataStop acc = none)
    (hen : s.enDcplb = true) (hl : lookup s.dcplb acc.addr = .miss) :
    s.checkData acc = if (s.region acc.addr).hasDefault then .ok .uncached else .error (acc.exc .dcplbMiss) := by
  simp [State.checkData, hmin, hen, hl]

/-- Settles O13: the lookup by how many descriptors match. -/
theorem dcplbMissAndMultipleHit : Obligations.DcplbMissAndMultipleHit := by
  intro s acc hen hmin
  refine ⟨fun hnone hdef => ?_, fun hnone hdef => ?_,
    fun htwo => checkData_multiple hmin hen (lookup_multiple htwo)⟩ <;>
  rw [checkData_miss hmin hen (lookup_miss hnone), hdef]
  · exact if_neg Bool.false_ne_true
  · exact if_pos rfl

/-- A read needs CPLB_USER_RD in User mode alone (R262). -/
theorem permits_read (c : Cplb) (mode : Mode) : c.permits mode false = true ↔ mode ≠ .user ∨ c.userRd = true := by
  cases mode <;> simp [Cplb.permits]

/-- A write needs the mode's write bit and, in a write-back page, CPLB_DIRTY (R262, R263). -/
theorem permits_write (c : Cplb) (mode : Mode) :
    c.permits mode true = true ↔
      ((mode = .user ∧ c.userWr = true) ∨ (mode ≠ .user ∧ c.supvWr = true)) ∧
      ¬ (c.chbl = true ∧ c.wt = false ∧ c.dirty = false) := by
  have hdirty : (!(c.chbl && !c.wt) || c.dirty) = true ↔ ¬ (c.chbl = true ∧ c.wt = false ∧ c.dirty = false) := by
    cases c.chbl <;> cases c.wt <;> cases c.dirty <;> decide
  simp only [Cplb.permits, if_true, Bool.and_eq_true, hdirty]
  cases mode <;> simp

/-- A page that does not permit the access is the protection violation. -/
theorem pageCheck_forbidden {s : State} {acc : Access} {c : Cplb} (h : ¬ c.permits s.mode acc.write = true) :
    s.pageCheck acc c = .error (acc.exc .dataProtViolation) := by
  simp [State.pageCheck, h]

/-- A page that permits the access is refused over space that no cache holds, and gives its cache mode elsewhere (U3). -/
theorem pageCheck_permitted {s : State} {acc : Access} {c : Cplb} (h : c.permits s.mode acc.write = true) :
    s.pageCheck acc c =
      if c.chbl && (s.region acc.addr).neverCacheable then .error (.refusal (.cacheableCoreSpace acc.addr))
      else .ok c.cacheMode := by
  simp only [State.pageCheck, h, Bool.not_true, Bool.false_eq_true, if_false]

/-- A permitted access is no protection violation. -/
theorem pageCheck_ne_violation {s : State} {acc : Access} {c : Cplb} (h : c.permits s.mode acc.write = true) :
    s.pageCheck acc c ≠ .error (acc.exc .dataProtViolation) := by
  rw [pageCheck_permitted h]
  split
  · intro e
    simp only [Access.exc, Except.error.injEq] at e
    cases e
  · intro e; cases e

/-- The cache mode that the bits of a descriptor give (R220, R266). -/
theorem cacheMode_of_bits {c : Cplb} {m : CacheMode}
    (h : (c.chbl = false ∧ m = .uncached) ∨
      (c.chbl = true ∧ ((c.wt = true ∧ m = .writeThrough c.aow) ∨ (c.wt = false ∧ m = .writeBack)))) :
    c.cacheMode = m := by
  unfold Cplb.cacheMode
  rcases h with ⟨hch, rfl⟩ | ⟨hch, ⟨hwt, rfl⟩ | ⟨hwt, rfl⟩⟩
  · rw [hch]; rfl
  · rw [hch, hwt]; rfl
  · rw [hch, hwt]; rfl

/-- Settles O12: the page check is the permission of the access, then U3, then the page's cache mode. -/
theorem pagePermissions : Obligations.PagePermissions := by
  intro s acc hmin
  refine ⟨fun hoff => ⟨checkData_disabled hmin hoff, by simp [State.pageMode, hoff]⟩, fun c hen hhit => ?_⟩
  rw [checkData_hit hmin hen hhit]
  have forbid {b : Bool} (hw : acc.write = b) (h : ¬ c.permits s.mode b = true) :
      s.pageCheck acc c = .error (acc.exc .dataProtViolation) := pageCheck_forbidden (hw ▸ h)
  have allow {b : Bool} (hw : acc.write = b) (h : c.permits s.mode b = true) :
      s.pageCheck acc c ≠ .error (acc.exc .dataProtViolation) := pageCheck_ne_violation (hw ▸ h)
  refine ⟨fun hw hu hrd => forbid hw ?_, fun hw hu hwr => forbid hw ?_, fun hw hs hwr => forbid hw ?_,
    fun hw hch hwt hd => forbid hw ?_, fun hw hrd => allow hw ((permits_read c s.mode).2 hrd),
    fun hw hwr hd => allow hw ((permits_write c s.mode).2 ⟨hwr, hd⟩), fun hperm => ⟨fun hch hnever => ?_, fun m hm => ?_⟩⟩
  · rw [permits_read, hrd]; simp [hu]
  · rw [permits_write, hwr]; simp [hu]
  · rw [permits_write, hwr]; simp [hs]
  · rw [permits_write]; exact fun h => h.2 ⟨hch, hwt, hd⟩
  · have hchbl : c.chbl = true := hch
    rw [pageCheck_permitted hperm, hchbl, hnever]; rfl
  · have hmode : c.cacheMode = m := cacheMode_of_bits <| by
      rcases hm with h | ⟨hch, -, h⟩
      · exact .inl h
      · exact .inr ⟨hch, h⟩
    have hcore : (c.chbl && (s.region acc.addr).neverCacheable) = false := by
      rcases hm with ⟨hch, -⟩ | ⟨-, hnever, -⟩
      · rw [show c.chbl = false from hch]; exact Bool.false_and _
      · rw [hnever]; exact Bool.and_false _
    refine ⟨?_, by simp [State.pageMode, hen, hhit, hmode]⟩
    rw [pageCheck_permitted hperm, hcore, hmode]
    exact if_neg Bool.false_ne_true

/-! ### Misaligned accesses -/

/-- The first of the checks (R140). -/
theorem minimalDataStop_misaligned {s : State} {acc : Access} (h : acc.misaligned = true) :
    s.minimalDataStop acc = some (acc.exc .dataMisaligned) := by
  unfold State.minimalDataStop
  rw [if_pos h]

/-- A word access is misaligned exactly when its address is no multiple of 4. -/
theorem misaligned_word {acc : Access} (hw : acc.width = .word) (hp : acc.probe = false) :
    acc.misaligned = decide (acc.addr.toNat % 4 ≠ 0) := by
  unfold Access.misaligned
  rw [hp, alignment_word hw]
  by_cases h : acc.addr.toNat % 4 = 0 <;> simp [h]

/-- A word load or store at an address that is no multiple of 4. -/
theorem wordAccess_misaligned (s : State) (r : DReg) {a : Addr} (len : Nat) (h : a.toNat % 4 ≠ 0) :
    s.loadWord r a len = s.stopOutcome ((Access.load a).exc .dataMisaligned) ∧
    s.storeWord r a len = s.stopOutcome ((Access.store a).exc .dataMisaligned) :=
  ⟨loadWord_stop (checkData_of_minimalDataStop
      (minimalDataStop_misaligned ((misaligned_word rfl rfl).trans (decide_eq_true h)))),
    storeWord_stop (checkData_of_minimalDataStop
      (minimalDataStop_misaligned ((misaligned_word rfl rfl).trans (decide_eq_true h))))⟩

/-- Settles O14: alignment is the first check of each form's access. -/
theorem misalignedAccessTraps : Obligations.MisalignedAccessTraps :=
  fun s r p u k => ⟨wordAccess_misaligned s r (a := s.preg p) 2, wordAccess_misaligned s r (a := shortAddress s p u) 2,
    wordAccess_misaligned s r (a := longAddress s p k) 4⟩

/-! ### L1 instruction memory -/

/-- L1 instruction memory lies below MMR space. -/
theorem inMmrSpace_of_instr {a : Addr} (h : inInstrMemory a = true) : inMmrSpace a = false := by
  simp only [inInstrMemory, decide_eq_true_eq] at h
  simp only [inMmrSpace, decide_eq_false_iff_not]
  omega

/-- An aligned data access to L1 instruction memory is stopped whatever its page says (R418). -/
theorem checkData_instrMemory {s : State} {acc : Access} (hal : acc.misaligned = false)
    (h : inInstrMemory acc.addr = true) :
    s.minimalDataStop acc = some (acc.exc .dagAccessToInstrMem) ∧
    s.checkData acc = .error (acc.exc .dagAccessToInstrMem) := by
  have hmin : s.minimalDataStop acc = some (acc.exc .dagAccessToInstrMem) := by
    simp [State.minimalDataStop, hal, inMmrSpace_of_instr h, h]
  exact ⟨hmin, checkData_of_minimalDataStop hmin⟩

/-- An aligned word load or store to L1 instruction memory. -/
theorem wordAccess_instrMemory (s : State) (r : DReg) {a : Addr} (len : Nat) (h : inInstrMemory a = true)
    (hal : a.toNat % 4 = 0) :
    s.loadWord r a len = s.stopOutcome ((Access.load a).exc .dagAccessToInstrMem) ∧
    s.storeWord r a len = s.stopOutcome ((Access.store a).exc .dagAccessToInstrMem) :=
  ⟨loadWord_stop (checkData_instrMemory (acc := .load a)
      ((misaligned_word rfl rfl).trans (decide_eq_false (not_not.2 hal))) h).2,
    storeWord_stop (checkData_instrMemory (acc := .store a)
      ((misaligned_word rfl rfl).trans (decide_eq_false (not_not.2 hal))) h).2⟩

/-- The cache instructions, by the line they name and their effect (R331, R338). -/
theorem exec_flush (p : PReg) (s : State) :
    exec (.flush p) s = s.cacheOp (s.preg p) fun t => t.flushLine (s.preg p) := rfl

theorem exec_flushinv (p : PReg) (s : State) :
    exec (.flushinv p) s = s.cacheOp (s.preg p) fun t => t.flushInvalidateLine (s.preg p) := rfl

theorem exec_iflush (p : PReg) (s : State) :
    exec (.iflush p) s = s.cacheOp (s.preg p) fun t => t.invalidateInstrLine (s.preg p) := rfl

theorem exec_flushInc (p : PReg) (s : State) :
    exec (.flushInc p) s = s.cacheOp (s.preg p) fun t => (t.flushLine (s.preg p)).bumpPointer p := rfl

theorem exec_flushinvInc (p : PReg) (s : State) :
    exec (.flushinvInc p) s = s.cacheOp (s.preg p) fun t => (t.flushInvalidateLine (s.preg p)).bumpPointer p := rfl

theorem exec_iflushInc (p : PReg) (s : State) :
    exec (.iflushInc p) s = s.cacheOp (s.preg p) fun t => (t.invalidateInstrLine (s.preg p)).bumpPointer p := rfl

theorem exec_prefetch (p : PReg) (s : State) : exec (.prefetch p) s = s.prefetchOp (s.preg p) id := rfl

theorem exec_prefetchInc (p : PReg) (s : State) :
    exec (.prefetchInc p) s = s.prefetchOp (s.preg p) fun t => t.bumpPointer p := rfl

/-- A cache instruction whose check stops it. -/
theorem cacheOp_stop {s : State} {a : Addr} {effect : State → State} {st : Stop}
    (h : s.checkData (.cacheControl a) = .error st) : s.cacheOp a effect = s.stopOutcome st := by
  unfold State.cacheOp
  rw [h]

/-- PREFETCH is a NOP where its check would raise an exception (R333). -/
theorem prefetchOp_exception {s : State} {a : Addr} {effect : State → State} {e : Exc}
    (h : s.checkData (.cacheControl a) = .error (.exception e)) :
    s.prefetchOp a effect = .next ((effect s).advance 2) := by
  unfold State.prefetchOp
  rw [h]

/-- TESTSET's access at an even address below the core MMRs is aligned (R372). -/
theorem misaligned_testset {a : Addr} {b : Bool} (hlow : a.toNat < 0xFFE00000) (heven : a.toNat % 2 = 0) :
    (testsetAccess a b).misaligned = false := by
  have hal : (testsetAccess a b).alignment = 2 := alignment_below (acc := testsetAccess a b) hlow
  unfold Access.misaligned
  rw [hal, show (testsetAccess a b).addr = a from rfl, heven]
  rfl

/-- TESTSET stopped by the minimal check of its read (R372). -/
theorem execTestset_minimal {s : State} {p : PReg} {st : Stop}
    (h : s.minimalDataStop (testsetAccess (s.preg p) false) = some st) : exec (.testset p) s = s.stopOutcome st := by
  show execTestset p s = _
  simp only [execTestset, State.testsetStop, h]

/-- Settles O15: the minimal address check stops every data access to L1 instruction memory; PREFETCH goes on. -/
theorem dagAccessToInstructionMemory : Obligations.DagAccessToInstructionMemory := by
  intro s r p u k
  refine ⟨wordAccess_instrMemory s r 2, wordAccess_instrMemory s r 2, wordAccess_instrMemory s r 4,
    fun h heven => ?_, fun h => ?_⟩
  · have hlow : (s.preg p).toNat < 0xFFE00000 := by
      simp only [inInstrMemory, decide_eq_true_eq] at h
      omega
    exact execTestset_minimal (checkData_instrMemory (acc := testsetAccess (s.preg p) false)
      (misaligned_testset hlow heven) h).1
  · have hcheck := (checkData_instrMemory (s := s) (acc := .cacheControl (s.preg p)) rfl h).2
    refine ⟨fun i hi => ?_, (exec_prefetch p s).trans (prefetchOp_exception hcheck),
      (exec_prefetchInc p s).trans (prefetchOp_exception hcheck)⟩
    simp only [List.mem_cons, List.not_mem_nil, or_false] at hi
    rcases hi with rfl | rfl | rfl | rfl | rfl | rfl
    · rw [exec_flush, cacheOp_stop hcheck]
    · rw [exec_flushinv, cacheOp_stop hcheck]
    · rw [exec_iflush, cacheOp_stop hcheck]
    · rw [exec_flushInc, cacheOp_stop hcheck]
    · rw [exec_flushinvInc, cacheOp_stop hcheck]
    · rw [exec_iflushInc, cacheOp_stop hcheck]

/-! ### Addresses where nothing stands -/

/-- Reserved space of the L1 data windows (R101). -/
theorem region_reservedData (s : State) (a : Addr)
    (h : (0xFF808000 ≤ a.toNat ∧ a.toNat < 0xFF900000) ∨ (0xFF908000 ≤ a.toNat ∧ a.toNat < 0xFFA00000) ∨
      (0xFFB01000 ≤ a.toNat ∧ a.toNat < 0xFFC00000)) : s.region a = .reservedData := by
  unfold State.region
  dsimp only [State.dataBankRegion]
  (repeat' split) <;> first | omega | rfl

/-- An aligned DAG0 access outside User mode to core MMR space where no register stands (R122). -/
theorem checkData_noMmr {s : State} {acc : Access} (hal : acc.misaligned = false) (hdag : acc.dag = .dag0)
    (hmode : s.mode ≠ .user) (haddr : 0xFFE00000 ≤ acc.addr.toNat) (h4 : acc.addr.toNat % 4 = 0)
    (hnone : mmrAt acc.addr = none) : s.checkData acc = .error (acc.exc .illegalMmrAccess) := by
  have hspace : inMmrSpace acc.addr = true := decide_eq_true (by omega)
  have habsent : mmrExists acc.addr = false := by
    unfold mmrExists
    rw [if_neg (by omega), word_and_mask h4, hnone]
    rfl
  apply checkData_of_minimalDataStop
  simp [State.minimalDataStop, hal, hspace, hmode, hdag, habsent]

/-- An aligned access to reserved L1 data space that no descriptor forwards (R130 step 4). -/
theorem checkData_reservedData {s : State} {acc : Access} (hal : acc.misaligned = false)
    (hspace : inMmrSpace acc.addr = false) (hinstr : inInstrMemory acc.addr = false)
    (hreg : s.region acc.addr = .reservedData) (hf : forwarded s.enDcplb (lookup s.dcplb acc.addr) = false) :
    s.checkData acc = .error (acc.exc .illegalDataAddress) := by
  apply checkData_of_minimalDataStop
  simp [State.minimalDataStop, hal, hspace, hinstr, hreg, hf]

/-- A load or store of any form whose access the check stops. -/
theorem exec_form_stop {s : State} {i : Instr} {r : DReg} {a : Addr} {len : Nat} {acc : Access} {st : Stop}
    (hi : (s.loadForm i = some (r, a, len) ∧ acc = .load a) ∨ (s.storeForm i = some (r, a, len) ∧ acc = .store a))
    (h : s.checkData acc = .error st) : exec i s = s.stopOutcome st := by
  rcases hi with ⟨hload, rfl⟩ | ⟨hstore, rfl⟩
  · rw [exec_loadForm hload, loadWord_stop h]
  · rw [exec_storeForm hstore, storeWord_stop h]

/-- Settles O16: steps 2 and 4 of R130 stop the access of every form. -/
theorem illegalAddressesTrap : Obligations.IllegalAddressesTrap := by
  intro s i r a len acc hal hi
  have haddr : acc.addr = a := by rcases hi with ⟨-, rfl⟩ | ⟨-, rfl⟩ <;> rfl
  have hdag : acc.dag = .dag0 := by rcases hi with ⟨-, rfl⟩ | ⟨-, rfl⟩ <;> rfl
  have haligned : acc.misaligned = false := by
    have hword : acc.misaligned = decide (acc.addr.toNat % 4 ≠ 0) := by
      rcases hi with ⟨-, rfl⟩ | ⟨-, rfl⟩ <;> exact misaligned_word rfl rfl
    rw [hword, haddr, hal]
    rfl
  subst haddr
  refine ⟨fun hmode hspace hnone => exec_form_stop hi (checkData_noMmr haligned hdag hmode hspace hal hnone),
    fun hrange hf => ?_⟩
  have hspace : inMmrSpace acc.addr = false := decide_eq_false (by omega)
  have hinstr : inInstrMemory acc.addr = false := decide_eq_false (by omega)
  exact exec_form_stop hi (checkData_reservedData haligned hspace hinstr (region_reservedData s _ hrange) hf)

/-! ### TESTSET where it does not complete -/

/-- L1 data SRAM and the scratchpad lie in core memory, below MMR space. -/
theorem region_l1Data {s : State} {a : Addr} (h : s.region a = .dataSram ∨ s.region a = .scratchpad) :
    0xFF800000 ≤ a.toNat ∧ a.toNat < 0xFFC00000 := by
  by_contra hc
  unfold State.region at h
  dsimp only [State.externalRegion, State.dataBankRegion, State.instrRegion] at h
  (repeat' split at h) <;> first | omega | (rcases h with h | h <;> cases h)

/-- TESTSET past the minimal checks in core memory is refused (R372, U7). -/
theorem execTestset_coreMemory {s : State} {p : PReg}
    (hmin : s.minimalDataStop (testsetAccess (s.preg p) false) = none) (hcore : inCoreMemory (s.preg p) = true) :
    exec (.testset p) s = .refused (.testsetOnCoreMemory (s.preg p)) := by
  show execTestset p s = _
  simp only [execTestset, State.testsetStop, hmin, hcore, if_true]
  rfl

/-- TESTSET past the minimal checks outside core memory is decided by its read's check and its write's. -/
theorem testsetStop_pages {s : State} {a : Addr} (hmin : s.minimalDataStop (testsetAccess a false) = none)
    (hcore : inCoreMemory a = false) {st : Stop} :
    (s.checkData (testsetAccess a false) = .error st → s.testsetStop a = some st) ∧
    (∀ m, s.checkData (testsetAccess a false) = .ok m → s.checkData (testsetAccess a true) = .error st →
      s.testsetStop a = some st) ∧
    (∀ m n, s.checkData (testsetAccess a false) = .ok m → s.checkData (testsetAccess a true) = .ok n →
      s.testsetStop a = none) := by
  refine ⟨fun h => ?_, fun m h h' => ?_, fun m n h h' => ?_⟩
  · simp [State.testsetStop, hmin, hcore, h]
  · simp [State.testsetStop, hmin, hcore, h, h']
  · simp [State.testsetStop, hmin, hcore, h, h']

/-- TESTSET's outcome is its stop's. -/
theorem execTestset_stop {s : State} {p : PReg} {st : Stop} (h : s.testsetStop (s.preg p) = some st) :
    exec (.testset p) s = s.stopOutcome st := by
  show execTestset p s = _
  simp only [execTestset, h]

/-- External RAM lies outside core memory. -/
theorem inCoreMemory_externalRam {s : State} {a : Addr} (h : (s.region a).isExternalRam = true) :
    inCoreMemory a = false := by
  have := region_externalRam h
  exact decide_eq_false (by omega)

/-- Settles O31: alignment, the minimal checks, U7's space, then the two page checks, in this order. -/
theorem testsetChecks : Obligations.TestsetChecks := by
  intro s p
  refine ⟨fun hodd => ?_, fun heven hreg => ?_, fun h4 hmode hreg hname => ?_, fun c heven hram hen hhit => ?_⟩
  · apply execTestset_minimal
    apply minimalDataStop_misaligned
    have hal : (testsetAccess (s.preg p) false).alignment = 4 ∨ (testsetAccess (s.preg p) false).alignment = 2 := by
      unfold Access.alignment
      split
      · exact .inl rfl
      · exact .inr rfl
    have hne : (s.preg p).toNat % (testsetAccess (s.preg p) false).alignment ≠ 0 := by
      rcases hal with h | h <;> rw [h] <;> omega
    simpa [Access.misaligned, testsetAccess] using hne
  · obtain ⟨hlo, hhi⟩ := region_l1Data hreg
    have hdata : (s.region (s.preg p)).isDataMemory = true := by rcases hreg with h | h <;> rw [h] <;> rfl
    have hmin : s.minimalDataStop (testsetAccess (s.preg p) false) = none := by
      have hal := misaligned_testset (a := s.preg p) (b := false) (by omega) heven
      have hmmr : inMmrSpace (testsetAccess (s.preg p) false).addr = false := region_ne_mmr_of_memory hdata
      have hin : inInstrMemory (testsetAccess (s.preg p) false).addr = false := region_instr_of_memory hdata
      have hres : s.region (testsetAccess (s.preg p) false).addr ≠ .reservedData := by
        intro e
        have e' : s.region (s.preg p) = .reservedData := e
        rw [e'] at hdata; cases hdata
      simp [State.minimalDataStop, hal, hmmr, hin, hres]
    exact execTestset_coreMemory hmin (decide_eq_true hlo)
  · have hge := (region_coreMmr_iff s (s.preg p)).1 hreg
    obtain ⟨name, hname⟩ := Option.isSome_iff_exists.1 hname
    have hmin : s.minimalDataStop (testsetAccess (s.preg p) false) = none := by
      have hal : (testsetAccess (s.preg p) false).misaligned = false := by
        have h4' : (testsetAccess (s.preg p) false).alignment = 4 := if_pos hge
        unfold Access.misaligned
        rw [h4', show (testsetAccess (s.preg p) false).addr = s.preg p from rfl, h4]
        rfl
      have hmmr : inMmrSpace (testsetAccess (s.preg p) false).addr = true := decide_eq_true (by
        show 0xFFC00000 ≤ (s.preg p).toNat
        omega)
      have hex : mmrExists (testsetAccess (s.preg p) false).addr = true := mmrExists_core hge hname
      have hdag : (testsetAccess (s.preg p) false).dag = .dag0 := rfl
      simp [State.minimalDataStop, hal, hmmr, hex, hmode, hdag]
    exact execTestset_coreMemory hmin (decide_eq_true (by omega))
  · have hmin := testset_minimal false hram heven
    have hcore := inCoreMemory_externalRam hram
    have hpage (b : Bool) := testset_page (b := b) hram heven hen hhit
    refine ⟨fun hrd => execTestset_stop ((testsetStop_pages hmin hcore).1 ?_),
      fun hrd hwr => execTestset_stop ((testsetStop_pages hmin hcore).2.1 c.cacheMode ?_ ?_)⟩
    · rw [hpage, hrd]; rfl
    · rw [hpage, hrd]; rfl
    · rw [hpage, hwr]; rfl

end Sys2Proof.Machine
end

section
/-! Exceptions (R280, R430 to R433), and what one instruction may do to the mode and to the protection (R276, R410,
R440). -/

namespace Sys2Proof.Machine

open Host (Outcome)

/-! ### The fault record -/

/-- Outside Emulation mode FAULT_USERSUPV says Supervisor mode. -/
theorem notUser_iff {m : Mode} (h : m ≠ .emulation) : (m != .user) = true ↔ m = .supervisor := by
  cases m with
  | user => decide
  | supervisor => decide
  | emulation => exact absurd rfl h

theorem isDag1_iff (d : Dag) : (d == .dag1) = true ↔ d = .dag1 := by cases d <;> decide

/-- The match bits lie below the flags of a status register. -/
theorem faultBits_low (v : Vector Cplb 16) (a : Addr) (n : Fin 16) :
    (faultBits v a).getLsbD n.val = (v[n.val]).covers a := by
  rw [faultBits_bit, dif_pos n.isLt]

theorem faultBits_high (v : Vector Cplb 16) (a : Addr) {k : Nat} (h : 16 ≤ k) : (faultBits v a).getLsbD k = false := by
  rw [faultBits_bit, dif_neg (by omega)]

/-- DCPLB_STATUS as an exception records it, bit by bit (R48, R280). -/
theorem dataStatus_bit (s : State) (e : Exc) (k : Nat) :
    (s.dataStatus e).getLsbD k = ((faultBits s.dcplb e.addr).getLsbD k || (e.write && (16 == k)) ||
      ((s.mode != .user) && (17 == k)) || ((e.dag == .dag1) && (18 == k)) || (s.nonExistent e.addr && (19 == k))) := by
  unfold State.dataStatus
  simp only [BitVec.getLsbD_or, flagBit_bit _ 16 k (by decide), flagBit_bit _ 17 k (by decide),
    flagBit_bit _ 18 k (by decide), flagBit_bit _ 19 k (by decide)]

/-- ICPLB_STATUS as an exception records it, bit by bit (R37, R280). -/
theorem instrStatus_bit (s : State) (e : Exc) (k : Nat) :
    (s.instrStatus e).getLsbD k = ((faultBits s.icplb e.addr).getLsbD k ||
      ((s.mode != .user) && (17 == k)) || (s.nonExistent e.addr && (19 == k))) := by
  unfold State.instrStatus
  simp only [BitVec.getLsbD_or, flagBit_bit _ 17 k (by decide), flagBit_bit _ 19 k (by decide)]

/-- A flag above the match bits does not fall on a descriptor's number. -/
theorem flag_ne_slot (n : Fin 16) {k : Nat} (h : 16 ≤ k) : (k == n.val) = false := by
  have := n.isLt
  exact beq_eq_false_iff_ne.2 (by omega)

/-- Settles O17: the record writes the two registers of its side, the status one bit by bit. -/
theorem faultRecord : Obligations.FaultRecord := by
  intro s e hmode
  constructor
  · intro hside
    have hrec : s.recordFault e = { s with dcplbStatus := s.dataStatus e, dcplbFaultAddr := e.addr } := by
      unfold State.recordFault; rw [hside]
    rw [hrec]
    refine ⟨rfl, fun n => ?_, ?_, ?_, ?_, ?_⟩
    · rw [dataStatus_bit, faultBits_low]; simp [flag_ne_slot]
    · rw [dataStatus_bit, faultBits_high _ _ (by decide)]; simp
    · rw [dataStatus_bit, faultBits_high _ _ (by decide), ← notUser_iff hmode]; simp
    · rw [dataStatus_bit, faultBits_high _ _ (by decide), ← isDag1_iff]; simp
    · rw [dataStatus_bit, faultBits_high _ _ (by decide)]; simp
  · intro hside
    have hrec : s.recordFault e = { s with icplbStatus := s.instrStatus e, icplbFaultAddr := e.addr } := by
      unfold State.recordFault; rw [hside]
    rw [hrec]
    refine ⟨rfl, fun n => ?_, ?_, ?_⟩
    · rw [instrStatus_bit, faultBits_low]; simp [flag_ne_slot]
    · rw [instrStatus_bit, faultBits_high _ _ (by decide), ← notUser_iff hmode]; simp
    · rw [instrStatus_bit, faultBits_high _ _ (by decide)]; simp

/-! ### Entry and return -/

/-- A fault's record changes the status and fault-address registers alone. -/
theorem recordFault_frame (s : State) (e : Exc) :
    s.recordFault e =
      { s with icplbStatus := (s.recordFault e).icplbStatus, icplbFaultAddr := (s.recordFault e).icplbFaultAddr,
               dcplbStatus := (s.recordFault e).dcplbStatus, dcplbFaultAddr := (s.recordFault e).dcplbFaultAddr } := by
  unfold State.recordFault
  cases e.side <;> rfl

/-- What exception entry writes (R430, R434). -/
theorem enterException_eq (s : State) (e : Exc) :
    s.enterException e =
      { s with icplbStatus := (s.recordFault e).icplbStatus, icplbFaultAddr := (s.recordFault e).icplbFaultAddr,
               dcplbStatus := (s.recordFault e).dcplbStatus, dcplbFaultAddr := (s.recordFault e).dcplbFaultAddr,
               excause := e.cause.code, retx := s.pc, savedMode := s.mode, mode := .supervisor,
               handling := some e.side, pc := s.evt3 } := by
  unfold State.enterException
  rw [recordFault_frame]

@[simp] theorem enterException_isrs (s : State) (e : Exc) : (s.enterException e).isrs = s.isrs := by
  rw [enterException_eq]

@[simp] theorem enterException_storeBuf (s : State) (e : Exc) : (s.enterException e).storeBuf = s.storeBuf := by
  rw [enterException_eq]

/-- While an exception handler runs no interrupt from the exception event's number up may be taken (R430). -/
theorem interruptible_in_handler {s : State} {side : Side} (h : s.handling = some side) (k : Fin 16) (hk : 3 ≤ k.val) :
    s.interruptible k = false := by
  unfold State.interruptible
  rw [h, decide_eq_false (show ¬ k.val < 3 by omega)]
  exact Bool.and_false _

/-- The handler of a side's exception is not an interrupt routine unless it runs in one's context. -/
theorem inRoutine_of_handler {s : State} {side : Side} (h : s.handling = some side)
    (hf : ∀ f ∈ s.isrs.head?, f.inHandler = false) : s.inRoutine = false := by
  unfold State.inRoutine
  split
  · rfl
  · next f fs he =>
    rw [h, hf f (by rw [he]; rfl)]
    rfl

/-- In its handler a side's register reads as it was recorded (R280, R421). -/
theorem faultRegister_recorded {s : State} {side : Side} (h : s.handling = some side) (hr : s.inRoutine = false)
    (v : Word) (a : Addr) : s.faultRegister side v a = v := by
  unfold State.faultRegister
  exact if_pos ⟨h, hr⟩

/-- Settles O18: the entry's fields, delivery blocked by the handler that now runs, and the registers it reads. -/
theorem exceptionEntry : Obligations.ExceptionEntry := by
  intro s e hnone
  have hhandling : (s.enterException e).handling = some e.side := rfl
  refine ⟨s.enterException e, takeException_of_none hnone e, enterException_eq s e, ?_,
    interruptible_in_handler hhandling, fun e' => ?_, fun hf a => ?_⟩
  · show e.cause.code = _
    cases e.cause <;> rfl
  · unfold State.takeException
    rw [hhandling]
  · have hroutine := inRoutine_of_handler hhandling (by rw [enterException_isrs]; exact hf)
    have read (side : Side) (hside : e.side = side) (v : Word) : (s.enterException e).faultRegister side v a = v :=
      faultRegister_recorded (hhandling.trans (congrArg some hside)) hroutine v a
    exact ⟨fun hside => ⟨read .data hside _, read .data hside _⟩, fun hside => ⟨read .instr hside _, read .instr hside _⟩⟩

/-- Settles O19: RETX and the saved mode are those of the entry. -/
theorem exceptionReturn : Obligations.ExceptionReturn := by
  intro s e h _ hretx hmode
  unfold State.returnFromException
  rw [hretx, hmode, enterException_eq]

/-! ### Mode changes -/

/-- The mode, the running handler and the interrupted contexts are as before. -/
def SameContext (s t : State) : Prop := t.mode = s.mode ∧ t.handling = s.handling ∧ t.isrs = s.isrs

/-- Short of an interrupt an instruction keeps the context or enters an exception. -/
theorem plainMove_context {s t : State} (h : PlainMove s t) :
    SameContext s t ∨ ∃ e, s.handling = none ∧ t = s.enterException e := by
  rcases h with he | ⟨-, ht⟩ | ⟨u, hu, ht⟩
  · exact .inr he
  · left
    rw [ht]
    exact ⟨rfl, rfl, rfl⟩
  · left
    have hframe := execMove_frame hu
    unfold RegsOnly at ht
    unfold DrainOnly at hframe
    rw [ht]
    rw [hframe]
    exact ⟨rfl, rfl, rfl⟩

/-- Settles O20: the three kinds of next state that an instruction can give (`exec_cases`). -/
theorem modeChangesOnlyByExceptionOrInterrupt : Obligations.ModeChangesOnlyByExceptionOrInterrupt := by
  intro i s t h
  rcases exec_cases h with hp | ⟨hi, u, k, hp, hhandling, hmode, -, rfl⟩
  · rcases plainMove_context hp with hsame | ⟨e, hnone, rfl⟩
    · exact .inl hsame
    · exact .inr (.inl ⟨rfl, hnone, rfl, enterException_isrs s e, rfl, rfl, rfl⟩)
  · have hisrs : u.isrs = s.isrs := by
      rcases plainMove_context hp with ⟨-, -, hsame⟩ | ⟨e, -, rfl⟩
      · exact hsame
      · exact enterException_isrs s e
    refine .inr (.inr ⟨hi, rfl, hhandling, ⟨k, u.pc, u.mode, u.handling.isSome⟩, ?_, hmode, rfl⟩)
    show _ :: u.isrs = _
    rw [hisrs]

/-! ### User mode and the protection -/

/-- Nothing that protects is changed, and no store to a core MMR is on its way (R276). -/
def SameProtection (s t : State) : Prop :=
  t.dcplb = s.dcplb ∧ t.icplb = s.icplb ∧ t.dmemControl = s.dmemControl ∧ t.imemControl = s.imemControl ∧
  t.imask = s.imask ∧ t.evt3 = s.evt3 ∧ t.iprio = s.iprio ∧ t.timerControl = s.timerControl ∧
  t.itestCommand = s.itestCommand ∧ t.itestData0 = s.itestData0 ∧ t.itestData1 = s.itestData1 ∧
  t.dtestCommand = s.dtestCommand ∧ t.dtestData0 = s.dtestData0 ∧ t.dtestData1 = s.dtestData1 ∧
  ∀ ps ∈ t.storeBuf, ps.path ≠ .coreMmr

/-- Short of an interrupt an instruction in User mode keeps the protection. -/
theorem plainMove_protection {s t : State} (hu : s.mode = .user) (hb : ∀ ps ∈ s.storeBuf, ps.path ≠ .coreMmr)
    (h : PlainMove s t) : SameProtection s t := by
  rcases h with ⟨e, -, rfl⟩ | ⟨hm, -⟩ | ⟨u, hmove, ht⟩
  · rw [enterException_eq]
    exact ⟨rfl, rfl, rfl, rfl, rfl, rfl, rfl, rfl, rfl, rfl, rfl, rfl, rfl, rfl, hb⟩
  · exact absurd hu hm
  · obtain ⟨hframe, hbuf⟩ := execMove_user hmove hu hb
    unfold RegsOnly at ht
    unfold StorageOnly at hframe
    rw [ht]
    refine ⟨?_, ?_, ?_, ?_, ?_, ?_, ?_, ?_, ?_, ?_, ?_, ?_, ?_, ?_, hbuf⟩ <;> (dsimp only; rw [hframe])

/-- Settles O21: what an instruction in User mode may do keeps the protection, and so does an interrupt's entry. -/
theorem userModeCannotChangeProtection : Obligations.UserModeCannotChangeProtection := by
  intro i s t hu hb h
  rcases exec_cases h with hp | ⟨-, u, k, hp, -, -, -, rfl⟩
  · exact plainMove_protection hu hb hp
  · have hkept : SameProtection s u := plainMove_protection hu hb hp
    exact hkept

/-! ### The interrupt mask -/

/-- With IMASK 0 no maskable interrupt may be taken (R441). -/
theorem interruptible_of_masked {s : State} (h : s.imask = 0) (k : Fin 16) (hk : 5 ≤ k.val) :
    s.interruptible k = false := by
  have hmask : s.unmasked k = false := by
    unfold State.unmasked bitAt
    rw [h, decide_eq_false (show ¬ k.val < 5 by omega), Bool.false_or]
    exact BitVec.getLsbD_zero
  unfold State.interruptible
  rw [hmask, Bool.false_and, Bool.false_and]

/-- Settles O23: CLI exchanges IMASK for 0, STI restores it and then takes what is next, if anything is. -/
theorem cliAndStiComplete : Obligations.CliAndStiComplete := by
  intro s d hmode
  constructor
  · refine ⟨{ s with r := s.r.set d s.imask, imask := 0, pc := s.pc + 2 }, if_neg hmode, rfl, ?_, fun e he => ?_,
      interruptible_of_masked rfl⟩
    · exact (DRegs.get_set s.r d d s.imask).trans (if_pos rfl)
    · exact (DRegs.get_set s.r d e s.imask).trans (if_neg he)
  · rintro u rfl
    have hexec : exec (.sti d) s = .next ({ s with imask := s.dreg d, pc := s.pc + 2 } : State).takeInterrupt :=
      if_neg hmode
    refine ⟨fun hnone => ?_, fun k hk => ?_⟩ <;> rw [hexec] <;> unfold State.takeInterrupt
    · rw [hnone]
    · rw [hk]

/-- Settles O24: both take the protected-resource exception, whose side has no status register. -/
theorem cliStiTrapInUserMode : Obligations.CliStiTrapInUserMode := by
  intro s d hmode hnone
  have hcli : exec (.cli d) s = s.takeException (protectedResource s) := if_pos hmode
  have hsti : exec (.sti d) s = s.takeException (protectedResource s) := if_pos hmode
  refine ⟨?_, hsti.trans hcli.symm⟩
  rw [hcli, takeException_of_none hnone, ← hmode]
  rfl

/-! ### BITSET, the jumps, the constant loads -/

/-- Settles O25: the bit set in Rd is the one of the shifted 1, and no other field is written. -/
theorem bitsetAndDisalgnexcptComplete : Obligations.BitsetAndDisalgnexcptComplete := by
  intro s d n hn
  refine ⟨⟨(s.setD d (s.dreg d ||| (1 : Word) <<< n)).advance 2, rfl, rfl, fun k hk => ?_, fun e he => ?_⟩, rfl⟩
  · have hflag : ((1 : Word) <<< n).getLsbD k = (n == k) := by
      have := flagBit_bit true n k (by omega)
      rwa [Bool.true_and] at this
    rw [State.dreg_advance, State.dreg_setD, if_pos rfl, BitVec.getLsbD_or, hflag]
    by_cases hkn : k = n
    · simp [hkn]
    · simp [hkn, Ne.symm hkn]
  · rw [State.dreg_advance, State.dreg_setD, if_neg he]

/-- Settles O26: a jump is taken when CC is what it wants. -/
theorem conditionalJumpsComplete : Obligations.ConditionalJumpsComplete := by
  intro s o
  have taken {b : Bool} (h : s.cc = b) : s.condJump b o =
      .next { s with pc := s.pc + BitVec.ofInt 32 (2 * o), shadow := some (s.pc + 2) } :=
    if_pos (by unfold jumpTaken; rw [h]; exact beq_self_eq_true b)
  have passed {b : Bool} (h : s.cc = !b) : s.condJump b o = .next { s with pc := s.pc + 2 } :=
    if_neg (by unfold jumpTaken; rw [h]; cases b <;> decide)
  exact ⟨fun h => ⟨taken h, passed h⟩, fun h => ⟨taken h, passed h⟩⟩

/-- The two halves of a word put together. -/
theorem halves_low (x y : Half) : (x ++ y : Word).extractLsb' 0 16 = y := by
  apply BitVec.eq_of_getLsbD_eq
  intro k hk
  rw [BitVec.getLsbD_extractLsb', BitVec.getLsbD_append]
  simp [hk]

/-- Settles O27: each form replaces one half of Pp and keeps the other. -/
theorem constantLoadCompletes : Obligations.ConstantLoadCompletes := by
  intro s p lo hi
  have same (u : State) (v : Word) : ((u.setP p v).advance 4).preg p = v := by
    rw [State.preg_advance, State.preg_setP, if_pos rfl]
  have other (u : State) (v : Word) (q : PReg) (hq : q ≠ p) : ((u.setP p v).advance 4).preg q = u.preg q := by
    rw [State.preg_advance, State.preg_setP, if_neg hq]
  refine ⟨⟨_, rfl, rfl, (same s _).trans (withLowHalf_eq _ lo), other s _⟩,
    ⟨_, rfl, rfl, (same s _).trans (withHighHalf_eq _ hi), other s _⟩, _, _, rfl, rfl, ?_, ?_, fun q hq => ?_⟩
  · rw [same, same, withHighHalf_eq, withLowHalf_eq, halves_low]
  · have hpc : s.pc + 4 + 4 = s.pc + 8 := by rw [add_assoc]; rfl
    rw [← hpc]
    rfl
  · rw [other _ _ q hq, other _ _ q hq]

/-! ### The data bank of an address -/

/-- Which banks are cache under a DMC code (R40). -/
theorem bankIsCache_of_dmc {s : State} {n : Nat} (h : s.dmc = n) (b : Bank) : s.bankIsCache b = bankIsCacheUnder n b := by
  unfold State.bankIsCache
  rw [h]

/-- Settles O45: with both banks cache the selected bit of the address decides. -/
theorem dataBankSelection : Obligations.DataBankSelection := by
  intro s a
  have both (h : s.dmc = 3) : s.bankFor a = some (if bitAt a (if s.dcbs then 23 else 14) then .bankA else .bankB) := by
    unfold State.bankFor
    rw [bankIsCache_of_dmc h, bankIsCache_of_dmc h]
    rfl
  refine ⟨fun h hb => ?_, fun h hb => ?_, fun h => ?_, fun h => ?_⟩
  · rw [both h, hb]; rfl
  · rw [both h, hb]; rfl
  · unfold State.bankFor; rw [bankIsCache_of_dmc h, bankIsCache_of_dmc h]; rfl
  · unfold State.bankFor; rw [bankIsCache_of_dmc h, bankIsCache_of_dmc h]; rfl

end Sys2Proof.Machine
end

section
/-! The core MMRs read back (R52), and the synchronisation instructions (R350 to R355): what CSYNC and SSYNC drain, and
how one buffered store is performed. -/

namespace Sys2Proof.Machine

open Host (Outcome)

/-! ### A register read after it is written -/

/-- A test command's array access leaves the command's own register alone. -/
theorem itest_itestCommand (s : State) (c : Word) : (s.itest c).itestCommand = s.itestCommand := by
  simp only [State.itest]
  (repeat' split) <;> rfl

theorem dtest_dtestCommand (s : State) (c : Word) : (s.dtest c).dtestCommand = s.dtestCommand := by
  simp only [State.dtest, State.dtestInstr, State.dtestData]
  (repeat' split) <;> rfl

/-- A core MMR that software can write reads as the packed value (R52). -/
theorem readMmr_writeMmr (s : State) {name : MmrName} (a : Addr) (v : Word) (hro : name.readOnly = false) :
    (s.writeMmr name v).readMmr name a = name.pack v := by
  cases name with
  | dcplbStatus => cases hro
  | dcplbFaultAddr => cases hro
  | icplbStatus => cases hro
  | icplbFaultAddr => cases hro
  | dmemControl => rfl
  | imemControl =>
    show (s.writeImemControl v).imemControl = _
    rw [writeImemControl_frame]; rfl
  | dtestCommand => exact dtest_dtestCommand _ _
  | itestCommand => exact itest_itestCommand _ _
  | dcplbAddr n => simp [State.writeMmr, State.readMmr, MmrName.pack]
  | dcplbData n => simp [State.writeMmr, State.readMmr, MmrName.pack]
  | icplbAddr n => simp [State.writeMmr, State.readMmr, MmrName.pack]
  | icplbData n => simp [State.writeMmr, State.readMmr, MmrName.pack]
  | dtestData0 => rfl
  | dtestData1 => rfl
  | itestData0 => rfl
  | itestData1 => rfl
  | evt3 => rfl
  | iprio => rfl
  | timerControl => rfl

/-- Settles O39: a register reads back packed, and packing is the mask of its fields. -/
theorem mmrReadsBackItsFields : Obligations.MmrReadsBackItsFields := by
  intro s name a v hro
  rw [readMmr_writeMmr s a v hro]
  cases name <;> rfl

/-! ### Which interrupt is next -/

/-- The next interrupt depends on the pending interrupts, IMASK, the interrupted contexts and the handler alone. -/
theorem nextInterrupt_congr {s t : State} (hirq : t.irqPending = s.irqPending)
    (hhw : t.hwErrorPending = s.hwErrorPending) (him : t.imask = s.imask) (hisrs : t.isrs = s.isrs)
    (hh : t.handling = s.handling) : t.nextInterrupt = s.nextInterrupt := by
  unfold State.nextInterrupt State.pending State.interruptible State.unmasked
  rw [hirq, hhw, him, hisrs, hh]

/-- How CSYNC and SSYNC end in the state that their drain leaves (R350). -/
theorem synchronised_of_drain {s d : State} (hd : DrainOnly { s with storeBuf := [] } d) :
    (d.nextInterrupt = none → d.synchronised = { d with pc := s.pc + 2 }) ∧
    ∀ k, d.nextInterrupt = some k → d.synchronised = d.enterInterrupt k ∧
      (d.enterInterrupt k).isrs = ⟨k, s.pc, s.mode, s.handling.isSome⟩ :: s.isrs := by
  have hpc : d.pc = s.pc := by rw [hd]
  have hmode : d.mode = s.mode := by rw [hd]
  have hhandling : d.handling = s.handling := by rw [hd]
  have hisrs : d.isrs = s.isrs := by rw [hd]
  refine ⟨fun hnone => ?_, fun k hk => ⟨?_, ?_⟩⟩
  · unfold State.synchronised
    rw [hnone, ← hpc]
    rfl
  · unfold State.synchronised
    rw [hk]
  · rw [← hpc, ← hmode, ← hhandling, ← hisrs]
    rfl

/-! ### What a drain leaves in the write buffer -/

theorem settleVictims_writeBuf (s : State) (line : Addr) : (s.settleVictims line).writeBuf = s.writeBuf := by
  have one (s : State) (k : Bank) : (s.settleVictim line k).writeBuf = s.writeBuf := by
    unfold State.settleVictim
    split
    · exact performVictim_writeBuf s k
    · rfl
  exact (one _ .bankB).trans (one s .bankA)

/-- A store enters the write buffer behind the entries that a full buffer still holds. -/
theorem enqueueWrite_writeBuf (s : State) (e : BufEntry) : ∃ n, (s.enqueueWrite e).writeBuf = s.writeBuf.drop n ++ [e] := by
  refine ⟨(s.settleVictims (lineAddr e.addr)).writeBuf.length + 1 - (s.settleVictims (lineAddr e.addr)).writeBufDepth, ?_⟩
  show (State.performWrites _ _).writeBuf ++ [e] = _
  rw [performWrites_writeBuf, settleVictims_writeBuf]

/-- A buffer of one store is drained by performing it. -/
theorem drainStores_one {s : State} {ps : PendingStore} (h : s.storeBuf = [ps]) :
    s.drainStores = ({ s with storeBuf := [] } : State).performStore ps := by
  unfold State.drainStores
  rw [h]
  rfl

/-- Settles O28: what the two drains may change and leave waiting, and how both instructions end. -/
theorem csyncAndSsyncComplete : Obligations.CsyncAndSsyncComplete := by
  intro s
  have hcsync : exec .csync s = .next s.drainStores.synchronised := rfl
  have hssync : exec .ssync s = .next s.drainAll.synchronised := rfl
  obtain ⟨hcdone, hcint⟩ := synchronised_of_drain (drainStores_drainOnly s)
  obtain ⟨hsdone, hsint⟩ := synchronised_of_drain (drainAll_drainOnly s)
  refine ⟨⟨s.drainStores, drainStores_drainOnly s, drainStores_empty, fun e hone hempty _ => ?_, fun hnone => ?_,
    fun k hk => ?_⟩, s.drainAll, drainAll_drainOnly s, drainAll_quiet s, drainAll_of_quiet, fun hnone => ?_, fun k hk => ?_⟩
  · rw [drainStores_one hone]
    obtain ⟨n, hn⟩ := enqueueWrite_writeBuf ({ s with storeBuf := [] } : State) e
    have hdrop : s.writeBuf.drop n ++ [e] = [e] := by rw [hempty, List.drop_nil]; rfl
    exact hn.trans hdrop
  · rw [hcsync, hcdone hnone]
  · exact ⟨_, hcsync.trans (congrArg Outcome.next (hcint k hk).1), rfl, rfl, (hcint k hk).2⟩
  · rw [hssync, hsdone hnone]
  · exact ⟨_, hssync.trans (congrArg Outcome.next (hsint k hk).1), rfl, rfl, (hsint k hk).2⟩

/-! ### One buffered store -/

/-- CSYNC with no interrupt to take in the state that its drain leaves. -/
theorem exec_csync_done {s d : State} (hd : s.drainStores = d) (hnone : d.nextInterrupt = none) :
    exec .csync s = .next { d with pc := s.pc + 2 } := by
  subst hd
  have h := (synchronised_of_drain (drainStores_drainOnly s)).1 hnone
  exact congrArg Outcome.next h

/-- SSYNC with no interrupt to take in the state that its drain leaves. -/
theorem exec_ssync_done {s d : State} (hd : s.drainAll = d) (hnone : d.nextInterrupt = none) :
    exec .ssync s = .next { d with pc := s.pc + 2 } := by
  subst hd
  have h := (synchronised_of_drain (drainAll_drainOnly s)).1 hnone
  exact congrArg Outcome.next h

/-- With both copy-back buffers empty there is no line to write back. -/
theorem performVictims_empty {s : State} (hA : s.victimA = none) (hB : s.victimB = none) :
    (s.performVictim .bankA).performVictim .bankB = s := by
  rw [performVictim_empty (k := .bankA) hA, performVictim_empty (k := .bankB) hB]

/-- With nothing in the write and copy-back buffers behind it, a drained store buffer is a full drain. -/
theorem drainAll_of_drainStores {s : State} (hw : s.drainStores.writeBuf = []) (hA : s.drainStores.victimA = none)
    (hB : s.drainStores.victimB = none) : s.drainAll = s.drainStores := by
  unfold State.drainAll State.flushWrites
  rw [performWrites_empty hw, performVictims_empty hA hB]

/-- SSYNC takes one uncached store to external RAM to memory (R351). -/
theorem drainAll_uncached {s : State} {a : Addr} {w : Width} {v : Word} (hram : (s.region a).isExternalRam = true)
    (hone : s.storeBuf = [⟨⟨a, w, v⟩, .uncached⟩]) (hw : s.writeBuf = []) (hA : s.victimA = none)
    (hB : s.victimB = none) :
    s.drainAll = { s with storeBuf := [], mem := Memory.writeBytes s.mem a (bytesOf v w.bytes) } := by
  obtain ⟨hpop, hwritable, -⟩ := isExternalRam_facts hram
  have hstores : s.drainStores = { s with storeBuf := [], writeBuf := [⟨a, w, v⟩] } := by
    rw [drainStores_one hone]
    exact enqueueWrite_quiet (s := { s with storeBuf := [] }) hw hA hB ⟨a, w, v⟩
  have hflush : s.drainStores.flushWrites =
      ({ s with storeBuf := [], writeBuf := [] } : State).busWrite a (bytesOf v w.bytes) := by
    rw [hstores]
    rfl
  have hbus : ({ s with storeBuf := [], writeBuf := [] } : State).busWrite a (bytesOf v w.bytes) =
      { s with storeBuf := [], mem := Memory.writeBytes s.mem a (bytesOf v w.bytes) } := by
    have hreg : ({ s with storeBuf := [], writeBuf := [] } : State).region a = s.region a := rfl
    unfold State.busWrite
    rw [hreg, hpop, hwritable, ← hw]
    rfl
  unfold State.drainAll
  rw [hflush, hbus]
  exact performVictims_empty hA hB

/-- A word written and read back: its four bytes at its address, every other byte as before. -/
theorem writeBytes_word {m : List Host.Cell} (hm : Memory.wf m = true) (a : Addr) (v : Word) :
    Memory.readBytes (Memory.writeBytes m a (bytesOf v 4)) a 4 =
      [v.extractLsb' 0 8, v.extractLsb' 8 8, v.extractLsb' 16 8, v.extractLsb' 24 8] ∧
    ∀ b : Addr, 4 ≤ (b - a).toNat → Memory.read (Memory.writeBytes m a (bytesOf v 4)) b = Memory.read m b :=
  ⟨Memory.readBytes_writeBytes hm a (bytesOf v 4) (show 4 ≤ 2 ^ 32 by decide),
    fun b hb => Memory.read_writeBytes_out hm a b (bytesOf v 4) (show 4 ≤ 2 ^ 32 by decide) hb⟩

/-- A store to a core MMR leaves the next interrupt as it was. -/
theorem nextInterrupt_writeMmr (s : State) (name : MmrName) (v : Word) :
    (s.writeMmr name v).nextInterrupt = s.nextInterrupt :=
  nextInterrupt_congr (by rw [writeMmr_frame]) (by rw [writeMmr_frame]) (by rw [writeMmr_frame])
    (by rw [writeMmr_frame]) (by rw [writeMmr_frame])

/-- A register's value does not depend on the pc. -/
theorem readMmr_pc (s : State) (pc : Addr) (name : MmrName) (a : Addr) :
    ({ s with pc := pc } : State).readMmr name a = s.readMmr name a := by
  cases name <;> rfl

/-- A store buffer is drained by performing its oldest store and draining the rest. -/
theorem drainStores_cons {s : State} {ps : PendingStore} {rest : List PendingStore} (h : s.storeBuf = ps :: rest) :
    s.drainStores =
      ({ ({ s with storeBuf := [] } : State).performStore ps with storeBuf := rest } : State).drainStores := by
  have hempty : (({ s with storeBuf := [] } : State).performStore ps).storeBuf = [] := by
    rw [performStore_drainOnly]
  have hself : { ({ s with storeBuf := [] } : State).performStore ps with storeBuf := [] } =
      ({ s with storeBuf := [] } : State).performStore ps := by
    generalize ({ s with storeBuf := [] } : State).performStore ps = u at hempty
    rw [← hempty]
  unfold State.drainStores
  rw [h]
  show (State.performStore _ ps).performStores rest = State.performStores { State.performStore _ ps with storeBuf := [] } rest
  rw [hself]

/-- The store behind `before` is the oldest for its bytes when none of `before` shares one with it (D9). -/
theorem oldestForItsBytes_iff (before after : List PendingStore) (ps : PendingStore) :
    oldestForItsBytes (before ++ ps :: after) before.length = true ↔
      ∀ q ∈ before, q.entry.overlaps ps.entry = false := by
  unfold oldestForItsBytes
  rw [List.getElem?_append_right (le_refl _), Nat.sub_self, List.getElem?_cons_zero,
    List.take_append_of_le_length (le_refl _), List.take_length, List.all_eq_true]
  simp only [Bool.not_eq_true']

/-- The drain step performs the store at its position, if it is the oldest for its bytes (R149). -/
theorem drainStore_eq {s : State} {before after : List PendingStore} {ps : PendingStore}
    (h : s.storeBuf = before ++ ps :: after) :
    s.drainStore before.length =
      if oldestForItsBytes (before ++ ps :: after) before.length then
        ({ s with storeBuf := before ++ after } : State).performStore ps
      else s := by
  have hget : (before ++ ps :: after)[before.length]? = some ps := by
    rw [List.getElem?_append_right (le_refl _), Nat.sub_self, List.getElem?_cons_zero]
  have herase : (before ++ ps :: after).eraseIdx before.length = before ++ after := by
    rw [List.eraseIdx_append_of_length_le (le_refl _), Nat.sub_self, List.eraseIdx_cons_zero]
  unfold State.drainStore
  rw [h, hget, herase]

/-- Settles O29: one store performed, by its path; several, the oldest first; the drain step, by its overlaps. -/
theorem synchronisationPerformsStores : Obligations.SynchronisationPerformsStores := by
  intro s i
  refine ⟨fun a v hm hnone hi => ?_, fun a v name hnone hone hname hro hi => ?_, fun ps rest hbuf hi => ?_,
    fun before after ps hbuf => ⟨fun hfree => ?_, fun hshared => ?_⟩⟩
  · obtain ⟨hbytes, hother⟩ := writeBytes_word hm a v
    refine ⟨{ s with storeBuf := [], mem := Memory.writeBytes s.mem a (bytesOf v 4), pc := s.pc + 2 }, ?_, rfl, hbytes,
      hother⟩
    rcases hi with ⟨rfl, hone⟩ | ⟨rfl, hram, hone, hw, hA, hB⟩
    · exact exec_csync_done (drainStores_one hone) hnone
    · exact exec_ssync_done (drainAll_uncached hram hone hw hA hB) hnone
  · have hdrain : s.drainStores = ({ s with storeBuf := [] } : State).writeMmr name v := by
      rw [drainStores_one hone]
      simp only [State.performStore, hname]
    have hnone' : (({ s with storeBuf := [] } : State).writeMmr name v).nextInterrupt = none :=
      (nextInterrupt_writeMmr _ name v).trans hnone
    refine ⟨_, ?_, (readMmr_pc _ _ name a).trans (readMmr_writeMmr _ a v hro), rfl⟩
    rcases hi with rfl | ⟨rfl, hw, hA, hB⟩
    · exact exec_csync_done hdrain hnone'
    · have hall : s.drainAll = s.drainStores := drainAll_of_drainStores (by rw [hdrain, writeMmr_frame]; exact hw)
        (by rw [hdrain, writeMmr_frame]; exact hA) (by rw [hdrain, writeMmr_frame]; exact hB)
      exact exec_ssync_done (hall.trans hdrain) hnone'
  · have hdrain := drainStores_cons hbuf
    rcases hi with rfl | rfl
    · exact congrArg (fun d : State => Outcome.next d.synchronised) hdrain
    · exact congrArg (fun d : State => Outcome.next
        (((d.flushWrites).performVictim .bankA).performVictim .bankB).synchronised) hdrain
  · have hold : oldestForItsBytes (before ++ ps :: after) before.length = true := by
      rw [oldestForItsBytes_iff]
      intro q hq
      rw [Bool.eq_false_iff, Ne, BufEntry.overlaps_iff]
      rintro ⟨j, k, hj, hk, he⟩
      exact hfree q hq j k hj hk he
    show s.drainStore before.length = _
    rw [drainStore_eq hbuf, if_pos hold]
  · obtain ⟨q, hq, j, k, hj, hk, he⟩ := hshared
    have hyoung : ¬ oldestForItsBytes (before ++ ps :: after) before.length = true := by
      rw [oldestForItsBytes_iff]
      intro hnone
      have hoverlap := (BufEntry.overlaps_iff q.entry ps.entry).2 ⟨j, k, hj, hk, he⟩
      rw [hnone q hq] at hoverlap
      cases hoverlap
    show s.drainStore before.length = _
    rw [drainStore_eq hbuf, if_neg hyoung]

/-! ### TESTSET on external RAM -/

/-- Below the boot ROM the region of an address depends on the flash strap alone. -/
theorem region_external_congr {s t : State} {a : Addr} (hf : t.flashBank = s.flashBank) (ha : a.toNat < 0xEF000000) :
    t.region a = s.region a := by
  unfold State.region State.externalRegion
  rw [if_pos ha, if_pos ha, hf]

/-- TESTSET on external RAM passes its checks where the page permits the read and the write. -/
theorem testsetStop_externalRam {s : State} {a : Addr} (hram : (s.region a).isExternalRam = true)
    (heven : a.toNat % 2 = 0)
    (hpage : s.enDcplb = false ∨ ∃ c, lookup s.dcplb a = .hit c ∧ c.permits s.mode false = true ∧
      c.permits s.mode true = true) : s.testsetStop a = none := by
  have hmin (b : Bool) := testset_minimal b hram heven
  have hok : ∀ b, ∃ m, s.checkData (testsetAccess a b) = .ok m := by
    intro b
    by_cases hen : s.enDcplb = true
    · rcases hpage with hoff | ⟨c, hhit, hrd, hwr⟩
      · rw [hoff] at hen; cases hen
      · refine ⟨c.cacheMode, ?_⟩
        rw [testset_page hram heven hen hhit]
        exact if_pos (by cases b; exacts [hrd, hwr])
    · exact ⟨_, checkData_disabled (hmin b) (by simpa using hen)⟩
  obtain ⟨m, hm⟩ := hok false
  obtain ⟨n, hn⟩ := hok true
  exact (testsetStop_pages (st := .refusal (.testsetOnCoreMemory a)) (hmin false) (inCoreMemory_externalRam hram)).2.2 m n hm hn

/-- TESTSET on external RAM reads and writes the byte of memory that the drain left (R371, R373). -/
theorem testAndSet_externalRam {s : State} {a : Addr} (hram : (s.region a).isExternalRam = true) :
    s.testAndSet a =
      { s.drainAll with mem := Memory.write s.drainAll.mem a (testsetByte (Memory.read s.drainAll.mem a)),
                        cc := testsetFlag (Memory.read s.drainAll.mem a) } := by
  have hlow := region_externalRam hram
  have hflash : s.drainAll.flashBank = s.flashBank := by rw [drainAll_drainOnly s]
  have hreg : s.drainAll.region a = s.region a := region_external_congr hflash (by omega)
  obtain ⟨hpop, hwritable, -⟩ := isExternalRam_facts hram
  rw [← hreg] at hpop hwritable
  unfold State.testAndSet
  simp only [busByte_of_populated hpop, State.busWrite, hpop, hwritable, Bool.false_eq_true, if_false]
  rfl

/-- Settles O30: the drained state with one byte tested and set. -/
theorem testsetCompletes : Obligations.TestsetCompletes := by
  intro s p hm hram heven hpage
  have hstop := testsetStop_externalRam hram heven hpage
  have hexec : exec (.testset p) s = .next ((s.testAndSet (s.preg p)).advance 2) := by
    show execTestset p s = _
    simp only [execTestset, hstop]
  have hwf : Memory.wf s.drainAll.mem = true := memoryCanonical_closed.drainAll hm
  have hpc : s.drainAll.pc = s.pc := by rw [drainAll_drainOnly s]
  rw [testAndSet_externalRam hram] at hexec
  refine ⟨_, hexec, ?_, ?_, fun b hb => ?_, drainAll_of_quiet⟩
  · rw [← hpc]; rfl
  · show Memory.read (Memory.write _ _ _) _ = _
    rw [Memory.read_write _ _ _ hwf, if_pos rfl]
    rfl
  · show Memory.read (Memory.write _ _ _) _ = _
    rw [Memory.read_write _ _ _ hwf, if_neg hb]

end Sys2Proof.Machine
end

section
/-! Loads and stores that complete (R130, R391 to R394): what a read returns and leaves, the path a store takes, and the
word accesses to MMR space. -/

namespace Sys2Proof.Machine

open Host (Outcome)

/-! ### Reads while nothing waits -/

/-- With nothing in the store and write buffers a read answers what lies under them. -/
theorem readValue_unbuffered {s : State} (h1 : s.storeBuf = []) (h2 : s.writeBuf = []) (a : Addr) (n : Nat)
    (m : CacheMode) :
    s.readValue a (n + 1) m = (wordOf (s.readUnder a (n + 1) m).1, (s.readUnder a (n + 1) m).2) := by
  unfold State.readValue
  rw [fullyBuffered_empty h1 h2, if_neg Bool.false_ne_true]
  simp only [overlay_empty h1 h2]

/-- A word of memory is its four bytes, the one at the lowest address the least significant (R110). -/
theorem wordOf_readBytes (m : List Host.Cell) (a : Addr) :
    wordOf (Memory.readBytes m a 4) =
      Memory.read m (a + 3) ++ Memory.read m (a + 2) ++ Memory.read m (a + 1) ++ Memory.read m a := by
  have hlist : Memory.readBytes m a 4 =
      [Memory.read m (a + BitVec.ofNat 32 0), Memory.read m (a + 1), Memory.read m (a + 2), Memory.read m (a + 3)] := rfl
  rw [hlist, wordOf_four, BitVec.ofNat_eq_ofNat, BitVec.add_zero]

/-- An uncached read, or one that no bank is cache for, asks the bus (R130 step 6). -/
theorem readUnder_bus {s : State} {a : Addr} {m : CacheMode} (h : m = .uncached ∨ s.dplace a = none) (n : Nat) :
    s.readUnder a n m = ((List.range n).map fun k => s.behindByte (a + BitVec.ofNat 32 k), s.touch a) := by
  unfold State.readUnder
  rcases h with rfl | h
  · rfl
  · rw [h]
    cases m <;> rfl

/-- On a hit the line's way is marked last used (R214). -/
theorem lineFor_hit {s : State} {pl : DPlace} {a : Addr} {w : Fin 2} (h : (s.dset pl).hitWay (dtagOf a) = some w) :
    s.lineFor pl a = (w, s.setDset pl ((s.dset pl).touchWay w)) := by
  unfold State.lineFor
  rw [h]

/-- A read that hits answers from the line, and only marks its way (R214). -/
theorem readUnder_hit {s : State} {a : Addr} {n : Nat} {m : CacheMode} {pl : DPlace} {w : Fin 2}
    (hm : m ≠ .uncached) (hp : s.dplace a = some pl) (h : (s.dset pl).hitWay (dtagOf a) = some w) :
    s.readUnder a n m =
      (Memory.readBytes s.mem (pl.cells w + lineOffset a) n, s.setDset pl ((s.dset pl).touchWay w)) := by
  have hline := lineFor_hit h
  unfold State.readUnder
  rw [hp]
  cases m with
  | uncached => exact absurd rfl hm
  | writeThrough b => dsimp only; rw [hline]; rfl
  | writeBack => dsimp only; rw [hline]; rfl

/-- The bytes behind the caches of a populated aligned word, while nothing waits, are memory's. -/
theorem behindByte_word {s : State} (h : s.quiet) {a : Addr} (ha : a.toNat % 4 = 0)
    (hr : (s.region a).unpopulated = false) :
    ((List.range 4).map fun k => s.behindByte (a + BitVec.ofNat 32 k)) = Memory.readBytes s.mem a 4 := by
  unfold Memory.readBytes
  apply List.map_congr_left
  intro k hk
  rw [behindByte_quiet h, busByte_of_populated]
  rw [region_word s a k ha (List.mem_range.1 hk)]
  exact hr

/-- The four bytes of an aligned word lie in one line. -/
theorem lineOffset_word {a : Addr} (ha : a.toNat % 4 = 0) : (lineOffset a).toNat + 4 ≤ 32 := by
  rw [lineOffset_toNat]
  omega

/-- Settles O33: the three ways in which a read finds its word. -/
theorem readsReturnTheWord : Obligations.ReadsReturnTheWord := by
  intro s a hq ha
  have hread (m : CacheMode) := readValue_unbuffered hq.1 hq.2.1 a 3 m
  refine ⟨fun hr => ?_, fun m pl w hm hp hhit => ?_, fun m pl w hm hcanon hr hp hmiss hw => ?_⟩
  · have hpop := isDataMemory_populated hr
    rw [hread, readUnder_bus (.inl rfl), behindByte_word hq ha hpop, wordOf_readBytes, touch_of_populated hpop]
  · rw [hread, readUnder_hit hm hp hhit]
  · subst hw
    refine ⟨s.allocateLine pl (s.dset pl).victimWay a, ?_, ?_, fun k => ?_⟩
    · rw [hread, readUnder_miss hm hp hmiss]
      simp only [allocateLine_quiet hq pl _ a hr hmiss]
      rw [readBytes_copy hcanon _ _ _ _ _ (lineOffset_word ha) (by decide), lineAddr_add_offset, wordOf_readBytes]
    · rw [allocateLine_quiet hq pl _ a hr hmiss]
    · rw [allocateLine_quiet hq pl _ a hr hmiss]
      cases k <;> rfl

/-! ### Loads and stores of every form -/

/-- The three load forms, written out. -/
theorem loadForm_of_cases {s : State} {r : DReg} {p : PReg} {u : Nat} {k : Int} {a : Addr} {len : Nat} {i : Instr}
    (h : (i = .load r p ∧ a = s.preg p ∧ len = 2) ∨
      (i = .loadShort r p u ∧ a = s.preg p + BitVec.ofNat 32 u ∧ len = 2) ∨
      (i = .loadLong r p k ∧ a = s.preg p + BitVec.ofInt 32 k ∧ len = 4)) : s.loadForm i = some (r, a, len) := by
  rcases h with ⟨rfl, rfl, rfl⟩ | ⟨rfl, rfl, rfl⟩ | ⟨rfl, rfl, rfl⟩ <;> rfl

/-- The three store forms, written out. -/
theorem storeForm_of_cases {s : State} {r : DReg} {p : PReg} {u : Nat} {k : Int} {a : Addr} {len : Nat} {i : Instr}
    (h : (i = .store p r ∧ a = s.preg p ∧ len = 2) ∨
      (i = .storeShort p u r ∧ a = s.preg p + BitVec.ofNat 32 u ∧ len = 2) ∨
      (i = .storeLong p k r ∧ a = s.preg p + BitVec.ofInt 32 k ∧ len = 4)) : s.storeForm i = some (r, a, len) := by
  rcases h with ⟨rfl, rfl, rfl⟩ | ⟨rfl, rfl, rfl⟩ | ⟨rfl, rfl, rfl⟩ <;> rfl

/-- A load of any form that passes its checks. -/
theorem exec_load_ok {s : State} {i : Instr} {r : DReg} {a : Addr} {len : Nat} (hi : s.loadForm i = some (r, a, len))
    (hok : s.memoryAccessOk (.load a)) :
    exec i s =
      .next (((s.readValue a 4 (s.pageMode a)).2.setD r (s.readValue a 4 (s.pageMode a)).1).advance len) := by
  rw [exec_loadForm hi, loadWord_ok r a len hok]

/-- A load whose read returns a value and changes nothing writes its register and the pc alone. -/
theorem exec_load_pure {s : State} {i : Instr} {r : DReg} {a : Addr} {len : Nat} {v : Word}
    (hi : s.loadForm i = some (r, a, len)) (hok : s.memoryAccessOk (.load a))
    (hv : s.readValue a 4 (s.pageMode a) = (v, s)) :
    exec i s = .next { s with r := s.r.set r v, pc := s.pc + BitVec.ofNat 32 len } := by
  rw [exec_load_ok hi hok, hv]
  rfl

/-- Settles O32: the load's register and the pc beside what its read may change. -/
theorem loadsComplete : Obligations.LoadsComplete := by
  intro s r p u k a len i hi hok
  have hframe := readValue_storageOnly s a 4 (s.pageMode a)
  refine ⟨_, exec_load_ok (loadForm_of_cases hi) hok, ?_, fun e he => ?_, ?_, fun hq hm b hb => ?_⟩
  · rw [State.dreg_advance, State.dreg_setD, if_pos rfl]
  · rw [State.dreg_advance, State.dreg_setD, if_neg he]
    unfold State.dreg
    rw [hframe]
  · unfold StorageOnly at hframe ⊢
    rw [hframe]
    rfl
  · exact readValue_read hq hm a b 4 _ hb

/-- A store of any form that passes its checks. -/
theorem exec_store_ok {s : State} {i : Instr} {r : DReg} {a : Addr} {len : Nat} (hi : s.storeForm i = some (r, a, len))
    (hok : s.memoryAccessOk (.store a)) :
    exec i s = .next ((s.pushStore ⟨a, .word, s.dreg r⟩ (s.storePath a (s.pageMode a))).advance len) := by
  rw [exec_storeForm hi, storeWord_ok r a len hok]

/-- L1 data SRAM and the scratchpad (R101). -/
theorem region_sram (s : State) (a : Addr)
    (h : (0xFF800000 ≤ a.toNat ∧ a.toNat < 0xFF804000) ∨ (0xFF900000 ≤ a.toNat ∧ a.toNat < 0xFF904000) ∨
      (0xFFB00000 ≤ a.toNat ∧ a.toNat < 0xFFB01000) ∨
      (0xFF804000 ≤ a.toNat ∧ a.toNat < 0xFF808000 ∧ s.bankIsCache .bankA = false) ∨
      (0xFF904000 ≤ a.toNat ∧ a.toNat < 0xFF908000 ∧ s.bankIsCache .bankB = false)) :
    s.region a = .dataSram ∨ s.region a = .scratchpad := by
  unfold State.region
  dsimp only [State.dataBankRegion]
  rcases h with h | h | h | h | h <;> (repeat' split) <;> first | omega | simp_all

/-- A store to L1 data SRAM or the scratchpad goes there. -/
theorem storePath_sram {s : State} {a : Addr} (h : s.region a = .dataSram ∨ s.region a = .scratchpad) (m : CacheMode) :
    s.storePath a m = .sram := by
  unfold State.storePath
  rcases h with h | h <;> rw [h]

/-- Elsewhere a store goes as its page says where a bank is cache for the address, and else past the cache (R220). -/
theorem storePath_outside {s : State} {a : Addr} (h1 : s.region a ≠ .dataSram) (h2 : s.region a ≠ .scratchpad) :
    (∀ pl, s.dplace a = some pl → s.storePath a .writeBack = .writeBack) ∧
    (∀ pl b, s.dplace a = some pl → s.storePath a (.writeThrough b) = .writeThrough b) ∧
    s.storePath a .uncached = .uncached ∧ (∀ m, s.dplace a = none → s.storePath a m = .uncached) := by
  unfold State.storePath
  refine ⟨fun pl hp => ?_, fun pl b hp => ?_, ?_, fun m hp => ?_⟩
  · rw [hp]; split <;> first | contradiction | rfl
  · rw [hp]; split <;> first | contradiction | rfl
  · split <;> first | contradiction | rfl
  · rw [hp]; split <;> first | contradiction | (cases m <;> rfl)

/-- An address has a set exactly when a bank is cache for it. -/
theorem dplace_isSome {s : State} {a : Addr} (h : (s.bankFor a).isSome = true) : ∃ pl, s.dplace a = some pl := by
  obtain ⟨b, hb⟩ := Option.isSome_iff_exists.1 h
  unfold State.dplace
  rw [hb]
  exact ⟨_, rfl⟩

theorem dplace_none {s : State} {a : Addr} (h : s.bankFor a = none) : s.dplace a = none := by
  unfold State.dplace
  rw [h]
  rfl

/-- Settles O35: the store enters the store buffer with the path of its region, else of its page and bank. -/
theorem storesComplete : Obligations.StoresComplete := by
  intro s r p u k a len i hi hok
  refine ⟨s.storePath a (s.pageMode a), exec_store_ok (storeForm_of_cases hi) hok,
    fun hsram => storePath_sram (region_sram s a hsram) _, fun h1 h2 => ?_⟩
  obtain ⟨hback, hthrough, huncached, hnobank⟩ := storePath_outside h1 h2
  refine ⟨fun hmode hbank => ?_, fun aow hmode hbank => ?_, ?_⟩
  · obtain ⟨pl, hp⟩ := dplace_isSome hbank
    rw [hmode, hback pl hp]
  · obtain ⟨pl, hp⟩ := dplace_isSome hbank
    rw [hmode, hthrough pl aow hp]
  · rintro (hmode | hbank)
    · rw [hmode, huncached]
    · exact hnobank _ (dplace_none hbank)

/-! ### Core MMRs -/

/-- A word load of a core MMR that passes its checks. -/
theorem loadWord_mmr {s : State} {a : Addr} {name : MmrName} (hok : s.mmrAccessOk (.load a) name) (r : DReg)
    (len : Nat) : s.loadWord r a len = .next ((s.setD r (s.readMmrValue name a)).advance len) := by
  obtain ⟨-, hreg, hname, -⟩ := id hok
  have hreg' : s.region a = .coreMmr := hreg
  have hname' : mmrAt a = some name := hname
  have hal : (Access.load a).misaligned = false :=
    (misaligned_word rfl rfl).trans (decide_eq_false (not_not.2 (mmrAt_aligned hname')))
  have haddr : (Access.load a).addr = a := rfl
  have hwidth : (Access.load a).width = .word := rfl
  simp only [State.loadWord, State.memRead, checkData_mmr hok hal rfl, haddr, hwidth, hreg', hname']

/-- A word store to a core MMR that passes its checks is what `storeMmr` makes of it. -/
theorem storeWord_mmr {s : State} {a : Addr} {name : MmrName} (hok : s.mmrAccessOk (.store a) name) (r : DReg)
    (len : Nat) {t : State} (ht : s.storeMmr name a (s.dreg r) = .ok t) :
    s.storeWord r a len = .next (t.advance len) := by
  obtain ⟨-, hreg, hname, -⟩ := id hok
  have hreg' : s.region a = .coreMmr := hreg
  have hname' : mmrAt a = some name := hname
  have hal : (Access.store a).misaligned = false :=
    (misaligned_word rfl rfl).trans (decide_eq_false (not_not.2 (mmrAt_aligned hname')))
  have haddr : (Access.store a).addr = a := rfl
  have hwidth : (Access.store a).width = .word := rfl
  simp only [State.storeWord, State.memWrite, checkData_mmr hok hal rfl, haddr, hwidth, hreg', hname', ht]

/-- What becomes of a store to a core MMR (R123, R273, R394). -/
theorem storeMmr_cases (s : State) (name : MmrName) (a : Addr) (v : Word) :
    (name.readOnly = true → s.storeMmr name a v = .ok s) ∧
    (s.inEnabledGroup name = true → s.storeMmr name a v = .ok (s.writeMmrNow name a v)) ∧
    (name.readOnly = false → s.inEnabledGroup name = false → mmrStoreRefusal name v = none →
      s.storeMmr name a v = .ok (s.pushStore ⟨a, .word, name.pack v⟩ .coreMmr)) := by
  refine ⟨fun hro => ?_, fun hgroup => ?_, fun hro hgroup hok => ?_⟩
  · simp only [State.storeMmr, hro, if_true]
  · have hdescriptor : name.readOnly = false ∧ mmrStoreRefusal name v = none := by
      cases name <;> first | exact ⟨rfl, rfl⟩ | cases hgroup
    simp only [State.storeMmr, hdescriptor, hgroup, if_true, Bool.false_eq_true, if_false]
  · simp only [State.storeMmr, hro, hgroup, hok, Bool.false_eq_true, if_false]

/-- A descriptor's store changes the descriptors alone. -/
theorem writeMmr_descriptor {s : State} {name : MmrName} (h : s.inEnabledGroup name = true) (u : State) (v : Word) :
    u.writeMmr name v = { u with dcplb := (u.writeMmr name v).dcplb, icplb := (u.writeMmr name v).icplb } := by
  cases name <;> first | rfl | cases h

/-- A descriptor's store changes no other register: not the descriptor's other word, nor another descriptor. -/
theorem readMmr_writeMmr_other {s : State} {name other : MmrName} (h : s.inEnabledGroup name = true)
    (hne : other ≠ name) (u : State) (v : Word) (b : Addr) : (u.writeMmr name v).readMmr other b = u.readMmr other b := by
  have slot {m n : Fin 16} (f : Fin 16 → MmrName) (hmn : f m ≠ f n) : n.val ≠ m.val := fun e => hmn (by rw [Fin.ext e])
  cases name with
  | dcplbAddr n =>
    cases other with
    | dcplbAddr m => simp [State.writeMmr, State.readMmr, slot .dcplbAddr hne]
    | dcplbData m => by_cases e : n.val = m.val <;> simp [State.writeMmr, State.readMmr, e]
    | _ => rfl
  | dcplbData n =>
    cases other with
    | dcplbAddr m => by_cases e : n.val = m.val <;> simp [State.writeMmr, State.readMmr, e]
    | dcplbData m => simp [State.writeMmr, State.readMmr, slot .dcplbData hne]
    | _ => rfl
  | icplbAddr n =>
    cases other with
    | icplbAddr m => simp [State.writeMmr, State.readMmr, slot .icplbAddr hne]
    | icplbData m => by_cases e : n.val = m.val <;> simp [State.writeMmr, State.readMmr, e]
    | _ => rfl
  | icplbData n =>
    cases other with
    | icplbAddr m => by_cases e : n.val = m.val <;> simp [State.writeMmr, State.readMmr, e]
    | icplbData m => simp [State.writeMmr, State.readMmr, slot .icplbData hne]
    | _ => rfl
  | _ => cases h

/-- A register's value depends on neither the pc nor the store buffer. -/
theorem readMmr_congr (s : State) (pc : Addr) (l : List PendingStore) (name : MmrName) (a : Addr) :
    ({ s with pc := pc, storeBuf := l } : State).readMmr name a = s.readMmr name a := by
  cases name <;> rfl

/-- Settles O37: a load reads the register; a store is dropped, performed at once or buffered. -/
theorem coreMmrAccessesComplete : Obligations.CoreMmrAccessesComplete := by
  intro s i r a len name
  refine ⟨fun hi hok hsb hwb => ?_, fun hi hok => ?_⟩
  · have hvalue : s.readMmrValue name a = s.readMmr name a := by
      unfold State.readMmrValue
      rw [overlay_empty hsb hwb, wordOf_bytesOf]
    rw [exec_loadForm hi, loadWord_mmr hok, hvalue]
    rfl
  · obtain ⟨hdropped, hnow, hbuffered⟩ := storeMmr_cases s name a (s.dreg r)
    refine ⟨fun hro => ?_, fun hgroup => ?_, fun hro hgroup hfree => ?_⟩
    · rw [exec_storeForm hi, storeWord_mmr hok r len (hdropped hro)]
      rfl
    · have hwritable : name.readOnly = false := by cases name <;> first | rfl | cases hgroup
      refine ⟨_, (exec_storeForm hi).trans (storeWord_mmr hok r len (hnow hgroup)), ?_, ?_, fun other b hne => ?_⟩
      · unfold State.writeMmrNow
        rw [writeMmr_descriptor hgroup]
        rfl
      · exact (readMmr_pc _ _ name a).trans (readMmr_writeMmr _ a _ hwritable)
      · exact ((readMmr_pc _ _ other b).trans (readMmr_writeMmr_other hgroup hne _ _ b)).trans
          (readMmr_congr s s.pc _ other b)
    · rw [exec_storeForm hi, storeWord_mmr hok r len (hbuffered hro hgroup hfree)]
      rfl

/-! ### System MMRs -/

/-- Settles O38: the access is made on the PAB where a register exists. -/
theorem systemMmrAccessesComplete : Obligations.SystemMmrAccessesComplete := by
  intro s i r a len hal hmode hlo hhi
  have hreg : s.region a = .systemMmr := (region_systemMmr_iff s a).2 ⟨hlo, hhi⟩
  have haligned (acc : Access) (hw : acc.width = .word) (hp : acc.probe = false) (ha : acc.addr = a) :
      acc.misaligned = false := by
    rw [misaligned_word hw hp, ha, hal]
    rfl
  refine ⟨fun hi hpage => ?_, fun hi hpage => ?_⟩
  · have hcheck := checkData_systemMmr (acc := .load a) (haligned _ rfl rfl rfl) rfl hmode hreg hpage
    have haddr : (Access.load a).addr = a := rfl
    rw [haddr] at hcheck
    rw [exec_loadForm hi]
    split
    · next hx =>
      rw [if_pos hx] at hcheck
      have hload : s.loadWord r a len =
          .next (((s.readSystemMmr (.load a)).2.setD r (s.readSystemMmr (.load a)).1).advance len) := by
        simp only [State.loadWord, State.memRead, hcheck, haddr, hreg]
      refine ⟨_, hload, rfl, fun e he => ?_⟩
      exact (State.dreg_setD _ r e _).trans (if_neg he)
    · next hx =>
      rw [if_neg hx] at hcheck
      exact loadWord_stop hcheck
  · have hcheck := checkData_systemMmr (acc := .store a) (haligned _ rfl rfl rfl) rfl hmode hreg hpage
    have haddr : (Access.store a).addr = a := rfl
    rw [haddr] at hcheck
    rw [exec_storeForm hi]
    split
    · next hx =>
      rw [if_pos hx] at hcheck
      simp only [State.storeWord, State.memWrite, hcheck, haddr, hreg]
      rfl
    · next hx =>
      rw [if_neg hx] at hcheck
      exact storeWord_stop hcheck

/-! ### Reserved external space -/

/-- Reserved external space lies below the core's memories. -/
theorem region_reservedExternal {s : State} {a : Addr} (h : s.region a = .reservedExternal) : a.toNat < 0xFF800000 := by
  by_contra hc
  unfold State.region at h
  dsimp only [State.dataBankRegion, State.instrRegion] at h
  (repeat' split at h) <;> first | omega | cases h

/-- With the DCPLBs disabled an aligned load outside core memory passes its checks. -/
theorem memoryAccessOk_external {s : State} {a : Addr} (hen : s.enDcplb = false) (hal : a.toNat % 4 = 0)
    (hlow : a.toNat < 0xFF800000) (hreg : s.region a ≠ .reservedData) : s.memoryAccessOk (.load a) := by
  refine ⟨(misaligned_word rfl rfl).trans (decide_eq_false (not_not.2 hal)), decide_eq_false ?_, decide_eq_false ?_,
    fun hres => hreg hres.1, .inl hen⟩
  · show ¬ 0xFFC00000 ≤ a.toNat
    omega
  · show ¬ (0xFFA00000 ≤ a.toNat ∧ a.toNat < 0xFFB00000)
    omega

/-- Settles O40: the bus request that nothing answers is all that the load leaves beside its register. -/
theorem reservedExternalLoad : Obligations.ReservedExternalLoad := by
  intro s i r a len hi hq hen hal hreg
  have hok := memoryAccessOk_external hen hal (region_reservedExternal hreg) (by rw [hreg]; decide)
  have hmode : s.pageMode a = .uncached := by simp [State.pageMode, hen]
  have htouch : s.touch a = { s with hwErrorPending := true } := by
    unfold State.touch
    rw [hreg]
    rfl
  have hexec := exec_load_ok hi hok
  rw [hmode, readValue_unbuffered hq.1 hq.2.1, readUnder_bus (.inl rfl), htouch] at hexec
  refine ⟨_, hexec, rfl, fun e he => ?_⟩
  exact (State.dreg_setD _ r e _).trans (if_neg he)

end Sys2Proof.Machine
end

section
/-! Word stores through the data cache (R216, R220 to R225): hit and miss, write-back and write-through. -/

namespace Sys2Proof.Machine

/-! ### The line of a store -/

/-- On a miss the victim way is filled (R216, R225). -/
theorem lineFor_miss {s : State} {pl : DPlace} {a : Addr} (h : (s.dset pl).hitWay (dtagOf a) = none) :
    s.lineFor pl a = ((s.dset pl).victimWay, s.allocateLine pl (s.dset pl).victimWay a) := by
  unfold State.lineFor
  rw [h]

/-- Putting a line where it is changes nothing. -/
theorem setLine_self (st : DSet) (w : Fin 2) : st.setLine w st.lines[w.val] = st := by
  unfold DSet.setLine
  rw [Vector.set_getElem_self]

/-- The line that a fill places. -/
theorem filled_line (st : DSet) (w : Fin 2) (l : DLine) : ((st.setLine w l).touchWay w).lines[w.val] = l :=
  (setLine_line st w w l).trans (if_pos rfl)

/-- A set after a line was written and its way, filled before, marked last used. -/
theorem setLine_touchWay_setLine (st : DSet) (w : Fin 2) (l m : DLine) :
    ((st.setLine w l).touchWay w).setLine w m = (st.touchWay w).setLine w m := by
  simp [DSet.setLine, DSet.touchWay]

/-- The tag part of a line's write: the Dirty bit, for a write-back page. -/
theorem writeLine_dset {s : State} (h : sparseWf DSet.empty s.dcache = true) (pl q : DPlace) (w : Fin 2) (a : Addr)
    (bs : List Byte) (d : Bool) :
    (s.writeLine pl w a bs d).dset q =
      if q.key = pl.key then
        (s.dset pl).setLine w
          { (s.dset pl).lines[w.val] with dirty := ((s.dset pl).lines[w.val]).dirty || d }
      else s.dset q :=
  dset_setDset (s := { s with mem := Memory.writeBytes s.mem (pl.cells w + lineOffset a) bs }) h pl q _

/-- The memory part of a line's write: the bytes in the line's cells. -/
theorem writeLine_frame (s : State) (pl : DPlace) (w : Fin 2) (a : Addr) (bs : List Byte) (d : Bool) :
    s.writeLine pl w a bs d =
      { s with mem := Memory.writeBytes s.mem (pl.cells w + lineOffset a) bs,
               dcache := (s.writeLine pl w a bs d).dcache } := rfl

/-- A write-back store with an empty write buffer writes its line. -/
theorem storeWriteBack_eq {s : State} (h : s.writeBuf = []) (pl : DPlace) (e : BufEntry) :
    s.storeWriteBack pl e = (s.lineFor pl e.addr).2.writeLine pl (s.lineFor pl e.addr).1 e.addr e.bytes true := by
  unfold State.storeWriteBack
  rw [settleWrites_empty h]

/-- A write-through store whose line is there, or is allocated, writes it and enters the write buffer. -/
theorem storeWriteThrough_eq {s : State} {pl : DPlace} {e : BufEntry} {b : Bool}
    (h : (((s.dset pl).hitWay (dtagOf e.addr)).isSome || b) = true) :
    s.storeWriteThrough pl e b =
      ((s.lineFor pl e.addr).2.writeLine pl (s.lineFor pl e.addr).1 e.addr e.bytes false).enqueueWrite e := by
  unfold State.storeWriteThrough
  rw [if_pos h]

/-- A write-through store whose line is absent, without allocation, goes to the write buffer alone (R221). -/
theorem storeWriteThrough_bypass {s : State} {pl : DPlace} {e : BufEntry}
    (h : (s.dset pl).hitWay (dtagOf e.addr) = none) : s.storeWriteThrough pl e false = s.enqueueWrite e := by
  unfold State.storeWriteThrough
  rw [h]
  rfl

/-- A store enters an empty write buffer and leaves the copy-back buffers alone when they hold other lines. -/
theorem enqueueWrite_other {s : State} {e : BufEntry} (hw : s.writeBuf = [])
    (hv : ∀ k c, s.victim k = some c → c.line ≠ lineAddr e.addr) : s.enqueueWrite e = { s with writeBuf := [e] } := by
  unfold State.enqueueWrite
  dsimp only
  rw [settleVictims_other hv, performWrites_empty hw, hw]
  rfl

/-- The line that leaves a way for the line of `a` is another line. -/
theorem copiedOut_line_ne {s : State} {pl : DPlace} {a : Addr} (hn : (s.dset pl).hitWay (dtagOf a) = none) {w : Fin 2}
    {k : Bank} {c : Victim} (hc : s.copiedOut pl w k = some c) : c.line ≠ lineAddr a := by
  simp only [State.copiedOut] at hc
  split at hc
  · next hd =>
    obtain ⟨-, hvalid, -⟩ := hd
    cases hc
    intro e
    have htag : ((s.dset pl).lines[w.val]).tag = dtagOf a := by
      rw [← dtagOf_lineAddr a, ← e]
      exact (dtagOf_lineAddress pl _).symm
    have hmiss := hitWay_none hn w
    simp [DSet.holds, hvalid, htag] at hmiss
  · cases hc

/-- A fill while nothing waits, part by part. -/
theorem allocateLine_quiet_parts {s : State} (h : s.quiet) {pl : DPlace} (w : Fin 2) {a : Addr}
    (hr : (s.region a).unpopulated = false) (hn : (s.dset pl).hitWay (dtagOf a) = none) :
    ∃ m dc va vb, s.allocateLine pl w a = { s with mem := m, dcache := dc, victimA := va, victimB := vb } ∧
      m = Memory.writeBytes s.mem (pl.cells w) (Memory.readBytes s.mem (lineAddr a) 32) ∧
      dc = sparseSet DSet.empty s.dcache pl.key (((s.dset pl).setLine w ⟨dtagOf a, true, false⟩).touchWay w) ∧
      va = s.copiedOut pl w .bankA ∧ vb = s.copiedOut pl w .bankB :=
  ⟨_, _, _, _, allocateLine_quiet h pl w a hr hn, rfl, rfl, rfl, rfl⟩

/-! ### The store, by case -/

/-- The line of a store that hits, after its write: way last used, bytes written, Dirty bit as before or set. -/
theorem writeLine_hit {s : State} (hwf : sparseWf DSet.empty s.dcache = true) {pl : DPlace} {a : Addr} {w : Fin 2}
    (hhit : (s.dset pl).hitWay (dtagOf a) = some w) (bs : List Byte) (d : Bool) (q : DPlace) :
    ((s.setDset pl ((s.dset pl).touchWay w)).writeLine pl w a bs d).dset q =
      if q.key = pl.key then
        ((s.dset pl).touchWay w).setLine w ⟨dtagOf a, true, ((s.dset pl).lines[w.val]).dirty || d⟩
      else s.dset q := by
  obtain ⟨hvalid, htag⟩ := hitWay_holds hhit
  rw [writeLine_dset (s := s.setDset pl _) (sparseSet_wf _ _ hwf), dset_setDset hwf, if_pos rfl, dset_setDset hwf]
  by_cases hk : q.key = pl.key
  · rw [if_pos hk, if_pos hk, ← htag, ← hvalid]
    rfl
  · rw [if_neg hk, if_neg hk, if_neg hk]

/-- The same after a fill: the line is the one filled. -/
theorem writeLine_filled {s : State} (hwf : sparseWf DSet.empty s.dcache = true) (pl : DPlace) (w : Fin 2) (a : Addr)
    (bs : List Byte) (d : Bool) (q : DPlace) {u : State}
    (hu : u.dcache = sparseSet DSet.empty s.dcache pl.key (((s.dset pl).setLine w ⟨dtagOf a, true, false⟩).touchWay w)) :
    (u.writeLine pl w a bs d).dset q =
      if q.key = pl.key then ((s.dset pl).touchWay w).setLine w ⟨dtagOf a, true, d⟩ else s.dset q := by
  have hget (r : DPlace) : u.dset r =
      if r.key = pl.key then ((s.dset pl).setLine w ⟨dtagOf a, true, false⟩).touchWay w else s.dset r := by
    unfold State.dset
    rw [hu, sparseGet_sparseSet _ _ _ hwf]
    rfl
  rw [writeLine_dset (hu ▸ sparseSet_wf _ _ hwf), hget pl, if_pos rfl, hget q, filled_line, setLine_touchWay_setLine,
    Bool.false_or]
  by_cases hk : q.key = pl.key
  · rw [if_pos hk, if_pos hk]
  · rw [if_neg hk, if_neg hk, if_neg hk]

/-- Settles O36: the store's line by `lineFor`, then its write, then the write buffer for a write-through page. -/
theorem cachedStores : Obligations.CachedStores := by
  intro s pl w a v hq hwf hp
  obtain ⟨-, hwb, hA, hB⟩ := id hq
  have hback : s.performStore ⟨⟨a, .word, v⟩, .writeBack⟩ = s.storeWriteBack pl ⟨a, .word, v⟩ := by
    simp only [State.performStore, hp]
  have hthrough (b : Bool) :
      s.performStore ⟨⟨a, .word, v⟩, .writeThrough b⟩ = s.storeWriteThrough pl ⟨a, .word, v⟩ b := by
    simp only [State.performStore, hp]
  refine ⟨fun hhit => ⟨⟨_, rfl, ?_⟩, fun aow => ⟨_, rfl, ?_⟩⟩, fun hmiss => ?_, fun hmiss hpop hw path wb hpath => ?_⟩
  · have hset := writeLine_hit hwf hhit (bytesOf v 4) true
    rw [hback, storeWriteBack_eq hwb, lineFor_hit hhit]
    refine ⟨rfl, (hset pl).trans ?_, fun q hne => (hset q).trans (if_neg hne)⟩
    rw [if_pos rfl, Bool.or_true]
  · have hset := writeLine_hit hwf hhit (bytesOf v 4) false
    rw [hthrough, storeWriteThrough_eq (by rw [hhit]; rfl), lineFor_hit hhit]
    dsimp only
    rw [enqueueWrite_quiet (by exact hwb) (by exact hA) (by exact hB)]
    refine ⟨rfl, (hset pl).trans ?_, fun q hne => (hset q).trans (if_neg hne)⟩
    obtain ⟨hvalid, htag⟩ := hitWay_holds hhit
    rw [if_pos rfl, Bool.or_false, ← htag, ← hvalid]
    exact setLine_self ((s.dset pl).touchWay w) w
  · exact ((hthrough false).trans (storeWriteThrough_bypass (e := ⟨a, .word, v⟩) hmiss)).trans
      (enqueueWrite_quiet hwb hA hB _)
  · subst hw
    obtain ⟨m, dc, va, vb, hfill, hm, hdc, hva, hvb⟩ := allocateLine_quiet_parts hq (s.dset pl).victimWay hpop hmiss
    have hline := lineFor_miss hmiss
    rw [hfill] at hline
    have hset := fun d q => writeLine_filled hwf pl (s.dset pl).victimWay a (bytesOf v 4) d q
      (u := { s with mem := m, dcache := dc, victimA := va, victimB := vb }) hdc
    have hvictim (k : Bank) : ({ s with mem := m, dcache := dc, victimA := va, victimB := vb } : State).victim k =
        s.copiedOut pl (s.dset pl).victimWay k := by
      cases k with
      | bankA => exact hva
      | bankB => exact hvb
    rw [← hm]
    rcases hpath with ⟨rfl, rfl⟩ | ⟨rfl, rfl⟩
    · rw [hback, storeWriteBack_eq hwb, hline, if_pos rfl, ← hwb]
      exact ⟨_, rfl, rfl, (hset true pl).trans (if_pos rfl), fun q hne => (hset true q).trans (if_neg hne), hvictim⟩
    · rw [hthrough, storeWriteThrough_eq (by rw [Bool.or_true]), hline]
      dsimp only
      exact ⟨_, enqueueWrite_other (e := ⟨a, .word, v⟩) hwb fun k c hc => copiedOut_line_ne hmiss ((hvictim k).symm.trans hc),
        rfl, (hset false pl).trans (if_pos rfl), fun q hne => (hset false q).trans (if_neg hne), hvictim⟩

end Sys2Proof.Machine
end

section
/-! The cache control instructions where their check passes (R331 to R339): FLUSH, FLUSHINV, IFLUSH and PREFETCH, in both
forms. -/

namespace Sys2Proof.Machine

open Host (Outcome)

/-! ### Both forms -/

/-- A cache instruction whose check passes has its effect, and the pc moves on. -/
theorem cacheOp_ok {s : State} {a : Addr} (h : s.memoryAccessOk (.cacheControl a)) (effect : State → State) :
    s.cacheOp a effect = .next ((effect s).advance 2) := by
  unfold State.cacheOp
  rw [checkData_ok h]

/-- The state `u` of a cache instruction's effect, with the pointers `q` and the pc of `s` past the instruction. -/
def State.afterCacheOp (u s : State) (q : PRegs) : State := { u with p := q, pc := s.pc + 2 }

theorem State.afterCacheOp_mem (u s : State) (q : PRegs) : (u.afterCacheOp s q).mem = u.mem := rfl

/-- The plain form keeps the pointers. -/
theorem advance_afterCacheOp {s u : State} (hp : u.p = s.p) (hpc : u.pc = s.pc) :
    u.advance 2 = u.afterCacheOp s s.p := by
  unfold State.afterCacheOp
  rw [← hp, ← hpc]
  rfl

/-- The post-increment form adds a line to its pointer (R338). -/
theorem bumpPointer_afterCacheOp {s u : State} (hp : u.p = s.p) (hpc : u.pc = s.pc) (p : PReg) :
    (u.bumpPointer p).advance 2 = u.afterCacheOp s (s.p.set p (s.preg p + 32)) := by
  unfold State.afterCacheOp State.preg
  rw [← hp, ← hpc]
  rfl

/-- An effect on storage alone leaves storage, the pointers and the pc changed. -/
theorem StorageOnly.afterCacheOp {s u : State} (h : StorageOnly s u) (q : PRegs) :
    StorageOnly { s with p := q, pc := s.pc + 2 } (u.afterCacheOp s q) := by
  unfold StorageOnly at h
  unfold StorageOnly State.afterCacheOp
  rw [h]

/-- FLUSH and FLUSHINV, in both forms, where the check passes. -/
theorem exec_flush_ok {s : State} {p : PReg} (h : s.memoryAccessOk (.cacheControl (s.preg p))) :
    exec (.flush p) s = .next ((s.flushLine (s.preg p)).afterCacheOp s s.p) ∧
    exec (.flushInc p) s = .next ((s.flushLine (s.preg p)).afterCacheOp s (s.p.set p (s.preg p + 32))) ∧
    exec (.flushinv p) s = .next ((s.flushInvalidateLine (s.preg p)).afterCacheOp s s.p) ∧
    exec (.flushinvInc p) s = .next ((s.flushInvalidateLine (s.preg p)).afterCacheOp s (s.p.set p (s.preg p + 32))) := by
  have hf := flushLine_storageOnly s (s.preg p)
  have hi := flushInvalidateLine_storageOnly s (s.preg p)
  rw [exec_flush, exec_flushInc, exec_flushinv, exec_flushinvInc]
  simp only [cacheOp_ok h]
  rw [advance_afterCacheOp (by rw [hf]) (by rw [hf]), bumpPointer_afterCacheOp (by rw [hf]) (by rw [hf]),
    advance_afterCacheOp (by rw [hi]) (by rw [hi]), bumpPointer_afterCacheOp (by rw [hi]) (by rw [hi])]
  exact ⟨rfl, rfl, rfl, rfl⟩

/-- IFLUSH changes the instruction cache's tags alone. -/
theorem invalidateInstrLine_frame (s : State) (a : Addr) :
    s.invalidateInstrLine a = { s with icache := (s.invalidateInstrLine a).icache } := by
  unfold State.invalidateInstrLine
  split <;> rfl

/-- IFLUSH, in both forms, where the check passes. -/
theorem exec_iflush_ok {s : State} {p : PReg} (h : s.memoryAccessOk (.cacheControl (s.preg p))) :
    exec (.iflush p) s = .next ((s.invalidateInstrLine (s.preg p)).afterCacheOp s s.p) ∧
    exec (.iflushInc p) s = .next ((s.invalidateInstrLine (s.preg p)).afterCacheOp s (s.p.set p (s.preg p + 32))) := by
  have hf := invalidateInstrLine_frame s (s.preg p)
  rw [exec_iflush, exec_iflushInc]
  simp only [cacheOp_ok h]
  rw [advance_afterCacheOp (by rw [hf]) (by rw [hf]), bumpPointer_afterCacheOp (by rw [hf]) (by rw [hf])]
  exact ⟨rfl, rfl⟩

/-! ### FLUSH and FLUSHINV -/

/-- FLUSH of a dirty line: it goes out and becomes clean; of anything else: nothing (R334). -/
theorem flushLine_cases (s : State) (a : Addr) :
    s.flushLine a = s ∨
    ∃ pl w, s.flushLine a = (s.writeBackLine pl w).setDset pl
      ((s.dset pl).setLine w { (s.dset pl).lines[w.val] with dirty := false }) := by
  simp only [State.flushLine]
  split
  · exact .inl rfl
  · next pl _ =>
    split
    · exact .inl rfl
    · next w _ =>
      split
      · exact .inr ⟨pl, w, rfl⟩
      · exact .inl rfl

/-- FLUSHINV of a line that is there: it goes out if dirty and becomes invalid; else nothing (R335). -/
theorem flushInvalidateLine_cases (s : State) (a : Addr) :
    s.flushInvalidateLine a = s ∨
    ∃ pl w, s.flushInvalidateLine a = (s.writeBackLine pl w).setDset pl
      ((s.dset pl).setLine w { (s.dset pl).lines[w.val] with valid := false }) := by
  simp only [State.flushInvalidateLine]
  split
  · exact .inl rfl
  · next pl _ =>
    split
    · exact .inl rfl
    · next w _ => exact .inr ⟨pl, w, rfl⟩

/-- What FLUSH and FLUSHINV write out waits in the copy-back buffer, not in memory (R339). -/
theorem flushLine_mem {s : State} (h : s.quiet) (a : Addr) : (s.flushLine a).mem = s.mem := by
  rcases flushLine_cases s a with e | ⟨pl, w, e⟩ <;> rw [e]
  exact writeBackLine_mem h pl w

theorem flushInvalidateLine_mem {s : State} (h : s.quiet) (a : Addr) : (s.flushInvalidateLine a).mem = s.mem := by
  rcases flushInvalidateLine_cases s a with e | ⟨pl, w, e⟩ <;> rw [e]
  exact writeBackLine_mem h pl w

/-- Settles O41: the effect of each instruction, then what it may change. -/
theorem cacheControlCompletes : Obligations.CacheControlCompletes := by
  intro s p hok
  obtain ⟨hflush, hflushInc, hinv, hinvInc⟩ := exec_flush_ok hok
  obtain ⟨hiflush, hiflushInc⟩ := exec_iflush_ok hok
  have hf := flushLine_storageOnly s (s.preg p)
  have hi := flushInvalidateLine_storageOnly s (s.preg p)
  have htags (q : PRegs) : (s.invalidateInstrLine (s.preg p)).afterCacheOp s q =
      { s with icache := ((s.invalidateInstrLine (s.preg p)).afterCacheOp s q).icache, p := q, pc := s.pc + 2 } := by
    unfold State.afterCacheOp
    rw [invalidateInstrLine_frame]
  exact ⟨⟨_, hflush, hf.afterCacheOp s.p, fun hq => flushLine_mem hq _⟩,
    ⟨_, hinv, hi.afterCacheOp s.p, fun hq => flushInvalidateLine_mem hq _⟩, ⟨_, hiflush, htags s.p⟩,
    ⟨_, hflushInc, hf.afterCacheOp _, fun hq => flushLine_mem hq _⟩,
    ⟨_, hinvInc, hi.afterCacheOp _, fun hq => flushInvalidateLine_mem hq _⟩, ⟨_, hiflushInc, htags _⟩⟩

/-- FLUSH of a dirty line that is there, while nothing waits. -/
theorem flushLine_dirty {s : State} (hq : s.quiet) {a : Addr} {pl : DPlace} {w : Fin 2} (hp : s.dplace a = some pl)
    (hhit : (s.dset pl).hitWay (dtagOf a) = some w) (hd : ((s.dset pl).lines[w.val]).dirty = true) :
    s.flushLine a =
      ({ s with victimA := s.copiedOut pl w .bankA, victimB := s.copiedOut pl w .bankB } : State).setDset pl
        ((s.dset pl).setLine w ⟨dtagOf a, true, false⟩) := by
  obtain ⟨hvalid, htag⟩ := hitWay_holds hhit
  simp only [State.flushLine, hp, hhit, hd, if_true]
  rw [writeBackLine_quiet hq, htag, hvalid]

/-- FLUSHINV of a line that is there, while nothing waits. -/
theorem flushInvalidateLine_present {s : State} (hq : s.quiet) {a : Addr} {pl : DPlace} {w : Fin 2}
    (hp : s.dplace a = some pl) (hhit : (s.dset pl).hitWay (dtagOf a) = some w) :
    s.flushInvalidateLine a =
      ({ s with victimA := s.copiedOut pl w .bankA, victimB := s.copiedOut pl w .bankB } : State).setDset pl
        ((s.dset pl).setLine w { (s.dset pl).lines[w.val] with valid := false }) := by
  simp only [State.flushInvalidateLine, hp, hhit]
  rw [writeBackLine_quiet hq]

/-- A line begins in its own region. -/
theorem region_lineAddr (s : State) (a : Addr) : s.region (lineAddr a) = s.region a := by
  have hline := region_line s a 0 (by decide)
  rwa [BitVec.add_zero] at hline

/-- How SSYNC ends, whether or not an interrupt is taken first, touches neither memory nor the data cache. -/
theorem synchronised_storage (s : State) : s.synchronised.mem = s.mem ∧ s.synchronised.dcache = s.dcache := by
  unfold State.synchronised
  split <;> exact ⟨rfl, rfl⟩

/-- SSYNC with a dirty line of external RAM on its way out and nothing else waiting: its 32 bytes reach memory (R339,
R351). -/
theorem ssync_writes_line {s t : State} {a : Addr} {pl : DPlace} {w : Fin 2} (hq : s.quiet) (hm : s.memoryCanonical)
    (hram : (s.region a).isExternalRam = true) (hp : s.dplace a = some pl)
    (hhit : (s.dset pl).hitWay (dtagOf a) = some w) (hd : ((s.dset pl).lines[w.val]).dirty = true)
    (ht : t = { s with dcache := t.dcache, p := t.p, pc := t.pc, victimA := s.copiedOut pl w .bankA,
                       victimB := s.copiedOut pl w .bankB }) :
    ∃ u, exec .ssync t = .next u ∧ u.dcache = t.dcache ∧
      Memory.readBytes u.mem (lineAddr a) 32 = Memory.readBytes s.mem (pl.cells w) 32 ∧
      ∀ b : Addr, 32 ≤ (b - lineAddr a).toNat → Memory.read u.mem b = Memory.read s.mem b := by
  obtain ⟨hsb, hwb, -, -⟩ := hq
  obtain ⟨hvalid, htag⟩ := hitWay_holds hhit
  obtain ⟨hpop, hwritable, -⟩ := isExternalRam_facts hram
  have hvictim (k : Bank) : t.victim k = s.copiedOut pl w k := by
    rw [ht]
    cases k <;> rfl
  have hown : t.victim pl.bank = some ⟨lineAddr a, Memory.readBytes s.mem (pl.cells w) 32⟩ := by
    rw [hvictim]
    simp only [State.copiedOut, hvalid, hd, htag, lineAddress_dtagOf hp, and_self, if_true]
  have hother (j : Bank) (hj : j ≠ pl.bank) : t.victim j = none := by
    rw [hvictim]
    simp only [State.copiedOut, hj, false_and, if_false]
  have hregion : t.region (lineAddr a) = s.region a := by
    rw [← region_lineAddr s a]
    exact region_congr (by rw [ht]) (by rw [ht]) (by rw [ht]) _
  have hdrain := drainAll_victim (by rw [ht]; exact hsb) (by rw [ht]; exact hwb) hown hother (by rw [hregion]; exact hpop)
    (by rw [hregion]; exact hwritable)
  have hmem : t.drainAll.mem = Memory.writeBytes s.mem (lineAddr a) (Memory.readBytes s.mem (pl.cells w) 32) := by
    rw [hdrain, ht]
  have hcache : t.drainAll.dcache = t.dcache := by
    rw [hdrain]
    cases pl.bank <;> rfl
  obtain ⟨humem, hucache⟩ := synchronised_storage t.drainAll
  refine ⟨_, rfl, hucache.trans hcache, ?_, fun b hb => ?_⟩
  · rw [humem, hmem]
    have hread := Memory.readBytes_writeBytes hm (lineAddr a) (Memory.readBytes s.mem (pl.cells w) 32) (by simp)
    rwa [Memory.readBytes_length] at hread
  · rw [humem, hmem]
    exact Memory.read_writeBytes_out hm _ _ _ (by simp) (by simpa using hb)

/-- Settles O43: the line waits in its bank's copy-back buffer, and SSYNC writes it. -/
theorem flushThenSsyncWritesTheLine : Obligations.FlushThenSsyncWritesTheLine := by
  intro s p pl w i hq hm hdis hok hram hp hhit hd hi
  obtain ⟨-, hwf, -, -⟩ := hdis
  obtain ⟨hflush, hflushInc, hinv, hinvInc⟩ := exec_flush_ok hok
  rw [flushLine_dirty hq hp hhit hd] at hflush hflushInc
  rw [flushInvalidateLine_present hq hp hhit] at hinv hinvInc
  have hset {u : State} {l : DLine} (hu : u.dcache = sparseSet DSet.empty s.dcache pl.key ((s.dset pl).setLine w l)) :
      (u.dset pl).lines[w.val] = l := by
    have hget : u.dset pl = (s.dset pl).setLine w l := by
      unfold State.dset
      rw [hu, sparseGet_sparseSet _ _ _ hwf, if_pos rfl]
      rfl
    rw [hget, setLine_line, if_pos rfl]
  have hssync (q : PRegs) (st : DSet) := ssync_writes_line hq hm hram hp hhit hd (t := State.afterCacheOp
    (({ s with victimA := s.copiedOut pl w .bankA, victimB := s.copiedOut pl w .bankB } : State).setDset pl st) s q) rfl
  simp only [List.mem_cons, List.not_mem_nil, or_false] at hi
  rcases hi with rfl | rfl | rfl | rfl
  · obtain ⟨u, hu, hcache, hbytes, hrest⟩ := hssync s.p ((s.dset pl).setLine w ⟨dtagOf (s.preg p), true, false⟩)
    exact ⟨_, u, hflush, hu, rfl, fun _ => hset hcache, fun h => by simp at h, hbytes, hrest⟩
  · obtain ⟨u, hu, hcache, hbytes, hrest⟩ :=
      hssync (s.p.set p (s.preg p + 32)) ((s.dset pl).setLine w ⟨dtagOf (s.preg p), true, false⟩)
    exact ⟨_, u, hflushInc, hu, rfl, fun _ => hset hcache, fun h => by simp at h, hbytes, hrest⟩
  · obtain ⟨u, hu, hcache, hbytes, hrest⟩ :=
      hssync s.p ((s.dset pl).setLine w { (s.dset pl).lines[w.val] with valid := false })
    exact ⟨_, u, hinv, hu, rfl, fun h => by simp at h, fun _ => by rw [hset hcache], hbytes, hrest⟩
  · obtain ⟨u, hu, hcache, hbytes, hrest⟩ :=
      hssync (s.p.set p (s.preg p + 32)) ((s.dset pl).setLine w { (s.dset pl).lines[w.val] with valid := false })
    exact ⟨_, u, hinvInc, hu, rfl, fun h => by simp at h, fun _ => by rw [hset hcache], hbytes, hrest⟩

/-! ### PREFETCH -/

/-- Where PREFETCH is a NOP (R333). -/
theorem prefetchOp_nop {s : State} {a : Addr} (effect : State → State)
    (h : (∃ e, s.checkData (.cacheControl a) = .error (.exception e)) ∨
      s.checkData (.cacheControl a) = .ok .uncached ∨
      (∃ m, s.checkData (.cacheControl a) = .ok m ∧
        (s.dplace a = none ∨ ∃ pl w, s.dplace a = some pl ∧ (s.dset pl).hitWay (dtagOf a) = some w))) :
    s.prefetchOp a effect = .next ((effect s).advance 2) := by
  rcases h with ⟨e, he⟩ | hunc | ⟨m, hm, hplace⟩
  · exact prefetchOp_exception he
  · unfold State.prefetchOp
    rw [hunc]
  · unfold State.prefetchOp
    rw [hm]
    rcases hplace with hnone | ⟨pl, w, hp, hhit⟩
    · rw [hnone]
      cases m <;> rfl
    · have hline : s.prefetchLine pl a = s := by
        unfold State.prefetchLine
        rw [hhit]
      rw [hp]
      cases m with
      | uncached => rfl
      | writeThrough b => dsimp only; rw [hline]
      | writeBack => dsimp only; rw [hline]

/-- PREFETCH of a cacheable line that is absent fills it (R333). -/
theorem prefetchOp_miss {s : State} {a : Addr} (effect : State → State) {m : CacheMode} {pl : DPlace}
    (hc : s.checkData (.cacheControl a) = .ok m) (hm : m ≠ .uncached) (hp : s.dplace a = some pl)
    (hmiss : (s.dset pl).hitWay (dtagOf a) = none) :
    s.prefetchOp a effect = .next ((effect (s.allocateLine pl (s.dset pl).victimWay a)).advance 2) := by
  have hline : s.prefetchLine pl a = s.allocateLine pl (s.dset pl).victimWay a := by
    unfold State.prefetchLine
    rw [hmiss]
  unfold State.prefetchOp
  rw [hc, hp, ← hline]
  cases m with
  | uncached => exact absurd rfl hm
  | writeThrough b => rfl
  | writeBack => rfl

/-- The memory that a fill leaves while nothing waits: the line's bytes in the way's cells. -/
theorem allocateLine_filled {s : State} (h : s.quiet) {pl : DPlace} (w : Fin 2) {a : Addr}
    (hr : (s.region a).unpopulated = false) (hn : (s.dset pl).hitWay (dtagOf a) = none) :
    (s.allocateLine pl w a).mem = Memory.writeBytes s.mem (pl.cells w) (Memory.readBytes s.mem (lineAddr a) 32) := by
  obtain ⟨m, dc, va, vb, hfill, hm, -⟩ := allocateLine_quiet_parts h w hr hn
  rw [hfill]
  exact hm

/-- Settles O42: where PREFETCH is a NOP, and what its fill leaves. -/
theorem prefetchCompletes : Obligations.PrefetchCompletes := by
  intro s p
  refine ⟨fun h => ?_, fun m pl hdis hc hm hp hmiss i q hi => ?_⟩
  · rw [exec_prefetch, exec_prefetchInc, prefetchOp_nop _ h, prefetchOp_nop _ h]
    exact ⟨rfl, rfl⟩
  · obtain ⟨-, hwf, -, -⟩ := hdis
    have hframe := allocateLine_storageOnly s pl (s.dset pl).victimWay (s.preg p)
    have hpointers : (s.allocateLine pl (s.dset pl).victimWay (s.preg p)).p = s.p := by rw [hframe]
    have hpc : (s.allocateLine pl (s.dset pl).victimWay (s.preg p)).pc = s.pc := by rw [hframe]
    have hexec : exec i s = .next ((s.allocateLine pl (s.dset pl).victimWay (s.preg p)).afterCacheOp s q) := by
      rcases hi with ⟨rfl, rfl⟩ | ⟨rfl, rfl⟩
      · rw [exec_prefetch, prefetchOp_miss id hc hm hp hmiss]
        exact congrArg Outcome.next (advance_afterCacheOp hpointers hpc)
      · rw [exec_prefetchInc, prefetchOp_miss _ hc hm hp hmiss]
        exact congrArg Outcome.next (bumpPointer_afterCacheOp hpointers hpc p)
    have hset : ((s.allocateLine pl (s.dset pl).victimWay (s.preg p)).afterCacheOp s q).dset pl = _ :=
      allocateLine_dset hwf pl (s.dset pl).victimWay (s.preg p)
    refine ⟨_, (s.dset pl).victimWay, hexec, hframe.afterCacheOp q, ?_, ?_, fun hq hcanon => ⟨fun hpop => ?_, fun b hb => ?_⟩⟩
    · rw [hset]
      exact hitWay_fill hmiss _ false
    · rw [hset, filled_line]
    · have hread := Memory.readBytes_writeBytes hcanon (pl.cells (s.dset pl).victimWay)
        (Memory.readBytes s.mem (lineAddr (s.preg p)) 32) (by simp)
      rw [Memory.readBytes_length] at hread
      rw [State.afterCacheOp_mem, allocateLine_filled hq _ hpop hmiss, hread]
    · rw [State.afterCacheOp_mem, allocateLine_read hq hcanon pl _ _ b hb]

/-! ### IFLUSH -/

theorem mem_iways (w : Fin 4) : w ∈ iways := by
  match w with
  | 0 | 1 | 2 | 3 => decide

/-- No way of an instruction set hits exactly when none holds the tag. -/
theorem ISet.hitWay_none_iff (st : ISet) (t : BitVec 20) : st.hitWay t = none ↔ ∀ w, st.holds t w = false := by
  unfold ISet.hitWay
  rw [List.find?_eq_none]
  exact ⟨fun h w => Bool.eq_false_iff.2 (h w (mem_iways w)), fun h w _ => Bool.eq_false_iff.1 (h w)⟩

/-- A set whose lines a function leaves alone. -/
theorem ISet.mapLines_self {st : ISet} {f : ILine → ILine} (h : ∀ w : Fin 4, f st.lines[w.val] = st.lines[w.val]) :
    st.mapLines f = st := by
  have hlines : (st.mapLines f).lines = st.lines := by
    ext i hi : 1
    exact (st.mapLines_line f ⟨i, hi⟩).trans (h ⟨i, hi⟩)
  show ISet.mk (st.mapLines f).lines st.recency = st
  rw [hlines]

/-- A line after its set dropped a tag. -/
theorem ISet.dropTag_line (st : ISet) (t : BitVec 20) (w : Fin 4) :
    (st.dropTag t).lines[w.val] = if st.holds t w = true then (st.lines[w.val]).invalidate else st.lines[w.val] :=
  st.mapLines_line _ w

/-- After its tag was dropped no way of a set hits (R336). -/
theorem ISet.hitWay_dropTag (st : ISet) (t : BitVec 20) : (st.dropTag t).hitWay t = none := by
  rw [ISet.hitWay_none_iff]
  intro w
  unfold ISet.holds
  rw [ISet.dropTag_line]
  split
  · rfl
  · next h => exact Bool.eq_false_iff.2 h

/-- A set that does not hold a tag loses nothing with it. -/
theorem ISet.dropTag_of_miss {st : ISet} {t : BitVec 20} (h : st.hitWay t = none) : st.dropTag t = st :=
  ISet.mapLines_self fun w => if_neg (Bool.eq_false_iff.1 ((st.hitWay_none_iff t).1 h w))

/-- Putting a set where it is changes nothing. -/
theorem setIset_self {s : State} (h : sparseWf ISet.empty s.icache = true) (pl : IPlace) : s.setIset pl (s.iset pl) = s := by
  have hsame : sparseSet ISet.empty s.icache pl.key (s.iset pl) = s.icache := by
    refine sparse_ext (sparseSet_wf _ _ h) h fun k => ?_
    rw [sparseGet_sparseSet _ _ _ h]
    split
    · next hk => rw [hk]; rfl
    · rfl
  unfold State.setIset
  rw [hsame]

/-- IFLUSH where it has no effect: the cache disabled, or the line not there (R336). -/
theorem invalidateInstrLine_none {s : State} (hwf : sparseWf ISet.empty s.icache = true) {a : Addr}
    (h : s.imc = false ∨ (s.iset (iplaceOf a)).hitWay (itagOf a) = none) : s.invalidateInstrLine a = s := by
  unfold State.invalidateInstrLine
  split
  · next hon =>
    rcases h with hoff | hmiss
    · rw [hon] at hoff; cases hoff
    · rw [ISet.dropTag_of_miss hmiss, setIset_self hwf]
  · rfl

/-- The sets after IFLUSH with the cache enabled. -/
theorem invalidateInstrLine_iset {s : State} (hwf : sparseWf ISet.empty s.icache = true) (hon : s.imc = true) (a : Addr)
    (q : IPlace) :
    (s.invalidateInstrLine a).iset q =
      if q.key = (iplaceOf a).key then (s.iset (iplaceOf a)).dropTag (itagOf a) else s.iset q := by
  unfold State.invalidateInstrLine
  rw [if_pos hon, iset_setIset hwf]

/-- Settles O44: the tag is dropped from its set; a disabled cache holds no valid line. -/
theorem iflushInvalidatesTheLine : Obligations.IflushInvalidatesTheLine := by
  intro s p i q hi hdis hok
  obtain ⟨hwf, -, hoff, -⟩ := hdis
  obtain ⟨hplain, hinc⟩ := exec_iflush_ok hok
  have hframe := invalidateInstrLine_frame s (s.preg p)
  have hexec : exec i s = .next ((s.invalidateInstrLine (s.preg p)).afterCacheOp s q) := by
    rcases hi with ⟨rfl, rfl⟩ | ⟨rfl, rfl⟩
    · exact hplain
    · exact hinc
  have hiset (pl : IPlace) : ((s.invalidateInstrLine (s.preg p)).afterCacheOp s q).iset pl =
      (s.invalidateInstrLine (s.preg p)).iset pl := rfl
  refine ⟨_, hexec, ?_, fun h => ?_, ?_, fun w hw => ?_, fun pl hpl => ?_⟩
  · unfold State.afterCacheOp
    rw [hframe]
  · rw [invalidateInstrLine_none hwf h]
    rfl
  all_goals rw [hiset]
  all_goals cases hon : s.imc
  · rw [invalidateInstrLine_none hwf (.inl hon), ISet.hitWay_none_iff]
    intro w
    unfold ISet.holds
    rw [show (((s.iset (iplaceOf (s.preg p))).lines[w.val]).valid) = false from hoff hon _ w]
    rfl
  · rw [invalidateInstrLine_iset hwf hon, if_pos rfl]
    exact ISet.hitWay_dropTag _ _
  · rw [invalidateInstrLine_none hwf (.inl hon)]
  · rw [invalidateInstrLine_iset hwf hon, if_pos rfl, ISet.dropTag_line, if_neg]
    simp [ISet.holds, hw]
  · rw [invalidateInstrLine_none hwf (.inl hon)]
  · rw [invalidateInstrLine_iset hwf hon, if_neg hpl]

end Sys2Proof.Machine
end

section
/-! Store forwarding (R114, R146, R148): a load sees the stores of its own core that are still in the store buffer, the
write buffer or a copy-back buffer. -/

namespace Sys2Proof.Machine

open Host (Outcome)

/-! ### The bytes of a word -/

/-- A byte of a word, zero-extended. -/
theorem wordOf_one (b : Byte) : wordOf [b] = b.setWidth 32 := by simp [wordOf]

/-- Two neighbouring bytes of a word are its half there. -/
theorem wordOf_half (v : Word) (k : Nat) : wordOf [byteOf v k, byteOf v (k + 1)] = (v.extractLsb' (8 * k) 16).setWidth 32 := by
  rw [wordOf_two]
  apply BitVec.eq_of_getLsbD_eq
  intro i hi
  simp only [byteOf, BitVec.getLsbD_setWidth, BitVec.getLsbD_append, BitVec.getLsbD_extractLsb']
  by_cases h8 : i < 8
  · simp [h8, hi, show i < 16 by omega]
  · by_cases h16 : i < 16
    · simp [h8, hi, h16, show i - 8 < 8 by omega, show 8 * (k + 1) + (i - 8) = 8 * k + i by omega]
    · simp [h8, h16, show ¬ i - 8 < 8 by omega]

/-! ### The newest store of the store buffer -/

/-- A read inside the newest store of the store buffer returns its bytes and changes nothing (R148). -/
theorem readValue_newest {s : State} {l : List PendingStore} {a : Addr} {w : Width} {v : Word} {path : StorePath}
    (h : s.storeBuf = l ++ [⟨⟨a, w, v⟩, path⟩]) (j n : Nat) (hn : j + n ≤ w.bytes) (m : CacheMode) :
    s.readValue (a + BitVec.ofNat 32 j) n m = (wordOf ((List.range n).map fun k => byteOf v (j + k)), s) := by
  refine readValue_forwarded (fun k hk => ?_) m
  rw [addr_add]
  exact bufferedByte_newest h (j + k) (by omega)

/-- The store buffer after a store, and a load behind it: the load returns the stored register (R148). -/
theorem load_after_store {s s1 : State} {i j : Instr} {r q : DReg} {a : Addr} {len n : Nat}
    (hi : s.storeForm i = some (r, a, len)) (hj : s.loadForm j = some (q, a, n)) (hst : s.memoryAccessOk (.store a))
    (hld : s.memoryAccessOk (.load a)) (h : exec i s = .next s1) :
    exec j s1 = .next { s1 with r := s1.r.set q (s.dreg r), pc := s1.pc + BitVec.ofNat 32 n } := by
  obtain rfl := Outcome.next.inj ((exec_store_ok hi hst).symm.trans h)
  refine exec_load_pure hj hld ?_
  have hread := readValue_newest (s := (s.pushStore ⟨a, .word, s.dreg r⟩ (s.storePath a (s.pageMode a))).advance len)
    (l := s.storeBuf) (a := a) (w := .word) (v := s.dreg r) rfl 0 4 (by decide)
  simp only [BitVec.add_zero, Nat.zero_add] at hread
  rw [hread]
  exact congrArg (·, _) (wordOf_bytesOf (s.dreg r))

/-! ### The write buffer -/

/-- A load of a word that the write buffer holds, no later entry sharing a byte with it, returns it (R148). -/
theorem load_from_writeBuf {s : State} {j : Instr} {q : DReg} {a : Addr} {n : Nat} {before after : List BufEntry} {v : Word}
    (hj : s.loadForm j = some (q, a, n)) (hok : s.memoryAccessOk (.load a)) (hsb : s.storeBuf = [])
    (hwb : s.writeBuf = before ++ ⟨a, .word, v⟩ :: after)
    (hafter : ∀ e ∈ after, ∀ x y, x < e.width.bytes → y < 4 → e.addr + BitVec.ofNat 32 x ≠ a + BitVec.ofNat 32 y) :
    exec j s = .next { s with r := s.r.set q v, pc := s.pc + BitVec.ofNat 32 n } := by
  refine exec_load_pure hj hok ?_
  have hbyte (k : Nat) (hk : k < 4) : s.bufferedByte (a + BitVec.ofNat 32 k) = some (byteOf v k) := by
    unfold State.bufferedByte
    rw [hsb, hwb, List.map_nil, newestByte_mid _ _ _ _ fun e he => byteAt_none fun x hx => hafter e he x k hx hk,
      byteAt_offset a .word v k hk]
    rfl
  rw [readValue_forwarded hbyte]
  exact congrArg (·, s) (wordOf_bytesOf v)

/-! ### The copy-back buffers -/

/-- A run cut out of a list, element by element. -/
theorem map_range_eq_take {d : List Byte} {f : Nat → Byte} {o n : Nat}
    (hf : ∀ k (_ : k < n), d[o + k]? = some (f k)) : (List.range n).map f = (d.drop o).take n := by
  apply List.ext_getElem?
  intro k
  by_cases hk : k < n
  · rw [List.getElem?_map, List.getElem?_range hk, List.getElem?_take_of_lt hk, List.getElem?_drop, hf k hk]
    rfl
  · rw [List.getElem?_eq_none (by simp; omega), List.getElem?_eq_none (by simp; omega)]

/-- A part of a run, read back after the run was written. -/
theorem readBytes_writeBytes_part {m : List Host.Cell} (h : Memory.wf m = true) (a off : Addr) (bs : List Byte) (n : Nat)
    (hn : off.toNat + n ≤ bs.length) (hlen : bs.length ≤ 2 ^ 32) :
    Memory.readBytes (Memory.writeBytes m a bs) (a + off) n = (bs.drop off.toNat).take n := by
  have hread := Memory.readBytes_writeBytes h a bs hlen
  calc Memory.readBytes (Memory.writeBytes m a bs) (a + off) n
      = ((Memory.readBytes (Memory.writeBytes m a bs) a bs.length).drop off.toNat).take n := by
        rw [Memory.readBytes_drop _ _ _ _ (by omega), BitVec.ofNat_toNat, BitVec.setWidth_eq,
          Memory.readBytes_take _ _ _ _ (by omega)]
    _ = (bs.drop off.toNat).take n := by rw [hread]

/-- The address of a byte of a word, counted from its line. -/
theorem addr_from_line (a : Addr) (k : Nat) :
    a + BitVec.ofNat 32 k = lineAddr a + BitVec.ofNat 32 ((lineOffset a).toNat + k) := by
  rw [← addr_add, BitVec.ofNat_toNat, BitVec.setWidth_eq, lineAddr_add_offset]

/-- A line that waits in a copy-back buffer, with nothing newer in front of it, gives its bytes (R146 item 2). -/
theorem behindByte_waiting {s : State} {a : Addr} {b : Bank} {c : Victim} (hw : s.writeBuf = []) (hv : s.victim b = some c)
    (ho : ∀ j, j ≠ b → s.victim j = none) (hc : c.line = lineAddr a) (hl : c.data.length = 32) {k : Nat} (hk : k < 32) :
    c.data[k]? = some (s.behindByte (lineAddr a + BitVec.ofNat 32 k)) := by
  have hbyte := Victim.byteAt_line hc hl k hk
  have hline := victimByte_of hv hbyte fun j hj => by rw [ho j hj]; rfl
  unfold State.behindByte
  rw [hw, hline, List.getElem?_eq_getElem (by omega)]
  rfl

/-- An uncached load of a word whose line waits in a copy-back buffer returns the line's word (R148). -/
theorem load_from_victim {s : State} {j : Instr} {q : DReg} {a : Addr} {n : Nat} {b : Bank} {c : Victim}
    (hj : s.loadForm j = some (q, a, n)) (hok : s.memoryAccessOk (.load a)) (ha : a.toNat % 4 = 0) (hsb : s.storeBuf = [])
    (hwb : s.writeBuf = []) (hv : s.victim b = some c) (ho : ∀ j, j ≠ b → s.victim j = none) (hc : c.line = lineAddr a)
    (hl : c.data.length = 32) (hpop : (s.region a).unpopulated = false)
    (hbus : s.pageMode a = .uncached ∨ s.dplace a = none) :
    exec j s = .next { s with r := s.r.set q (wordOf ((c.data.drop (lineOffset a).toNat).take 4)),
                              pc := s.pc + BitVec.ofNat 32 n } := by
  have hoff := lineOffset_word ha
  have hbytes : ((List.range 4).map fun k => s.behindByte (a + BitVec.ofNat 32 k)) =
      (c.data.drop (lineOffset a).toNat).take 4 := by
    refine map_range_eq_take fun k hk => ?_
    rw [addr_from_line]
    exact behindByte_waiting hwb hv ho hc hl (by omega)
  refine exec_load_pure hj hok ?_
  rw [readValue_unbuffered hsb hwb, readUnder_bus hbus, hbytes, touch_of_populated hpop]

/-- The bytes that a fill finds when its line waits in a copy-back buffer, read back from the way's cells. -/
theorem readBytes_filled_victim {s : State} {a : Addr} {pl : DPlace} {b : Bank} {c : Victim} (ha : a.toNat % 4 = 0)
    (hm : s.memoryCanonical) (hwb : s.writeBuf = []) (hv : s.victim b = some c) (ho : ∀ j, j ≠ b → s.victim j = none)
    (hc : c.line = lineAddr a) (hl : c.data.length = 32) (hram : (s.region a).isExternalRam = true)
    (hmiss : (s.dset pl).hitWay (dtagOf a) = none) (w : Fin 2) :
    Memory.readBytes (s.allocateLine pl w a).mem (pl.cells w + lineOffset a) 4 =
      (c.data.drop (lineOffset a).toNat).take 4 := by
  obtain ⟨hwf, hbehind⟩ := writeBackLine_behind hm hwb hv ho hc hl hram hmiss w
  have hframe := writeBackLine_busOnly s pl w
  have htouch : (s.writeBackLine pl w).touch (lineAddr a) = s.writeBackLine pl w := by
    apply touch_of_populated
    rw [region_congr (s := s) (by rw [hframe]) (by rw [hframe]) (by rw [hframe]), region_lineAddr]
    exact (isExternalRam_facts hram).1
  have hline : ((List.range 32).map fun k => (s.writeBackLine pl w).behindByte (lineAddr a + BitVec.ofNat 32 k)) = c.data := by
    rw [map_range_eq_take (d := c.data) (o := 0) fun k hk => ?_]
    · rw [List.drop_zero, List.take_of_length_le (by omega)]
    · rw [Nat.zero_add, hbehind k hk, List.getElem?_eq_getElem]
  rw [allocateLine_mem, htouch, hline, readBytes_writeBytes_part hwf _ _ _ _ (by rw [hl]; exact lineOffset_word ha) (by omega)]

/-- A word load that passes its checks is aligned (R140). -/
theorem loadOk_aligned {s : State} {a : Addr} (h : s.memoryAccessOk (.load a)) : a.toNat % 4 = 0 := by
  have hal := (misaligned_word (acc := .load a) rfl rfl).symm.trans h.1
  exact not_not.1 (of_decide_eq_false hal)

/-- Settles O34: the store buffer, the write buffer and the copy-back buffers, in turn. -/
theorem bufferedStoresAreForwarded : Obligations.BufferedStoresAreForwarded := by
  refine ⟨fun s s1 i j r q a len n hi hj hst hld h => ?_, fun s s1 a v m h => ⟨?_, ?_, fun k hk => ?_⟩,
    fun s j q a n hj hok hsb => ⟨fun before after v hwb hafter => load_from_writeBuf hj hok hsb hwb hafter,
      fun b c v hwb hv ho hc hl hval => ⟨fun hpop hbus => ?_, fun hm hram hmode pl hp hmiss => ?_⟩⟩⟩
  · have hregs : s1.r = s.r := by
      obtain rfl := Outcome.next.inj ((exec_store_ok hi hst).symm.trans h)
      rfl
    refine ⟨_, load_after_store hi hj hst hld h, ?_, fun e he => ?_, rfl⟩
    · exact (State.dreg_setD s1 q q _).trans (if_pos rfl)
    · refine ((State.dreg_setD s1 q e _).trans (if_neg he)).trans ?_
      unfold State.dreg
      rw [hregs]
  · have hread := readValue_newest h 0 2 (by decide) m
    rw [BitVec.add_zero] at hread
    rw [hread]
    exact wordOf_half v 0
  · rw [show a + 2 = a + BitVec.ofNat 32 2 from rfl, readValue_newest h 2 2 (by decide) m]
    exact wordOf_half v 2
  · rw [readValue_newest h k 1 (by simp only [Width.bytes]; omega) m]
    exact wordOf_one _
  · have ha : a.toNat % 4 = 0 := loadOk_aligned hok
    rw [hval]
    exact load_from_victim hj hok ha hsb hwb hv ho hc hl hpop hbus
  · have ha : a.toNat % 4 = 0 := loadOk_aligned hok
    have hframe := readValue_storageOnly s a 4 (s.pageMode a)
    have hvalue : (s.readValue a 4 (s.pageMode a)).1 = v := by
      rw [readValue_unbuffered hsb hwb, readUnder_miss hmode hp hmiss,
        readBytes_filled_victim ha hm hwb hv ho hc hl hram hmiss, hval]
    refine ⟨_, exec_load_ok hj hok, ?_, fun e he => ?_⟩
    · rw [State.dreg_advance, State.dreg_setD, if_pos rfl, hvalue]
    · rw [State.dreg_advance, State.dreg_setD, if_neg he]
      unfold State.dreg
      rw [hframe]

end Sys2Proof.Machine
end

section
/-! The instruction cache (R179 to R191): the way that a fill takes, what a fetch returns and leaves, and what clearing the
cache controls does. -/

namespace Sys2Proof.Machine

/-! ### The victim way -/

/-- The first way, Way0 first, with a property. -/
theorem find?_iways {p : Fin 4 → Bool} {w : Fin 4} (hw : p w = true) (h : ∀ v, v < w → p v = false) :
    iways.find? p = some w := by
  unfold iways
  match w with
  | 0 => simp [hw]
  | 1 => simp [hw, h 0 (by decide)]
  | 2 => simp [hw, h 0 (by decide), h 1 (by decide)]
  | 3 => simp [hw, h 0 (by decide), h 1 (by decide), h 2 (by decide)]

/-- The element found stands before every other element with the property. -/
theorem idxOf_le_of_find? {α : Type} [DecidableEq α] {l : List α} {p : α → Bool} {w v : α} (h : l.find? p = some w)
    (hv : p v = true) : l.idxOf w ≤ l.idxOf v := by
  induction l with
  | nil => cases h
  | cons x l ih =>
    by_cases hx : p x = true
    · have hxw : x = w := Option.some.inj ((List.find?_cons_of_pos hx).symm.trans h)
      rw [hxw, List.idxOf_cons_self]
      exact Nat.zero_le _
    · rw [List.find?_cons_of_neg hx] at h
      have hw : p w = true := List.find?_some h
      have hne (y : α) (hy : p y = true) : x ≠ y := by
        rintro rfl
        exact hx hy
      rw [List.idxOf_cons_ne _ (hne w hw), List.idxOf_cons_ne _ (hne v hv)]
      exact Nat.succ_le_succ (ih h)

/-- The ways that a fill takes first: unlocked and invalid (R184). -/
def ISet.free (st : ISet) (locked : Fin 4 → Bool) (w : Fin 4) : Bool := !locked w && !(st.lines[w.val]).valid

/-- The ways that it takes next: unlocked and low (R185, R186). -/
def ISet.low (st : ISet) (locked : Fin 4 → Bool) (w : Fin 4) : Bool := !locked w && !(st.lines[w.val]).lruPrio

theorem ISet.free_false {st : ISet} {locked : Fin 4 → Bool} {w : Fin 4} :
    st.free locked w = false ↔ locked w = true ∨ (st.lines[w.val]).valid = true := by
  unfold ISet.free
  cases locked w <;> simp

theorem ISet.low_false {st : ISet} {locked : Fin 4 → Bool} {w : Fin 4} :
    st.low locked w = false ↔ locked w = true ∨ (st.lines[w.val]).lruPrio = true := by
  unfold ISet.low
  cases locked w <;> simp

/-- With an invalid unlocked way, the first such. -/
theorem ISet.victimWay_free {st : ISet} {locked : Fin 4 → Bool} {w : Fin 4}
    (h : iways.find? (st.free locked) = some w) (high : Bool) : st.victimWay locked high = some w := by
  unfold ISet.victimWay
  rw [show (iways.find? fun w => !locked w && !(st.lines[w.val]).valid) = some w from h]

/-- With none, the least recently used low unlocked way; for a high line, the least recently used unlocked one. -/
theorem ISet.victimWay_full {st : ISet} {locked : Fin 4 → Bool} (h : ∀ w, st.free locked w = false) (high : Bool) :
    st.victimWay locked high =
      (st.recency.find? (st.low locked)).or (if high then st.recency.find? (fun w => !locked w) else none) := by
  have hnone : (iways.find? fun w => !locked w && !(st.lines[w.val]).valid) = none :=
    List.find?_eq_none.2 fun w _ => Bool.eq_false_iff.1 (h w)
  unfold ISet.victimWay
  rw [hnone]
  dsimp only
  split
  · next w hw => rw [show st.recency.find? (st.low locked) = some w from hw]; rfl
  · next hw => rw [show st.recency.find? (st.low locked) = none from hw]; rfl

/-- In a set without an invalid unlocked way: which way is taken, and that it is the one used longest ago. -/
theorem ISet.victimWay_full_some {st : ISet} {locked : Fin 4 → Bool} {high : Bool} {w : Fin 4}
    (hperm : st.recency.Perm iways) (hfull : ∀ v, st.free locked v = false) (h : st.victimWay locked high = some w) :
    (st.low locked w = true ∧ st.recency.find? (st.low locked) = some w) ∨
    (high = true ∧ (∀ v, st.low locked v = false) ∧ st.recency.find? (fun v => !locked v) = some w) := by
  rw [ISet.victimWay_full hfull, Option.or_eq_some_iff] at h
  rcases h with hlow | ⟨hnone, hhigh⟩
  · exact .inl ⟨List.find?_some (p := st.low locked) hlow, hlow⟩
  · split at hhigh
    · next hh =>
      refine .inr ⟨hh, fun v => ?_, hhigh⟩
      exact Bool.eq_false_iff.2 (List.find?_eq_none.1 hnone v (hperm.mem_iff.2 (mem_iways v)))
    · cases hhigh

/-- No way is taken exactly when the three choices are empty. -/
theorem ISet.victimWay_none_iff {st : ISet} {locked : Fin 4 → Bool} {high : Bool} (hperm : st.recency.Perm iways) :
    st.victimWay locked high = none ↔
      (∀ v, st.free locked v = false) ∧ (∀ v, st.low locked v = false) ∧ (high = true → ∀ v, locked v = true) := by
  have hmem (v : Fin 4) : v ∈ st.recency := hperm.mem_iff.2 (mem_iways v)
  constructor
  · intro h
    have hfull (v : Fin 4) : st.free locked v = false := by
      cases hf : iways.find? (st.free locked) with
      | none => exact Bool.eq_false_iff.2 (List.find?_eq_none.1 hf v (mem_iways v))
      | some w => rw [ISet.victimWay_free hf] at h; cases h
    rw [ISet.victimWay_full hfull, Option.or_eq_none_iff] at h
    obtain ⟨hlow, hhigh⟩ := h
    refine ⟨hfull, fun v => Bool.eq_false_iff.2 (List.find?_eq_none.1 hlow v (hmem v)), fun hh v => ?_⟩
    rw [if_pos hh] at hhigh
    simpa using List.find?_eq_none.1 hhigh v (hmem v)
  · rintro ⟨hfull, hlow, hhigh⟩
    rw [ISet.victimWay_full hfull, Option.or_eq_none_iff]
    refine ⟨List.find?_eq_none.2 fun v _ => Bool.eq_false_iff.1 (hlow v), ?_⟩
    split
    · next hh => exact List.find?_eq_none.2 fun v _ => by simp [hhigh hh v]
    · rfl

/-- Settles O46: the three choices of a fill in turn. -/
theorem instructionVictimWay : Obligations.InstructionVictimWay := by
  intro st locked high hperm
  refine ⟨fun w h => ?_, fun w hunlocked hinvalid hbefore => ?_, fun w hvalid h => ?_, ?_⟩
  · cases hf : iways.find? (st.free locked) with
    | some v =>
      rw [ISet.victimWay_free hf] at h
      cases h
      have hfree := List.find?_some (p := st.free locked) hf
      simp only [ISet.free, Bool.and_eq_true, Bool.not_eq_true'] at hfree
      exact hfree.1
    | none =>
      have hfull (v : Fin 4) : st.free locked v = false :=
        Bool.eq_false_iff.2 (List.find?_eq_none.1 hf v (mem_iways v))
      rcases ISet.victimWay_full_some hperm hfull h with ⟨hlow, -⟩ | ⟨-, -, hfound⟩
      · simp only [ISet.low, Bool.and_eq_true, Bool.not_eq_true'] at hlow
        exact hlow.1
      · simpa using List.find?_some hfound
  · refine ISet.victimWay_free (find?_iways ?_ fun v hv => ISet.free_false.2 (hbefore v hv)) high
    simp [ISet.free, hunlocked, hinvalid]
  · rcases ISet.victimWay_full_some hperm (fun v => ISet.free_false.2 (hvalid v)) h with ⟨hlow, hfound⟩ | ⟨hhigh, hlow, hfound⟩
    · simp only [ISet.low, Bool.and_eq_true, Bool.not_eq_true'] at hlow
      obtain ⟨-, hprio⟩ := hlow
      refine ⟨fun hp => ?_, fun v hv hsame => idxOf_le_of_find? hfound ?_⟩
      · rw [hprio] at hp
        cases hp
      · simp [ISet.low, hv, hsame, hprio]
    · exact ⟨fun _ => ⟨hhigh, fun v => ISet.low_false.1 (hlow v)⟩, fun v hv _ => idxOf_le_of_find? hfound (by simp [hv])⟩
  · rw [ISet.victimWay_none_iff hperm]
    simp only [ISet.free_false, ISet.low_false]
    constructor
    · rintro ⟨hvalid, hprio, hhigh⟩ v
      cases hl : locked v with
      | true => exact .inl rfl
      | false =>
        refine .inr ⟨(hvalid v).resolve_left (by simp [hl]), (hprio v).resolve_left (by simp [hl]), ?_⟩
        refine Bool.eq_false_iff.2 fun hh => ?_
        rw [hhigh hh v] at hl
        cases hl
    · intro h
      refine ⟨fun v => (h v).imp_right fun hv => hv.1, fun v => (h v).imp_right fun hv => hv.2.1, fun hh v => ?_⟩
      refine (h v).resolve_right ?_
      rintro ⟨-, -, hhigh⟩
      rw [hhigh] at hh
      cases hh

/-! ### Fetches -/

/-- A run of bytes of populated space, from the bus. -/
theorem busBytes_of_populated {s : State} {a : Addr} {n : Nat}
    (h : ∀ k, k < n → (s.region (a + BitVec.ofNat 32 k)).unpopulated = false) :
    s.busBytes a n = Memory.readBytes s.mem a n := by
  unfold State.busBytes Memory.readBytes
  exact List.map_congr_left fun k hk => busByte_of_populated (h k (List.mem_range.1 hk))

/-- The bytes of a 64-bit fetch word lie in the region of any address of the word. -/
theorem region_wordAddr (s : State) (a : Addr) {k : Nat} (hk : k < 8) :
    s.region (wordAddr a + BitVec.ofNat 32 k) = s.region a := by
  apply region_block
  have hw := wordAddr_toNat a
  have hlt := a.isLt
  rw [BitVec.toNat_add, BitVec.toNat_ofNat, hw]
  omega

/-- A line of a set after a fill. -/
theorem ISet.fillWay_line (st : ISet) (w v : Fin 4) (t : BitVec 20) (high : Bool) :
    (st.fillWay w t high).lines[v.val] = if v = w then ⟨t, true, high⟩ else st.lines[v.val] := by
  show (st.lines.set w.val _)[v.val] = _
  rw [Vector.getElem_set]
  by_cases h : v = w
  · rw [if_pos h, if_pos (by rw [h])]
  · rw [if_neg h, if_neg fun e => h (Fin.ext e.symm)]

/-- A fetch that hits (R179). -/
theorem cachedFetch_hit {s : State} {a : Addr} {w : Fin 4} (h : (s.iset (iplaceOf a)).hitWay (itagOf a) = some w)
    (prio : Bool) :
    s.cachedFetch a prio =
      (Memory.readBytes s.mem ((iplaceOf a).cells w + lineOffset (wordAddr a)) 8,
        s.setIset (iplaceOf a) ((s.iset (iplaceOf a)).touchWay w)) := by
  unfold State.cachedFetch
  dsimp only
  rw [h]

/-- A fetch that misses and fills way `w` (R180). -/
theorem cachedFetch_fill {s : State} {a : Addr} {prio : Bool} {w : Fin 4}
    (hmiss : (s.iset (iplaceOf a)).hitWay (itagOf a) = none)
    (hw : (s.iset (iplaceOf a)).victimWay s.iloc (prio && !s.lruPrioRst) = some w) :
    s.cachedFetch a prio =
      (s.busBytes (wordAddr a) 8,
        { s.touch (lineAddr a) with
            mem := Memory.writeBytes (s.touch (lineAddr a)).mem ((iplaceOf a).cells w) (s.busBytes (lineAddr a) 32) }.setIset
          (iplaceOf a) ((s.iset (iplaceOf a)).fillWay w (itagOf a) (prio && !s.lruPrioRst))) := by
  unfold State.cachedFetch
  dsimp only
  rw [hmiss]
  dsimp only
  rw [hw]

/-- The sets after such a fill. -/
theorem cachedFetch_fill_iset {s : State} (hwf : sparseWf ISet.empty s.icache = true) {a : Addr} {prio : Bool} {w : Fin 4}
    (hmiss : (s.iset (iplaceOf a)).hitWay (itagOf a) = none)
    (hw : (s.iset (iplaceOf a)).victimWay s.iloc (prio && !s.lruPrioRst) = some w) (q : IPlace) :
    (s.cachedFetch a prio).2.iset q =
      if q.key = (iplaceOf a).key then (s.iset (iplaceOf a)).fillWay w (itagOf a) (prio && !s.lruPrioRst)
      else s.iset q := by
  have hcache : (s.touch (lineAddr a)).icache = s.icache := by rw [touch_frame]
  rw [cachedFetch_fill hmiss hw, iset_setIset (by exact hcache ▸ hwf)]
  unfold State.iset
  rw [hcache]

/-- A fill from populated memory, part by part. -/
theorem cachedFetch_fill_populated {s : State} {a : Addr} {prio : Bool} {w : Fin 4} (hpop : (s.region a).unpopulated = false)
    (hmiss : (s.iset (iplaceOf a)).hitWay (itagOf a) = none)
    (hw : (s.iset (iplaceOf a)).victimWay s.iloc (prio && !s.lruPrioRst) = some w) :
    ∃ m ic, s.cachedFetch a prio = (Memory.readBytes s.mem (wordAddr a) 8, { s with mem := m, icache := ic }) ∧
      m = Memory.writeBytes s.mem ((iplaceOf a).cells w) (Memory.readBytes s.mem (lineAddr a) 32) := by
  refine ⟨_, sparseSet ISet.empty s.icache (iplaceOf a).key
    ((s.iset (iplaceOf a)).fillWay w (itagOf a) (prio && !s.lruPrioRst)), ?_, rfl⟩
  rw [cachedFetch_fill hmiss hw, touch_of_populated (by rw [region_lineAddr]; exact hpop),
    busBytes_of_populated fun k hk => by rw [region_wordAddr s a hk]; exact hpop,
    busBytes_of_populated fun k hk => by rw [region_line s a k hk]; exact hpop]
  generalize Memory.readBytes s.mem (lineAddr a) 32 = line
  generalize Memory.readBytes s.mem (wordAddr a) 8 = word
  rfl

/-- Settles O47: the hit, and the fill of populated memory. -/
theorem cachedFetches : Obligations.CachedFetches := by
  intro s a prio w hwf
  refine ⟨fun hhit => ?_, fun hmiss hm hpop hw => ?_⟩
  · have hset (q : IPlace) := iset_setIset hwf (iplaceOf a) q ((s.iset (iplaceOf a)).touchWay w)
    refine ⟨_, cachedFetch_hit hhit prio, rfl, ?_, ?_, fun q hq => (hset q).trans (if_neg hq)⟩ <;>
      · rw [hset, if_pos rfl]
        rfl
  · have hset := cachedFetch_fill_iset hwf hmiss hw
    obtain ⟨m, ic, hfetch, hmem⟩ := cachedFetch_fill_populated hpop hmiss hw
    rw [hfetch] at hset
    have hread := Memory.readBytes_writeBytes hm ((iplaceOf a).cells w) (Memory.readBytes s.mem (lineAddr a) 32) (by simp)
    rw [Memory.readBytes_length, ← hmem] at hread
    refine ⟨_, hfetch, rfl, hread, fun b hb => ?_, ?_, fun v hv => ?_, ?_, fun q hq => (hset q).trans (if_neg hq)⟩
    · dsimp only
      rw [hmem]
      exact Memory.read_writeBytes_out hm _ _ _ (by simp) (by simpa using hb)
    · rw [hset, if_pos rfl, ISet.fillWay_line, if_pos rfl]
    · rw [hset, if_pos rfl, ISet.fillWay_line, if_neg hv]
    · rw [hset, if_pos rfl]
      rfl

/-! ### Clearing the controls -/

/-- Settles O49: the write of the register clears every priority, and a fill with the bit set stores none. -/
theorem lruPrioResetClears : Obligations.LruPrioResetClears := by
  intro s v hwf hbit
  refine ⟨fun pl w => ?_, fun t a prio w hrst hwft hmiss hw => ?_⟩
  · obtain ⟨-, -, hline⟩ := writeImemControl_get hwf v pl.key
    show ((sparseGet ISet.empty (s.writeImemControl v).icache pl.key).lines[w.val]).lruPrio = false
    rw [hline w, hbit, Bool.not_true, Bool.and_false]
  · have hhigh : (prio && !t.lruPrioRst) = false := by rw [hrst, Bool.not_true, Bool.and_false]
    rw [cachedFetch_fill_iset hwft hmiss (by rw [hhigh]; exact hw), if_pos rfl, ISet.fillWay_line, if_pos rfl, hhigh]

/-- Settles O50: the valid bits after the write of either control register. -/
theorem clearingTheControlsInvalidates : Obligations.ClearingTheControlsInvalidates := by
  intro s v hwi hwd
  refine ⟨fun hbit pl w => ?_, fun k w hoff => writeDmemControl_invalid hwd hoff w, fun k hon => ?_, rfl, ?_⟩
  · obtain ⟨-, -, hline⟩ := writeImemControl_get hwi v pl.key
    show ((sparseGet ISet.empty (s.writeImemControl v).icache pl.key).lines[w.val]).valid = false
    rw [hline w, hbit, Bool.and_false]
  · rw [writeDmemControl_get hwd, if_pos hon]
  · rw [writeImemControl_frame]

end Sys2Proof.Machine
end

section
/-! Interrupts (R440, R441, R228): which one is next, what its entry writes and what its return restores. -/

namespace Sys2Proof.Machine

/-! ### The next interrupt -/

/-- The smallest event number with a property. -/
theorem find?_slots_eq_some {p : Fin 16 → Bool} {k : Fin 16} :
    slots.find? p = some k ↔ p k = true ∧ ∀ j, j < k → p j = false := by
  have hslot : ∀ i : Fin 16, slots[i.val]? = some i := by decide
  have hget (i : Nat) (h : i < slots.length) : slots[i] = ⟨i, h⟩ :=
    Option.some.inj ((List.getElem?_eq_getElem h).symm.trans (hslot ⟨i, h⟩))
  rw [List.find?_eq_some_iff_getElem]
  refine and_congr_right fun _ => ⟨?_, fun hbefore => ⟨k.val, k.isLt, hget k.val k.isLt, fun j hj => ?_⟩⟩
  · rintro ⟨i, hi, hik, hbefore⟩ j hj
    rw [hget] at hik
    have hji := hbefore j.val (by rw [← hik] at hj; exact hj)
    rw [hget] at hji
    simpa using hji
  · rw [hget, hbefore ⟨j, lt_trans hj k.isLt⟩ hj]
    rfl

/-- IPRIO_MARK is the low four bits of IPRIO (R50). -/
theorem iprioMark_eq (s : State) : s.iprioMark = (s.iprio &&& 0xF).toNat := by
  unfold State.iprioMark fieldAt
  rw [Nat.shiftRight_zero, BitVec.toNat_and]
  exact (Nat.and_two_pow_sub_one_eq_mod s.iprio.toNat 4).symm

/-- High priority is a number below the mark (R50). -/
theorem highPriority_iff (s : State) (k : Nat) : s.highPriority k = true ↔ k < (s.iprio &&& 0xF).toNat := by
  rw [← iprioMark_eq]
  exact decide_eq_true_iff

/-- When an interrupt may be taken (R430, R440, R441). -/
theorem interruptible_iff (s : State) (k : Fin 16) :
    s.interruptible k = true ↔
      (k.val < 5 ∨ s.imask.getLsbD k.val = true) ∧ (∀ f ∈ s.isrs, k < f.level) ∧ (s.handling = none ∨ k.val < 3) := by
  simp only [State.interruptible, State.unmasked, bitAt, Bool.and_eq_true, Bool.or_eq_true, decide_eq_true_eq,
    List.all_eq_true, Option.isNone_iff_eq_none, and_assoc]

/-- When an interrupt is pending (R69, R425). -/
theorem pending_iff (s : State) (k : Fin 16) :
    s.pending k = true ↔ s.irqPending[k.val] = true ∨ (k.val = 5 ∧ s.hwErrorPending = true) := by
  have hnumber : k = hardwareError ↔ k.val = 5 := Fin.ext_iff
  simp only [State.pending, Bool.or_eq_true, Bool.and_eq_true, beq_iff_eq, hnumber]

/-- The next interrupt is the smallest pending one that may be taken (R440). -/
theorem nextInterrupt_eq_some (s : State) (k : Fin 16) :
    s.nextInterrupt = some k ↔ s.pending k = true ∧ s.interruptible k = true ∧
      ∀ j, j < k → ¬ (s.pending j = true ∧ s.interruptible j = true) := by
  unfold State.nextInterrupt
  simp only [find?_slots_eq_some, Bool.and_eq_true, and_assoc, Bool.eq_false_iff, ne_eq]

/-! ### Entry and return -/

/-- What the entry of an interrupt writes (R441, R228). -/
theorem enterInterrupt_eq (s : State) (k : Fin 16) :
    s.enterInterrupt k =
      { s with isrs := ⟨k, s.pc, s.mode, s.handling.isSome⟩ :: s.isrs, mode := .supervisor,
               pc := if k.val = 3 then s.evt3 else s.vectors[k.val], shadow := none, irqPending := s.irqPending.set k.val false,
               hwErrorPending := s.hwErrorPending && decide (k.val ≠ 5),
               writeBufDepth := if k.val < (s.iprio &&& 0xF).toNat then 8 else s.writeBufDepth } := by
  have hnumber : (k != hardwareError) = decide (k.val ≠ 5) := by
    have hiff : k = hardwareError ↔ k.val = 5 := Fin.ext_iff
    rw [Bool.eq_iff_iff, bne_iff_ne, decide_eq_true_iff, ne_eq, hiff]
  unfold State.enterInterrupt State.vector
  simp only [hnumber, highPriority_iff]

/-- The return from the routine that runs, up to the write buffer's depth (R441). -/
theorem interruptReturn_cons {h : State} {f : IsrFrame} {fs : List IsrFrame} (hisrs : h.isrs = f :: fs)
    (hrun : h.handling.isNone = true ∨ f.inHandler = true) :
    h.interruptReturn =
      ({ h with isrs := fs, pc := f.returnPc, mode := f.returnMode, shadow := none } : State).restoreDepth := by
  have hroutine : h.inRoutine = true := by
    unfold State.inRoutine
    rw [hisrs]
    exact Bool.or_eq_true_iff.2 hrun
  unfold State.interruptReturn
  rw [hisrs]
  exact if_pos hroutine

/-- Restoring the depth performs writes and changes nothing else of the context. -/
theorem restoreDepth_context (s : State) :
    s.restoreDepth.pc = s.pc ∧ s.restoreDepth.mode = s.mode ∧ s.restoreDepth.isrs = s.isrs := by
  have hframe := performWrites_busOnly s (s.writeBuf.length - 2)
  unfold State.restoreDepth
  split
  · exact ⟨rfl, rfl, rfl⟩
  · exact ⟨by rw [hframe], by rw [hframe], by rw [hframe]⟩

/-- A high-priority routine is still interrupted (R228). -/
theorem inHighPriority_iff (s : State) :
    s.inHighPriority = true ↔ ∃ f ∈ s.isrs, f.level.val < (s.iprio &&& 0xF).toNat := by
  unfold State.inHighPriority
  simp only [List.any_eq_true, highPriority_iff]

/-- The write buffer after the depth was restored: as before, or its last two entries at most, two deep (R228). -/
theorem restoreDepth_writeBuf (s : State) :
    (s.inHighPriority = true → s.restoreDepth = s) ∧
    (s.inHighPriority = false → s.restoreDepth.writeBuf = s.writeBuf.drop (s.writeBuf.length - 2) ∧
      s.restoreDepth.writeBufDepth = 2) := by
  unfold State.restoreDepth
  refine ⟨fun h => if_pos h, fun h => ?_⟩
  rw [h]
  exact ⟨performWrites_writeBuf s _, rfl⟩

/-- Settles O52: which interrupt is next, its entry, and its return. -/
theorem interruptTakenAndReturned : Obligations.InterruptTakenAndReturned := by
  intro s k
  refine ⟨interruptible_iff s k, ?_, fun hnone => ?_, fun hk => ?_, fun _ h hisrs hhandling => ?_⟩
  · rw [nextInterrupt_eq_some, pending_iff]
  · unfold State.takeInterrupt
    rw [hnone]
  · unfold State.takeInterrupt
    rw [hk]
    exact enterInterrupt_eq s k
  · have hframe : h.isrs = ⟨k, s.pc, s.mode, s.handling.isSome⟩ :: s.isrs := hisrs
    have hreturn := interruptReturn_cons hframe (by rw [hhandling]; cases s.handling <;> simp)
    generalize hu : ({ h with isrs := s.isrs, pc := s.pc, mode := s.mode, shadow := none } : State) = u at hreturn
    have hhigh : u.inHighPriority = true ↔ ∃ f ∈ s.isrs, f.level.val < (h.iprio &&& 0xF).toNat := by
      rw [← hu]
      exact inHighPriority_iff _
    obtain ⟨hpc, hmode, hcontexts⟩ := restoreDepth_context u
    obtain ⟨hkept, hrestored⟩ := restoreDepth_writeBuf u
    rw [hreturn]
    refine ⟨hpc.trans (by rw [← hu]), hmode.trans (by rw [← hu]), hcontexts.trans (by rw [← hu]), fun hsome => ?_, fun hnone => ?_⟩
    · rw [hkept (hhigh.2 hsome), ← hu]
      exact ⟨rfl, rfl⟩
    · have hoff : u.inHighPriority = false := Bool.eq_false_iff.2 fun ht => by
        obtain ⟨f, hf, hlt⟩ := hhigh.1 ht
        exact hnone f hf hlt
      obtain ⟨hbuf, hdepth⟩ := hrestored hoff
      refine ⟨?_, hdepth⟩
      rw [hbuf, ← hu]

end Sys2Proof.Machine
end

section
/-! Reads that are issued and dropped (R151, R354, R399): in the shadow of a taken branch, and cancelled by an interrupt. -/

namespace Sys2Proof.Machine

open Host (Outcome)

/-! ### The stream run ahead -/

/-- The pipeline passes a conditional jump either way (R151, R396). -/
theorem passBy_jump {i : Instr} {o : Int} (hi : i = .jumpCC o ∨ i = .jumpNotCC o) (s : State) (taken : Bool) :
    s.passBy i taken = .next { s with pc := if taken then jumpTarget s o else s.pc + 2 } := by
  rcases hi with rfl | rfl <;> rfl

/-- The stream past a conditional jump. -/
theorem runAhead_jump {u t : State} {bs rest : List Byte} {i : Instr} {o : Int} (hf : u.fetchInstr = .ok (bs, t))
    (hd : decode bs = .ok (i, rest)) (hi : i = .jumpCC o ∨ i = .jumpNotCC o) (taken : Bool) (path : List Bool) :
    u.runAhead (taken :: path) =
      ({ t with pc := if taken then u.pc + BitVec.ofInt 32 (2 * o) else u.pc + 2 } : State).runAhead path := by
  have hframe := fetchInstr_frame hf
  have hpc : t.pc = u.pc := by rw [hframe]
  have hhandling : t.handling = u.handling := by rw [hframe]
  have hisrs : t.isrs = u.isrs := by rw [hframe]
  have hpass := passBy_jump hi t taken
  unfold jumpTarget at hpass
  rw [hpc] at hpass
  rw [State.runAhead, hf]
  dsimp only
  rw [hd]
  rcases hi with rfl | rfl <;>
    · dsimp only
      rw [hpass]
      exact if_pos ⟨hhandling, hisrs⟩

/-- The stream ends at a CSYNC or SSYNC (R353). -/
theorem runAhead_sync {t u : State} {bs rest : List Byte} {i : Instr} (hf : t.fetchInstr = .ok (bs, u))
    (hd : decode bs = .ok (i, rest)) (hi : i = .csync ∨ i = .ssync) {path : List Bool} (hpath : path ≠ []) :
    t.runAhead path = none := by
  cases path with
  | nil => exact absurd rfl hpath
  | cons taken path =>
    rw [State.runAhead, hf]
    dsimp only
    rw [hd]
    rcases hi with rfl | rfl <;> rfl

/-! ### The read in the shadow of a branch -/

/-- A bus request alone can only make the hardware error pending. -/
theorem requestRead_frame (s : State) (a : Addr) (m : CacheMode) :
    s.requestRead a m = { s with hwErrorPending := (s.requestRead a m).hwErrorPending } := by
  unfold State.requestRead
  split
  · rfl
  · split
    · exact touch_frame s a
    · exact touch_frame s a
    · split
      · rfl
      · exact touch_frame s a

/-- A bus request to populated memory leaves no trace. -/
theorem requestRead_populated {s : State} {a : Addr} (h : (s.region a).unpopulated = false) (m : CacheMode) :
    s.requestRead a m = s := by
  unfold State.requestRead
  rw [touch_of_populated h]
  (repeat' split) <;> rfl

/-- One to unpopulated space, past the buffers and the data cache, is the hardware error (R425). -/
theorem requestRead_unpopulated {s : State} {a : Addr} {m : CacheMode} (h : (s.region a).unpopulated = true)
    (hbuf : s.fullyBuffered a 4 = false)
    (hmiss : m = .uncached ∨ ∀ pl, s.dplace a = some pl → (s.dset pl).hitWay (dtagOf a) = none) :
    s.requestRead a m = { s with hwErrorPending := true } := by
  have htouch : s.touch a = { s with hwErrorPending := true } := if_pos h
  unfold State.requestRead
  rw [hbuf, if_neg Bool.false_ne_true, htouch]
  rcases hmiss with rfl | hmiss
  · rfl
  · split
    · rfl
    · rfl
    · next pl _ hp =>
      rw [hmiss pl hp]
      rfl

/-- The read in the shadow, where the stream reaches no load. -/
theorem speculativeRead_none {s : State} {path : List Bool} {f : Addr} (hs : s.shadow = some f)
    (h : s.loadAhead f path = none) : s.speculativeRead path = s := by
  unfold State.speculativeRead
  rw [hs, Option.bind_some, h]

/-- The read in the shadow of a load that the checks stop, or in MMR space (R154). -/
theorem speculativeRead_stop {s : State} {path : List Bool} {f a : Addr} (hs : s.shadow = some f)
    (ha : s.loadAhead f path = some a)
    (h : (∃ st, s.checkData (.load a) = .error st) ∨ inMmrSpace a = true) : s.speculativeRead path = s := by
  unfold State.speculativeRead
  rw [hs, Option.bind_some, ha]
  dsimp only
  rcases h with ⟨st, hst⟩ | hmmr
  · rw [hst]
    exact ite_self s
  · rw [if_pos hmmr]

/-- The read in the shadow of a load that passes the checks is its bus request. -/
theorem speculativeRead_ok {s : State} {path : List Bool} {f a : Addr} (hs : s.shadow = some f)
    (ha : s.loadAhead f path = some a) (hok : s.memoryAccessOk (.load a)) :
    s.speculativeRead path = s.requestRead a (s.pageMode a) := by
  obtain ⟨-, hmmr, -⟩ := id hok
  have hmmr' : ¬ inMmrSpace a = true := Bool.eq_false_iff.1 hmmr
  have hcheck : s.checkData (.load a) = .ok (s.pageMode a) := checkData_ok hok
  unfold State.speculativeRead
  rw [hs, Option.bind_some, ha]
  dsimp only
  rw [if_neg hmmr', hcheck]

/-- A speculative read can only make the hardware error pending (R354). -/
theorem speculativeRead_frame (s : State) (path : List Bool) :
    s.speculativeRead path = { s with hwErrorPending := (s.speculativeRead path).hwErrorPending } := by
  unfold State.speculativeRead
  split
  · rfl
  · split
    · rfl
    · split
      · rfl
      · exact requestRead_frame _ _ _

/-! ### The load that an interrupt cancels -/

/-- A cancelled load's read that the checks stop, or in MMR space, leaves nothing (R154). -/
theorem issueRead_stop {s : State} {a : Addr} (h : (∃ st, s.checkData (.load a) = .error st) ∨ inMmrSpace a = true) :
    s.issueRead a = s := by
  unfold State.issueRead
  rcases h with ⟨st, hst⟩ | hmmr
  · have hread : s.memRead (.load a) = .error st := by
      unfold State.memRead
      rw [hst]
    rw [hread]
    exact ite_self s
  · rw [if_pos hmmr]

/-- One that passes them leaves what the read leaves (R152, R219). -/
theorem issueRead_ok {s : State} {a : Addr} (hok : s.memoryAccessOk (.load a)) :
    s.issueRead a = (s.readValue a 4 (s.pageMode a)).2 := by
  obtain ⟨-, hmmr, -⟩ := id hok
  have hmmr' : ¬ inMmrSpace a = true := Bool.eq_false_iff.1 hmmr
  have hread : s.memRead (.load a) = .ok (s.readValue a 4 (s.pageMode a)) := memRead_ok hok
  unfold State.issueRead
  rw [if_neg hmmr', hread]

/-- A pending interrupt is entered after the read of the load in flight (R399). -/
theorem cancelledLoad_eq {s : State} {k : Fin 16} {path : List Bool} {a : Addr} (hk : s.nextInterrupt = some k)
    (ha : s.loadAhead s.pc (path.take 3) = some a) : s.cancelledLoad path = (s.issueRead a).enterInterrupt k := by
  unfold State.cancelledLoad
  rw [hk]
  dsimp only
  rw [ha]

/-- Settles O53: the speculative read by where its stream leads, then the cancelled load. -/
theorem droppedReads : Obligations.DroppedReads := by
  intro s a path
  refine ⟨speculativeRead_frame s path, fun u t bs rest i o taken hf hd hi => runAhead_jump hf hd hi taken path,
    fun f hs => ⟨fun before after t u bs rest i hpath hafter hrun hf hd hi => ?_,
      fun ha => ⟨speculativeRead_stop hs ha, fun hok => ⟨fun hpop => ?_, fun hunpop hbuf hmiss => ?_⟩⟩⟩,
    fun k hk ha => ⟨fun hok => ?_, fun h => ?_⟩⟩
  · refine speculativeRead_none hs ?_
    unfold State.loadAhead
    rw [hpath, runAhead_append, hrun, Option.bind_some, runAhead_sync hf hd hi hafter]
    rfl
  · rw [speculativeRead_ok hs ha hok, requestRead_populated hpop]
  · rw [speculativeRead_ok hs ha hok, requestRead_unpopulated hunpop hbuf hmiss]
  · have hframe := readValue_storageOnly s a 4 (s.pageMode a)
    have hregs : (s.readValue a 4 (s.pageMode a)).2.r = s.r := by rw [hframe]
    rw [cancelledLoad_eq hk ha, issueRead_ok hok]
    exact ⟨rfl, hregs⟩
  · rw [cancelledLoad_eq hk ha, issueRead_stop h]

end Sys2Proof.Machine
end

section
/-! The test commands (R196, R236, R238): the place that each names, and a write read back. -/

namespace Sys2Proof.Machine

/-! ### What each command does -/

/-- The low and high words of a stored test datum are the two data registers (R33, R34). -/
theorem words_of_testBytes {m : List Host.Cell} (hm : Memory.wf m = true) (a : Addr) (x y : Word) :
    wordOf (Memory.readBytes (Memory.writeBytes m a (testBytes x y)) a 4) = x ∧
    wordOf (Memory.readBytes (Memory.writeBytes m a (testBytes x y)) (a + 4) 4) = y := by
  obtain ⟨hbytes, -⟩ := writeBytes_eight hm a x y
  obtain ⟨hlow, hhigh⟩ := readBytes_eight (Memory.writeBytes m a (testBytes x y)) a
  rw [← hlow, ← hhigh, hbytes]
  exact ⟨wordOf_bytesOf x, wordOf_bytesOf y⟩

/-- ITEST, data array: a write stores the datum in the cells that the command names. -/
theorem itest_writeData {s : State} {c : Word} (h2 : bitAt c 2 = true) (h1 : bitAt c 1 = true) :
    s.itest c = { s with mem := Memory.writeBytes s.mem (itestCell c) (testBytes s.itestData0 s.itestData1) } := by
  simp only [State.itest, h2, h1, if_true]

/-- ITEST, data array: a read loads the data registers. -/
theorem itest_readData {s : State} {c : Word} (h2 : bitAt c 2 = true) (h1 : bitAt c 1 = false) :
    s.itest c = { s with itestData0 := wordOf (Memory.readBytes s.mem (itestCell c) 4),
                         itestData1 := wordOf (Memory.readBytes s.mem (itestCell c + 4) 4) } := by
  obtain ⟨hlow, hhigh⟩ := readBytes_eight s.mem (itestCell c)
  simp only [State.itest, h2, h1, if_true, Bool.false_eq_true, if_false, hlow, hhigh]

/-- ITEST, tag array: a write replaces the line by the one that the data register describes. -/
theorem itest_writeTag {s : State} {c : Word} {pl : IPlace} {w : Fin 4} (hpl : itestPlace c = pl) (hw : itestWay c = w)
    (h2 : bitAt c 2 = false) (h1 : bitAt c 1 = true) (hon : s.imc = true) :
    s.itest c = s.setIset pl ⟨(s.iset pl).lines.set w.val (ilineOfView s.itestData0), (s.iset pl).recency⟩ := by
  subst hpl hw
  simp only [State.itest, h2, h1, hon, if_true, Bool.false_eq_true, if_false]

/-- ITEST, tag array: a read gives the line's fields. -/
theorem itest_readTag {s : State} {c : Word} {pl : IPlace} {w : Fin 4} (hpl : itestPlace c = pl) (hw : itestWay c = w)
    (h2 : bitAt c 2 = false) (h1 : bitAt c 1 = false) (hon : s.imc = true) :
    s.itest c = { s with itestData0 := ((s.iset pl).lines[w.val]).view } := by
  subst hpl hw
  simp only [State.itest, h2, h1, hon, if_true, Bool.false_eq_true, if_false]

/-- DTEST, data array of a bank that is cache: write and read. -/
theorem dtestData_writeData {s : State} {c : Word} (hbank : s.bankIsCache (dtestPlace c).bank = true)
    (h2 : bitAt c 2 = true) (h1 : bitAt c 1 = true) :
    s.dtestData c = { s with mem := Memory.writeBytes s.mem (dtestCell c) (testBytes s.dtestData0 s.dtestData1) } := by
  simp only [State.dtestData, hbank, h2, h1, if_true]

theorem dtestData_readData {s : State} {c : Word} (hbank : s.bankIsCache (dtestPlace c).bank = true)
    (h2 : bitAt c 2 = true) (h1 : bitAt c 1 = false) :
    s.dtestData c = { s with dtestData0 := wordOf (Memory.readBytes s.mem (dtestCell c) 4),
                             dtestData1 := wordOf (Memory.readBytes s.mem (dtestCell c + 4) 4) } := by
  obtain ⟨hlow, hhigh⟩ := readBytes_eight s.mem (dtestCell c)
  simp only [State.dtestData, hbank, h2, h1, if_true, Bool.false_eq_true, if_false, hlow, hhigh]

/-- DTEST, tag array of a bank that is cache: write and read. -/
theorem dtestData_writeTag {s : State} {c : Word} {pl : DPlace} {w : Fin 2} (hpl : dtestPlace c = pl)
    (hw : dtestWay c = w) (hbank : s.bankIsCache pl.bank = true) (h2 : bitAt c 2 = false) (h1 : bitAt c 1 = true) :
    s.dtestData c =
      s.setDset pl ⟨(s.dset pl).lines.set w.val (dlineOfView s.dtestData0), bitAt s.dtestData0 2⟩ := by
  subst hpl hw
  simp only [State.dtestData, hbank, h2, h1, if_true, Bool.false_eq_true, if_false]
  rfl

theorem dtestData_readTag {s : State} {c : Word} {pl : DPlace} {w : Fin 2} (hpl : dtestPlace c = pl)
    (hw : dtestWay c = w) (hbank : s.bankIsCache pl.bank = true) (h2 : bitAt c 2 = false) (h1 : bitAt c 1 = false) :
    s.dtestData c = { s with dtestData0 := dlineView (s.dset pl).lines[w.val] (s.dset pl).lru } := by
  subst hpl hw
  simp only [State.dtestData, hbank, h2, h1, if_true, Bool.false_eq_true, if_false]

/-- DTEST, L1 instruction SRAM: write and read. -/
theorem dtestInstr_write {s : State} {c : Word} (h1 : bitAt c 1 = true) :
    s.dtestInstr c =
      { s with mem := Memory.writeBytes s.mem (dtestInstrAddr c) (testBytes s.dtestData0 s.dtestData1) } := by
  simp only [State.dtestInstr, h1, if_true]

theorem dtestInstr_read {s : State} {c : Word} (h1 : bitAt c 1 = false) :
    s.dtestInstr c = { s with dtestData0 := wordOf (Memory.readBytes s.mem (dtestInstrAddr c) 4),
                              dtestData1 := wordOf (Memory.readBytes s.mem (dtestInstrAddr c + 4) 4) } := by
  obtain ⟨hlow, hhigh⟩ := readBytes_eight s.mem (dtestInstrAddr c)
  simp only [State.dtestInstr, h1, Bool.false_eq_true, if_false, hlow, hhigh]

/-! ### The read command of a write -/

/-- The read command of a write names the same place. -/
theorem places_xor_two (c : Word) :
    itestPlace (c ^^^ 2) = itestPlace c ∧ itestWay (c ^^^ 2) = itestWay c ∧ itestCell (c ^^^ 2) = itestCell c ∧
    dtestPlace (c ^^^ 2) = dtestPlace c ∧ dtestWay (c ^^^ 2) = dtestWay c ∧ dtestCell (c ^^^ 2) = dtestCell c ∧
    dtestInstrAddr (c ^^^ 2) = dtestInstrAddr c := by
  have hfield {lo : Nat} (n : Nat) (h : 2 ≤ lo) := fieldAt_xor_two c lo n h
  have hbit {k : Nat} (h : k ≠ 1) := bitAt_xor_two c k h
  have hiplace : itestPlace (c ^^^ 2) = itestPlace c := by
    unfold itestPlace
    rw [hfield 2 (by decide), hfield 5 (by decide)]
  have hiway : itestWay (c ^^^ 2) = itestWay c := by
    unfold itestWay
    rw [hfield 2 (by decide)]
  have hdplace : dtestPlace (c ^^^ 2) = dtestPlace c := by
    unfold dtestPlace
    rw [hbit (by decide), hfield 2 (by decide), hfield 6 (by decide)]
  have hdway : dtestWay (c ^^^ 2) = dtestWay c := by
    unfold dtestWay
    rw [hbit (by decide)]
  refine ⟨hiplace, hiway, ?_, hdplace, hdway, ?_, ?_⟩
  · unfold itestCell
    rw [hiplace, hiway, hfield 2 (by decide)]
  · unfold dtestCell
    rw [hdplace, hdway, hfield 2 (by decide)]
  · unfold dtestInstrAddr
    rw [hbit (by decide), hfield 1 (by decide), hfield 2 (by decide), hfield 1 (by decide), hfield 6 (by decide),
      hfield 2 (by decide)]

/-- The read command of a write reads, in the same array. -/
theorem bits_xor_two {c : Word} (h1 : bitAt c 1 = true) : bitAt (c ^^^ 2) 1 = false ∧ bitAt (c ^^^ 2) 2 = bitAt c 2 := by
  rw [bitAt_xor_two_one, h1]
  exact ⟨rfl, bitAt_xor_two c 2 (by decide)⟩

/-- Which caches are enabled does not depend on their sets. -/
theorem imc_setIset (s : State) (pl : IPlace) (st : ISet) : (s.setIset pl st).imc = s.imc := rfl

theorem bankIsCache_setDset (s : State) (pl : DPlace) (st : DSet) (b : Bank) :
    (s.setDset pl st).bankIsCache b = s.bankIsCache b := rfl

/-- A tag of the instruction cache written and read back (R196). -/
theorem itest_tag_readBack {s : State} {c : Word} (h1 : bitAt c 1 = true) (h2 : bitAt c 2 = false) (hon : s.imc = true)
    (hwf : sparseWf ISet.empty s.icache = true) :
    ((s.itest c).itest (c ^^^ 2)).itestData0 = s.itestData0 &&& 0xFFFFCC03 := by
  obtain ⟨hplace, hway, -⟩ := places_xor_two c
  obtain ⟨hread, htag⟩ := bits_xor_two h1
  have hwrite := itest_writeTag rfl rfl h2 h1 hon
  generalize s.itest c = u at hwrite ⊢
  have hon' : u.imc = true := by rw [hwrite, imc_setIset, hon]
  have hset : u.iset (itestPlace c) =
      ⟨(s.iset (itestPlace c)).lines.set (itestWay c).val (ilineOfView s.itestData0), (s.iset (itestPlace c)).recency⟩ := by
    rw [hwrite, iset_setIset hwf, if_pos rfl]
  rw [itest_readTag hplace hway (htag.trans h2) hread hon', hset]
  dsimp only
  rw [Vector.getElem_set_self, view_ilineOfView]

/-- A tag of the data cache written and read back (R236). -/
theorem dtest_tag_readBack {s : State} {c : Word} (h1 : bitAt c 1 = true) (h2 : bitAt c 2 = false)
    (hbank : s.bankIsCache (dtestPlace c).bank = true) (hwf : sparseWf DSet.empty s.dcache = true) :
    ((s.dtestData c).dtestData (c ^^^ 2)).dtestData0 = s.dtestData0 &&& 0xFFFFC807 := by
  obtain ⟨-, -, -, hplace, hway, -⟩ := places_xor_two c
  obtain ⟨hread, htag⟩ := bits_xor_two h1
  have hwrite := dtestData_writeTag rfl rfl hbank h2 h1
  generalize s.dtestData c = u at hwrite ⊢
  have hbank' : u.bankIsCache (dtestPlace c).bank = true := by rw [hwrite, bankIsCache_setDset, hbank]
  have hset : u.dset (dtestPlace c) =
      ⟨(s.dset (dtestPlace c)).lines.set (dtestWay c).val (dlineOfView s.dtestData0), bitAt s.dtestData0 2⟩ := by
    rw [hwrite, dset_setDset hwf, if_pos rfl]
  rw [dtestData_readTag hplace hway hbank' (htag.trans h2) hread, hset]
  dsimp only
  rw [Vector.getElem_set_self, dlineView_dlineOfView]

/-- The data arrays and L1 instruction SRAM written and read back (R196, R236, R238). -/
theorem test_data_readBack {s : State} {c : Word} (hm : s.memoryCanonical) (h1 : bitAt c 1 = true) :
    (bitAt c 2 = true →
      (({ s.itest c with itestData0 := 0, itestData1 := 0 }).itest (c ^^^ 2)).itestData0 = s.itestData0 ∧
      (({ s.itest c with itestData0 := 0, itestData1 := 0 }).itest (c ^^^ 2)).itestData1 = s.itestData1) ∧
    (bitAt c 2 = true → s.bankIsCache (dtestPlace c).bank = true →
      (({ s.dtestData c with dtestData0 := 0, dtestData1 := 0 }).dtestData (c ^^^ 2)).dtestData0 = s.dtestData0 ∧
      (({ s.dtestData c with dtestData0 := 0, dtestData1 := 0 }).dtestData (c ^^^ 2)).dtestData1 = s.dtestData1) ∧
    (({ s.dtestInstr c with dtestData0 := 0, dtestData1 := 0 }).dtestInstr (c ^^^ 2)).dtestData0 = s.dtestData0 ∧
    (({ s.dtestInstr c with dtestData0 := 0, dtestData1 := 0 }).dtestInstr (c ^^^ 2)).dtestData1 = s.dtestData1 := by
  obtain ⟨-, -, hicell, hplace, -, hdcell, hinstr⟩ := places_xor_two c
  obtain ⟨hread, hdata⟩ := bits_xor_two h1
  refine ⟨fun h2 => ?_, fun h2 hbank => ?_, ?_⟩
  · rw [itest_writeData h2 h1, itest_readData (hdata.trans h2) hread, hicell]
    exact words_of_testBytes hm _ _ _
  · rw [dtestData_writeData hbank h2 h1, dtestData_readData (by rw [hplace]; exact hbank) (hdata.trans h2) hread, hdcell]
    exact words_of_testBytes hm _ _ _
  · rw [dtestInstr_write h1, dtestInstr_read hread, hinstr]
    exact words_of_testBytes hm _ _ _

/-! ### The place that a stored command names -/

/-- A one-bit field as a number. -/
theorem extract_one_toNat (c : Word) (k : Nat) : (c.extractLsb' k 1).toNat = if bitAt c k then 1 else 0 := by
  have hbit : c.extractLsb' k 1 = BitVec.ofBool (bitAt c k) := by
    apply BitVec.eq_of_getLsbD_eq
    intro i hi
    have hi0 : i = 0 := by omega
    subst hi0
    simp [bitAt]
  rw [hbit]
  cases bitAt c k <;> rfl

/-- The bits that ITEST_COMMAND keeps of a command (R32). -/
theorem itest_pack_bits (c : Word) : bitAt (packItestCommand c) 1 = bitAt c 1 ∧ bitAt (packItestCommand c) 2 = bitAt c 2 :=
  ⟨bitAt_and c _ 1 (by decide), bitAt_and c _ 2 (by decide)⟩

/-- The set that a stored ITEST_COMMAND names (R32). -/
theorem itestPlace_pack (c : Word) :
    itestPlace (packItestCommand c) = ⟨(c.extractLsb' 16 2).toNat, (c.extractLsb' 5 5).toNat⟩ := by
  unfold itestPlace packItestCommand
  rw [fieldAt_and c _ 16 2 (by decide), fieldAt_and c _ 5 5 (by decide)]

/-- Its way. -/
theorem itestWay_pack (c : Word) : (itestWay (packItestCommand c)).val = (c.extractLsb' 26 2).toNat := by
  unfold itestWay packItestCommand
  rw [fieldAt_and c _ 26 2 (by decide)]
  exact Nat.mod_eq_of_lt (c.extractLsb' 26 2).isLt

/-- Its word (R196). -/
theorem itestCell_pack (c : Word) :
    itestCell (packItestCommand c) =
      BitVec.ofNat 32 (0xFFA10000 + (c.extractLsb' 16 2).toNat * 0x1000 + (c.extractLsb' 26 2).toNat * 0x400 +
        (c.extractLsb' 5 5).toNat * 0x20 + (c.extractLsb' 3 2).toNat * 8) := by
  have hword : fieldAt (packItestCommand c) 3 2 = (c.extractLsb' 3 2).toNat := fieldAt_and c _ 3 2 (by decide)
  unfold itestCell IPlace.cells
  rw [itestPlace_pack, itestWay_pack, hword, ← BitVec.ofNat_add, Nat.mul_comm 8]

/-- The bits that DTEST_COMMAND keeps of a command (R42). -/
theorem dtest_pack_bits (c : Word) :
    bitAt (packDtestCommand c) 1 = bitAt c 1 ∧ bitAt (packDtestCommand c) 2 = bitAt c 2 ∧
    bitAt (packDtestCommand c) 14 = bitAt c 14 ∧ bitAt (packDtestCommand c) 23 = bitAt c 23 ∧
    bitAt (packDtestCommand c) 24 = bitAt c 24 ∧ bitAt (packDtestCommand c) 26 = bitAt c 26 :=
  ⟨bitAt_and c _ 1 (by decide), bitAt_and c _ 2 (by decide), bitAt_and c _ 14 (by decide), bitAt_and c _ 23 (by decide),
    bitAt_and c _ 24 (by decide), bitAt_and c _ 26 (by decide)⟩

/-- The set that a stored DTEST_COMMAND names (R42). -/
theorem dtestPlace_pack (c : Word) :
    dtestPlace (packDtestCommand c) =
      ⟨if bitAt c 23 then .bankB else .bankA, (c.extractLsb' 16 2).toNat, (c.extractLsb' 5 6).toNat⟩ := by
  obtain ⟨-, -, -, h23, -, -⟩ := dtest_pack_bits c
  unfold dtestPlace
  rw [h23]
  unfold packDtestCommand
  rw [fieldAt_and c _ 16 2 (by decide), fieldAt_and c _ 5 6 (by decide)]

/-- Its way. -/
theorem dtestWay_pack (c : Word) : (dtestWay (packDtestCommand c)).val = (c.extractLsb' 26 1).toNat := by
  obtain ⟨-, -, -, -, -, h26⟩ := dtest_pack_bits c
  unfold dtestWay
  rw [h26, extract_one_toNat]
  cases bitAt c 26 <;> rfl

/-- Its word in a data bank (R236). -/
theorem dtestCell_pack (c : Word) :
    dtestCell (packDtestCommand c) =
      BitVec.ofNat 32 ((if bitAt c 23 then 0xFF904000 else 0xFF804000) + (c.extractLsb' 16 2).toNat * 0x1000 +
        (c.extractLsb' 26 1).toNat * 0x800 + (c.extractLsb' 5 6).toNat * 0x20 + (c.extractLsb' 3 2).toNat * 8) := by
  have hword : fieldAt (packDtestCommand c) 3 2 = (c.extractLsb' 3 2).toNat := fieldAt_and c _ 3 2 (by decide)
  unfold dtestCell DPlace.cells
  rw [dtestPlace_pack, dtestWay_pack, hword, ← BitVec.ofNat_add, Nat.mul_comm 8]
  cases bitAt c 23 <;> rfl

/-- Its word in L1 instruction SRAM (R236). -/
theorem dtestInstrAddr_pack (c : Word) :
    dtestInstrAddr (packDtestCommand c) =
      BitVec.ofNat 32 ((if bitAt c 23 then 0xFFA08000 else 0xFFA00000) + (c.extractLsb' 14 1).toNat * 0x4000 +
        (c.extractLsb' 16 2).toNat * 0x1000 + (c.extractLsb' 26 1).toNat * 0x800 + (c.extractLsb' 5 6).toNat * 0x20 +
        (c.extractLsb' 3 2).toNat * 8) := by
  obtain ⟨-, -, -, h23, -, -⟩ := dtest_pack_bits c
  unfold dtestInstrAddr
  rw [h23]
  unfold packDtestCommand
  rw [fieldAt_and c _ 14 1 (by decide), fieldAt_and c _ 16 2 (by decide), fieldAt_and c _ 26 1 (by decide),
    fieldAt_and c _ 5 6 (by decide), fieldAt_and c _ 3 2 (by decide)]

/-- A write of DTEST_COMMAND reaches instruction SRAM or the data cache by bit 24 (R236). -/
theorem writeMmr_dtestCommand (s : State) {c : Word} (h : dtestReserved (packDtestCommand c) = false) :
    s.writeMmr .dtestCommand c =
      if bitAt c 24 then ({ s with dtestCommand := packDtestCommand c } : State).dtestInstr (packDtestCommand c)
      else ({ s with dtestCommand := packDtestCommand c } : State).dtestData (packDtestCommand c) := by
  obtain ⟨-, -, -, -, h24, -⟩ := dtest_pack_bits c
  show State.dtest _ _ = _
  unfold State.dtest
  rw [h, if_neg Bool.false_ne_true, h24]

/-- Settles O51: each command by its array, the place from the raw fields. -/
theorem testWriteThenRead : Obligations.TestWriteThenRead := by
  intro s c hm
  have hitest : s.writeMmr .itestCommand c =
      ({ s with itestCommand := packItestCommand c } : State).itest (packItestCommand c) := rfl
  obtain ⟨hi1, hi2⟩ := itest_pack_bits c
  obtain ⟨hd1, hd2, hd14, -, hd24, -⟩ := dtest_pack_bits c
  refine ⟨fun h1 => ⟨itest_tag_readBack h1, dtest_tag_readBack h1, test_data_readBack hm h1⟩,
    fun a h2 ha => ⟨_, hitest, fun h1 => ?_, fun h1 => ?_⟩, fun a h2 ha => ⟨_, rfl, fun h1 => ?_, fun h1 => ?_⟩,
    fun pl w h2 hon hwf hpl hw => ⟨_, hitest, fun h1 => ?_, fun h1 => ?_⟩,
    fun pl w h2 h24 h14 hwf hbank hpl hw => ⟨_, rfl, fun h1 => ?_, fun h1 => ?_⟩⟩
  · rw [itest_writeData (hi2.trans h2) (hi1.trans h1), itestCell_pack, ← ha]
    exact ⟨rfl, writeBytes_eight hm a _ _⟩
  · rw [itest_readData (hi2.trans h2) (hi1.trans h1), itestCell_pack, ← ha]
  · rcases ha with ⟨h24, ha⟩ | ⟨h24, h14, hbank, ha⟩
    · rw [writeMmr_dtestCommand s (by simp [dtestReserved, hd24, h24, hd2, h2]), if_pos h24,
        dtestInstr_write (hd1.trans h1), dtestInstrAddr_pack, ← ha]
      exact ⟨rfl, writeBytes_eight hm a _ _⟩
    · rw [writeMmr_dtestCommand s (by simp [dtestReserved, hd24, h24, hd14, h14]), if_neg (by simp [h24]),
        dtestData_writeData (by rw [dtestPlace_pack]; exact hbank) (hd2.trans h2) (hd1.trans h1), dtestCell_pack, ← ha]
      exact ⟨rfl, writeBytes_eight hm a _ _⟩
  · rcases ha with ⟨h24, ha⟩ | ⟨h24, h14, hbank, ha⟩
    · rw [writeMmr_dtestCommand s (by simp [dtestReserved, hd24, h24, hd2, h2]), if_pos h24,
        dtestInstr_read (hd1.trans h1), dtestInstrAddr_pack, ← ha]
    · rw [writeMmr_dtestCommand s (by simp [dtestReserved, hd24, h24, hd14, h14]), if_neg (by simp [h24]),
        dtestData_readData (by rw [dtestPlace_pack]; exact hbank) (hd2.trans h2) (hd1.trans h1), dtestCell_pack, ← ha]
  · have hway : itestWay (packItestCommand c) = w := Fin.ext ((itestWay_pack c).trans hw.symm)
    have hplace : itestPlace (packItestCommand c) = pl := (itestPlace_pack c).trans hpl.symm
    rw [itest_writeTag (s := { s with itestCommand := packItestCommand c }) hplace hway (hi2.trans h2) (hi1.trans h1) hon]
    have hset (q : IPlace) := iset_setIset (s := { s with itestCommand := packItestCommand c }) hwf pl q
      ⟨(s.iset pl).lines.set w.val (ilineOfView s.itestData0), (s.iset pl).recency⟩
    exact ⟨rfl, (hset pl).trans (if_pos rfl), fun q hq => (hset q).trans (if_neg hq)⟩
  · have hway : itestWay (packItestCommand c) = w := Fin.ext ((itestWay_pack c).trans hw.symm)
    have hplace : itestPlace (packItestCommand c) = pl := (itestPlace_pack c).trans hpl.symm
    rw [itest_readTag (s := { s with itestCommand := packItestCommand c }) hplace hway (hi2.trans h2) (hi1.trans h1) hon]
    exact ⟨rfl, _, rfl, ILine.view_fields _⟩
  · have hway : dtestWay (packDtestCommand c) = w := Fin.ext ((dtestWay_pack c).trans hw.symm)
    have hplace : dtestPlace (packDtestCommand c) = pl := (dtestPlace_pack c).trans hpl.symm
    rw [writeMmr_dtestCommand s (by simp [dtestReserved, hd24, h24, hd14, h14]), if_neg (by simp [h24]),
      dtestData_writeTag (s := { s with dtestCommand := packDtestCommand c }) hplace hway hbank (hd2.trans h2) (hd1.trans h1)]
    have hset (q : DPlace) := dset_setDset (s := { s with dtestCommand := packDtestCommand c }) hwf pl q
      ⟨(s.dset pl).lines.set w.val (dlineOfView s.dtestData0), bitAt s.dtestData0 2⟩
    exact ⟨rfl, (hset pl).trans (if_pos rfl), fun q hq => (hset q).trans (if_neg hq)⟩
  · have hway : dtestWay (packDtestCommand c) = w := Fin.ext ((dtestWay_pack c).trans hw.symm)
    have hplace : dtestPlace (packDtestCommand c) = pl := (dtestPlace_pack c).trans hpl.symm
    rw [writeMmr_dtestCommand s (by simp [dtestReserved, hd24, h24, hd14, h14]), if_neg (by simp [h24]),
      dtestData_readTag (s := { s with dtestCommand := packDtestCommand c }) hplace hway hbank (hd2.trans h2) (hd1.trans h1)]
    exact ⟨rfl, _, rfl, dlineView_fields _ _⟩

end Sys2Proof.Machine
end
